-- ==== Sys2Proof/Word.lean ====
section
/-! DEFINITION. The word types of the block: the 8-bit byte of a buffer cell, the 16-bit word of the sample
buffers and operand registers, the 32-bit word of the command port and of the wide registers, and the complex
int16 sample. Arithmetic that a rule of the spec defines stands in Machine/Arith.lean. -/

namespace Sys2Proof

/-- One byte of a buffer as a byte-addressed host bus sees it (R105). -/
abbrev Byte := BitVec 8

/-- A 16-bit word: a word of IN0, IN1, OUT_I, OUT_Q and CAP (R100), an int16 or u16 register (R42-R50). -/
abbrev Half := BitVec 16

/-- A 32-bit word: a command word (R130), a word of REG (R72), an int32 or u32 register (R55, R56, R68). -/
abbrev Word := BitVec 32

/-- A complex int16 sample (re, im), also written (I, Q) (R28). -/
structure Sample where
  /-- The real part, the I rail. -/
  re : Half
  /-- The imaginary part, the Q rail. -/
  im : Half
deriving DecidableEq, Repr

/-- The sample (0, 0). -/
def Sample.zero : Sample := ⟨0, 0⟩

/-- The sample with its real and imaginary parts exchanged, as the inverse transform uses it (R262). -/
def Sample.swap (z : Sample) : Sample := ⟨z.im, z.re⟩

end Sys2Proof
end

