-- ==== Sys2Proof/Config.lean ====
section
/-! DEFINITION. What one implementation of the block fixes: the parameters and tables of 00_scope.md R9-R13
and R20, which the spec makes arguments of the model, with their constraints, the constants the spec fixes for
every implementation, the reference profiles REF and TST, and the free values (opaque constants with no body)
that stand where the spec gives a draw. -/

namespace Sys2Proof

/-! ## Constants the spec fixes for every implementation -/

namespace Config

/-- HB1_L, the tap buffer length of half-band stage 1 (R11). -/
def hb1L : Nat := 32
/-- HB2_L, the tap buffer length of half-band stage 2 (R11). -/
def hb2L : Nat := 64
/-- HB_SHIFT, the half-band normalization shift (R11). -/
def hbShift : Nat := 15
/-- MIX_SHIFT, the right-shift after the rotator multiply (R10). -/
def mixShift : Nat := 15
/-- PHASE_BITS, the width of the phase accumulator (R10). -/
def phaseBits : Nat := 32
/-- NR_MIN_BIN, the lowest bin index that noise reduction touches inside a frame (R12). -/
def nrMinBin : Nat := 4
/-- GAIN_BITS, the fraction bits of the noise-reduction gain (R12). -/
def gainBits : Nat := 15
/-- NOTCH_EDGE, the distance from a spectral edge inside which no notch is placed (R12). -/
def notchEdge : Nat := 3
/-- The highest S-level selector of the squelch (R13). -/
def sqMaxLevel : Nat := 12
/-- The number of words of the REG space (R72, R100). -/
def regSize : Nat := 64

end Config

/-! ## Parameters -/

/-- BASE(space): where the platform puts each of the six spaces in the host's system address map (R104). -/
structure Bases where
  reg  : Nat
  in0  : Nat
  in1  : Nat
  outI : Nat
  outQ : Nat
  cap  : Nat
deriving DecidableEq, Repr

/-- SQ_THRESH(L, ·) for one S-level L, as plain data (R13). Every function of a u16 reference has the second form;
the first is the shorter way to write the rows of R302's table (entry 19). -/
inductive LevelThreshold where
  /-- asr(s9 · mult, shift). -/
  | scaled (mult shift : Nat)
  /-- The threshold of each reference value, in the order 0, 1, ..., 65535. -/
  | listed (values : List Nat)
deriving DecidableEq, Repr

/-- A listed row has an entry for every u16 reference, and every threshold is below 2^32. DESIGN CHOICE (entry 19): R13
and R302 put no bound on a threshold that is not REF's; the model takes only rows whose values SQ_THRESHOLD, a u32
(R68), can hold. -/
def LevelThreshold.wf : LevelThreshold → Bool
  | .scaled mult shift => decide (65535 * mult / 2 ^ shift < 2 ^ 32)
  | .listed values => decide (values.length = 65536) && values.all fun v => decide (v < 2 ^ 32)

/-- The parameters and tables of one implementation (R9-R13, R20). NR_ADAPT_LEN is the length of `nrAdapt`, and
the lengths K1, K2 are the lengths of the kernels. SQ_THRESH (R13) is one `LevelThreshold` for each S-level. -/
structure Params where
  /-- ADC_BITS, the width of an unsigned raw ADC code (R9). -/
  adcBits : Nat
  /-- IN_BUF_SIZE, the words in each of IN0 and IN1 (R9). -/
  inBufSize : Nat
  /-- OUT_MAX, the complex samples that OUT_I and OUT_Q hold (R9). -/
  outMax : Nat
  /-- CIC_R, the decimation factor R (R10). -/
  cicR : Nat
  /-- CIC_EXTRA_BITS, the headroom bits subtracted from the growth shift (R10). -/
  cicExtraBits : Nat
  /-- DC_SHIFT, the shift k of the DC tracker (R10). -/
  dcShift : Nat
  /-- LUT_BITS, log2 of the sine and cosine table length (R10). -/
  lutBits : Nat
  /-- HB1_K, the kernel of half-band stage 1 (R11). -/
  hb1K : List Int
  /-- HB2_K, the kernel of half-band stage 2 (R11). -/
  hb2K : List Int
  /-- FFT_N, the forward transform length N (R12). -/
  fftN : Nat
  /-- DROOP_SHIFT, the fraction bits of a droop table entry (R12). -/
  droopShift : Nat
  /-- NR_NOISE_RISE, the step by which a noise estimate rises per update (R12). -/
  nrNoiseRise : Nat
  /-- NOTCH_MAX, the maximum of the auto-notch hysteresis counter (R12). -/
  notchMax : Nat
  /-- COS_LUT (R20). -/
  cosLut : List Int
  /-- SIN_LUT (R20). -/
  sinLut : List Int
  /-- WINDOW (R20). -/
  window : List Int
  /-- TW_COS (R20). -/
  twCos : List Int
  /-- TW_SIN (R20). -/
  twSin : List Int
  /-- DROOP (R20, R213). -/
  droop : List Int
  /-- NR_ADAPT (R20, R225). -/
  nrAdapt : List Nat
  /-- SQ_THRESH (R13, R302): entry L is the function SQ_THRESH(L, ·). -/
  sqLevels : List LevelThreshold
  /-- BASE(space) (R104). -/
  base : Bases
deriving DecidableEq, Repr

namespace Params

/-- H = N/2, the inverse transform length and the frame length (R12). -/
def half (p : Params) : Nat := p.fftN / 2

/-- Q4 = N/4, the output samples per frame (R12). -/
def quarter (p : Params) : Nat := p.fftN / 4

/-- The constraints of R9. -/
def wfSample (p : Params) : Bool :=
  decide (2 ≤ p.adcBits) && decide (p.adcBits ≤ 16) && decide (p.inBufSize % 2 = 0) &&
  decide (2 ≤ p.inBufSize) && decide (p.inBufSize ≤ 65534) && decide (1 ≤ p.outMax) && decide (p.outMax ≤ 65535)

/-- The constraints of R10. The smallest e with R ≤ 2^e is ceil(log2 R). -/
def wfCic (p : Params) : Bool :=
  decide (2 ≤ p.cicR) && decide (p.cicR ≤ 65535) && decide (p.cicExtraBits ≤ 4 * (Nat.log2 (p.cicR - 1) + 1)) &&
  decide (p.dcShift ≤ 15) && decide (1 ≤ p.lutBits) && decide (p.lutBits ≤ 16)

/-- The constraints of R11 on a kernel `h` for a tap buffer of length `l`: odd length at most `l`, symmetric,
half-band about its centre, DC gain 32768, absolute sum at most 65535, int16 entries. -/
def wfKernel (l : Nat) (h : List Int) : Bool :=
  decide (h.length % 2 = 1) && decide (h.length ≤ l) && decide (h.reverse = h) &&
  ((List.range h.length).all fun k =>
    decide (k = (h.length - 1) / 2) || decide ((k + (h.length - 1) / 2) % 2 = 1) || decide (h.getD k 0 = 0)) &&
  decide (h.sum = 32768) && decide ((h.map Int.natAbs).sum ≤ 65535) &&
  h.all fun c => decide (-32768 ≤ c) && decide (c ≤ 32767)

/-- The constraints of R12. -/
def wfFft (p : Params) : Bool :=
  decide (p.fftN = 2 ^ Nat.log2 p.fftN) && decide (16 ≤ p.fftN) && decide (p.fftN ≤ 4096) &&
  decide (p.droopShift ≤ 15) && decide (p.nrNoiseRise ≤ 65535) && decide (1 ≤ p.nrAdapt.length) &&
  decide (p.nrAdapt.length ≤ 256) && decide (1 ≤ p.notchMax) && decide (p.notchMax ≤ 65535)

/-- Every entry of a table lies in [lo, hi]. -/
def inRange (lo hi : Int) (t : List Int) : Bool := t.all fun x => decide (lo ≤ x) && decide (x ≤ hi)

/-- The lengths and entry ranges of R20. -/
def wfTables (p : Params) : Bool :=
  decide (p.cosLut.length = 2 ^ p.lutBits) && inRange (-32768) 32767 p.cosLut &&
  decide (p.sinLut.length = 2 ^ p.lutBits) && inRange (-32768) 32767 p.sinLut &&
  decide (p.window.length = p.fftN) && inRange 0 32767 p.window &&
  decide (p.twCos.length = p.fftN / 2) && inRange (-32768) 32767 p.twCos &&
  decide (p.twSin.length = p.fftN / 2) && inRange (-32768) 32767 p.twSin &&
  decide (p.droop.length = p.fftN / 2 + 1) && inRange 0 32767 p.droop &&
  p.nrAdapt.all fun x => decide (1 ≤ x) && decide (x ≤ 65535)

/-- SQ_THRESH has one row for each S-level 0..12 (R13). That each row's thresholds are below 2^32 is the model's own
bound, which neither R13 nor R302 states (DESIGN CHOICE, entry 19). -/
def wfSquelch (p : Params) : Bool :=
  decide (p.sqLevels.length = Config.sqMaxLevel + 1) && p.sqLevels.all LevelThreshold.wf

/-- Every constraint of R9-R13 and R20, and the bound of entry 19: the parameters are those of a block of this spec. -/
def wf (p : Params) : Bool :=
  p.wfSample && p.wfCic && wfKernel Config.hb1L p.hb1K && wfKernel Config.hb2L p.hb2K && p.wfFft && p.wfTables &&
  p.wfSquelch

end Params

/-! ## The REF tables of R20, R21 and R213

The entries are the exact real values of the generators, rounded half away from zero; they were computed outside
Lean in 60-digit decimal arithmetic, and no value came nearer to an exact half than 0.001 except where the value
is an exact half (DEDUCED, entry 3). -/

namespace Config

/-- Entries 0 to 31 of `refCosQuarter`. -/
def refCosQuarter0 : List Int := [
  32767, 32766, 32765, 32761, 32757, 32752, 32745, 32737, 32728, 32717, 32705, 32692, 32678, 32663, 32646, 32628,
  32609, 32589, 32567, 32545, 32521, 32495, 32469, 32441, 32412, 32382, 32351, 32318, 32285, 32250, 32213, 32176]

/-- Entries 32 to 63 of `refCosQuarter`. -/
def refCosQuarter1 : List Int := [
  32137, 32098, 32057, 32014, 31971, 31926, 31880, 31833, 31785, 31736, 31685, 31633, 31580, 31526, 31470, 31414,
  31356, 31297, 31237, 31176, 31113, 31050, 30985, 30919, 30852, 30783, 30714, 30643, 30571, 30498, 30424, 30349]

/-- Entries 64 to 95 of `refCosQuarter`. -/
def refCosQuarter2 : List Int := [
  30273, 30195, 30117, 30037, 29956, 29874, 29791, 29706, 29621, 29534, 29447, 29358, 29268, 29177, 29085, 28992,
  28898, 28803, 28706, 28609, 28510, 28411, 28310, 28208, 28105, 28001, 27896, 27790, 27683, 27575, 27466, 27356]

/-- Entries 96 to 127 of `refCosQuarter`. -/
def refCosQuarter3 : List Int := [
  27245, 27133, 27019, 26905, 26790, 26674, 26556, 26438, 26319, 26198, 26077, 25955, 25832, 25708, 25582, 25456,
  25329, 25201, 25072, 24942, 24811, 24680, 24547, 24413, 24279, 24143, 24007, 23870, 23731, 23592, 23452, 23311]

/-- Entries 128 to 159 of `refCosQuarter`. -/
def refCosQuarter4 : List Int := [
  23170, 23027, 22884, 22739, 22594, 22448, 22301, 22154, 22005, 21856, 21705, 21554, 21403, 21250, 21096, 20942,
  20787, 20631, 20475, 20317, 20159, 20000, 19841, 19680, 19519, 19357, 19195, 19032, 18868, 18703, 18537, 18371]

/-- Entries 160 to 191 of `refCosQuarter`. -/
def refCosQuarter5 : List Int := [
  18204, 18037, 17869, 17700, 17530, 17360, 17189, 17018, 16846, 16673, 16499, 16325, 16151, 15976, 15800, 15623,
  15446, 15269, 15090, 14912, 14732, 14553, 14372, 14191, 14010, 13828, 13645, 13462, 13279, 13094, 12910, 12725]

/-- Entries 192 to 223 of `refCosQuarter`. -/
def refCosQuarter6 : List Int := [
  12539, 12353, 12167, 11980, 11793, 11605, 11417, 11228, 11039, 10849, 10659, 10469, 10278, 10087, 9896, 9704,
  9512, 9319, 9126, 8933, 8739, 8545, 8351, 8157, 7962, 7767, 7571, 7375, 7179, 6983, 6786, 6590]

/-- Entries 224 to 256 of `refCosQuarter`. -/
def refCosQuarter7 : List Int := [
  6393, 6195, 5998, 5800, 5602, 5404, 5205, 5007, 4808, 4609, 4410, 4210, 4011, 3811, 3612, 3412,
  3212, 3012, 2811, 2611, 2410, 2210, 2009, 1809, 1608, 1407, 1206, 1005, 804, 603, 402, 201,
  0]

/-- round(32767·cos(2πk/1024)) for 0 ≤ k ≤ 256: the first quarter wave of COS_LUT (R20, R21), entry 3. -/
def refCosQuarter : List Int :=
  refCosQuarter0 ++ refCosQuarter1 ++ refCosQuarter2 ++ refCosQuarter3 ++ refCosQuarter4 ++ refCosQuarter5 ++ refCosQuarter6 ++ refCosQuarter7

/-- Entries 0 to 31 of `refWindowHalf`. -/
def refWindowHalf0 : List Int := [
  0, 5, 20, 44, 79, 123, 177, 241, 315, 398, 491, 593, 705, 827, 958, 1098,
  1247, 1406, 1573, 1749, 1935, 2128, 2331, 2542, 2761, 2989, 3224, 3468, 3719, 3978, 4244, 4518]

/-- Entries 32 to 63 of `refWindowHalf`. -/
def refWindowHalf1 : List Int := [
  4799, 5086, 5381, 5682, 5990, 6304, 6624, 6950, 7281, 7618, 7961, 8308, 8660, 9017, 9379, 9744,
  10114, 10487, 10864, 11244, 11628, 12014, 12403, 12794, 13187, 13583, 13980, 14378, 14778, 15178, 15580, 15981]

/-- Entries 64 to 95 of `refWindowHalf`. -/
def refWindowHalf2 : List Int := [
  16384, 16786, 17187, 17589, 17989, 18389, 18787, 19184, 19580, 19973, 20364, 20753, 21139, 21523, 21903, 22280,
  22653, 23023, 23388, 23750, 24107, 24459, 24806, 25149, 25486, 25817, 26143, 26463, 26777, 27085, 27386, 27681]

/-- Entries 96 to 128 of `refWindowHalf`. -/
def refWindowHalf3 : List Int := [
  27968, 28249, 28523, 28789, 29048, 29299, 29543, 29778, 30006, 30225, 30436, 30639, 30832, 31018, 31194, 31361,
  31520, 31669, 31809, 31940, 32062, 32174, 32276, 32369, 32452, 32526, 32590, 32644, 32688, 32723, 32747, 32762,
  32767]

/-- round(32767·(1 − cos(2πn/256))/2) for 0 ≤ n ≤ 128: the rising half of WINDOW (R20, R21), entry 3. -/
def refWindowHalf : List Int :=
  refWindowHalf0 ++ refWindowHalf1 ++ refWindowHalf2 ++ refWindowHalf3

/-- Entries 0 to 31 of `refDroop`. -/
def refDroop0 : List Int := [
  16384, 16384, 16384, 16385, 16386, 16387, 16388, 16389, 16391, 16392, 16394, 16396, 16399, 16401, 16404, 16407,
  16410, 16414, 16417, 16421, 16425, 16429, 16434, 16438, 16443, 16448, 16453, 16459, 16465, 16470, 16477, 16483]

/-- Entries 32 to 63 of `refDroop`. -/
def refDroop1 : List Int := [
  16489, 16496, 16503, 16510, 16518, 16525, 16533, 16541, 16549, 16557, 16566, 16575, 16584, 16593, 16603, 16612,
  16622, 16632, 16643, 16653, 16664, 16675, 16686, 16697, 16709, 16721, 16733, 16745, 16758, 16771, 16783, 16797]

/-- Entries 64 to 95 of `refDroop`. -/
def refDroop2 : List Int := [
  16810, 16824, 16837, 16852, 16866, 16880, 16895, 16910, 16925, 16941, 16956, 16972, 16988, 17005, 17021, 17038,
  17055, 17072, 17090, 17108, 17126, 17144, 17162, 17181, 17200, 17219, 17238, 17258, 17278, 17298, 17318, 17339]

/-- Entries 96 to 128 of `refDroop`. -/
def refDroop3 : List Int := [
  17360, 17381, 17402, 17424, 17446, 17468, 17490, 17513, 17536, 17559, 17582, 17606, 17630, 17654, 17678, 17703,
  17728, 17753, 17778, 17804, 17830, 17856, 17883, 17910, 17937, 17964, 17992, 18020, 18048, 18076, 18105, 18134,
  18163]

/-- The REF DROOP table: min(32767, round(2^14 / Hcic(p))) for 0 ≤ p ≤ 128 (R213), entry 3. -/
def refDroop : List Int :=
  refDroop0 ++ refDroop1 ++ refDroop2 ++ refDroop3

/-- A quarter wave q[0..m] unfolded to the 4m entries of a cosine: cos(π − x) = −cos x and cos(2π − x) = cos x,
and rounding half away from zero commutes with the sign. The four parts are entries 0..m, m+1..2m, 2m+1..3m and
3m+1..4m−1. -/
def unfoldCos (q : List Int) : List Int :=
  q ++ q.dropLast.reverse.map (fun x => -x) ++ q.tail.map (fun x => -x) ++ q.tail.dropLast.reverse

/-- The sine of the same table: entry k is entry k + 3m modulo 4m of the cosine, since sin x = cos(x + 3π/2). -/
def unfoldSin (q : List Int) : List Int :=
  (unfoldCos q).drop (3 * (q.length - 1)) ++ (unfoldCos q).take (3 * (q.length - 1))

/-- The first `len` entries of `t` taken every `d`: the twiddle tables of length N/2 are the 1024-entry LUT at step 1024/N. -/
def everyNth (t : List Int) (d len : Nat) : List Int := (List.range len).map fun k => t.getD (d * k) 0

/-- REF COS_LUT: 1024 entries (R20). -/
def refCos : List Int := unfoldCos refCosQuarter
/-- REF SIN_LUT: 1024 entries (R20). -/
def refSin : List Int := unfoldSin refCosQuarter
/-- REF WINDOW: 256 entries; the Hann window is symmetric about n = 128 (R20). -/
def refWindow : List Int := refWindowHalf ++ refWindowHalf.tail.dropLast.reverse

/-- TK7, the test kernel of 95_test_vectors.md section 1. The spec gives HB1_K and HB2_K no REF value; the
model's reset profile takes this kernel for both (DESIGN CHOICE, entry 2). -/
def tk7 : List Int := [-1024, 0, 9216, 16384, 9216, 0, -1024]

/-- REF SQ_THRESH for L = 0..12 (R302). -/
def refSqLevels : List LevelThreshold :=
  [.scaled 1 9, .scaled 1 8, .scaled 1 7, .scaled 1 6, .scaled 1 5, .scaled 1 4, .scaled 1 3, .scaled 1 2, .scaled 1 1,
   .scaled 1 0, .scaled 101 5, .scaled 10 0, .scaled 1011 5]

/-- The reference profile REF (R9-R13, R20) with TK7 for both kernels and the six spaces at bases of the model's
own, since the spec gives neither a value (DESIGN CHOICE, entry 2). -/
def ref : Params where
  adcBits := 12
  inBufSize := 4000
  outMax := 512
  cicR := 20
  cicExtraBits := 0
  dcShift := 10
  lutBits := 10
  hb1K := tk7
  hb2K := tk7
  fftN := 256
  droopShift := 14
  nrNoiseRise := 1
  notchMax := 16
  cosLut := refCos
  sinLut := refSin
  window := refWindow
  twCos := everyNth refCos 4 128
  twSin := everyNth refSin 4 128
  droop := refDroop
  nrAdapt := [4, 4, 3, 3, 2, 2, 1, 1]
  sqLevels := refSqLevels
  base := ⟨0, 0x10000, 0x20000, 0x30000, 0x40000, 0x50000⟩

/-- The test profile TST of 95_test_vectors.md section 1: REF with N = 16, NOTCH_MAX = 4 and the tables it lists. -/
def tst : Params :=
  { ref with
    fftN := 16
    notchMax := 4
    window := [0, 1247, 4799, 10114, 16384, 22653, 27968, 31520, 32767, 31520, 27968, 22653, 16384, 10114, 4799, 1247]
    twCos := [32767, 30273, 23170, 12539, 0, -12539, -23170, -30273]
    twSin := [0, 12539, 23170, 30273, 32767, 30273, 23170, 12539]
    droop := [16384, 16410, 16489, 16622, 16810, 17055, 17360, 17728, 18163] }

end Config

/-! ## Free values -/

/-- The four buffers that have no reset value (R121, R393): the input buffers and the output buffers. -/
inductive Buffer where
  /-- Input buffer IN0. -/
  | in0
  /-- Input buffer IN1. -/
  | in1
  /-- Output buffer OUT_I. -/
  | outI
  /-- Output buffer OUT_Q. -/
  | outQ
deriving DecidableEq, Repr

/-- The power-on byte of a buffer cell that nothing has written since power-on: a free value, one per buffer and
byte address, so the same on every read until the word is written (R121; 93 A1; entry 9). -/
opaque Config.powerOnByte : Buffer → Nat → Byte

/-- The outcome of a race draw (R113, R114; 93 A2, A3): how many of the running command's own word accesses come between
one host access and the next, a free value for each value of the draw counter (entries 6, 7, 8). -/
opaque Config.raceDraw : Nat → Nat

/-- The order in which one statement that assigns several words writes them: a free value for each value of the draw
counter, each such statement of a command and each of its words (R27; entry 27). -/
opaque Config.writeOrder : Nat → Nat → Nat → Nat

end Sys2Proof
end

