-- ==== Sys2Proof/Syntax.lean ====
section
/-! DEFINITION. The commands of the block: one constructor per row of spec/opcode_table.json (R133), with the
operands of R132 as typed fields, and the command errors of R361. -/

namespace Sys2Proof

/-- Which input buffer PROCESS_BLOCK reads: sel = 0 is IN0, sel = 1 is IN1 (R133, R339). -/
inductive InSel where
  | in0
  | in1
deriving DecidableEq, Repr

/-- Which sideband NR_BIN updates: sel = 0 is the positive side, sel = 1 the negative side (R133, R230). -/
inductive Side where
  | pos
  | neg
deriving DecidableEq, Repr

/-- The three command errors of R361. -/
inductive CmdError where
  /-- Code 1: W[31:24] is not in the opcode map (R134). -/
  | illegalOpcode
  /-- Code 2: a bit that the command's format marks 0 is 1 (R131). -/
  | reservedField
  /-- Code 3: an operand outside its legal range (R134). -/
  | operandRange
deriving DecidableEq, Repr

/-- A command (R133). Sixteen-bit operands are the bits W[15:0]; whether they are read as signed or unsigned is
the business of the meaning (R132). -/
inductive Instr where
  /-- NOP (R331). -/
  | nop
  /-- SOFT_RESET (R332). -/
  | softReset
  /-- SETI v (R333). -/
  | seti (v : Half)
  /-- SETQ v (R334). -/
  | setq (v : Half)
  /-- CFG_WRITE f, v (R335). -/
  | cfgWrite (f : BitVec 8) (v : Half)
  /-- CFG_PUBLISH (R337). -/
  | cfgPublish
  /-- CLR_ERR (R338). -/
  | clrErr
  /-- PROCESS_BLOCK sel, n (R339). -/
  | processBlock (sel : InSel) (n : Half)
  /-- CIC_STEP r (R171). -/
  | cicStep (r : Half)
  /-- HB1_STEP (R196). -/
  | hb1Step
  /-- HB2_STEP (R197). -/
  | hb2Step
  /-- DROOP b (R214). -/
  | droop (b : Half)
  /-- NR_BIN sel, b (R230). -/
  | nrBin (side : Side) (b : Half)
  /-- FFT_PUSH (R265). -/
  | fftPush
  /-- SQ_INIT t (R304). -/
  | sqInit (t : Half)
  /-- SQ_ENABLE L (R305). -/
  | sqEnable (l : Half)
  /-- SQ_DISABLE (R306). -/
  | sqDisable
  /-- SQ_CALIBRATE v (R307). -/
  | sqCalibrate (v : Half)
  /-- SQ_SET_TIMEOUT t (R308). -/
  | sqSetTimeout (t : Half)
  /-- SQ_UPDATE s (R309). -/
  | sqUpdate (x : Half)
deriving DecidableEq, Repr

end Sys2Proof
end

