-- ==== Sys2Proof/WellFormed.lean ====
section
/-! DEFINITION. The legal operand ranges of the commands (R361, row OPERAND_RANGE). A command word with legal
opcode and reserved bits decodes whatever its operands are; a command whose operands this check refuses raises
OPERAND_RANGE (R134, R136). The ranges depend on the parameters of the block. -/

namespace Sys2Proof

/-- CIC_STEP: r < 2^ADC_BITS (R171). -/
def wfRawCode (p : Params) (r : Half) : Bool := decide (r.toNat < 2 ^ p.adcBits)

/-- NR_BIN: b < N/2 (R230). -/
def wfNrBin (p : Params) (b : Half) : Bool := decide (b.toNat < p.fftN / 2)

/-- CFG_WRITE: f ≤ 8, and for f = 6 the value has bits 15:5 zero (R335). -/
def wfCfgWrite (f : BitVec 8) (v : Half) : Bool :=
  decide (f.toNat ≤ 8) && (decide (f.toNat ≠ 6) || decide (v.toNat < 32))

/-- PROCESS_BLOCK: n even and at most IN_BUF_SIZE (R339). -/
def wfBlockLength (p : Params) (n : Half) : Bool := decide (n.toNat % 2 = 0) && decide (n.toNat ≤ p.inBufSize)

/-- SQ_ENABLE: L ≤ 12 (R305). -/
def wfLevel (l : Half) : Bool := decide (l.toNat ≤ Config.sqMaxLevel)

/-- Every operand of the command lies in its legal range (R361). The other commands accept every operand. -/
def Instr.wf (p : Params) : Instr → Bool
  | .nop => true
  | .softReset => true
  | .seti _ => true
  | .setq _ => true
  | .cfgWrite f v => wfCfgWrite f v
  | .cfgPublish => true
  | .clrErr => true
  | .processBlock _ n => wfBlockLength p n
  | .cicStep r => wfRawCode p r
  | .hb1Step => true
  | .hb2Step => true
  | .droop _ => true
  | .nrBin _ b => wfNrBin p b
  | .fftPush => true
  | .sqInit _ => true
  | .sqEnable l => wfLevel l
  | .sqDisable => true
  | .sqCalibrate _ => true
  | .sqSetTimeout _ => true
  | .sqUpdate _ => true

end Sys2Proof
end

