-- ==== Sys2Proof/Decode.lean ====
section
/-! DEFINITION. The decoder of a command word (R130-R136), total on every word and every list of bytes,
rejecting by name, and after it the encoder, written from the same opcode map. -/

namespace Sys2Proof

/-! ## Fields and formats -/

/-- op = W[31:24] (R130). -/
def opField (w : Word) : BitVec 8 := w.extractLsb' 24 8

/-- fld = W[23:16] (R130). -/
def fldField (w : Word) : BitVec 8 := w.extractLsb' 16 8

/-- imm = W[15:0] (R130). -/
def immField (w : Word) : Half := w.extractLsb' 0 16

/-- sel = W[16], as a bit (R132). -/
def selBit (fld : BitVec 8) : Bool := fld.getLsbD 0

/-- The four formats of R131. -/
inductive Format where
  /-- No operand: W[23:0] must be 0. -/
  | n
  /-- Immediate: W[23:16] must be 0. -/
  | i
  /-- Field and immediate: no reserved bit. -/
  | f
  /-- Selector and immediate: W[23:17] must be 0. -/
  | x
deriving DecidableEq, Repr

/-- Every bit that the format marks 0 is 0 (R131). -/
def reservedClear (fmt : Format) (fld : BitVec 8) (imm : Half) : Bool :=
  match fmt with
  | .n => decide (fld = 0) && decide (imm = 0)
  | .i => decide (fld = 0)
  | .f => true
  | .x => decide (fld.toNat < 2)

/-- The input buffer a sel bit selects (R339). -/
def InSel.ofBit (b : Bool) : InSel := if b then .in1 else .in0

/-- The sideband a sel bit selects (R230). -/
def Side.ofBit (b : Bool) : Side := if b then .neg else .pos

/-- The format of an opcode, or none for an unassigned one: the column "format" of the opcode map (R133, R134). -/
def formatOf (op : BitVec 8) : Option Format :=
  match op.toNat with
  | 0x00 => some .n
  | 0x01 => some .n
  | 0x02 => some .i
  | 0x03 => some .i
  | 0x04 => some .f
  | 0x05 => some .n
  | 0x06 => some .n
  | 0x07 => some .x
  | 0x10 => some .i
  | 0x11 => some .n
  | 0x12 => some .n
  | 0x13 => some .i
  | 0x14 => some .x
  | 0x15 => some .n
  | 0x20 => some .i
  | 0x21 => some .i
  | 0x22 => some .n
  | 0x23 => some .i
  | 0x24 => some .i
  | 0x25 => some .i
  | _ => none

/-- The command of an assigned opcode with its operands assembled (R132, R133); none for an unassigned one. -/
def instrOf (op : BitVec 8) (fld : BitVec 8) (imm : Half) : Option Instr :=
  match op.toNat with
  | 0x00 => some .nop
  | 0x01 => some .softReset
  | 0x02 => some (.seti imm)
  | 0x03 => some (.setq imm)
  | 0x04 => some (.cfgWrite fld imm)
  | 0x05 => some .cfgPublish
  | 0x06 => some .clrErr
  | 0x07 => some (.processBlock (InSel.ofBit (selBit fld)) imm)
  | 0x10 => some (.cicStep imm)
  | 0x11 => some .hb1Step
  | 0x12 => some .hb2Step
  | 0x13 => some (.droop imm)
  | 0x14 => some (.nrBin (Side.ofBit (selBit fld)) imm)
  | 0x15 => some .fftPush
  | 0x20 => some (.sqInit imm)
  | 0x21 => some (.sqEnable imm)
  | 0x22 => some .sqDisable
  | 0x23 => some (.sqCalibrate imm)
  | 0x24 => some (.sqSetTimeout imm)
  | 0x25 => some (.sqUpdate imm)
  | _ => none

/-- Decoding from the three fields of a command word, in the order of R136: the opcode, then the reserved bits.
The operand ranges, which depend on the parameters, are checked by each command's meaning. -/
def decodeFields (op : BitVec 8) (fld : BitVec 8) (imm : Half) : Except CmdError Instr :=
  match formatOf op, instrOf op fld imm with
  | some fmt, some ins => if reservedClear fmt fld imm then .ok ins else .error .reservedField
  | _, _ => .error .illegalOpcode

/-- The decoding procedure of R136 on a command word. -/
def decode (w : Word) : Except CmdError Instr := decodeFields (opField w) (fldField w) (immField w)

/-! ## Bytes -/

/-- The word whose bytes, lowest address first, are b0, b1, b2, b3: little-endian (R105). -/
def wordOfBytes (b0 b1 b2 b3 : Byte) : Word := b3 ++ b2 ++ b1 ++ b0

/-- The bytes of a word, lowest address first: little-endian (R105). -/
def bytesOfWord (w : Word) : List Byte :=
  [w.extractLsb' 0 8, w.extractLsb' 8 8, w.extractLsb' 16 8, w.extractLsb' 24 8]

/-- Why a list of bytes is no command. -/
inductive DecodeError where
  /-- Fewer than four bytes: a command is one whole 32-bit word (R106, R130). -/
  | shortCommand
  /-- The word raises a command error at decode (R136). -/
  | command (e : CmdError)
deriving DecidableEq, Repr

/-- Decodes the command at the head of a list of bytes and gives the bytes after it. -/
def decodeBytes : List Byte → Except DecodeError (Instr × List Byte)
  | b0 :: b1 :: b2 :: b3 :: rest =>
    match decode (wordOfBytes b0 b1 b2 b3) with
    | .ok ins => .ok (ins, rest)
    | .error e => .error (.command e)
  | _ => .error .shortCommand

/-- The command word of an opcode-table row whose `nbits` bits are `w`, the bits above being 0. -/
def tableWord (nbits w : Nat) : Word := BitVec.ofNat 32 (w % 2 ^ nbits)

/-- The instruction the decoder reads from an opcode-table row: the word is laid out as four bytes in the
hardware's byte order (R105) and given to the decoder. -/
def decodeTableWord (nbits w : Nat) : Option Instr :=
  match decodeBytes (bytesOfWord (tableWord nbits w)) with
  | .ok (ins, _) => some ins
  | .error _ => none

/-! ## Encoder -/

/-- The command word with the given fields (R130). -/
def packWord (op : BitVec 8) (fld : BitVec 8) (imm : Half) : Word := op ++ fld ++ imm

/-- The sel bit of an input buffer, in format X's fld byte (R131). -/
def InSel.fld : InSel → BitVec 8
  | .in0 => 0
  | .in1 => 1

/-- The sel bit of a sideband, in format X's fld byte (R131). -/
def Side.fld : Side → BitVec 8
  | .pos => 0
  | .neg => 1

/-- The command word of a command (R131, R133). -/
def encode : Instr → Word
  | .nop => packWord 0x00 0 0
  | .softReset => packWord 0x01 0 0
  | .seti v => packWord 0x02 0 v
  | .setq v => packWord 0x03 0 v
  | .cfgWrite f v => packWord 0x04 f v
  | .cfgPublish => packWord 0x05 0 0
  | .clrErr => packWord 0x06 0 0
  | .processBlock sel n => packWord 0x07 sel.fld n
  | .cicStep r => packWord 0x10 0 r
  | .hb1Step => packWord 0x11 0 0
  | .hb2Step => packWord 0x12 0 0
  | .droop b => packWord 0x13 0 b
  | .nrBin side b => packWord 0x14 side.fld b
  | .fftPush => packWord 0x15 0 0
  | .sqInit t => packWord 0x20 0 t
  | .sqEnable l => packWord 0x21 0 l
  | .sqDisable => packWord 0x22 0 0
  | .sqCalibrate v => packWord 0x23 0 v
  | .sqSetTimeout t => packWord 0x24 0 t
  | .sqUpdate x => packWord 0x25 0 x

/-- The bytes of a command as a byte-addressed bus carries them (R105). -/
def encodeBytes (ins : Instr) : List Byte := bytesOfWord (encode ins)

end Sys2Proof
end

