-- ==== Sys2Proof/Machine/State.lean ====
section
/-! DEFINITION. The state of the block as plain data: every state element of 10_state.md, the buffer spaces of
20_memory.md, the model's own fields, the state after reset, and the reasons a step can stop. -/

namespace Sys2Proof.Machine

/-! ## Why a step can stop -/

/-- The faults of the block: none. No datapath operation raises anything (R360), a command error is a next state
(R362), and an access outside a space reads 0 or does nothing (R104), so nothing stops the machine (entry 15). -/
inductive Fault
deriving DecidableEq, Repr

/-- The cases a step refuses. -/
inductive Refusal where
  /-- Raised by `exec` for an instruction that has no meaning yet; safe, because it stops. No arm uses it now. -/
  | notModelled (mnemonic : String)
  /-- FC_PRECONDITION: raised by NR_BIN and by a frame (FFT_PUSH, PROCESS_BLOCK) that runs while FC_ACTIVE is not
  well-formed (R53, R367; 93 X1). Safe: the spec itself gives the case no meaning and refuses it. -/
  | fcPrecondition
  /-- A host access that is narrower or wider than a word of its space or not aligned to one: raised by `step`
  (R106, R367; 93 X2). Safe: the spec itself gives the case no meaning and refuses it. -/
  | hostAccess
deriving DecidableEq, Repr

/-! ## Filter control -/

/-- One copy of the filter control (R50). -/
structure FilterControl where
  /-- Field 0: lowest pass bin. -/
  startBin : Half
  /-- Field 1: highest pass bin. -/
  stopBin : Half
  /-- Field 2: offset for droop correction, an int16. -/
  loBinOffset : Half
  /-- Field 3: smoothing shift of the noise-reduction signal estimate. -/
  noiseSmoothing : Half
  /-- Field 4: noise-reduction threshold; 0 selects the adaptive table. -/
  noiseThreshold : Half
  /-- Field 5: smoothing shift of the spectrum capture. -/
  spectrumSmoothing : Half
  /-- Field 6: the five flags of R51. -/
  flags : BitVec 5
  /-- Fields 7 and 8: mixer phase increment per tick. -/
  phaseStep : Word
deriving DecidableEq, Repr

/-- The reset value of both copies: all fields 0 (R50). -/
def FilterControl.zero : FilterControl := ⟨0, 0, 0, 0, 0, 0, 0, 0⟩

/-! ## CIC decimator -/

/-- Which rail the next tick feeds: 0 is I, 1 is Q (R55). -/
inductive Rail where
  | i
  | q
deriving DecidableEq, Repr

/-- Four int32 words indexed 0..3: the integrators or the comb delays of one rail (R56). -/
structure Quad where
  s0 : Word
  s1 : Word
  s2 : Word
  s3 : Word
deriving DecidableEq, Repr

/-- All four words 0. -/
def Quad.zero : Quad := ⟨0, 0, 0, 0⟩

/-- The state of the CIC decimator (R55, R56). -/
structure Cic where
  /-- DC, the DC tracker, int32. -/
  dc : Word
  /-- RAIL. -/
  rail : Rail
  /-- PHASE, the phase accumulator, u32. -/
  phase : Word
  /-- INT_I[0..3]. -/
  intI : Quad
  /-- INT_Q[0..3]. -/
  intQ : Quad
  /-- DLY_I[0..3]. -/
  dlyI : Quad
  /-- DLY_Q[0..3]. -/
  dlyQ : Quad
  /-- DEC_CNT, u16: the ticks since the last decimated output. -/
  decCnt : Half
deriving DecidableEq, Repr

/-- Reset value of the CIC decimator (R391). -/
def Cic.reset : Cic := ⟨0, .i, 0, .zero, .zero, .zero, .zero, 0⟩

/-! ## Half-band stages -/

/-- The state of one half-band stage (R60). Element k of `buf` is the pair (HBs_BUF_I[k], HBs_BUF_Q[k]). -/
structure HalfBand where
  /-- HBs_BUF_I and HBs_BUF_Q, the circular tap buffer. -/
  buf : List Sample
  /-- HBs_PTR, the index the next input is written to. -/
  ptr : Nat
  /-- HBs_FILL, the inputs seen since reset, saturating at L. -/
  fill : Nat
deriving DecidableEq, Repr

/-- Reset value of a half-band stage with buffer length `l` (R391). -/
def HalfBand.reset (l : Nat) : HalfBand := ⟨List.replicate l .zero, 0, 0⟩

/-! ## FFT filter -/

/-- The noise-reduction estimates (R63). -/
structure NrEstimates where
  /-- SIG_POS[0..H−1], u32. -/
  sigPos : List Word
  /-- SIG_NEG[0..H−1], u32. -/
  sigNeg : List Word
  /-- NOISE_POS[0..H−1], u32. -/
  noisePos : List Word
  /-- NOISE_NEG[0..H−1], u32. -/
  noiseNeg : List Word
deriving DecidableEq, Repr

/-- Reset value of the estimates: SIG all 0, NOISE all 1 (R63, R391). -/
def NrEstimates.reset (h : Nat) : NrEstimates :=
  ⟨List.replicate h 0, List.replicate h 0, List.replicate h 1, List.replicate h 1⟩

/-- NONE = 0xFFFF, "no bin" (R65). -/
def noBin : Half := 0xFFFF

/-- The state of the FFT filter with the noise-reduction estimates, the capture buffer and the auto-notch
(R62-R65). Elements of the sample lists are the pairs (NAME_I[k], NAME_Q[k]). -/
structure Fft where
  /-- FRAME_I and FRAME_Q[0..H−1]. -/
  frame : List Sample
  /-- FRAME_FILL, the samples in the frame. -/
  frameFill : Nat
  /-- PREV_IN_I and PREV_IN_Q[0..H−1], the previous frame. -/
  prevIn : List Sample
  /-- PREV_OUT_I and PREV_OUT_Q[0..Q4−1], the second half of the previous inverse transform. -/
  prevOut : List Sample
  /-- SIG and NOISE. -/
  nr : NrEstimates
  /-- CAP[0..N−1], the spectrum capture, u16. -/
  cap : List Half
  /-- NOTCH_CNT, the hysteresis counter, u16. -/
  notchCnt : Half
  /-- PREV_PEAK, the peak of the previous frame or NONE. -/
  prevPeak : Half
  /-- PEAK_IDX, the peak of the last frame or NONE. -/
  peakIdx : Half
  /-- RUNNER_IDX, the runner-up of the last frame or NONE. -/
  runnerIdx : Half
deriving DecidableEq, Repr

/-- Reset value of the FFT filter (R391). -/
def Fft.reset (p : Params) : Fft where
  frame := List.replicate p.half .zero
  frameFill := 0
  prevIn := List.replicate p.half .zero
  prevOut := List.replicate p.quarter .zero
  nr := NrEstimates.reset p.half
  cap := List.replicate p.fftN 0
  notchCnt := 0
  prevPeak := noBin
  peakIdx := noBin
  runnerIdx := noBin

/-! ## Squelch -/

/-- SQ_MODE (R69), in the order of its numbers 0..7. -/
inductive SqMode where
  | disabled
  | enabled
  | rise
  | signalHi
  | fall
  | signalLo
  | timeout
  | unknown
deriving DecidableEq, Repr

/-- The squelch state (R68). -/
structure Squelch where
  /-- SQ_MODE, 3 bits. -/
  mode : SqMode
  /-- SQ_THRESHOLD, u32. -/
  threshold : Word
  /-- SQ_TIMEOUT, u16. -/
  timeout : Half
  /-- SQ_COUNT, u16. -/
  count : Half
  /-- SQ_S9, u16. -/
  s9 : Half
deriving DecidableEq, Repr

/-- Reset value of the squelch (R391). -/
def Squelch.reset : Squelch := ⟨.unknown, 0, 0, 0, 0⟩

/-! ## Buffer memory -/

/-- The written bytes of one buffer: (byte address, byte) pairs. Word a of the buffer is the bytes at 2a (bits
7:0) and 2a+1 (bits 15:8) (R105, entry 11). An address not listed has not been written since power-on. -/
abbrev Cells := List Host.Cell

/-- The buffer spaces IN0, IN1, OUT_I and OUT_Q (R100). -/
structure Memory where
  in0  : Cells
  in1  : Cells
  outI : Cells
  outQ : Cells
deriving DecidableEq, Repr

/-- Nothing written yet: the buffers at power-on (R393). -/
def Memory.empty : Memory := ⟨[], [], [], []⟩

/-- The addresses of a cell list rise strictly, so that no address is listed twice. -/
def Cells.wf : Cells → Bool
  | [] => true
  | [_] => true
  | (a, _) :: (b, v) :: rest => decide (a < b) && Cells.wf ((b, v) :: rest)

/-- The canonical form: every buffer's cells stand in strictly rising order of address. An unlisted address is
one that nothing has written, and no entry says "not written", so equal memories are equal data (entry 10). -/
def Memory.wf (m : Memory) : Bool := Cells.wf m.in0 && Cells.wf m.in1 && Cells.wf m.outI && Cells.wf m.outQ

/-! ## Host accesses -/

/-- The six host-visible address spaces (R100). -/
inductive Space where
  | reg
  | in0
  | in1
  | outI
  | outQ
  | cap
deriving DecidableEq, Repr

/-- What a host access does; a write carries its data, of which a 16-bit space uses bits 15:0. -/
inductive AccessKind where
  | read
  | write (v : Word)
deriving DecidableEq, Repr

/-- One host access to the block (R104, R106): word `addr` of `space`, `skew` bytes past the start of that word
and `width` bits wide. -/
structure HostAccess where
  space : Space
  addr : Nat
  skew : Nat
  width : Nat
  kind : AccessKind
deriving DecidableEq, Repr

/-- One entry of the host's queue: an access, and whether the host makes it while the command before it is still
running (BUSY = 1). A CMD write so marked is held until BUSY = 0 (R111; entries 4, 6). -/
structure HostOp where
  access : HostAccess
  overlap : Bool
deriving DecidableEq, Repr

/-! ## The state -/

/-- The state of the block. The last four fields and `par` are the model's own; see INVENTORY.md. -/
structure State where
  /-- The parameters and tables, the arguments of the model; no step changes them (R20, R41; entry 1). -/
  par : Params
  /-- D_I (R42). -/
  dI : Half
  /-- D_Q (R42). -/
  dQ : Half
  /-- RES_I (R43). -/
  resI : Half
  /-- RES_Q (R43). -/
  resQ : Half
  /-- RES_VALID (R43, R45). -/
  resValid : Bool
  /-- STATUS.BUSY (R45, R111). -/
  busy : Bool
  /-- STATUS.ERR (R45, R365). -/
  err : Bool
  /-- STATUS.ERR_CODE: none is code 0 (R45, R361). -/
  errCode : Option CmdError
  /-- STATUS.FC_CHANGED (R45, R50). -/
  fcChanged : Bool
  /-- STATUS.OVF (R45, R263). -/
  ovf : Bool
  /-- OUT_COUNT (R47). -/
  outCount : Half
  /-- FC_STAGED (R50). -/
  fcStaged : FilterControl
  /-- FC_ACTIVE (R50). -/
  fcActive : FilterControl
  /-- The CIC decimator (R55, R56). -/
  cic : Cic
  /-- Half-band stage 1 (R60). -/
  hb1 : HalfBand
  /-- Half-band stage 2 (R60). -/
  hb2 : HalfBand
  /-- The FFT filter (R62-R65). -/
  fft : Fft
  /-- The squelch (R68). -/
  sq : Squelch
  /-- The buffer spaces (R100). -/
  mem : Memory
  /-- The host accesses not yet carried out, oldest first (entry 4). -/
  pending : List HostOp
  /-- The host accesses made while the running command is busy (R113, R114; entry 6). -/
  overlap : List HostAccess
  /-- The words answered to host reads, oldest first (entry 12). -/
  replies : List Word
  /-- How many race draws have been taken (entry 8). -/
  draws : Nat
deriving DecidableEq, Repr

/-- The block with parameters `p` after power-on reset: RESET_STATE (R390, R391, R77), the four buffers unwritten
(R393), and nothing on the host's side. -/
def State.powerOn (p : Params) : State where
  par := p
  dI := 0
  dQ := 0
  resI := 0
  resQ := 0
  resValid := false
  busy := false
  err := false
  errCode := none
  fcChanged := false
  ovf := false
  outCount := 0
  fcStaged := .zero
  fcActive := .zero
  cic := .reset
  hb1 := .reset Config.hb1L
  hb2 := .reset Config.hb2L
  fft := .reset p
  sq := .reset
  mem := .empty
  pending := []
  overlap := []
  replies := []
  draws := 0

/-- The machine right after reset, with the REF profile (R9-R13, R20; entry 2). -/
def State.reset : State := State.powerOn Config.ref

end Sys2Proof.Machine
end

