-- ==== Sys2Proof/Machine/Arith.lean ====
section
/-! DEFINITION. The arithmetic primitives of R26 and the magnitude of R221, on mathematical integers; a result
is narrowed only where a rule says so. -/

namespace Sys2Proof.Machine

/-- asr(v, k) = floor(v / 2^k), rounding toward minus infinity (R26). -/
def asr (v : Int) (k : Nat) : Int := v / (2 ^ k : Nat)

/-- min(hi, max(lo, v)). -/
def clampInt (lo hi v : Int) : Int := min hi (max lo v)

/-- sat16(v) = min(32767, max(−32768, v)), as an int16 word (R26). -/
def sat16 (v : Int) : Half := BitVec.ofInt 16 (clampInt (-32768) 32767 v)

/-- wrap32(v): the int32 word congruent to v modulo 2^32 (R26). -/
def wrap32 (v : Int) : Word := BitVec.ofInt 32 v

/-- MAG(z) = max(|re|, |im|) + min(|re|, |im|)/4 (R221); |−32768| = 32768 (R26). -/
def mag (z : Sample) : Nat :=
  max z.re.toInt.natAbs z.im.toInt.natAbs + min z.re.toInt.natAbs z.im.toInt.natAbs / 4

/-- ceil(log2 r) for r ≥ 1 (R10). -/
def ceilLog2 (r : Nat) : Nat := if r ≤ 1 then 0 else Nat.log2 (r - 1) + 1

/-- The real product sample·factor shifted right by k, one component (R212, R227, R253). -/
def scaleAsr (v : Half) (g : Int) (k : Nat) : Int := asr (v.toInt * g) k

end Sys2Proof.Machine
end

