-- ==== Sys2Proof/Machine/Flags.lean ====
section
/-! DEFINITION. The STATUS register, its derived and stored bits, the flags of the filter control, and how a
command writes its result registers and RES_VALID. -/

namespace Sys2Proof.Machine

/-! ## Filter-control flags (R51) -/

/-- flags bit 0: lower_sideband_enabled. -/
def FilterControl.lowerSideband (fc : FilterControl) : Bool := fc.flags.getLsbD 0
/-- flags bit 1: upper_sideband_enabled. -/
def FilterControl.upperSideband (fc : FilterControl) : Bool := fc.flags.getLsbD 1
/-- flags bit 2: capture_enabled. -/
def FilterControl.captureEnabled (fc : FilterControl) : Bool := fc.flags.getLsbD 2
/-- flags bit 3: auto_notch_enabled. -/
def FilterControl.notchEnabled (fc : FilterControl) : Bool := fc.flags.getLsbD 3
/-- flags bit 4: noise_reduction_enabled. -/
def FilterControl.nrEnabled (fc : FilterControl) : Bool := fc.flags.getLsbD 4

/-- WF_FC(fc): start_bin ≤ stop_bin and both smoothing shifts at most 15 (R53). -/
def FilterControl.wf (fc : FilterControl) : Bool :=
  decide (fc.startBin.toNat ≤ fc.stopBin.toNat) && decide (fc.noiseSmoothing.toNat ≤ 15) &&
  decide (fc.spectrumSmoothing.toNat ≤ 15)

/-! ## STATUS (R45) -/

/-- The number of a squelch mode (R69). -/
def SqMode.code : SqMode → Nat
  | .disabled => 0
  | .enabled => 1
  | .rise => 2
  | .signalHi => 3
  | .fall => 4
  | .signalLo => 5
  | .timeout => 6
  | .unknown => 7

/-- SQ_OPEN: 0 iff SQ_MODE is ENABLED or TIMEOUT (R310). -/
def sqOpen (m : SqMode) : Bool := decide (m ≠ .enabled) && decide (m ≠ .timeout)

/-- The ERR_CODE field: 0 for no error, else the code of R361. -/
def errCodeBits : Option CmdError → Nat
  | none => 0
  | some .illegalOpcode => 1
  | some .reservedField => 2
  | some .operandRange => 3

/-- The 32-bit STATUS word (R45): BUSY, ERR, ERR_CODE in 5:2, FC_CHANGED, OVF, RES_VALID, SQ_OPEN; bits 31:10
read as 0. -/
def statusWord (s : State) : Word :=
  BitVec.ofNat 32
    (s.busy.toNat + 2 * s.err.toNat + 4 * errCodeBits s.errCode + 64 * s.fcChanged.toNat + 128 * s.ovf.toNat +
      256 * s.resValid.toNat + 512 * (sqOpen s.sq.mode).toNat)

/-! ## Result registers (R43) -/

/-- RES_VALID <- whether there is an output; RES_I, RES_Q <- the output if there is one, else unchanged (R43). -/
def State.withResult (s : State) (o : Option Sample) : State :=
  { s with
    resValid := o.isSome
    resI := (o.map Sample.re).getD s.resI
    resQ := (o.map Sample.im).getD s.resQ }

end Sys2Proof.Machine
end

