-- ==== Sys2Proof/Machine/Operands.lean ====
section
/-! DEFINITION. The operand forms of R132 and the operand range checks of R361. -/

namespace Sys2Proof.Machine

/-- simm = sext_16(W[15:0]) (R132): SETI, SETQ, DROOP. -/
def simm (v : Half) : Int := v.toInt

/-- uimm = zext_16(W[15:0]) (R132): every other immediate. -/
def uimm (v : Half) : Nat := v.toNat

/-- fld = zext_8(W[23:16]) (R132): CFG_WRITE. -/
def fldIndex (f : BitVec 8) : Nat := f.toNat

/-- The sample operand (D_I, D_Q) (R42, R132). -/
def dSample (s : State) : Sample := ⟨s.dI, s.dQ⟩

/-- CIC_STEP's range check: r < 2^ADC_BITS (R171). -/
def rawCodeInRange (p : Params) (r : Half) : Bool := decide (uimm r < 2 ^ p.adcBits)

/-- NR_BIN's range check: b < N/2 (R230). -/
def nrBinInRange (p : Params) (b : Half) : Bool := decide (uimm b < p.half)

/-- CFG_WRITE's range checks: f ≤ 8, and v[15:5] = 0 when f = 6 (R335). -/
def cfgWriteInRange (f : BitVec 8) (v : Half) : Bool :=
  decide (fldIndex f ≤ 8) && !(decide (fldIndex f = 6) && decide (uimm v / 32 ≠ 0))

/-- PROCESS_BLOCK's range check: n even and n ≤ IN_BUF_SIZE (R339). -/
def blockLengthInRange (p : Params) (n : Half) : Bool :=
  !(decide (uimm n % 2 ≠ 0) || decide (p.inBufSize < uimm n))

/-- SQ_ENABLE's range check: L ≤ 12 (R305). -/
def levelInRange (l : Half) : Bool := decide (uimm l ≤ Config.sqMaxLevel)

end Sys2Proof.Machine
end

