-- ==== Sys2Proof/Machine/Ops.lean ====
section
/-! DEFINITION. The shared operations: reads and writes of the buffer memory, raising a command error and
clearing it, the reset procedure, and the apply point. -/

namespace Sys2Proof.Machine

/-! ## Buffer memory -/

/-- The written byte at an address, or none if nothing has written it. -/
def Cells.find : Cells → Nat → Option Byte
  | [], _ => none
  | (b, v) :: rest, a => if b = a then some v else Cells.find rest a

/-- Writes a byte, keeping the addresses strictly rising. -/
def Cells.put : Cells → Nat → Byte → Cells
  | [], a, v => [(a, v)]
  | (b, w) :: rest, a, v =>
    if a < b then (a, v) :: (b, w) :: rest
    else if a = b then (a, v) :: rest
    else (b, w) :: Cells.put rest a v

/-- The cells of a buffer. -/
def Memory.cells (m : Memory) : Buffer → Cells
  | .in0 => m.in0
  | .in1 => m.in1
  | .outI => m.outI
  | .outQ => m.outQ

/-- The memory with one buffer's cells replaced. -/
def Memory.setCells (m : Memory) (b : Buffer) (c : Cells) : Memory :=
  match b with
  | .in0 => { m with in0 := c }
  | .in1 => { m with in1 := c }
  | .outI => { m with outI := c }
  | .outQ => { m with outQ := c }

/-- The byte at a byte address of a buffer: the byte written there, or, if nothing has been written since
power-on, the free value of R121. This is the ONE place that says what an unlisted address reads as (entry 9). -/
def Memory.readByte (m : Memory) (b : Buffer) (a : Nat) : Byte :=
  ((m.cells b).find a).getD (Config.powerOnByte b a)

/-- Writes one byte of a buffer. -/
def Memory.writeByte (m : Memory) (b : Buffer) (a : Nat) (v : Byte) : Memory :=
  m.setCells b ((m.cells b).put a v)

/-- MemRead of word a of a buffer: the byte at 2a is bits 7:0 (R27, R105). -/
def Memory.readWord (m : Memory) (b : Buffer) (a : Nat) : Half :=
  m.readByte b (2 * a + 1) ++ m.readByte b (2 * a)

/-- MemWrite of word a of a buffer (R27, R105). -/
def Memory.writeWord (m : Memory) (b : Buffer) (a : Nat) (v : Half) : Memory :=
  (m.writeByte b (2 * a) (v.extractLsb' 0 8)).writeByte b (2 * a + 1) (v.extractLsb' 8 8)

/-- Address x lies in the two bytes of word a. -/
def inWord (a x : Nat) : Bool := decide (x = 2 * a) || decide (x = 2 * a + 1)

/-! ## Command errors: the block's whole trap (R362, R366) -/

/-- raise CmdError(code): ERR_CODE takes the code only if ERR was 0, ERR becomes 1, the command ends and BUSY
becomes 0; nothing else changes (R362, R365). -/
def raiseCmdError (e : CmdError) (s : State) : State :=
  { s with errCode := if s.err then s.errCode else some e, err := true, busy := false }

/-- What CLR_ERR does: ERR, ERR_CODE and OVF become 0 (R338). There is no return from a trap (R366); this is the
only command besides SOFT_RESET that leaves the error status. -/
def clearError (s : State) : State := { s with err := false, errCode := none, ovf := false }

/-! ## Reset -/

/-- RESET_STATE(): every state element of 10_state.md takes its reset value; IN0, IN1, OUT_I and OUT_Q are not
touched (R391). The model's own fields are not state of the block and keep their values. -/
def resetState (s : State) : State :=
  { s with
    dI := 0
    dQ := 0
    resI := 0
    resQ := 0
    resValid := false
    busy := false
    err := false
    errCode := none
    fcChanged := false
    ovf := false
    outCount := 0
    fcStaged := .zero
    fcActive := .zero
    cic := .reset
    hb1 := .reset Config.hb1L
    hb2 := .reset Config.hb2L
    fft := .reset s.par
    sq := .reset }

/-! ## Apply point -/

/-- APPLY(): if FC_CHANGED = 1, FC_ACTIVE <- FC_STAGED, all fields at once, and FC_CHANGED <- 0 (R336). -/
def applyPoint (s : State) : State :=
  { s with fcActive := if s.fcChanged then s.fcStaged else s.fcActive, fcChanged := false }

end Sys2Proof.Machine
end

