-- ==== Sys2Proof/Machine/Interleave.lean ====
section
/-! DEFINITION. How a running command and the host accesses that overlap it interleave: the places of the host's
accesses among the command's own word accesses, the word a command's input read finds, and what the host sees of a
command part of whose accesses are done (R107, R111-R114). -/

namespace Sys2Proof.Machine

/-! ## The places of the host's accesses (R112) -/

/-- The places of the next n overlapping accesses, from draw d on, when the access before them stands at place p: each
comes at the same place or a later one, by a draw (R112; entries 6, 8). An access at place p is made when p of the
command's own word accesses are done, or all of them if there are fewer. -/
def placesFrom : Nat → Nat → Nat → List Nat
  | _, _, 0 => []
  | d, p, n + 1 => (p + Config.raceDraw d) :: placesFrom (d + 1) (p + Config.raceDraw d) n

/-- The accesses that overlap the running command, in the host's order, each with its place. -/
def placedOverlap (s : State) : List (HostAccess × Nat) :=
  s.overlap.zip (placesFrom s.draws 0 s.overlap.length)

/-! ## The input race (R113) -/

/-- The buffer that holds IN_sel. -/
def inputBuffer : InSel → Buffer
  | .in0 => .in0
  | .in1 => .in1

/-- The host space of IN_sel. -/
def inputSpace : InSel → Space
  | .in0 => .in0
  | .in1 => .in1

/-- The data of a host access that writes word a of a space, if it does. -/
def HostAccess.writesTo (acc : HostAccess) (sp : Space) (a : Nat) : Option Half :=
  match acc.kind with
  | .write v => if acc.space = sp ∧ acc.addr = a then some (v.extractLsb' 0 16) else none
  | .read => none

/-- The values that host writes overlapping the running command give word a of IN_sel, in order (R113). -/
def racingWrites (s : State) (sel : InSel) (a : Nat) : List Half :=
  s.overlap.filterMap fun acc => acc.writesTo (inputSpace sel) a

/-- Those of them that are made before the command makes its access number `now` (R112, R113). -/
def writesBefore (s : State) (sel : InSel) (a now : Nat) : List Half :=
  (placedOverlap s).filterMap fun e => (e.1.writesTo (inputSpace sel) a).filter fun _ => decide (e.2 ≤ now)

/-- MemRead(IN_sel, a) by a running command as its access number `now`: the word that the last host write before it
left, or, without one, the word in the buffer when the command began. A write after it has no effect on it (R101, R113;
entry 6). -/
def readInput (sel : InSel) (a now : Nat) (s : State) : Half :=
  (writesBefore s sel a now).getLastD (s.mem.readWord (inputBuffer sel) a)

/-! ## A command's own word accesses (R107, R112) -/

/-- One word access of a running command, as a change of the words that the host can read: a write of such a word, or,
for a read of an input word, no change. What a command writes elsewhere in the block no host access can see. -/
abbrev WordAccess := State → State

/-- The access that changes nothing the host can read: a read of an input word. -/
def inputRead : WordAccess := fun u => u

/-- What the host sees at place p of a command with these word accesses, from `u` on, that ends in `done` (R114). -/
def viewAt : List WordAccess → Nat → State → State → State
  | [], _, _, done => done
  | _ :: _, 0, u, _ => u
  | f :: fs, p + 1, u, done => viewAt fs p (f u) done

/-- The writes of one statement that assigns several words at once, in an order that is a draw: the rules order
statements (R27), not the words that one statement assigns (entry 27). `g` numbers the statements of a command. -/
def anyOrder (d g : Nat) : List WordAccess → List WordAccess
  | [] => []
  | f :: fs => (anyOrder d g fs).insertIdx (Config.writeOrder d g fs.length % (fs.length + 1)) f

/-! ## The writes that several commands share -/

/-- D_I takes its value in t. -/
def dIWrite (t : State) : WordAccess := fun u => { u with dI := t.dI }
/-- D_Q takes its value in t. -/
def dQWrite (t : State) : WordAccess := fun u => { u with dQ := t.dQ }
/-- RES_I takes its value in t. -/
def resIWrite (t : State) : WordAccess := fun u => { u with resI := t.resI }
/-- RES_Q takes its value in t. -/
def resQWrite (t : State) : WordAccess := fun u => { u with resQ := t.resQ }
/-- RES_VALID takes its value in t. -/
def resValidWrite (t : State) : WordAccess := fun u => { u with resValid := t.resValid }
/-- ERR takes its value in t. -/
def errWrite (t : State) : WordAccess := fun u => { u with err := t.err }
/-- ERR_CODE takes its value in t. -/
def errCodeWrite (t : State) : WordAccess := fun u => { u with errCode := t.errCode }
/-- FC_CHANGED takes its value in t. -/
def fcChangedWrite (t : State) : WordAccess := fun u => { u with fcChanged := t.fcChanged }
/-- OVF takes its value in t. -/
def ovfWrite (t : State) : WordAccess := fun u => { u with ovf := t.ovf }
/-- OUT_COUNT takes its value in t. -/
def outCountWrite (t : State) : WordAccess := fun u => { u with outCount := t.outCount }
/-- FRAME_FILL takes its value in t. -/
def frameFillWrite (t : State) : WordAccess := fun u => { u with fft := { u.fft with frameFill := t.fft.frameFill } }
/-- NOTCH_CNT takes its value in t. -/
def notchCntWrite (t : State) : WordAccess := fun u => { u with fft := { u.fft with notchCnt := t.fft.notchCnt } }
/-- PEAK_IDX takes its value in t. -/
def peakIdxWrite (t : State) : WordAccess := fun u => { u with fft := { u.fft with peakIdx := t.fft.peakIdx } }
/-- RUNNER_IDX takes its value in t. -/
def runnerIdxWrite (t : State) : WordAccess := fun u => { u with fft := { u.fft with runnerIdx := t.fft.runnerIdx } }
/-- Word k of CAP takes the value it has in t. -/
def capWrite (t : State) (k : Nat) : WordAccess :=
  fun u => { u with fft := { u.fft with cap := u.fft.cap.set k (t.fft.cap.getD k 0) } }

/-- Raising a command error: ERR_CODE, then ERR (R362). -/
def errorWrites (t : State) : List WordAccess := [errCodeWrite t, errWrite t]

/-- The apply point: FC_ACTIVE, all fields at once, then FC_CHANGED (R336). -/
def applyWrites (s : State) : List WordAccess :=
  [fun u => { u with fcActive := if s.fcChanged then s.fcStaged else s.fcActive },
   fun u => { u with fcChanged := false }]

/-- RES_VALID, then RES_I, then RES_Q: the order of R171, R196 and R197. -/
def resultWrites (t : State) : List WordAccess := [resValidWrite t, resIWrite t, resQWrite t]

/-- (RES_I, RES_Q) <- a pair, in one statement (R214, R230, R265). -/
def resultPair (d : Nat) (t : State) : List WordAccess :=
  anyOrder d 0 [resIWrite t, resQWrite t]

/-- The n-th output sample of a frame: OUT_I, OUT_Q and then OUT_COUNT, or OVF when the buffer is full (R263). -/
def outputWrites (s t : State) (n : Nat) : List WordAccess :=
  let c := s.outCount.toNat + n
  if c < s.par.outMax then
    [fun u => { u with mem := u.mem.writeWord .outI c (t.mem.readWord .outI c) },
     fun u => { u with mem := u.mem.writeWord .outQ c (t.mem.readWord .outQ c) },
     fun u => { u with outCount := BitVec.ofNat 16 (c + 1) }]
  else [fun u => { u with ovf := true }]

/-- FFT_FRAME, from s to t: the capture in the order of its bins, NOTCH_CNT, PEAK_IDX and RUNNER_IDX, and the output
samples (R252, R256, R261, R263). -/
def fftFrameWrites (s t : State) : List WordAccess :=
  (if s.fcActive.captureEnabled then (List.range s.par.fftN).map (capWrite t) else []) ++
  [notchCntWrite t, peakIdxWrite t, runnerIdxWrite t] ++
  (List.range s.par.quarter).flatMap (outputWrites s t)

/-- FRAME_PUSH, from s to t: FRAME_FILL counts up, and when the frame is full it returns to 0 and the frame runs (R264). -/
def framePushWrites (s t : State) : List WordAccess :=
  (fun u => { u with fft := { u.fft with frameFill := s.fft.frameFill + 1 } }) ::
  (if s.fft.frameFill + 1 = s.par.half then
    (fun u => { u with fft := { u.fft with frameFill := 0 } }) :: fftFrameWrites s t
   else [])

end Sys2Proof.Machine
end

