-- ==== Sys2Proof/Machine/Bus.lean ====
section
/-! DEFINITION. The host's side of the block: the register map, host reads and writes of the six spaces, which
accesses have a meaning, and what is done around a command for the host accesses that overlap it (10_state.md R72,
20_memory.md). -/

namespace Sys2Proof.Machine

/-! ## Shape of an access -/

/-- The word width of a space in bits (R100). -/
def wordBits : Space → Nat
  | .reg => 32
  | _ => 16

/-- The number of words of a space (R100). -/
def spaceSize (p : Params) : Space → Nat
  | .reg => Config.regSize
  | .in0 => p.inBufSize
  | .in1 => p.inBufSize
  | .outI => p.outMax
  | .outQ => p.outMax
  | .cap => p.fftN

/-- BASE(space) (R104). -/
def baseOf (p : Params) : Space → Nat
  | .reg => p.base.reg
  | .in0 => p.base.in0
  | .in1 => p.base.in1
  | .outI => p.base.outI
  | .outQ => p.base.outQ
  | .cap => p.base.cap

/-- The place of word a of a space in the host's system address map (R104). -/
def systemAddress (p : Params) (sp : Space) (a : Nat) : Nat := baseOf p sp + a

/-- The whole-word access that a host makes to a space at system address x, if x is at or above its base (R104). -/
def accessAt (p : Params) (sp : Space) (x : Nat) (k : AccessKind) : Option HostAccess :=
  if baseOf p sp ≤ x then some ⟨sp, x - baseOf p sp, 0, wordBits sp, k⟩ else none

/-- The access moves exactly one aligned word of its space's width (R106). -/
def HostAccess.wholeWord (a : HostAccess) : Bool := decide (a.skew = 0) && decide (a.width = wordBits a.space)

/-- The command word of a CMD write: a write to REG address 0x00 (R72, R107, R130). -/
def HostAccess.command (a : HostAccess) : Option Word :=
  match a.space, a.addr, a.kind with
  | .reg, 0, .write w => some w
  | _, _, _ => none

/-! ## Host reads -/

/-- sext_16 to 32 bits (R72). -/
def sext16 (v : Half) : Word := v.signExtend 32

/-- zext to 32 bits (R72). -/
def zext16 (v : Half) : Word := v.setWidth 32

/-- Field f = 0..7 of a copy of the filter control as REG shows it: lo_bin_offset sign-extended, f = 7 the phase
step (R72). -/
def FilterControl.readField (fc : FilterControl) (f : Nat) : Word :=
  match f with
  | 0 => zext16 fc.startBin
  | 1 => zext16 fc.stopBin
  | 2 => sext16 fc.loBinOffset
  | 3 => zext16 fc.noiseSmoothing
  | 4 => zext16 fc.noiseThreshold
  | 5 => zext16 fc.spectrumSmoothing
  | 6 => fc.flags.setWidth 32
  | 7 => fc.phaseStep
  | _ => 0

/-- A host read of REG address a (R72): an address not listed reads 0, and so does CMD. -/
def readReg (s : State) (a : Nat) : Word :=
  match a with
  | 0x01 => statusWord s
  | 0x02 => sext16 s.resI
  | 0x03 => sext16 s.resQ
  | 0x04 => zext16 s.outCount
  | 0x05 => sext16 s.dI
  | 0x06 => sext16 s.dQ
  | 0x07 => BitVec.ofNat 32 s.fft.frameFill
  | 0x08 => zext16 s.fft.peakIdx
  | 0x09 => zext16 s.fft.runnerIdx
  | 0x0A => zext16 s.fft.notchCnt
  | 0x0B => BitVec.ofNat 32 s.sq.mode.code
  | 0x0C => s.sq.threshold
  | 0x0D => zext16 s.sq.timeout
  | 0x0E => zext16 s.sq.count
  | 0x0F => zext16 s.sq.s9
  | _ =>
    if 0x10 ≤ a ∧ a ≤ 0x17 then s.fcActive.readField (a - 0x10)
    else if 0x18 ≤ a ∧ a ≤ 0x1F then s.fcStaged.readField (a - 0x18)
    else 0

/-- A host read of word a of a space: 0 outside the space, and a 16-bit word stands in bits 15:0 (R72, R102, R103,
R104; entry 12). No read has a side effect (R107). -/
def hostRead (s : State) (sp : Space) (a : Nat) : Word :=
  if a < spaceSize s.par sp then
    match sp with
    | .reg => readReg s a
    | .in0 => zext16 (s.mem.readWord .in0 a)
    | .in1 => zext16 (s.mem.readWord .in1 a)
    | .outI => zext16 (s.mem.readWord .outI a)
    | .outQ => zext16 (s.mem.readWord .outQ a)
    | .cap => zext16 (s.fft.cap.getD a 0)
  else 0

/-! ## Host writes -/

/-- A host write of word a of a space, CMD apart: it writes IN0 or IN1 inside the buffer, and has no effect outside a
space, on REG (R72, R104), or on the spaces the host may only read (R100; entry 14). -/
def hostWrite (sp : Space) (a : Nat) (v : Word) (s : State) : State :=
  match sp with
  | .in0 => if a < s.par.inBufSize then { s with mem := s.mem.writeWord .in0 a (v.extractLsb' 0 16) } else s
  | .in1 => if a < s.par.inBufSize then { s with mem := s.mem.writeWord .in1 a (v.extractLsb' 0 16) } else s
  | _ => s

/-- A host access made while no command runs: a read's word joins the replies (R112). -/
def hostAccess (acc : HostAccess) (s : State) : State :=
  match acc.kind with
  | .read => { s with replies := s.replies ++ [hostRead s acc.space acc.addr] }
  | .write v => hostWrite acc.space acc.addr v s

/-! ## Accesses that overlap a command (R111-R114) -/

/-- The host accesses made while the command is busy: the entries behind it that are marked so, up to the next CMD
write, which is held (R111). -/
def overlapping : List HostOp → List HostAccess
  | [] => []
  | op :: rest => if op.overlap && op.access.command.isNone then op.access :: overlapping rest else []

/-- The entries that stay in the queue behind a command. -/
def afterOverlap : List HostOp → List HostOp
  | [] => []
  | op :: rest => if op.overlap && op.access.command.isNone then afterOverlap rest else op :: rest

/-- An input space, which only the host writes (R101). -/
def Space.isInput : Space → Bool
  | .in0 => true
  | .in1 => true
  | _ => false

/-- The word that an overlapping host read at place p gets from a command with word accesses ws that takes `old` to
`done`: for an input space the word as the host has left it in `now`, else the word as the command has left it, with
BUSY = 1 (R111, R112, R114; entry 7). -/
def overlapReply (ws : List WordAccess) (old done now : State) (acc : HostAccess) (p : Nat) : Word :=
  hostRead (if acc.space.isInput then now else { viewAt ws p old done with busy := true }) acc.space acc.addr

/-- One overlapping host access at its place: a read's word joins the replies, and a write goes to its input buffer,
which no command writes (R101, R112). -/
def overlapAccess (ws : List WordAccess) (old done now : State) (e : HostAccess × Nat) : State :=
  match e.1.kind with
  | .read => { now with replies := now.replies ++ [overlapReply ws old done now e.1 e.2] }
  | .write v => hostWrite e.1.space e.1.addr v now

/-- The state in which a command runs once its CMD write is accepted: BUSY = 1, the entry and the accesses that
overlap the command taken from the queue (R111). -/
def beginCommand (rest : List HostOp) (s : State) : State :=
  { s with busy := true, pending := afterOverlap rest, overlap := overlapping rest }

/-- The end of a command with word accesses ws that took `old` to `done`: the overlapping host accesses in their order,
each at its place, then BUSY = 0 (R111-R114; entry 25). -/
def endCommand (ws : List WordAccess) (old done : State) : State :=
  { (placedOverlap old).foldl (overlapAccess ws old done) done with
    busy := false
    overlap := []
    draws := old.draws + old.overlap.length }

/-- Every host access that the step takes has a meaning (R106). -/
def acceptable (op : HostOp) (rest : List HostOp) : Bool :=
  op.access.wholeWord && (op.access.command.isNone || (overlapping rest).all HostAccess.wholeWord)

/-- The host access that writes a command word to CMD (R130). -/
def cmdWrite (w : Word) : HostAccess := ⟨.reg, 0, 0, 32, .write w⟩

end Sys2Proof.Machine
end

