-- ==== Sys2Proof/Machine/Cic.lean ====
section
/-! DEFINITION. The frequency-translating CIC decimator and CIC_STEP (40_cic_mixer.md). -/

namespace Sys2Proof.Machine

/-- CIC_SHIFT = 4·ceil(log2(CIC_R)) − CIC_EXTRA_BITS (R10, R169). -/
def cicShift (p : Params) : Nat := 4 * ceilLog2 p.cicR - p.cicExtraBits

/-- s = r − 2^(ADC_BITS−1) (R161). -/
def signedCode (p : Params) (r : Nat) : Int := (r : Int) - (2 ^ (p.adcBits - 1) : Nat)

/-- The updated DC tracker: DC + asr(s − DC, DC_SHIFT) (R162). -/
def dcUpdate (p : Params) (dc : Word) (x : Int) : Word := wrap32 (dc.toInt + asr (x - dc.toInt) p.dcShift)

/-- The other rail (R163). -/
def Rail.other : Rail → Rail
  | .i => .q
  | .q => .i

/-- (i, q): the rail named gets x, the other gets 0 (R163). -/
def railInput (r : Rail) (x : Int) : Int × Int :=
  match r with
  | .i => (x, 0)
  | .q => (0, x)

/-- idx = PHASE[31 : 32−LUT_BITS] (R164). -/
def lutIndex (p : Params) (phase : Word) : Nat := phase.toNat / 2 ^ (Config.phaseBits - p.lutBits)

/-- (mi, mq): the sample times e^(−jθ), exact products, shifted by MIX_SHIFT (R164, R165). -/
def mix (p : Params) (phase : Word) (z : Int × Int) : Int × Int :=
  let c := p.cosLut.getD (lutIndex p phase) 0
  let sn := p.sinLut.getD (lutIndex p phase) 0
  (asr (z.1 * c + z.2 * sn) Config.mixShift, asr (z.2 * c - z.1 * sn) Config.mixShift)

/-- The four integrators of one rail; each adds the value its predecessor has in this same tick, modulo 2^32 (R167). -/
def integrate (v : Int) (q : Quad) : Quad :=
  let a0 := q.s0 + wrap32 v
  let a1 := q.s1 + a0
  let a2 := q.s2 + a1
  let a3 := q.s3 + a2
  ⟨a0, a1, a2, a3⟩

/-- The four combs of one rail on input u: u4 and the new delays, modulo 2^32 (R168). -/
def comb (u0 : Word) (d : Quad) : Word × Quad :=
  let u1 := u0 - d.s0
  let u2 := u1 - d.s1
  let u3 := u2 - d.s2
  let u4 := u3 - d.s3
  (u4, ⟨u0, u1, u2, u3⟩)

/-- Growth compensation: sat16(asr(u4, CIC_SHIFT)) (R169). -/
def cicOut (p : Params) (u4 : Word) : Half := sat16 (asr u4.toInt (cicShift p))

/-- The part of a tick that runs on every tick: R161-R167, everything before the decimation count. -/
def cicFront (p : Params) (step : Word) (r : Nat) (c : Cic) : Cic :=
  let x := signedCode p r
  let dc := dcUpdate p c.dc x
  let m := mix p c.phase (railInput c.rail (x - dc.toInt))
  { c with
    dc := dc
    rail := c.rail.other
    phase := c.phase + step
    intI := integrate m.1 c.intI
    intQ := integrate m.2 c.intQ }

/-- The decimation count and, on every CIC_R-th tick, the combs and the output (R168, R169). -/
def cicBack (p : Params) (c : Cic) : Option Sample × Cic :=
  if c.decCnt.toNat + 1 < p.cicR then
    (none, { c with decCnt := BitVec.ofNat 16 (c.decCnt.toNat + 1) })
  else
    let ci := comb c.intI.s3 c.dlyI
    let cq := comb c.intQ.s3 c.dlyQ
    (some ⟨cicOut p ci.1, cicOut p cq.1⟩, { c with decCnt := 0, dlyI := ci.2, dlyQ := cq.2 })

/-- CIC_TICK(r) with phase step `step`: the decimated output if the tick emits one, and the new state (R170). -/
def cicTick (p : Params) (step : Word) (r : Nat) (c : Cic) : Option Sample × Cic := cicBack p (cicFront p step r c)

/-- One tick on the whole state, with the phase step of FC_ACTIVE (R166, R170). -/
def tickState (r : Nat) (s : State) : Option Sample × State :=
  let t := cicTick s.par s.fcActive.phaseStep r s.cic
  (t.1, { s with cic := t.2 })

/-- CIC_STEP r (R171). -/
def execCicStep (r : Half) (s : State) : Host.Outcome State Fault Refusal :=
  if rawCodeInRange s.par r then
    let t := tickState (uimm r) (applyPoint s)
    .next (t.2.withResult t.1)
  else
    .next (raiseCmdError .operandRange s)

end Sys2Proof.Machine
end

