-- ==== Sys2Proof/Machine/Droop.lean ====
section
/-! DEFINITION. The CIC droop corrector and DROOP (42_droop.md). -/

namespace Sys2Proof.Machine

/-- w = ((b + o + N/2) mod N) − N/2, the wrapped bin position in [−N/2, N/2) (R211). -/
def wrappedBin (p : Params) (b o : Int) : Int := (b + o + (p.half : Int)) % (p.fftN : Int) - (p.half : Int)

/-- p = abs(w), the index into the DROOP table (R211). -/
def droopIndex (p : Params) (b o : Int) : Nat := (wrappedBin p b o).natAbs

/-- DROOP_CORR(b, z) with offset o: multiply by the table entry, shift, saturate (R212). -/
def droopCorr (p : Params) (o b : Int) (z : Sample) : Sample :=
  let g := p.droop.getD (droopIndex p b o) 0
  ⟨sat16 (scaleAsr z.re g p.droopShift), sat16 (scaleAsr z.im g p.droopShift)⟩

/-- DROOP b (R214). -/
def execDroop (b : Half) (s : State) : Host.Outcome State Fault Refusal :=
  let a := applyPoint s
  .next (a.withResult (some (droopCorr a.par a.fcActive.loBinOffset.toInt (simm b) (dSample a))))

end Sys2Proof.Machine
end

