-- ==== Sys2Proof/Machine/NoiseReduction.lean ====
section
/-! DEFINITION. The noise-reduction estimator and NR_BIN (43_noise_reduction.md). -/

namespace Sys2Proof.Machine

/-- SIG_side (R63). -/
def NrEstimates.sig (n : NrEstimates) : Side → List Word
  | .pos => n.sigPos
  | .neg => n.sigNeg

/-- NOISE_side (R63). -/
def NrEstimates.noise (n : NrEstimates) : Side → List Word
  | .pos => n.noisePos
  | .neg => n.noiseNeg

/-- SIG_side[b] <- x and NOISE_side[b] <- y (R222, R223). -/
def NrEstimates.put (n : NrEstimates) (side : Side) (b : Nat) (x y : Word) : NrEstimates :=
  match side with
  | .pos => { n with sigPos := n.sigPos.set b x, noisePos := n.noisePos.set b y }
  | .neg => { n with sigNeg := n.sigNeg.set b x, noiseNeg := n.noiseNeg.set b y }

/-- S = SIG + asr(m − SIG, sm) (R222). -/
def nrSignal (sig m sm : Nat) : Int := (sig : Int) + asr ((m : Int) - sig) sm

/-- Nn = max(min(NOISE + NR_NOISE_RISE, Ssc), 1) (R223). -/
def nrNoise (rise noise : Nat) (ssc : Int) : Int := max (min ((noise : Int) + rise) ssc) 1

/-- thr: the configured threshold, or, when it is 0, the adaptive table at the clamped SNR (R224, R225). -/
def nrThreshold (p : Params) (thrCfg : Nat) (snr : Int) : Nat :=
  if thrCfg ≠ 0 then thrCfg else p.nrAdapt.getD (min snr.toNat (p.nrAdapt.length - 1)) 0

/-- GAIN_ONE = 2^GAIN_BITS (R226). -/
def gainOne : Int := (2 ^ Config.gainBits : Nat)

/-- g = clamp(GAIN_ONE − (thr·Nn·GAIN_ONE) div max(Ssc, 1), 0, GAIN_ONE) (R226). -/
def nrGain (thr : Nat) (nn ssc : Int) : Int :=
  clampInt 0 gainOne (gainOne - (thr : Int) * nn * gainOne / max ssc 1)

/-- The bin multiplied by the gain; never leaves int16 for 0 ≤ g ≤ GAIN_ONE (R227). -/
def nrApply (g : Int) (z : Sample) : Sample :=
  ⟨BitVec.ofInt 16 (scaleAsr z.re g Config.gainBits), BitVec.ofInt 16 (scaleAsr z.im g Config.gainBits)⟩

/-- NR_UPDATE(side, b, z, sm, thr_cfg): the attenuated bin and the updated estimates (R228). -/
def nrUpdate (p : Params) (side : Side) (b : Nat) (z : Sample) (sm thrCfg : Nat) (n : NrEstimates) :
    Sample × NrEstimates :=
  let sig := nrSignal ((n.sig side).getD b 0).toNat (mag z) sm
  let ssc := sig * (2 ^ sm : Nat)
  let nn := nrNoise p.nrNoiseRise ((n.noise side).getD b 0).toNat ssc
  let thr := nrThreshold p thrCfg (ssc / nn)
  (nrApply (nrGain thr nn ssc) z, n.put side b (BitVec.ofInt 32 sig) (BitVec.ofInt 32 nn))

/-- NR_BIN sel, b (R230). -/
def execNrBin (side : Side) (b : Half) (s : State) : Host.Outcome State Fault Refusal :=
  if nrBinInRange s.par b then
    let a := applyPoint s
    if a.fcActive.wf then
      let t := nrUpdate a.par side (uimm b) (dSample a) a.fcActive.noiseSmoothing.toNat
        a.fcActive.noiseThreshold.toNat a.fft.nr
      .next (({ a with fft := { a.fft with nr := t.2 } } : State).withResult (some t.1))
    else
      .refused .fcPrecondition
  else
    .next (raiseCmdError .operandRange s)

end Sys2Proof.Machine
end

