-- ==== Sys2Proof/Machine/FftFilter.lean ====
section
/-! DEFINITION. The windowed FFT channel filter with spectrum capture, bin masking, peak tracking, auto-notch and
overlap-add, and FFT_PUSH (44_fft_filter.md). -/

namespace Sys2Proof.Machine

/-! ## Window (R253) -/

/-- win[n]: the previous frame for n < H, the new frame from H on (R253). -/
def windowInput (p : Params) (prev frame : List Sample) (n : Nat) : Sample :=
  if n < p.half then prev.getD n .zero else frame.getD (n - p.half) .zero

/-- WINDOWED(): x[n] = asr(win[n]·WINDOW[n], 15), which never leaves int16 (R253). -/
def windowed (p : Params) (prev frame : List Sample) : List Sample :=
  (List.range p.fftN).map fun n =>
    let z := windowInput p prev frame n
    let c := p.window.getD n 0
    ⟨BitVec.ofInt 16 (scaleAsr z.re c 15), BitVec.ofInt 16 (scaleAsr z.im c 15)⟩

/-! ## Transform engine (R254) -/

/-- bitrev_m(n): the low m bits of n in reverse order (R254). -/
def bitrev : Nat → Nat → Nat
  | 0, _ => 0
  | m + 1, n => (n % 2) * 2 ^ m + bitrev m (n / 2)

/-- b[bitrev_m(n)] <- a[n] for n in 0..2^m−1 (R254). -/
def bitReverse (m : Nat) (a : List Sample) : List Sample :=
  (List.range (2 ^ m)).foldl (fun b n => b.set (bitrev m n) (a.getD n .zero)) (List.replicate (2 ^ m) .zero)

/-- The two outputs of a butterfly with inputs u, v and twiddle (wr, wi); `scale` says whether the stage halves
(R254). -/
def butterfly (wr wi : Int) (scale : Bool) (u v : Sample) : Sample × Sample :=
  let tr := asr (v.re.toInt * wr - v.im.toInt * wi) 15
  let ti := asr (v.re.toInt * wi + v.im.toInt * wr) 15
  let out := fun (x : Int) => sat16 (if scale then asr x 1 else x)
  (⟨out (u.re.toInt + tr), out (u.im.toInt + ti)⟩, ⟨out (u.re.toInt - tr), out (u.im.toInt - ti)⟩)

/-- The twiddle index of butterfly k of stage s: k·(N/span), span = 2^(s+1) (R254). -/
def twiddleIndex (p : Params) (s k : Nat) : Nat := k * (p.fftN / 2 ^ (s + 1))

/-- The j-th butterfly of stage s, j counting the pairs in the order of R254's loops over g and k: k = j mod half,
g = (j div half)·span, on elements g + k and g + k + half. -/
def butterflyAt (p : Params) (s : Nat) (b : List Sample) (j : Nat) : List Sample :=
  let half := 2 ^ s
  let k := j % half
  let lo := j / half * (2 * half) + k
  let t := twiddleIndex p s k
  let o := butterfly (p.twCos.getD t 0) (-(p.twSin.getD t 0)) (decide (s % 2 = 0)) (b.getD lo .zero)
    (b.getD (lo + half) .zero)
  (b.set lo o.1).set (lo + half) o.2

/-- Stage s of a transform of length 2^m: all its 2^(m−1) butterflies (R254). -/
def engineStage (p : Params) (m : Nat) (b : List Sample) (s : Nat) : List Sample :=
  (List.range (2 ^ (m - 1))).foldl (butterflyAt p s) b

/-- ENGINE(a, 2^m): bit reversal, then stages 0..m−1 (R254). -/
def engine (p : Params) (m : Nat) (a : List Sample) : List Sample :=
  (List.range m).foldl (engineStage p m) (bitReverse m a)

/-- FFT_M = log2(FFT_N) (R12). -/
def fftM (p : Params) : Nat := Nat.log2 p.fftN

/-- INVERSE(Y): the same engine at length H with the parts swapped on the way in and out (R262). -/
def inverse (p : Params) (y : List Sample) : List Sample :=
  (engine p (fftM p - 1) (y.map Sample.swap)).map Sample.swap

/-! ## Spectrum capture (R256) -/

/-- CAP[k] + asr(MAG(X[k]) − CAP[k], ssm) (R256). -/
def captureBin (ssm : Nat) (c : Half) (z : Sample) : Half :=
  BitVec.ofInt 16 ((c.toNat : Int) + asr ((mag z : Int) - c.toNat) ssm)

/-- CAPTURE(X) over all N bins (R256). -/
def capture (p : Params) (ssm : Nat) (x : List Sample) (cap : List Half) : List Half :=
  (List.range p.fftN).map fun k => captureBin ssm (cap.getD k 0) (x.getD k .zero)

/-! ## Masking, peak tracking and the bin walks (R257-R260) -/

/-- k lies in start_bin..stop_bin (R257). -/
def FilterControl.inPass (fc : FilterControl) (k : Nat) : Bool :=
  decide (fc.startBin.toNat ≤ k) && decide (k ≤ fc.stopBin.toNat)

/-- Whether positive bin k, or negative bin j, passes (R257). -/
def FilterControl.passes (fc : FilterControl) (side : Side) (k : Nat) : Bool :=
  (match side with
    | .pos => fc.upperSideband
    | .neg => fc.lowerSideband) && fc.inPass k

/-- The peak and the runner-up so far with their magnitudes; none is NONE (R260). -/
structure Tracker where
  peak : Option Nat
  peakMag : Nat
  runner : Option Nat
  runnerMag : Nat
deriving DecidableEq, Repr

/-- P = NONE, Pm = 0, Rn = NONE, Rm = 0 (R260). -/
def Tracker.start : Tracker := ⟨none, 0, none, 0⟩

/-- TRACK(idx, mg): strict comparisons, so the first of equal bins wins (R260). -/
def Tracker.track (t : Tracker) (idx mg : Nat) : Tracker :=
  if t.peakMag < mg then ⟨some idx, mg, t.peak, t.peakMag⟩
  else if t.runnerMag < mg then { t with runner := some idx, runnerMag := mg }
  else t

/-- What the walks carry: the half-length spectrum Y, the tracker and the estimates. -/
structure Walk where
  y : List Sample
  trk : Tracker
  nr : NrEstimates
deriving DecidableEq, Repr

/-- Where bin k of a side stands in the forward output: X[k] or X[N − j] (R251). -/
def forwardIndex (p : Params) (side : Side) (k : Nat) : Nat :=
  match side with
  | .pos => k
  | .neg => p.fftN - k

/-- Where bin k of a side stands in Y: k or H − j (R251). -/
def outputIndex (p : Params) (side : Side) (k : Nat) : Nat :=
  match side with
  | .pos => k
  | .neg => p.half - k

/-- The signed frequency of bin k of a side: k or −j (R251). -/
def signedBin (side : Side) (k : Nat) : Int :=
  match side with
  | .pos => k
  | .neg => -(k : Int)

/-- Noise reduction of a pass bin, if it is enabled and the bin is at least NR_MIN_BIN (R258, R259). -/
def walkReduce (p : Params) (fc : FilterControl) (side : Side) (k : Nat) (v : Sample) (nr : NrEstimates) :
    Sample × NrEstimates :=
  if fc.nrEnabled && decide (Config.nrMinBin ≤ k) then
    nrUpdate p side k v fc.noiseSmoothing.toNat fc.noiseThreshold.toNat nr
  else (v, nr)

/-- One bin of a walk: droop correction, tracking, noise reduction, or (0, 0) for a masked bin (R257-R259). -/
def walkBin (p : Params) (fc : FilterControl) (x : List Sample) (side : Side) (w : Walk) (k : Nat) : Walk :=
  if fc.passes side k then
    let v := droopCorr p fc.loBinOffset.toInt (signedBin side k) (x.getD (forwardIndex p side k) .zero)
    let r := walkReduce p fc side k v w.nr
    ⟨w.y.set (outputIndex p side k) r.1, w.trk.track (outputIndex p side k) (mag v), r.2⟩
  else { w with y := w.y.set (outputIndex p side k) .zero }

/-- WALK(X): positive bins 0..Q4−1, then negative bins 1..Q4 (R258, R259). -/
def walk (p : Params) (fc : FilterControl) (x : List Sample) (nr : NrEstimates) : Walk :=
  let pos := (List.range p.quarter).foldl (walkBin p fc x .pos) ⟨List.replicate p.half .zero, .start, nr⟩
  (List.range' 1 p.quarter).foldl (walkBin p fc x .neg) pos

/-! ## Auto-notch (R261) -/

/-- The register value of a bin index: the index, or NONE (R65). -/
def binReg (o : Option Nat) : Half :=
  match o with
  | some k => BitVec.ofNat 16 k
  | none => noBin

/-- The new hysteresis count: up by one to NOTCH_MAX when there is a peak and it is the previous frame's, else
down by one to 0 (R261). -/
def notchCount (p : Params) (prev : Half) (peak : Option Nat) (cnt : Half) : Half :=
  if peak.isSome && decide (binReg peak = prev) then BitVec.ofNat 16 (min (cnt.toNat + 1) p.notchMax)
  else BitVec.ofNat 16 (cnt.toNat - 1)

/-- Whether the notch zeroes bins around index k: enabled, count above half its maximum, k not within NOTCH_EDGE of
an end of Y (R261). -/
def notchActs (p : Params) (fc : FilterControl) (cnt : Half) (k : Nat) : Bool :=
  fc.notchEnabled && decide (p.notchMax / 2 < cnt.toNat) && decide (Config.notchEdge ≤ k) &&
  decide (k + 1 + Config.notchEdge ≤ p.half)

/-- Y with bins P−1, P, P+1 zeroed when the notch acts (R261). -/
def notchBins (p : Params) (fc : FilterControl) (cnt : Half) (peak : Option Nat) (y : List Sample) : List Sample :=
  match peak with
  | some k => if notchActs p fc cnt k then ((y.set (k - 1) .zero).set k .zero).set (k + 1) .zero else y
  | none => y

/-! ## Overlap-add (R263) -/

/-- o[n] = sat16(y[n] + PREV_OUT[n]) for n < Q4 (R263). -/
def overlapAdd (p : Params) (y prevOut : List Sample) : List Sample :=
  (List.range p.quarter).map fun n =>
    let a := y.getD n .zero
    let b := prevOut.getD n .zero
    ⟨sat16 (a.re.toInt + b.re.toInt), sat16 (a.im.toInt + b.im.toInt)⟩

/-- The second half of y, kept for the next frame (R263). -/
def keepSecondHalf (p : Params) (y : List Sample) : List Sample :=
  (List.range p.quarter).map fun n => y.getD (p.quarter + n) .zero

/-- OUT_I[OUT_COUNT], OUT_Q[OUT_COUNT] <- z; a sample that finds OUT_COUNT = OUT_MAX is dropped and sets OVF (R263). -/
def appendOut (s : State) (z : Sample) : State :=
  if s.outCount.toNat < s.par.outMax then
    { s with
      mem := (s.mem.writeWord .outI s.outCount.toNat z.re).writeWord .outQ s.outCount.toNat z.im
      outCount := BitVec.ofNat 16 (s.outCount.toNat + 1) }
  else { s with ovf := true }

/-! ## The frame (R252) -/

/-- Steps (1) to (9) of a frame and the state they leave: the inverse transform y, and the filter with PREV_IN, CAP,
the estimates and the notch and peak registers updated (R252-R262). PREV_OUT is left to the overlap-add. -/
def frameCore (p : Params) (fc : FilterControl) (f : Fft) : List Sample × Fft :=
  let x := engine p (fftM p) (windowed p f.prevIn f.frame)
  let w := walk p fc x f.nr
  let cnt := notchCount p f.prevPeak w.trk.peak f.notchCnt
  (inverse p (notchBins p fc cnt w.trk.peak w.y),
   { f with
     prevIn := f.frame
     cap := if fc.captureEnabled then capture p fc.spectrumSmoothing.toNat x f.cap else f.cap
     nr := w.nr
     notchCnt := cnt
     prevPeak := binReg w.trk.peak
     peakIdx := binReg w.trk.peak
     runnerIdx := binReg w.trk.runner })

/-- The Q4 output samples of a frame and the filter after it (R252, R263). -/
def frameStep (p : Params) (fc : FilterControl) (f : Fft) : List Sample × Fft :=
  let t := frameCore p fc f
  (overlapAdd p t.1 f.prevOut, { t.2 with prevOut := keepSecondHalf p t.1 })

/-- FFT_FRAME() on the whole state: refused when FC_ACTIVE is not well-formed; otherwise the output samples in
order, and the state with them appended (R252, R263). -/
def fftFrame (s : State) : Except Refusal (List Sample × State) :=
  if s.fcActive.wf then
    let t := frameStep s.par s.fcActive s.fft
    .ok (t.1, t.1.foldl appendOut { s with fft := t.2 })
  else .error .fcPrecondition

/-! ## Frame collection (R264) -/

/-- The filter with one sample stored at FRAME_FILL (R264). -/
def framePut (z : Sample) (f : Fft) : Fft := { f with frame := f.frame.set f.frameFill z, frameFill := f.frameFill + 1 }

/-- FRAME_PUSH(z): stores the sample and, when the frame is full, runs the frame; the answer is o[0] of the frame
if one ran, none otherwise (R264, R265). -/
def framePush (z : Sample) (s : State) : Except Refusal (Option Sample × State) :=
  let f := framePut z s.fft
  if f.frameFill = s.par.half then
    match fftFrame { s with fft := { f with frameFill := 0 } } with
    | .ok (o, s1) => .ok (some (o.getD 0 .zero), s1)
    | .error e => .error e
  else .ok (none, { s with fft := f })

/-- FFT_PUSH (R265). -/
def execFftPush (s : State) : Host.Outcome State Fault Refusal :=
  let a := applyPoint s
  match framePush (dSample a) a with
  | .ok (o, s1) => .next (s1.withResult o)
  | .error e => .refused e

end Sys2Proof.Machine
end

