-- ==== Sys2Proof/Machine/HalfBand.lean ====
section
/-! DEFINITION. The half-band decimators, HB1_STEP and HB2_STEP (41_halfband.md). -/

namespace Sys2Proof.Machine

/-- (p − k) mod L: where the sample k inputs older than index p stands (R191). -/
def tapIndex (l p k : Nat) : Nat := (((p : Int) - k) % l).toNat

/-- Σ_{k<K} h[k]·x[(p − k) mod L] for one component of the buffer, an exact integer (R193). -/
def convolve (h : List Int) (l p : Nat) (x : Nat → Int) : Int :=
  ((List.range h.length).map fun k => h.getD k 0 * x (tapIndex l p k)).sum

/-- The output of an emitting call at pointer p: both convolutions, normalized and saturated (R193, R194). -/
def hbOutput (h : List Int) (l p : Nat) (buf : List Sample) : Sample :=
  ⟨sat16 (asr (convolve h l p fun k => (buf.getD k .zero).re.toInt) Config.hbShift),
   sat16 (asr (convolve h l p fun k => (buf.getD k .zero).im.toInt) Config.hbShift)⟩

/-- The buffer write of a call: the newest sample at HBs_PTR, the fill count saturating at L, the pointer moved on
modulo L (R191). -/
def hbPush (l : Nat) (z : Sample) (b : HalfBand) : HalfBand :=
  ⟨b.buf.set b.ptr z, (b.ptr + 1) % l, min (b.fill + 1) l⟩

/-- A call emits iff the buffer is full after the write and the write index is odd (R192). -/
def hbEmits (l : Nat) (b : HalfBand) : Bool := decide (min (b.fill + 1) l = l) && decide (b.ptr % 2 = 1)

/-- HB_STEP for a stage with buffer length `l` and kernel `h` (R195). -/
def hbStep (l : Nat) (h : List Int) (z : Sample) (b : HalfBand) : Option Sample × HalfBand :=
  (if hbEmits l b then some (hbOutput h l b.ptr (hbPush l z b).buf) else none, hbPush l z b)

/-- HB_STEP(1, z) on the whole state (R195). -/
def hb1State (z : Sample) (s : State) : Option Sample × State :=
  let t := hbStep Config.hb1L s.par.hb1K z s.hb1
  (t.1, { s with hb1 := t.2 })

/-- HB_STEP(2, z) on the whole state (R195). -/
def hb2State (z : Sample) (s : State) : Option Sample × State :=
  let t := hbStep Config.hb2L s.par.hb2K z s.hb2
  (t.1, { s with hb2 := t.2 })

/-- HB1_STEP (R196). -/
def execHb1Step (s : State) : Host.Outcome State Fault Refusal :=
  let t := hb1State (dSample s) s
  .next (t.2.withResult t.1)

/-- HB2_STEP (R197). -/
def execHb2Step (s : State) : Host.Outcome State Fault Refusal :=
  let t := hb2State (dSample s) s
  .next (t.2.withResult t.1)

end Sys2Proof.Machine
end

