-- ==== Sys2Proof/Machine/Block.lean ====
section
/-! DEFINITION. PROCESS_BLOCK: the whole chain over an input buffer, with the input race of R113 (46_control.md). -/

namespace Sys2Proof.Machine

/-- The bits ADC_BITS−1:0 of an input word (R101, R339). -/
def rawCode (p : Params) (w : Half) : Nat := w.toNat % 2 ^ p.adcBits

/-- The stages before the frame on one input word: the CIC decimator, half-band stage 1 and half-band stage 2, each on
an output of the one before it; the answer is stage 2's output, if there is one (R339). -/
def chainFront (sel : InSel) (a now : Nat) (s : State) : Option Sample × State :=
  match tickState (rawCode s.par (readInput sel a now s)) s with
  | (some z, s1) =>
    match hb1State z s1 with
    | (some z2, s2) => hb2State z2 s2
    | (none, s2) => (none, s2)
  | (none, s1) => (none, s1)

/-- One input word through the whole chain (R339). -/
def blockTick (sel : InSel) (a now : Nat) (s : State) : Except Refusal State :=
  match chainFront sel a now s with
  | (some z, s1) =>
    match framePush z s1 with
    | .ok (_, s2) => .ok s2
    | .error e => .error e
  | (none, s1) => .ok s1

/-- The word accesses of one input word that takes s to t: the read, and what the frame writes if stage 2 has an output
(R112, R339). -/
def tickWrites (sel : InSel) (a now : Nat) (s t : State) : List WordAccess :=
  match chainFront sel a now s with
  | (some _, s1) => inputRead :: framePushWrites s1 t
  | (none, _) => [inputRead]

/-- Words a, a+1, ..., a+n−1 of IN_sel through the chain, in order, up to the first refusal; `now` counts the word
accesses that the command has made (R112, R339). -/
def blockLoop (sel : InSel) : Nat → Nat → Nat → State → Except Refusal State
  | 0, _, _, s => .ok s
  | n + 1, a, now, s =>
    match blockTick sel a now s with
    | .ok s1 => blockLoop sel n (a + 1) (now + (tickWrites sel a now s s1).length) s1
    | .error e => .error e

/-- The word accesses of that loop. -/
def loopWrites (sel : InSel) : Nat → Nat → Nat → State → List WordAccess
  | 0, _, _, _ => []
  | n + 1, a, now, s =>
    match blockTick sel a now s with
    | .ok s1 =>
      let ws := tickWrites sel a now s s1
      ws ++ loopWrites sel n (a + 1) (now + ws.length) s1
    | .error _ => []

/-- What PROCESS_BLOCK does before its loop: the apply point, then OUT_COUNT, RAIL and OVF <- 0 (R339). -/
def blockStart (s : State) : State :=
  let a := applyPoint s
  { a with outCount := 0, ovf := false, cic := { a.cic with rail := .i } }

/-- The word accesses of that start (R336, R339). -/
def blockStartWrites (s : State) : List WordAccess :=
  applyWrites s ++ [fun u => { u with outCount := 0 }, fun u => { u with ovf := false }]

/-- The word accesses of PROCESS_BLOCK sel, n from s on (R112, R339). -/
def blockWrites (sel : InSel) (n : Half) (s : State) : List WordAccess :=
  blockStartWrites s ++ loopWrites sel (uimm n) 0 (blockStartWrites s).length (blockStart s)

/-- PROCESS_BLOCK sel, n (R339). -/
def execProcessBlock (sel : InSel) (n : Half) (s : State) : Host.Outcome State Fault Refusal :=
  if blockLengthInRange s.par n then
    match blockLoop sel (uimm n) 0 (blockStartWrites s).length (blockStart s) with
    | .ok s1 => .next s1
    | .error e => .refused e
  else
    .next (raiseCmdError .operandRange s)

end Sys2Proof.Machine
end

