-- ==== Sys2Proof/Machine/Control.lean ====
section
/-! DEFINITION. The simple host-control commands and the configuration handoff (46_control.md). -/

namespace Sys2Proof.Machine

/-- NOP (R331). -/
def execNop (s : State) : Host.Outcome State Fault Refusal := .next s

/-- SOFT_RESET (R332). -/
def execSoftReset (s : State) : Host.Outcome State Fault Refusal := .next (resetState s)

/-- SETI v (R333). -/
def execSeti (v : Half) (s : State) : Host.Outcome State Fault Refusal :=
  .next { s with dI := BitVec.ofInt 16 (simm v) }

/-- SETQ v (R334). -/
def execSetq (v : Half) (s : State) : Host.Outcome State Fault Refusal :=
  .next { s with dQ := BitVec.ofInt 16 (simm v) }

/-- Field f of the filter control <- v; f = 7 and f = 8 are the halves of phase_step (R335). -/
def FilterControl.write (fc : FilterControl) (f : Nat) (v : Half) : FilterControl :=
  match f with
  | 0 => { fc with startBin := v }
  | 1 => { fc with stopBin := v }
  | 2 => { fc with loBinOffset := v }
  | 3 => { fc with noiseSmoothing := v }
  | 4 => { fc with noiseThreshold := v }
  | 5 => { fc with spectrumSmoothing := v }
  | 6 => { fc with flags := v.extractLsb' 0 5 }
  | 7 => { fc with phaseStep := fc.phaseStep.extractLsb' 16 16 ++ v }
  | 8 => { fc with phaseStep := v ++ fc.phaseStep.extractLsb' 0 16 }
  | _ => fc

/-- CFG_WRITE f, v (R335): the write withdraws any publication. -/
def execCfgWrite (f : BitVec 8) (v : Half) (s : State) : Host.Outcome State Fault Refusal :=
  if cfgWriteInRange f v then
    .next { s with fcStaged := s.fcStaged.write (fldIndex f) v, fcChanged := false }
  else
    .next (raiseCmdError .operandRange s)

/-- CFG_PUBLISH (R337). -/
def execCfgPublish (s : State) : Host.Outcome State Fault Refusal := .next { s with fcChanged := true }

/-- CLR_ERR (R338). -/
def execClrErr (s : State) : Host.Outcome State Fault Refusal := .next (clearError s)

end Sys2Proof.Machine
end

