-- ==== Sys2Proof/Machine/Squelch.lean ====
section
/-! DEFINITION. The squelch state machine and its six commands (45_squelch.md). -/

namespace Sys2Proof.Machine

/-- The threshold of one S-level for the S9 reference s9 (R13). -/
def levelThreshold (row : LevelThreshold) (s9 : Nat) : Nat :=
  match row with
  | .scaled mult shift => s9 * mult / 2 ^ shift
  | .listed values => values.getD s9 0

/-- SQ_THRESH(L, s9): the parameter's row of level L at the S9 reference (R13, R302; entry 19). -/
def sqThresh (p : Params) (l s9 : Nat) : Word := BitVec.ofNat 32 (levelThreshold (p.sqLevels.getD l (.listed [])) s9)

/-- A level is above threshold iff s > SQ_THRESHOLD, strictly (R301). -/
def aboveThreshold (q : Squelch) (x : Half) : Bool := decide (q.threshold.toNat < x.toNat)

/-- SIGNALLO with the level not above threshold: count down by one, not below 0, then TIMEOUT if it is 0 (R303). -/
def sqCountdown (q : Squelch) : Squelch :=
  let c := if 0 < q.count.toNat then q.count - 1 else q.count
  { q with count := c, mode := if c = 0 then .timeout else .signalLo }

/-- SQ_STEP(s): the transition function (R303). -/
def sqStep (q : Squelch) (x : Half) : Squelch :=
  match q.mode with
  | .disabled => q
  | .enabled => { q with mode := if aboveThreshold q x then .rise else .enabled }
  | .rise => { q with mode := if aboveThreshold q x then .signalHi else .fall }
  | .signalHi => { q with mode := if aboveThreshold q x then .signalHi else .fall }
  | .fall =>
    if aboveThreshold q x then { q with mode := .signalHi } else { q with mode := .signalLo, count := q.timeout }
  | .signalLo => if aboveThreshold q x then { q with mode := .signalHi } else sqCountdown q
  | .timeout => { q with mode := .enabled }
  | .unknown => q

/-- SQ_INIT t (R304). SQ_S9 is unchanged. -/
def execSqInit (t : Half) (s : State) : Host.Outcome State Fault Refusal :=
  .next { s with sq := { s.sq with timeout := t, count := 0, threshold := 0, mode := .disabled } }

/-- SQ_ENABLE L (R305). -/
def execSqEnable (l : Half) (s : State) : Host.Outcome State Fault Refusal :=
  if levelInRange l then
    .next { s with sq := { s.sq with threshold := sqThresh s.par (uimm l) s.sq.s9.toNat, mode := .enabled } }
  else
    .next (raiseCmdError .operandRange s)

/-- SQ_DISABLE (R306). -/
def execSqDisable (s : State) : Host.Outcome State Fault Refusal :=
  .next { s with sq := { s.sq with mode := .disabled } }

/-- SQ_CALIBRATE v (R307). The threshold is not recomputed. -/
def execSqCalibrate (v : Half) (s : State) : Host.Outcome State Fault Refusal :=
  .next { s with sq := { s.sq with s9 := v } }

/-- SQ_SET_TIMEOUT t (R308). A running countdown keeps its count. -/
def execSqSetTimeout (t : Half) (s : State) : Host.Outcome State Fault Refusal :=
  .next { s with sq := { s.sq with timeout := t } }

/-- SQ_UPDATE s (R309): the transition, then RES_I <- SQ_MODE, RES_Q <- 0, RES_VALID <- 1. -/
def execSqUpdate (x : Half) (s : State) : Host.Outcome State Fault Refusal :=
  let q := sqStep s.sq x
  .next (({ s with sq := q } : State).withResult (some ⟨BitVec.ofNat 16 q.mode.code, 0⟩))

end Sys2Proof.Machine
end

