-- ==== Sys2Proof/Machine/Dispatch.lean ====
section
/-! DEFINITION. The meaning of a command: one arm per constructor of Instr, each one call of its meaning. -/

namespace Sys2Proof.Machine

def exec (i : Instr) (s : State) : Host.Outcome State Fault Refusal :=
  match i with
  -- host control (46_control.md)
  | .nop => Sys2Proof.Machine.execNop s
  | .softReset => Sys2Proof.Machine.execSoftReset s
  | .seti v => Sys2Proof.Machine.execSeti v s
  | .setq v => Sys2Proof.Machine.execSetq v s
  | .cfgWrite f v => Sys2Proof.Machine.execCfgWrite f v s
  | .cfgPublish => Sys2Proof.Machine.execCfgPublish s
  | .clrErr => Sys2Proof.Machine.execClrErr s
  | .processBlock sel n => Sys2Proof.Machine.execProcessBlock sel n s
  -- unit-level commands (40_cic_mixer.md to 44_fft_filter.md)
  | .cicStep r => Sys2Proof.Machine.execCicStep r s
  | .hb1Step => Sys2Proof.Machine.execHb1Step s
  | .hb2Step => Sys2Proof.Machine.execHb2Step s
  | .droop b => Sys2Proof.Machine.execDroop b s
  | .nrBin side b => Sys2Proof.Machine.execNrBin side b s
  | .fftPush => Sys2Proof.Machine.execFftPush s
  -- squelch (45_squelch.md)
  | .sqInit t => Sys2Proof.Machine.execSqInit t s
  | .sqEnable l => Sys2Proof.Machine.execSqEnable l s
  | .sqDisable => Sys2Proof.Machine.execSqDisable s
  | .sqCalibrate v => Sys2Proof.Machine.execSqCalibrate v s
  | .sqSetTimeout t => Sys2Proof.Machine.execSqSetTimeout t s
  | .sqUpdate x => Sys2Proof.Machine.execSqUpdate x s

end Sys2Proof.Machine
end

