-- ==== Sys2Proof/Machine/Writes.lean ====
section
/-! DEFINITION. The word accesses of each command that the host can see, in the order in which the command's rule makes
them (R27, R107, R112). Every list takes the values from the state t that the command's meaning ends in. -/

namespace Sys2Proof.Machine

/-- Field f of one copy of the filter control takes its value in another. -/
def FilterControl.copyField (src dst : FilterControl) (f : Nat) : FilterControl :=
  match f with
  | 0 => { dst with startBin := src.startBin }
  | 1 => { dst with stopBin := src.stopBin }
  | 2 => { dst with loBinOffset := src.loBinOffset }
  | 3 => { dst with noiseSmoothing := src.noiseSmoothing }
  | 4 => { dst with noiseThreshold := src.noiseThreshold }
  | 5 => { dst with spectrumSmoothing := src.spectrumSmoothing }
  | 6 => { dst with flags := src.flags }
  | 7 => { dst with phaseStep := src.phaseStep }
  | _ => dst

/-- The fields of both copies of the filter control, as RESET_STATE clears them (R391). -/
def filterControlWrites (t : State) : List WordAccess :=
  (List.range 8).map (fun f u => { u with fcStaged := t.fcStaged.copyField u.fcStaged f }) ++
  (List.range 8).map (fun f u => { u with fcActive := t.fcActive.copyField u.fcActive f })

/-- SQ_MODE takes its value in t. -/
def sqModeWrite (t : State) : WordAccess := fun u => { u with sq := { u.sq with mode := t.sq.mode } }
/-- SQ_THRESHOLD takes its value in t. -/
def sqThresholdWrite (t : State) : WordAccess := fun u => { u with sq := { u.sq with threshold := t.sq.threshold } }
/-- SQ_TIMEOUT takes its value in t. -/
def sqTimeoutWrite (t : State) : WordAccess := fun u => { u with sq := { u.sq with timeout := t.sq.timeout } }
/-- SQ_COUNT takes its value in t. -/
def sqCountWrite (t : State) : WordAccess := fun u => { u with sq := { u.sq with count := t.sq.count } }
/-- SQ_S9 takes its value in t. -/
def sqS9Write (t : State) : WordAccess := fun u => { u with sq := { u.sq with s9 := t.sq.s9 } }

/-- RESET_STATE: the lines of R391 in order; within a line, the statement's words in any order (R391; entry 27). -/
def resetWrites (d : Nat) (t : State) : List WordAccess :=
  anyOrder d 0 [dIWrite t, dQWrite t, resIWrite t, resQWrite t, resValidWrite t] ++
  anyOrder d 1 [errWrite t, errCodeWrite t, ovfWrite t, fcChangedWrite t] ++ [outCountWrite t] ++
  anyOrder d 2 (filterControlWrites t) ++ [frameFillWrite t] ++
  anyOrder d 3 ((List.range t.par.fftN).map (capWrite t)) ++ [notchCntWrite t] ++
  anyOrder d 4 [peakIdxWrite t, runnerIdxWrite t] ++
  [sqModeWrite t] ++ anyOrder d 5 [sqThresholdWrite t, sqTimeoutWrite t, sqCountWrite t, sqS9Write t]

/-- SQ_STEP: in FALL one row of the table assigns SQ_MODE and SQ_COUNT; in SIGNALLO the count comes first; no other mode
changes both (R303; entry 27). -/
def sqStepWrites (d : Nat) (s t : State) : List WordAccess :=
  if s.sq.mode = .fall then anyOrder d 1 [sqModeWrite t, sqCountWrite t] else [sqCountWrite t, sqModeWrite t]

/-- The word accesses of a command with operands in range that takes s to t. -/
def instrWrites (i : Instr) (s t : State) : List WordAccess :=
  match i with
  | .nop => []
  | .softReset => resetWrites s.draws t
  | .seti _ => [dIWrite t]
  | .setq _ => [dQWrite t]
  | .cfgWrite _ _ => [fun u => { u with fcStaged := t.fcStaged }, fcChangedWrite t]
  | .cfgPublish => [fcChangedWrite t]
  | .clrErr => [errWrite t, errCodeWrite t, ovfWrite t]
  | .processBlock sel n => blockWrites sel n s
  | .cicStep _ => applyWrites s ++ resultWrites t
  | .hb1Step => resultWrites t
  | .hb2Step => resultWrites t
  | .droop _ => applyWrites s ++ resultPair s.draws t ++ [resValidWrite t]
  | .nrBin _ _ => applyWrites s ++ resultPair s.draws t ++ [resValidWrite t]
  | .fftPush =>
    applyWrites s ++ framePushWrites (applyPoint s) t ++ [resValidWrite t] ++ resultPair s.draws t
  | .sqInit _ => [sqTimeoutWrite t, sqCountWrite t, sqThresholdWrite t, sqModeWrite t]
  | .sqEnable _ => [sqThresholdWrite t, sqModeWrite t]
  | .sqDisable => [sqModeWrite t]
  | .sqCalibrate _ => [sqS9Write t]
  | .sqSetTimeout _ => [sqTimeoutWrite t]
  | .sqUpdate _ =>
    sqStepWrites s.draws s t ++ [resIWrite t, resQWrite t, resValidWrite t]

/-- The word accesses of a command word that takes s to t: those of its command, or those of raising an error when the
word does not decode or an operand is out of range (R136, R362). -/
def commandWrites (w : Word) (s t : State) : List WordAccess :=
  match decode w with
  | .ok i => if i.wf s.par then instrWrites i s t else errorWrites t
  | .error _ => errorWrites t

end Sys2Proof.Machine
end

