-- ==== Sys2Proof/Machine/Step.lean ====
section
/-! DEFINITION. One step of the machine: the next host access, which for a CMD write is a whole command. -/

namespace Sys2Proof.Machine

/-- Decodes and runs a command word (R136): a word that does not decode raises its command error (R362). -/
def runWord (w : Word) (s : State) : Host.Outcome State Fault Refusal :=
  match decode w with
  | .ok i => exec i s
  | .error e => .next (raiseCmdError e s)

/-- A command from the acceptance of its CMD write to BUSY = 0, with the host accesses that overlap it (R110-R114). -/
def runCommand (w : Word) (rest : List HostOp) (s : State) : Host.Outcome State Fault Refusal :=
  match runWord w (beginCommand rest s) with
  | .next t => .next (endCommand (commandWrites w (beginCommand rest s) t) (beginCommand rest s) t)
  | .fault r => .fault r
  | .refused r => .refused r

/-- One step: the oldest pending host access, refused if it or an access overlapping its command is not one whole
word (R106); with nothing pending the block is idle and keeps all state (R375, entry 5). -/
def step (s : State) : Host.Outcome State Fault Refusal :=
  match s.pending with
  | [] => .next s
  | op :: rest =>
    if acceptable op rest then
      match op.access.command with
      | some w => runCommand w rest s
      | none => .next (hostAccess op.access { s with pending := rest })
    else .refused .hostAccess

/-- The state in which the host's next access writes the command word of an opcode-table row to CMD, so that the very
next step runs exactly that command (entry 4). -/
def State.withFetchWord (s : State) (nbits w : Nat) : State :=
  { s with pending := ⟨cmdWrite (tableWord nbits w), false⟩ :: s.pending }

end Sys2Proof.Machine
end

