-- ==== Sys2Proof/Machine/Assembler.lean ====
section
/-! DEFINITION. The assembler syntax and the pseudo-instructions of 30_encoding.md (R137, R138): one line of text to
the commands it stands for. A line is a list of characters. -/

namespace Sys2Proof.Machine

/-- The value of a digit in base 16, if it is one. -/
def hexDigit (c : Char) : Option Nat :=
  if '0' ≤ c ∧ c ≤ '9' then some (c.toNat - '0'.toNat)
  else if 'a' ≤ c ∧ c ≤ 'f' then some (c.toNat - 'a'.toNat + 10)
  else if 'A' ≤ c ∧ c ≤ 'F' then some (c.toNat - 'A'.toNat + 10)
  else none

/-- The digits of a number in a base, most significant first, onto an accumulator. -/
def digits (base : Nat) : Nat → List Char → Option Nat
  | acc, [] => some acc
  | acc, c :: rest =>
    match hexDigit c with
    | some d => if d < base then digits base (acc * base + d) rest else none
    | none => none

/-- A decimal or 0x hexadecimal numeral without sign (R137). -/
def numeral : List Char → Option Nat
  | '0' :: 'x' :: c :: rest => digits 16 0 (c :: rest)
  | c :: rest => digits 10 0 (c :: rest)
  | [] => none

/-- An operand: a numeral, or a minus sign and a numeral (R137). -/
def operand : List Char → Option Int
  | '-' :: rest => (numeral rest).map fun n => -(n : Int)
  | cs => (numeral cs).map fun n => (n : Int)

/-- Cuts a list of characters at each separator. -/
def cutAt (sep : Char) : List Char → List (List Char)
  | [] => [[]]
  | c :: rest =>
    if c = sep then [] :: cutAt sep rest
    else
      match cutAt sep rest with
      | w :: ws => (c :: w) :: ws
      | [] => [[c]]

/-- All results, or none if one is missing. -/
def allSome : List (Option Int) → Option (List Int)
  | [] => some []
  | some x :: rest => (allSome rest).map (x :: ·)
  | none :: _ => none

/-- The operands of a line: the characters after the mnemonic, blanks dropped, cut at commas (R137). -/
def operands (cs : List Char) : Option (List Int) :=
  match cs.filter (· ≠ ' ') with
  | [] => some []
  | c :: rest => allSome ((cutAt ',' (c :: rest)).map operand)

/-- A uimm operand must be in 0..65535 (R137). -/
def asUimm (x : Int) : Option Half := if 0 ≤ x ∧ x ≤ 65535 then some (BitVec.ofInt 16 x) else none

/-- A simm operand must be in −32768..32767 and encodes as its two's complement (R137). -/
def asSimm (x : Int) : Option Half := if -32768 ≤ x ∧ x ≤ 32767 then some (BitVec.ofInt 16 x) else none

/-- A field index is one byte (R131). -/
def asFld (x : Int) : Option (BitVec 8) := if 0 ≤ x ∧ x ≤ 255 then some (BitVec.ofInt 8 x) else none

/-- A selector is 0 or 1 (R131). CFG_FLAGS takes its five operands through it too, which is the model's choice (DESIGN
CHOICE, entry 26): R138 gives them no range. -/
def asBit (x : Int) : Option Bool := if x = 0 then some false else if x = 1 then some true else none

/-- A u32 operand of a pseudo-instruction (R138). -/
def asU32 (x : Int) : Option Word := if 0 ≤ x ∧ x < 2 ^ 32 then some (BitVec.ofInt 32 x) else none

/-- SETIQ i, q (R138). -/
def pseudoSetIq (x y : Half) : List Instr := [.seti x, .setq y]

/-- CFG_STEP s (R138). -/
def pseudoCfgStep (w : Word) : List Instr := [.cfgWrite 7 (w.extractLsb' 0 16), .cfgWrite 8 (w.extractLsb' 16 16)]

/-- CFG_FLAGS lsb, usb, cap, notch, nr (R138). -/
def pseudoCfgFlags (lsb usb cap notch nr : Bool) : List Instr :=
  [.cfgWrite 6 (BitVec.ofNat 16 (lsb.toNat + 2 * usb.toNat + 4 * cap.toNat + 8 * notch.toNat + 16 * nr.toNat))]

/-- CFG_BINS a, b (R138). -/
def pseudoCfgBins (a b : Half) : List Instr := [.cfgWrite 0 a, .cfgWrite 1 b]

/-- SYNC (R138). -/
def pseudoSync : List Instr := [.processBlock .in0 0]

/-- A line with no operand: format N and SYNC (R137, R138). -/
def assemble0 (m : String) : Option (List Instr) :=
  match m with
  | "NOP" => some [.nop]
  | "SOFT_RESET" => some [.softReset]
  | "CFG_PUBLISH" => some [.cfgPublish]
  | "CLR_ERR" => some [.clrErr]
  | "HB1_STEP" => some [.hb1Step]
  | "HB2_STEP" => some [.hb2Step]
  | "FFT_PUSH" => some [.fftPush]
  | "SQ_DISABLE" => some [.sqDisable]
  | "SYNC" => some pseudoSync
  | _ => none

/-- A line with one operand: format I and CFG_STEP (R137, R138). -/
def assemble1 (m : String) (x : Int) : Option (List Instr) :=
  match m with
  | "SETI" => (asSimm x).map fun v => [.seti v]
  | "SETQ" => (asSimm x).map fun v => [.setq v]
  | "DROOP" => (asSimm x).map fun v => [.droop v]
  | "CIC_STEP" => (asUimm x).map fun v => [.cicStep v]
  | "SQ_INIT" => (asUimm x).map fun v => [.sqInit v]
  | "SQ_ENABLE" => (asUimm x).map fun v => [.sqEnable v]
  | "SQ_CALIBRATE" => (asUimm x).map fun v => [.sqCalibrate v]
  | "SQ_SET_TIMEOUT" => (asUimm x).map fun v => [.sqSetTimeout v]
  | "SQ_UPDATE" => (asUimm x).map fun v => [.sqUpdate v]
  | "CFG_STEP" => (asU32 x).map pseudoCfgStep
  | _ => none

/-- A line with two operands: formats F and X, SETIQ and CFG_BINS (R137, R138). -/
def assemble2 (m : String) (x y : Int) : Option (List Instr) :=
  match m with
  | "CFG_WRITE" => (asFld x).bind fun f => (asUimm y).map fun v => [.cfgWrite f v]
  | "PROCESS_BLOCK" => (asBit x).bind fun b => (asUimm y).map fun v => [.processBlock (InSel.ofBit b) v]
  | "NR_BIN" => (asBit x).bind fun b => (asUimm y).map fun v => [.nrBin (Side.ofBit b) v]
  | "SETIQ" => (asSimm x).bind fun v => (asSimm y).map fun w => pseudoSetIq v w
  | "CFG_BINS" => (asUimm x).bind fun v => (asUimm y).map fun w => pseudoCfgBins v w
  | _ => none

/-- A mnemonic with its operands to commands; none where the assembler rejects the line (R137). DESIGN CHOICE (entry
26): a CFG_FLAGS line with an operand other than 0 and 1 is rejected; R138 states its sum and no range of the operands. -/
def assemble (m : String) (ops : List Int) : Option (List Instr) :=
  match ops with
  | [] => assemble0 m
  | [x] => assemble1 m x
  | [x, y] => assemble2 m x y
  | [a, b, c, d, e] =>
    if m = "CFG_FLAGS" then
      match asBit a, asBit b, asBit c, asBit d, asBit e with
      | some a, some b, some c, some d, some e => some (pseudoCfgFlags a b c d e)
      | _, _, _, _, _ => none
    else none
  | _ => none

/-- One line of assembler text: the mnemonic up to the first blank, then the operands (R137). -/
def assembleLine (line : List Char) : Option (List Instr) :=
  (operands (line.dropWhile (· ≠ ' '))).bind fun ops => assemble (String.ofList (line.takeWhile (· ≠ ' '))) ops

end Sys2Proof.Machine
end

