-- ==== Sys2Proof/Safety.lean ====
section
/-! DEFINITION. The terms in which claims about the block are stated: the invariant of its states, the duties of the
host, sequences of calls of one unit, the unbounded-integer reference of the CIC decimator (R172), and the terms of
the claims about commands. -/

namespace Sys2Proof.Machine

/-! ## The invariant of the block's states -/

/-- A bin register holds an index of the half-length spectrum or NONE (R65). -/
def BinRegInv (h : Nat) (r : Half) : Prop := r.toNat < h ∨ r = noBin

/-- The CIC decimator: DC within the signed ADC range (R55), DEC_CNT in 0..CIC_R−1 (R56). -/
structure CicInv (p : Params) (c : Cic) : Prop where
  dc_low : -(2 ^ (p.adcBits - 1) : Nat) ≤ c.dc.toInt
  dc_high : c.dc.toInt < (2 ^ (p.adcBits - 1) : Nat)
  dec : c.decCnt.toNat < p.cicR

/-- A half-band stage with buffer length l: L entries, PTR in 0..L−1, FILL in 0..L (R60); until the buffer is full the
pointer counts the inputs (R191). -/
structure HalfBandInv (l : Nat) (b : HalfBand) : Prop where
  len : b.buf.length = l
  ptr : b.ptr < l
  fill : b.fill ≤ l
  filling : b.fill < l → b.ptr = b.fill

/-- The estimates: H entries each (R63), SIG at most 40960, NOISE at least 1 and at most 40960·2^15 (R223, R231). -/
structure NrInv (h : Nat) (n : NrEstimates) : Prop where
  lenSigPos : n.sigPos.length = h
  lenSigNeg : n.sigNeg.length = h
  lenNoisePos : n.noisePos.length = h
  lenNoiseNeg : n.noiseNeg.length = h
  sigPos : ∀ x ∈ n.sigPos, x.toNat ≤ 40960
  sigNeg : ∀ x ∈ n.sigNeg, x.toNat ≤ 40960
  noisePos : ∀ x ∈ n.noisePos, 1 ≤ x.toNat ∧ x.toNat ≤ 40960 * 2 ^ 15
  noiseNeg : ∀ x ∈ n.noiseNeg, 1 ≤ x.toNat ∧ x.toNat ≤ 40960 * 2 ^ 15

/-- The FFT filter: the lengths of R62-R64, FRAME_FILL in 0..H−1, CAP in [0, 40960] (R64), NOTCH_CNT in 0..NOTCH_MAX
and bin registers in range (R65). -/
structure FftInv (p : Params) (f : Fft) : Prop where
  lenFrame : f.frame.length = p.half
  fill : f.frameFill < p.half
  lenPrevIn : f.prevIn.length = p.half
  lenPrevOut : f.prevOut.length = p.quarter
  nr : NrInv p.half f.nr
  lenCap : f.cap.length = p.fftN
  cap : ∀ x ∈ f.cap, x.toNat ≤ 40960
  notch : f.notchCnt.toNat ≤ p.notchMax
  prevPeak : BinRegInv p.half f.prevPeak
  peakIdx : BinRegInv p.half f.peakIdx
  runnerIdx : BinRegInv p.half f.runnerIdx

/-- The state between two steps: parameters that meet their constraints, every unit in its ranges, ERR_CODE 0 exactly
when ERR is 0 (R45, R365), OUT_COUNT at most OUT_MAX (R47), SQ_COUNT 0 in TIMEOUT (R312), memory in canonical form,
BUSY 0 and no access left over from a command (R111). -/
structure Inv (s : State) : Prop where
  par : s.par.wf = true
  cic : CicInv s.par s.cic
  hb1 : HalfBandInv Config.hb1L s.hb1
  hb2 : HalfBandInv Config.hb2L s.hb2
  fft : FftInv s.par s.fft
  err : s.errCode = none ↔ s.err = false
  out : s.outCount.toNat ≤ s.par.outMax
  sq : s.sq.mode = .timeout → s.sq.count = 0
  mem : s.mem.wf = true
  busy : s.busy = false
  overlap : s.overlap = []

/-! ## Duties of the host -/

/-- The host keeps R115 (3) and R401: while the command runs it writes none of the words 0..n−1 of IN_sel. -/
def OwnsInput (sel : InSel) (n : Nat) (s : State) : Prop := ∀ a, a < n → racingWrites s sel a = []

/-- The filter control the next apply point leaves active is well-formed, so that no frame and no NR_BIN is refused
(R53, R336, R367). -/
def FilterReady (s : State) : Prop := (applyPoint s).fcActive.wf = true

/-- The host makes no access while the command at the head of the queue is busy (R400). -/
def NoOverlap (rest : List HostOp) : Prop := overlapping rest = []

/-! ## Host accesses that overlap a command -/

/-- No access of the list writes word a of the space. -/
def NoWrite (l : List HostAccess) (sp : Space) (a : Nat) : Prop :=
  ∀ x ∈ l, x.space = sp → x.addr = a → x.kind = .read

/-- The last write of word a of the space in the list carries v. -/
def LastWrite (l : List HostAccess) (sp : Space) (a : Nat) (v : Word) : Prop :=
  ∃ l1 x l2, l = l1 ++ x :: l2 ∧ x.space = sp ∧ x.addr = a ∧ x.kind = .write v ∧ NoWrite l2 sp a

/-- What f reads of a command with word accesses ws that takes s to t is, at every place, what it reads of s or what it
reads of t, and from a place at which it is the new one on it stays the new one (R112, R114). -/
def OldThenNew {α : Type} (f : State → α) (ws : List WordAccess) (s t : State) : Prop :=
  ∀ p, (f (viewAt ws p s t) = f s ∨ f (viewAt ws p s t) = f t) ∧
    ∀ q, p ≤ q → f (viewAt ws p s t) = f t → f (viewAt ws q s t) = f t

/-- The same for every stored bit and field of STATUS but BUSY, which is 1 as long as the command runs (R45, R111). -/
def StatusOldThenNew (ws : List WordAccess) (s t : State) : Prop :=
  OldThenNew State.err ws s t ∧ OldThenNew State.errCode ws s t ∧ OldThenNew State.fcChanged ws s t ∧
  OldThenNew State.ovf ws s t ∧ OldThenNew State.resValid ws s t ∧ OldThenNew (fun u => u.sq.mode) ws s t

/-- The state after the first m words of PROCESS_BLOCK sel, n started in s, for m up to n (R339). -/
def blockPrefix (sel : InSel) (m : Nat) (s : State) : Except Refusal State :=
  blockLoop sel m 0 (blockStartWrites s).length (blockStart s)

/-- At every place p of a block of n words, P relates what the host sees there to the state after some number f p of the
block's words, and that number never goes back (R112, R114). -/
def HeldAfterWords (sel : InSel) (n : Nat) (s t : State) (ws : List WordAccess) (P : Nat → State → State → Prop) :
    Prop :=
  ∃ f : Nat → Nat, Monotone f ∧ ∀ p, f p ≤ n ∧ ∃ u, blockPrefix sel (f p) s = .ok u ∧ P (f p) u (viewAt ws p s t)

/-! ## Sequences of calls of one unit -/

/-- CIC ticks over a list of raw codes: the outputs in order and the state after the last tick. -/
def cicRun (p : Params) (step : Word) : List Nat → Cic → List Sample × Cic
  | [], c => ([], c)
  | r :: rest, c =>
    let t := cicTick p step r c
    let u := cicRun p step rest t.2
    (t.1.toList ++ u.1, u.2)

/-- Half-band calls over a list of samples: the outputs in order and the state after the last call. -/
def hbRun (l : Nat) (h : List Int) : List Sample → HalfBand → List Sample × HalfBand
  | [], b => ([], b)
  | z :: rest, b =>
    let t := hbStep l h z b
    let u := hbRun l h rest t.2
    (t.1.toList ++ u.1, u.2)

/-- Samples pushed one after another into the FFT filter's frame (R264). -/
def pushRun : List Sample → State → Except Refusal State
  | [], s => .ok s
  | z :: rest, s =>
    match framePush z s with
    | .ok (_, t) => pushRun rest t
    | .error e => .error e

/-- Squelch updates over a list of levels. -/
def sqRun : List Half → Squelch → Squelch
  | [], q => q
  | x :: rest, q => sqRun rest (sqStep q x)

/-- The hysteresis counter over n frames that all find the peak k, from a filter whose previous peak was `prev`. -/
def notchRun (p : Params) (k : Nat) : Nat → Half → Half → Half
  | 0, _, cnt => cnt
  | n + 1, prev, cnt => notchRun p k n (binReg (some k)) (notchCount p prev (some k) cnt)

/-- Peak tracking over a list of (index, magnitude) pairs. -/
def trackRun (l : List (Nat × Nat)) : Tracker := l.foldl (fun t e => t.track e.1 e.2) .start

/-! ## The CIC filter over unbounded integers (R172) -/

/-- Four unbounded integers: integrators or comb delays. -/
structure IntQuad where
  s0 : Int
  s1 : Int
  s2 : Int
  s3 : Int
deriving DecidableEq, Repr

/-- All four 0. -/
def IntQuad.zero : IntQuad := ⟨0, 0, 0, 0⟩

/-- The integrators of R167 without the wrap. -/
def exactIntegrate (v : Int) (q : IntQuad) : IntQuad :=
  ⟨q.s0 + v, q.s1 + (q.s0 + v), q.s2 + (q.s1 + (q.s0 + v)), q.s3 + (q.s2 + (q.s1 + (q.s0 + v)))⟩

/-- The combs of R168 without the wrap. -/
def exactComb (u : Int) (d : IntQuad) : Int × IntQuad :=
  (u - d.s0 - d.s1 - d.s2 - d.s3, ⟨u, u - d.s0, u - d.s0 - d.s1, u - d.s0 - d.s1 - d.s2⟩)

/-- One rail of the CIC filter, wrapping (R167, R168), over a list of (input, whether this tick emits): the values u4. -/
def railRun : List (Int × Bool) → Quad → Quad → List Word
  | [], _, _ => []
  | (v, emit) :: rest, q, d =>
    if emit then (comb (integrate v q).s3 d).1 :: railRun rest (integrate v q) (comb (integrate v q).s3 d).2
    else railRun rest (integrate v q) d

/-- The same rail over unbounded integers: the values y of R172. -/
def exactRun : List (Int × Bool) → IntQuad → IntQuad → List Int
  | [], _, _ => []
  | (v, emit) :: rest, q, d =>
    if emit then
      (exactComb (exactIntegrate v q).s3 d).1 :: exactRun rest (exactIntegrate v q) (exactComb (exactIntegrate v q).s3 d).2
    else exactRun rest (exactIntegrate v q) d

/-! ## Terms of the claims about commands -/

/-- The opcodes of format N, from R131's column "used by" and R133's numbers. -/
def opcodesN : List Nat := [0x00, 0x01, 0x05, 0x06, 0x11, 0x12, 0x15, 0x22]

/-- The opcodes of format I (R131, R133). -/
def opcodesI : List Nat := [0x02, 0x03, 0x10, 0x13, 0x20, 0x21, 0x23, 0x24, 0x25]

/-- The opcodes of format F (R131, R133). -/
def opcodesF : List Nat := [0x04]

/-- The opcodes of format X (R131, R133). -/
def opcodesX : List Nat := [0x07, 0x14]

/-- Commands run one after another, each from its CMD write to its last effect before the next begins (R110). -/
def commandsRun : List Word → State → Host.Outcome State Fault Refusal
  | [], s => .next s
  | w :: ws, s =>
    match runWord w { s with busy := true } with
    | .next t => commandsRun ws { t with busy := false }
    | .fault r => .fault r
    | .refused r => .refused r

/-- How many of the next m calls of a half-band stage with buffer length l emit (R192, R199): once the buffer is full,
every call at an odd pointer; before that, none until the call that fills the buffer, then every second one. -/
def hbEmissions (l : Nat) (b : HalfBand) (m : Nat) : Nat :=
  if b.fill = l then (m + b.ptr % 2) / 2
  else if b.fill + m < l then 0
  else (b.fill + m - l) / 2 + 1

/-- The pass bins of a frame in the order of the two walks, each with its index in Y and its magnitude after droop
correction (R257-R260). -/
def passBins (p : Params) (fc : FilterControl) (x : List Sample) : List (Nat × Nat) :=
  ((List.range p.quarter).filter (fc.passes .pos)).map
      (fun (k : Nat) => (k, mag (droopCorr p fc.loBinOffset.toInt (k : Int) (x.getD k .zero)))) ++
    ((List.range' 1 p.quarter).filter (fc.passes .neg)).map
      (fun (j : Nat) => (p.half - j, mag (droopCorr p fc.loBinOffset.toInt (-(j : Int)) (x.getD (p.fftN - j) .zero))))

/-- Entry i of a list of (index, magnitude) pairs is the first of largest magnitude, and that magnitude is not 0 (R260). -/
def FirstLargest (l : List (Nat × Nat)) (i : Nat) (e : Nat × Nat) : Prop :=
  l[i]? = some e ∧ 0 < e.2 ∧ (∀ x ∈ l, x.2 ≤ e.2) ∧ ∀ j x, j < i → l[j]? = some x → x.2 < e.2

/-- Byte x of a buffer lies in none of the words lo, …, hi−1 of OUT_I and OUT_Q. -/
def outsideOut (b : Buffer) (x lo hi : Nat) : Prop := (b ≠ .outI ∧ b ≠ .outQ) ∨ x < 2 * lo ∨ 2 * hi ≤ x

end Sys2Proof.Machine
end

