-- ==== Sys2Proof/Certificates/Slice0/Obligations.lean ====
section
/-! DEFINITION. The statements about the block, for the provers. Each docstring names the rules of spec/ that the
statement formalises or rests on. -/

section ObligationsSlice0

open Sys2Proof Sys2Proof.Machine

/-! ## Encoding and decoding -/

/-- Decoding an encoded command gives it back, as a word and as bytes with anything behind it (R130-R133, R105). -/
def Obligations.DecodeEncodeRoundTrip : Prop :=
  ∀ (i : Instr) (rest : List Byte),
    decode (encode i) = .ok i ∧ decodeBytes (encodeBytes i ++ rest) = .ok (i, rest)

/-- A word that decodes is the encoding of what it decodes to: no bit of a command word is ignored (R130-R134). -/
def Obligations.DecodedWordReencodes : Prop :=
  ∀ (w : Word) (i : Instr), decode w = .ok i → encode i = w

/-- Which words raise which error at decode: an opcode outside the map raises ILLEGAL_OPCODE, and a set bit that the
format marks 0 raises RESERVED_FIELD (R131, R134, R136). -/
def Obligations.DecodeErrorsByFormat : Prop :=
  ∀ w : Word,
    (decode w = .error .illegalOpcode ↔ w.toNat / 2 ^ 24 ∉ opcodesN ++ opcodesI ++ opcodesF ++ opcodesX) ∧
    (decode w = .error .reservedField ↔
      (w.toNat / 2 ^ 24 ∈ opcodesN ∧ w.toNat % 2 ^ 24 ≠ 0) ∨
      (w.toNat / 2 ^ 24 ∈ opcodesI ∧ w.toNat / 2 ^ 16 % 2 ^ 8 ≠ 0) ∨
      (w.toNat / 2 ^ 24 ∈ opcodesX ∧ w.toNat / 2 ^ 17 % 2 ^ 7 ≠ 0)) ∧
    decode w ≠ .error .operandRange

/-- Words written out from the encodings of R131 and R133 decode to the commands they stand for. -/
def Obligations.TableWordsDecode : Prop :=
  decode 0x00000000 = .ok .nop ∧ decode 0x0200FFFB = .ok (.seti 0xFFFB) ∧
  decode 0x04060013 = .ok (.cfgWrite 6 0x0013) ∧ decode 0x07010FA0 = .ok (.processBlock .in1 4000) ∧
  decode 0x10000864 = .ok (.cicStep 2148) ∧ decode 0x11000000 = .ok .hb1Step ∧
  decode 0x1300FFFE = .ok (.droop 0xFFFE) ∧ decode 0x1401007F = .ok (.nrBin .neg 127) ∧
  decode 0x15000000 = .ok .fftPush ∧ decode 0x250003E9 = .ok (.sqUpdate 1001) ∧
  decode 0x2101000D = .error .reservedField ∧ decode 0x08000000 = .error .illegalOpcode

/-- A command word is decided in R136's order: a decode error is raised; then an operand out of range raises
OPERAND_RANGE; then the command's rule runs, and it raises nothing, whatever ERR is: from a state with ERR and ERR_CODE
at any values it does the same as from s, and leaves those two as they are, or, for CLR_ERR and SOFT_RESET, cleared; BUSY
is cleared by no command but SOFT_RESET (R136, R362, R363). -/
def Obligations.CommandProcedure : Prop :=
  ∀ (w : Word) (s : State),
    (∀ e, decode w = .error e → runWord w s = .next (raiseCmdError e s)) ∧
    (∀ i, decode w = .ok i → i.wf s.par = false → runWord w s = .next (raiseCmdError .operandRange s)) ∧
    (∀ i, decode w = .ok i → i.wf s.par = true →
      runWord w s = exec i s ∧
      (∀ t, exec i s = .next t → (t.err = true → s.err = true) ∧ (i ≠ .softReset → t.busy = s.busy)) ∧
      ∀ (err : Bool) (code : Option CmdError),
        (∀ t, exec i s = .next t → i ≠ .clrErr → i ≠ .softReset → t.err = s.err ∧ t.errCode = s.errCode ∧
          exec i { s with err := err, errCode := code } = .next { t with err := err, errCode := code }) ∧
        (∀ t, exec i s = .next t → i = .clrErr ∨ i = .softReset → t.err = false ∧ t.errCode = none ∧
          exec i { s with err := err, errCode := code } = .next t) ∧
        ∀ r, exec i s = .refused r → exec i { s with err := err, errCode := code } = .refused r)

/-- The causes of OPERAND_RANGE, command by command (R361). -/
def Obligations.OperandRangeErrors : Prop :=
  ∀ s : State,
    (∀ r : Half, 2 ^ s.par.adcBits ≤ r.toNat → exec (.cicStep r) s = .next (raiseCmdError .operandRange s)) ∧
    (∀ (side : Side) (b : Half), s.par.fftN / 2 ≤ b.toNat →
      exec (.nrBin side b) s = .next (raiseCmdError .operandRange s)) ∧
    (∀ (f : BitVec 8) (v : Half), 8 < f.toNat ∨ (f = 6 ∧ 32 ≤ v.toNat) →
      exec (.cfgWrite f v) s = .next (raiseCmdError .operandRange s)) ∧
    (∀ (sel : InSel) (n : Half), n.toNat % 2 = 1 ∨ s.par.inBufSize < n.toNat →
      exec (.processBlock sel n) s = .next (raiseCmdError .operandRange s)) ∧
    (∀ l : Half, 12 < l.toNat → exec (.sqEnable l) s = .next (raiseCmdError .operandRange s))

/-! ## Command errors -/

/-- A CMD write that raises an error, with no host access overlapping it, changes nothing but ERR and, if ERR was 0,
ERR_CODE; BUSY ends at 0 (R362). With overlapping accesses StepRunsDecodedCommand says what the step adds. -/
def Obligations.CommandErrorIsPrecise : Prop :=
  ∀ (s : State) (w : Word) (b : Bool) (rest : List HostOp) (e : CmdError),
    s.pending = ⟨cmdWrite w, b⟩ :: rest → NoOverlap rest → s.busy = false → s.overlap = [] →
    (decode w = .error e ∨ ∃ i, decode w = .ok i ∧ i.wf s.par = false ∧ e = .operandRange) →
    step s = .next { s with errCode := if s.err then s.errCode else some e, err := true, pending := rest }

/-- ERR is sticky: while it is 1, no step but a CLR_ERR or a SOFT_RESET changes ERR or ERR_CODE, and each of those two
clears both; a step that raises no error, whatever ERR is, changes neither unless it is one of those two; and after a
clear, an illegal opcode and then an operand out of range leave ERR = 1 and ERR_CODE = 1 (R365). -/
def Obligations.ErrorStatusIsSticky : Prop :=
  (∀ s t : State, s.err = true → step s = .next t →
    (∀ w b rest, s.pending = ⟨cmdWrite w, b⟩ :: rest → decode w ≠ .ok .clrErr ∧ decode w ≠ .ok .softReset) →
    t.err = true ∧ t.errCode = s.errCode) ∧
  (∀ s t : State, step s = .next t →
    (∀ w b rest, s.pending = ⟨cmdWrite w, b⟩ :: rest →
      ∃ i, decode w = .ok i ∧ i.wf s.par = true ∧ i ≠ .clrErr ∧ i ≠ .softReset) →
    t.err = s.err ∧ t.errCode = s.errCode) ∧
  (∀ s : State, ∃ t, exec .clrErr s = .next t ∧ t.err = false ∧ t.errCode = none) ∧
  (∀ s : State, ∃ t, exec .softReset s = .next t ∧ t.err = false ∧ t.errCode = none) ∧
  (∀ s : State, ∃ t, commandsRun [0x06000000, 0xFF000000, 0x2100000D] s = .next t ∧
    t.err = true ∧ t.errCode = some .illegalOpcode)

/-- The filter control that the apply point leaves active is well-formed iff the three conditions of R53 hold. While
it is not, NR_BIN is refused, FFT_PUSH is refused when it completes a frame, and PROCESS_BLOCK is refused when its words
complete at least one frame and completes otherwise; no other command is ever refused, none for another reason, and none
faults (R53, R230, R252, R264, R340, R360, R367; entry 16). -/
def Obligations.RefusedForFilterControlOnly : Prop :=
  ∀ (i : Instr) (s : State),
    (FilterReady s ↔
      let fc := if s.fcChanged then s.fcStaged else s.fcActive
      fc.startBin.toNat ≤ fc.stopBin.toNat ∧ fc.noiseSmoothing.toNat ≤ 15 ∧ fc.spectrumSmoothing.toNat ≤ 15) ∧
    (¬FilterReady s → ∀ (side : Side) (b : Half), b.toNat < s.par.fftN / 2 →
      exec (.nrBin side b) s = .refused .fcPrecondition) ∧
    (¬FilterReady s → s.fft.frameFill + 1 = s.par.fftN / 2 → exec .fftPush s = .refused .fcPrecondition) ∧
    (¬FilterReady s → s.par.wf = true → s.cic.decCnt.toNat < s.par.cicR → HalfBandInv 32 s.hb1 →
      HalfBandInv 64 s.hb2 → s.fft.frameFill < s.par.fftN / 2 →
      ∀ (sel : InSel) (n : Half), n.toNat % 2 = 0 → n.toNat ≤ s.par.inBufSize →
        let c := (s.cic.decCnt.toNat + n.toNat) / s.par.cicR
        let filled := s.fft.frameFill + hbEmissions 64 s.hb2 (hbEmissions 32 s.hb1 c)
        (s.par.fftN / 2 ≤ filled → exec (.processBlock sel n) s = .refused .fcPrecondition) ∧
        (filled < s.par.fftN / 2 → ∃ t, exec (.processBlock sel n) s = .next t)) ∧
    (∀ f, exec i s ≠ .fault f) ∧
    (∀ r, exec i s = .refused r → r = .fcPrecondition ∧ ¬FilterReady s ∧ i.wf s.par = true ∧
      (i = .fftPush ∨ (∃ side b, i = .nrBin side b) ∨ ∃ sel n, i = .processBlock sel n))

/-! ## Status and registers -/

/-- The fields of the STATUS word (R45). -/
def Obligations.StatusWordLayout : Prop :=
  ∀ s : State,
    (statusWord s).getLsbD 0 = s.busy ∧ (statusWord s).getLsbD 1 = s.err ∧
    (statusWord s).extractLsb' 2 4 = (match s.errCode with
      | none => 0
      | some .illegalOpcode => 1
      | some .reservedField => 2
      | some .operandRange => 3) ∧
    (statusWord s).getLsbD 6 = s.fcChanged ∧ (statusWord s).getLsbD 7 = s.ovf ∧
    (statusWord s).getLsbD 8 = s.resValid ∧ (statusWord s).extractLsb' 10 22 = 0

/-- SQ_OPEN, bit 9 of STATUS, is 0 exactly in ENABLED and TIMEOUT (R310). -/
def Obligations.SqOpenGate : Prop :=
  ∀ s : State, (statusWord s).getLsbD 9 = false ↔ (s.sq.mode = .enabled ∨ s.sq.mode = .timeout)

/-- What a host read of each REG address returns, SQ_MODE by its eight numbers; CMD and every unlisted address read 0
(R69, R72). -/
def Obligations.RegisterMap : Prop :=
  ∀ s : State,
    hostRead s .reg 0x00 = 0 ∧ hostRead s .reg 0x01 = statusWord s ∧
    hostRead s .reg 0x02 = s.resI.signExtend 32 ∧ hostRead s .reg 0x03 = s.resQ.signExtend 32 ∧
    hostRead s .reg 0x04 = s.outCount.setWidth 32 ∧ hostRead s .reg 0x05 = s.dI.signExtend 32 ∧
    hostRead s .reg 0x06 = s.dQ.signExtend 32 ∧ hostRead s .reg 0x07 = BitVec.ofNat 32 s.fft.frameFill ∧
    hostRead s .reg 0x08 = s.fft.peakIdx.setWidth 32 ∧ hostRead s .reg 0x09 = s.fft.runnerIdx.setWidth 32 ∧
    hostRead s .reg 0x0A = s.fft.notchCnt.setWidth 32 ∧ hostRead s .reg 0x0B = (match s.sq.mode with
      | .disabled => 0
      | .enabled => 1
      | .rise => 2
      | .signalHi => 3
      | .fall => 4
      | .signalLo => 5
      | .timeout => 6
      | .unknown => 7) ∧
    hostRead s .reg 0x0C = s.sq.threshold ∧ hostRead s .reg 0x0D = s.sq.timeout.setWidth 32 ∧
    hostRead s .reg 0x0E = s.sq.count.setWidth 32 ∧ hostRead s .reg 0x0F = s.sq.s9.setWidth 32 ∧
    (∀ base fc, (base = 0x10 ∧ fc = s.fcActive) ∨ (base = 0x18 ∧ fc = s.fcStaged) →
      hostRead s .reg base = fc.startBin.setWidth 32 ∧ hostRead s .reg (base + 1) = fc.stopBin.setWidth 32 ∧
      hostRead s .reg (base + 2) = fc.loBinOffset.signExtend 32 ∧
      hostRead s .reg (base + 3) = fc.noiseSmoothing.setWidth 32 ∧
      hostRead s .reg (base + 4) = fc.noiseThreshold.setWidth 32 ∧
      hostRead s .reg (base + 5) = fc.spectrumSmoothing.setWidth 32 ∧
      hostRead s .reg (base + 6) = fc.flags.setWidth 32 ∧ hostRead s .reg (base + 7) = fc.phaseStep) ∧
    (∀ a, 0x20 ≤ a → hostRead s .reg a = 0)

/-! ## The host and the memory -/

/-- A host access at BASE(space) + a reaches word a; outside the space a read answers 0 and a write has no effect. A
read inside answers the word, that of OUT_I, OUT_Q, IN0 and IN1 from the buffer and that of CAP from the capture, and
changes nothing; a write to a register other than CMD, or to a space the host may only read, changes nothing (R72, R100,
R102, R103, R104, R107; that a write to OUT_I, OUT_Q or CAP changes nothing is the model's reading, entry 14, and the
zeros above a 16-bit word are the model's, entry 12). -/
def Obligations.HostAccessesWithoutEffect : Prop :=
  ∀ (s : State) (sp : Space) (a : Nat) (b : Bool) (rest : List HostOp),
    (∀ k, accessAt s.par sp (systemAddress s.par sp a) k = some ⟨sp, a, 0, wordBits sp, k⟩) ∧
    (s.pending = ⟨⟨sp, a, 0, wordBits sp, .read⟩, b⟩ :: rest →
      step s = .next { s with pending := rest, replies := s.replies ++ [hostRead s sp a] }) ∧
    (spaceSize s.par sp ≤ a → hostRead s sp a = 0) ∧
    (a < s.par.outMax → hostRead s .outI a = (s.mem.readWord .outI a).setWidth 32 ∧
      hostRead s .outQ a = (s.mem.readWord .outQ a).setWidth 32) ∧
    (a < s.par.inBufSize → hostRead s .in0 a = (s.mem.readWord .in0 a).setWidth 32 ∧
      hostRead s .in1 a = (s.mem.readWord .in1 a).setWidth 32) ∧
    (∀ v, a < s.par.fftN → s.fft.cap[a]? = some v → hostRead s .cap a = v.setWidth 32) ∧
    (∀ v, spaceSize s.par sp ≤ a ∨ (sp = .reg ∧ a ≠ 0) ∨ sp = .outI ∨ sp = .outQ ∨ sp = .cap →
      s.pending = ⟨⟨sp, a, 0, wordBits sp, .write v⟩, b⟩ :: rest → step s = .next { s with pending := rest })

/-- A host write of an input word inside its buffer stores bits 15:0 of the data, a later read answers them, and every
byte outside that word's two bytes is unchanged (R100, R107). -/
def Obligations.HostInputWrite : Prop :=
  ∀ (s : State) (sel : InSel) (a : Nat) (v : Word) (b : Bool) (rest : List HostOp), a < s.par.inBufSize →
    s.pending = ⟨⟨inputSpace sel, a, 0, 16, .write v⟩, b⟩ :: rest →
    ∃ t, step s = .next t ∧ t = { s with pending := rest, mem := t.mem } ∧
      t.mem.readWord (inputBuffer sel) a = v.extractLsb' 0 16 ∧
      hostRead t (inputSpace sel) a = (v.extractLsb' 0 16).setWidth 32 ∧
      ∀ b' x, b' ≠ inputBuffer sel ∨ inWord a x = false → t.mem.readByte b' x = s.mem.readByte b' x

/-- A host access that is not one aligned word of its space's width is refused, alone or overlapping a command (R106,
R367; what such an access is made of is the model's choice, entry 17). -/
def Obligations.MalformedAccessRefused : Prop :=
  ∀ (s : State) (op : HostOp) (rest : List HostOp), s.pending = op :: rest →
    (op.access.skew ≠ 0 ∨ op.access.width ≠ wordBits op.access.space → step s = .refused .hostAccess) ∧
    (∀ w, op.access = cmdWrite w → (∃ x ∈ overlapping rest, x.skew ≠ 0 ∨ x.width ≠ wordBits x.space) →
      step s = .refused .hostAccess)

/-- A CMD write whose word decodes to a command runs exactly that command, with BUSY = 1 while it runs and 0 after;
without overlapping host accesses the step adds nothing else. With overlapping accesses `ops` (the entries behind the CMD
write that the host makes while the command is busy, up to the first that it does not or that is a held CMD write) the
command, or the raising of a decode error, takes place as without them, and to its result the step adds exactly this:
each overlapping write of IN0 or IN1 inside the buffer is in the buffer, the last one of a word standing; each overlapping
read appends one reply, in order, the word as the command has left it at the read's place (for an input word: as the host
has left it), BUSY being 1, and the places never go back; the draws are counted; nothing else changes (R110-R115, R362;
which values a place can show RacesAdmitOldOrNew says; the queue and its marks are the model's, entries 4 and 6, and so is
the way the writes are put in, entry 25). -/
def Obligations.StepRunsDecodedCommand : Prop :=
  ∀ (s : State) (w : Word) (b : Bool) (ops : List HostAccess) (held : List HostOp),
    s.pending = ⟨cmdWrite w, b⟩ :: (ops.map (fun a => ⟨a, true⟩) ++ held) →
    (∀ a ∈ ops, a.wholeWord = true ∧ a.command = none) →
    (∀ h ∈ held.head?, h.overlap = false ∨ h.access.command.isSome = true) →
    let s0 := { s with busy := true, pending := held, overlap := ops }
    (∀ i, decode w = .ok i →
      (∀ r, exec i s0 = .refused r → step s = .refused r) ∧
      (ops = [] → ∀ t, exec i s0 = .next t → step s = .next { t with busy := false, overlap := [] })) ∧
    ∀ t, (∃ i, decode w = .ok i ∧ exec i s0 = .next t) ∨ (∃ e, decode w = .error e ∧ t = raiseCmdError e s0) →
      ∃ (u : State) (r : List (Option Word)), step s = .next u ∧
        u = { t with
          busy := false, pending := held, overlap := [], draws := s.draws + ops.length, mem := u.mem,
          replies := s.replies ++ r.reduceOption } ∧
        u.mem.outI = t.mem.outI ∧ u.mem.outQ = t.mem.outQ ∧
        (∀ sel a v, a < s.par.inBufSize → LastWrite ops (inputSpace sel) a v →
          u.mem.readWord (inputBuffer sel) a = v.extractLsb' 0 16) ∧
        (∀ sel x, NoWrite ops (inputSpace sel) (x / 2) ∨ s.par.inBufSize ≤ x / 2 →
          u.mem.readByte (inputBuffer sel) x = s.mem.readByte (inputBuffer sel) x) ∧
        let places := placesFrom s.draws 0 ops.length
        places.Pairwise (· ≤ ·) ∧ places.length = ops.length ∧ r.length = ops.length ∧
        ∀ k acc p, ops[k]? = some acc → places[k]? = some p →
          (∀ v, acc.kind = .write v → r[k]? = some none) ∧
          (acc.kind = .read → acc.space.isInput = false → r[k]? =
            some (some (hostRead { viewAt (commandWrites w s0 t) p s0 t with busy := true } acc.space acc.addr))) ∧
          ∀ sel, acc.kind = .read → acc.space = inputSpace sel →
            (NoWrite (ops.take k) acc.space acc.addr →
              r[k]? = some (some (hostRead s acc.space acc.addr))) ∧
            ∀ v, acc.addr < s.par.inBufSize → LastWrite (ops.take k) acc.space acc.addr v →
              r[k]? = some (some ((v.extractLsb' 0 16).setWidth 32))

/-- A queue of CMD writes, marked as overlapping or not, runs its commands one at a time in the order written: none is
lost, repeated or reordered (R110, R111; the queue is the model's, entry 4). -/
def Obligations.HeldCommandsRunInOrder : Prop :=
  ∀ (l : List (Word × Bool)) (s : State), s.overlap = [] → s.pending = l.map (fun e => ⟨cmdWrite e.1, e.2⟩) →
    Host.Core.run Sys2Proof.core l.length s = commandsRun (l.map Prod.fst) { s with pending := [] }

/-- With a whole-word access at the head of the queue and a filter control that the next apply point would leave
well-formed, every step answers a next state, whatever the access is; with nothing pending the block keeps all state
(R111, R375; entries 4, 5). -/
def Obligations.StepProgress : Prop :=
  ∀ s : State,
    (s.pending = [] → step s = .next s) ∧
    (∀ op rest, s.pending = op :: rest → acceptable op rest = true → FilterReady s → ∃ t, step s = .next t)

/-- The races. Input: the overlapping accesses have places that never go back, and an input read finds the last host
write that stands before it, or, without one, the old word; a write behind it has no effect on it (R113). Output: at
every place of a command, each word of REG, OUT_I, OUT_Q and CAP and each field of STATUS is the old or the new one, and
once new stays new (R112, R114); where a command writes a word more than once, it is a value the word held: OUT_COUNT in
FFT_PUSH counts up from the old to the new value and FRAME_FILL counts up once before it returns to 0; in PROCESS_BLOCK
OUT_COUNT is the old value, then 0, and counts up to the new one, OVF is the old value, then 0, and then 1 if a sample is
dropped, and each word of CAP, PEAK_IDX, RUNNER_IDX, NOTCH_CNT and FRAME_FILL is the old value until the first input word
is read and then the value after some of the block's words, and so after some of its frames, never an earlier one again,
but that FRAME_FILL is N/2 for the moment between the word that fills a frame and the frame. After its last word access the command shows its
result. (That places are drawn, and so which value is read, is entries 6 to 8; the order of the words that one
statement of a rule assigns is free, entry 27.) -/
def Obligations.RacesAdmitOldOrNew : Prop :=
  (∀ (sel : InSel) (a now m : Nat) (s : State),
    let places := placesFrom s.draws 0 s.overlap.length
    places.length = s.overlap.length ∧ places.Pairwise (· ≤ ·) ∧
    ((∀ k p, places[k]? = some p → (p ≤ now ↔ k < m)) →
      (NoWrite (s.overlap.take m) (inputSpace sel) a →
        readInput sel a now s = s.mem.readWord (inputBuffer sel) a) ∧
      ∀ v, LastWrite (s.overlap.take m) (inputSpace sel) a v → readInput sel a now s = v.extractLsb' 0 16)) ∧
  ∀ (w : Word) (s t : State), s.par.wf = true → s.fft.cap.length = s.par.fftN → s.outCount.toNat ≤ s.par.outMax →
    runWord w s = .next t →
    let ws := commandWrites w s t
    let at' := fun p => viewAt ws p s t
    (decode w ≠ .ok .fftPush →
      (∀ sel n, decode w = .ok (.processBlock sel n) → n.toNat % 2 = 1 ∨ s.par.inBufSize < n.toNat) →
      StatusOldThenNew ws s t ∧ ∀ sp a, ¬(sp = .reg ∧ a = 0x01) → OldThenNew (hostRead · sp a) ws s t) ∧
    (decode w = .ok .fftPush →
      StatusOldThenNew ws s t ∧
      (∀ sp a, ¬(sp = .reg ∧ (a = 0x01 ∨ a = 0x04 ∨ a = 0x07)) → OldThenNew (hostRead · sp a) ws s t) ∧
      ∀ p q, p ≤ q →
        s.outCount.toNat ≤ (at' p).outCount.toNat ∧ (at' p).outCount.toNat ≤ (at' q).outCount.toNat ∧
        (at' q).outCount.toNat ≤ t.outCount.toNat ∧
        ((at' p).fft.frameFill = s.fft.frameFill ∨ (at' p).fft.frameFill = s.fft.frameFill + 1 ∨
          (at' p).fft.frameFill = 0 ∧ s.fft.frameFill + 1 = s.par.fftN / 2)) ∧
    (∀ sel n, decode w = .ok (.processBlock sel n) → n.toNat % 2 = 0 → n.toNat ≤ s.par.inBufSize →
      (∀ sp a, sp = .outI ∨ sp = .outQ ∨ (sp = .reg ∧ a ≠ 0x01 ∧ a ≠ 0x04 ∧ ¬(0x07 ≤ a ∧ a ≤ 0x0A)) →
        OldThenNew (hostRead · sp a) ws s t) ∧
      (∀ p, p < 3 → (at' p).outCount = s.outCount) ∧ (at' 3).outCount = 0 ∧
      ∀ p q, 3 ≤ p → p ≤ q →
        (at' p).outCount.toNat ≤ (at' q).outCount.toNat ∧ (at' q).outCount.toNat ≤ t.outCount.toNat) ∧
    (∀ sel n, decode w = .ok (.processBlock sel n) → n.toNat % 2 = 0 → n.toNat ≤ s.par.inBufSize →
      (OldThenNew State.err ws s t ∧ OldThenNew State.errCode ws s t ∧ OldThenNew State.fcChanged ws s t ∧
        OldThenNew State.resValid ws s t ∧ OldThenNew (fun u => u.sq.mode) ws s t) ∧
      ((∀ p, p < 4 → (at' p).ovf = s.ovf) ∧ (at' 4).ovf = false ∧
        ∀ p q, 4 ≤ p → p ≤ q → (at' p).ovf = true → (at' q).ovf = true ∧ t.ovf = true) ∧
      (∀ sp a, sp = .cap ∨ (sp = .reg ∧ 0x08 ≤ a ∧ a ≤ 0x0A) →
        (∀ p, p ≤ 4 → hostRead (at' p) sp a = hostRead s sp a) ∧
        HeldAfterWords sel n.toNat s t ws fun _ u v => hostRead v sp a = hostRead u sp a) ∧
      (∀ p, p ≤ 4 → (at' p).fft.frameFill = s.fft.frameFill) ∧
      HeldAfterWords sel n.toNat s t ws fun m u v =>
        v.fft.frameFill = u.fft.frameFill ∨
        (v.fft.frameFill = s.par.fftN / 2 ∧ u.fft.frameFill + 1 = s.par.fftN / 2 ∧ m < n.toNat ∧
          ∃ u', blockPrefix sel (m + 1) s = .ok u' ∧ u'.fft.frameFill = 0)) ∧
    ∀ sp a, hostRead { ws.foldl (fun u f => f u) s with busy := t.busy } sp a = hostRead t sp a

/-! ## Reset and invariants -/

/-- The values RESET_STATE leaves: every state element at the value R77 and R391 list, the four buffers unwritten. -/
def Obligations.PowerOnState : Prop :=
  ∀ p : Params,
    let s := State.powerOn p
    (s.par = p ∧ s.dI = 0 ∧ s.dQ = 0 ∧ s.resI = 0 ∧ s.resQ = 0 ∧ s.resValid = false ∧ s.busy = false ∧ s.err = false ∧
      s.errCode = none ∧ s.fcChanged = false ∧ s.ovf = false ∧ s.outCount = 0 ∧ statusWord s = 0x200) ∧
    (s.fcStaged = ⟨0, 0, 0, 0, 0, 0, 0, 0⟩ ∧ s.fcActive = ⟨0, 0, 0, 0, 0, 0, 0, 0⟩) ∧
    s.cic = ⟨0, .i, 0, ⟨0, 0, 0, 0⟩, ⟨0, 0, 0, 0⟩, ⟨0, 0, 0, 0⟩, ⟨0, 0, 0, 0⟩, 0⟩ ∧
    s.hb1 = ⟨List.replicate 32 ⟨0, 0⟩, 0, 0⟩ ∧ s.hb2 = ⟨List.replicate 64 ⟨0, 0⟩, 0, 0⟩ ∧
    s.fft = { frame := List.replicate (p.fftN / 2) ⟨0, 0⟩, frameFill := 0,
              prevIn := List.replicate (p.fftN / 2) ⟨0, 0⟩, prevOut := List.replicate (p.fftN / 4) ⟨0, 0⟩,
              nr := ⟨List.replicate (p.fftN / 2) 0, List.replicate (p.fftN / 2) 0,
                     List.replicate (p.fftN / 2) 1, List.replicate (p.fftN / 2) 1⟩,
              cap := List.replicate p.fftN 0, notchCnt := 0, prevPeak := 0xFFFF, peakIdx := 0xFFFF,
              runnerIdx := 0xFFFF } ∧
    s.sq = ⟨.unknown, 0, 0, 0, 0⟩ ∧ s.mem = ⟨[], [], [], []⟩

/-- SOFT_RESET runs the same procedure as power-on, leaves the four buffers and the host's side as they are, and leaves
STATUS at 0x200; with a reserved bit set it is rejected (R332, R391). -/
def Obligations.SoftResetResult : Prop :=
  ∀ s : State,
    exec .softReset s = .next { State.powerOn s.par with
      mem := s.mem, pending := s.pending, overlap := s.overlap, replies := s.replies, draws := s.draws } ∧
    (∀ t, exec .softReset s = .next t → statusWord t = 0x200 ∧ ∀ b x, t.mem.readByte b x = s.mem.readByte b x) ∧
    (∀ fld imm, runWord (packWord 0x01 fld imm) s =
      if fld = 0 ∧ imm = 0 then exec .softReset s else .next (raiseCmdError .reservedField s))

/-- The machine right after reset satisfies the invariant (R390; the parameters are the model's reset profile,
entry 2). -/
def Obligations.ResetSatisfiesInvariant : Prop := Inv State.reset

/-- Every step keeps the invariant: all units in the ranges R47, R55, R56, R60, R62-R65, R231 and R312 give, ERR_CODE 0
exactly when ERR is 0, the memory in canonical form, BUSY 0 between steps. -/
def Obligations.StepKeepsInvariant : Prop :=
  ∀ s t : State, Inv s → step s = .next t → Inv t

/-- No step, from any state, changes a parameter or a table (R20, R118, R394), and every step keeps the canonical form
of the memory, which is the model's own form (DESIGN CHOICE, entry 10). -/
def Obligations.StepKeepsMemoryFormAndParameters : Prop :=
  ∀ s t : State, step s = .next t → (s.mem.wf = true → t.mem.wf = true) ∧ t.par = s.par

/-! ## Host-control commands -/

/-- NOP does nothing; its only encoding is 0x00000000 (R331). -/
def Obligations.NopResult : Prop :=
  ∀ s : State, exec .nop s = .next s ∧
    ∀ fld imm, runWord (packWord 0x00 fld imm) s =
      if fld = 0 ∧ imm = 0 then .next s else .next (raiseCmdError .reservedField s)

/-- SETI v writes D_I, SETQ v writes D_Q, and nothing else; REG 0x05 and 0x06 then read v sign-extended; with a reserved
bit set each is rejected (R333, R334). -/
def Obligations.OperandRegisterWrites : Prop :=
  ∀ (v : Half) (s : State),
    exec (.seti v) s = .next { s with dI := v } ∧ exec (.setq v) s = .next { s with dQ := v } ∧
    readReg { s with dI := v } 0x05 = v.signExtend 32 ∧ readReg { s with dQ := v } 0x06 = v.signExtend 32 ∧
    ∀ fld,
      runWord (packWord 0x02 fld v) s =
        (if fld = 0 then .next { s with dI := v } else .next (raiseCmdError .reservedField s)) ∧
      runWord (packWord 0x03 fld v) s =
        (if fld = 0 then .next { s with dQ := v } else .next (raiseCmdError .reservedField s))

/-- CFG_WRITE f, v writes exactly field f of FC_STAGED, withdraws a publication, and rejects f > 8 and a flags value of
32 or more; format F has no reserved bit (R335). -/
def Obligations.CfgWriteResult : Prop :=
  ∀ (f : BitVec 8) (v : Half) (s : State),
    (f.toNat ≤ 8 → (f = 6 → v.toNat < 32) →
      exec (.cfgWrite f v) s = .next { s with
        fcChanged := false
        fcStaged :=
          { startBin := if f = 0 then v else s.fcStaged.startBin
            stopBin := if f = 1 then v else s.fcStaged.stopBin
            loBinOffset := if f = 2 then v else s.fcStaged.loBinOffset
            noiseSmoothing := if f = 3 then v else s.fcStaged.noiseSmoothing
            noiseThreshold := if f = 4 then v else s.fcStaged.noiseThreshold
            spectrumSmoothing := if f = 5 then v else s.fcStaged.spectrumSmoothing
            flags := if f = 6 then v.setWidth 5 else s.fcStaged.flags
            phaseStep :=
              if f = 7 then BitVec.ofNat 32 (s.fcStaged.phaseStep.toNat / 2 ^ 16 * 2 ^ 16 + v.toNat)
              else if f = 8 then BitVec.ofNat 32 (v.toNat * 2 ^ 16 + s.fcStaged.phaseStep.toNat % 2 ^ 16)
              else s.fcStaged.phaseStep } }) ∧
    (8 < f.toNat ∨ (f = 6 ∧ 32 ≤ v.toNat) → exec (.cfgWrite f v) s = .next (raiseCmdError .operandRange s)) ∧
    runWord (packWord 0x04 f v) s = exec (.cfgWrite f v) s

/-- CFG_PUBLISH sets FC_CHANGED and nothing else; published, a staged field is active after the next SYNC (R337). -/
def Obligations.CfgPublishResult : Prop :=
  ∀ s : State, exec .cfgPublish s = .next { s with fcChanged := true } ∧
    (∀ fld imm, runWord (packWord 0x05 fld imm) s =
      if fld = 0 ∧ imm = 0 then .next { s with fcChanged := true } else .next (raiseCmdError .reservedField s)) ∧
    ∃ t, commandsRun [0x04000002, 0x05000000, 0x07000000] s = .next t ∧
      t.fcActive = { s.fcStaged with startBin := 2 } ∧ t.fcChanged = false

/-- CLR_ERR clears ERR, ERR_CODE and OVF and nothing else; rejected, it keeps the first code; after reset and an illegal
opcode STATUS is 0x206, and 0x200 again after CLR_ERR (R338). -/
def Obligations.ClrErrResult : Prop :=
  (∀ s : State, exec .clrErr s = .next { s with err := false, errCode := none, ovf := false } ∧
    ∀ fld imm, runWord (packWord 0x06 fld imm) s =
      if fld = 0 ∧ imm = 0 then .next { s with err := false, errCode := none, ovf := false }
      else .next { s with errCode := if s.err then s.errCode else some .reservedField, err := true, busy := false }) ∧
  ∀ p : Params, ∃ t u, commandsRun [0xFF000000] (State.powerOn p) = .next t ∧ statusWord t = 0x206 ∧
    commandsRun [0x06000000] t = .next u ∧ statusWord u = 0x200

/-- The apply point: CIC_STEP, DROOP, NR_BIN, FFT_PUSH and PROCESS_BLOCK with operands in range run as if a published
configuration had been taken whole before anything else, and leave it taken; the other commands, SOFT_RESET apart,
leave FC_ACTIVE alone (R336). -/
def Obligations.ApplyPoint : Prop :=
  ∀ (i : Instr) (s : State),
    (((∃ r, i = .cicStep r) ∨ (∃ b, i = .droop b) ∨ (∃ side b, i = .nrBin side b) ∨ i = .fftPush ∨
        ∃ sel n, i = .processBlock sel n) → i.wf s.par = true →
      exec i s = exec i { s with fcActive := if s.fcChanged then s.fcStaged else s.fcActive, fcChanged := false } ∧
      ∀ t, exec i s = .next t → t.fcChanged = false ∧ t.fcStaged = s.fcStaged ∧
        t.fcActive = if s.fcChanged then s.fcStaged else s.fcActive) ∧
    (¬((∃ r, i = .cicStep r) ∨ (∃ b, i = .droop b) ∨ (∃ side b, i = .nrBin side b) ∨ i = .fftPush ∨
        ∃ sel n, i = .processBlock sel n) → i ≠ .softReset →
      ∀ t, exec i s = .next t → t.fcActive = s.fcActive)

/-! ## CIC decimator -/

/-- CIC_STEP r with a raw code in range: the tick of R161-R169 in closed form, on the filter control that the apply
point leaves (R161-R171). -/
def Obligations.CicStepResult : Prop :=
  ∀ (r : Half) (s : State), s.par.wf = true → CicInv s.par s.cic → r.toNat < 2 ^ s.par.adcBits →
    ∃ t, exec (.cicStep r) s = .next t ∧
      t = { applyPoint s with cic := t.cic, resI := t.resI, resQ := t.resQ, resValid := t.resValid } ∧
      let x0 : Int := (r.toNat : Int) - 2 ^ (s.par.adcBits - 1)
      let dc := s.cic.dc.toInt + (x0 - s.cic.dc.toInt) / 2 ^ s.par.dcShift
      let x := x0 - dc
      let idx := s.cic.phase.toNat / 2 ^ (32 - s.par.lutBits)
      let c := s.par.cosLut.getD idx 0
      let sn := s.par.sinLut.getD idx 0
      let mi := BitVec.ofInt 32 ((if s.cic.rail = .i then x * c else x * sn) / 2 ^ 15)
      let mq := BitVec.ofInt 32 ((if s.cic.rail = .i then -(x * sn) else x * c) / 2 ^ 15)
      t.cic.dc.toInt = dc ∧
      t.cic.rail = (if s.cic.rail = .i then .q else .i) ∧
      t.cic.phase.toNat = (s.cic.phase.toNat + (applyPoint s).fcActive.phaseStep.toNat) % 2 ^ 32 ∧
      (∀ old new v dly dly', (old = s.cic.intI ∧ new = t.cic.intI ∧ v = mi ∧ dly = s.cic.dlyI ∧ dly' = t.cic.dlyI) ∨
          (old = s.cic.intQ ∧ new = t.cic.intQ ∧ v = mq ∧ dly = s.cic.dlyQ ∧ dly' = t.cic.dlyQ) →
        new.s0 = old.s0 + v ∧ new.s1 = old.s1 + old.s0 + v ∧ new.s2 = old.s2 + old.s1 + old.s0 + v ∧
        new.s3 = old.s3 + old.s2 + old.s1 + old.s0 + v ∧
        (s.cic.decCnt.toNat + 1 < s.par.cicR → dly' = dly) ∧
        (s.cic.decCnt.toNat + 1 = s.par.cicR →
          dly' = ⟨new.s3, new.s3 - dly.s0, new.s3 - dly.s0 - dly.s1, new.s3 - dly.s0 - dly.s1 - dly.s2⟩)) ∧
      (s.cic.decCnt.toNat + 1 < s.par.cicR →
        t.cic.decCnt.toNat = s.cic.decCnt.toNat + 1 ∧ t.resValid = false ∧ t.resI = s.resI ∧ t.resQ = s.resQ) ∧
      (s.cic.decCnt.toNat + 1 = s.par.cicR →
        let shift := 4 * Nat.clog 2 s.par.cicR - s.par.cicExtraBits
        let ui := t.cic.intI.s3 - s.cic.dlyI.s0 - s.cic.dlyI.s1 - s.cic.dlyI.s2 - s.cic.dlyI.s3
        let uq := t.cic.intQ.s3 - s.cic.dlyQ.s0 - s.cic.dlyQ.s1 - s.cic.dlyQ.s2 - s.cic.dlyQ.s3
        t.cic.decCnt = 0 ∧ t.resValid = true ∧
        t.resI.toInt = min 32767 (max (-32768) (ui.toInt / 2 ^ shift)) ∧
        t.resQ.toInt = min 32767 (max (-32768) (uq.toInt / 2 ^ shift)))

/-- Wrapping loses nothing: the combs' outputs are the outputs over unbounded integers modulo 2^32, and equal them
wherever those fit int32 (R172). -/
def Obligations.CicWrapIsExact : Prop :=
  ∀ l : List (Int × Bool),
    railRun l Quad.zero Quad.zero = (exactRun l IntQuad.zero IntQuad.zero).map (BitVec.ofInt 32) ∧
    ((∀ y ∈ exactRun l IntQuad.zero IntQuad.zero, -(2 ^ 31) ≤ y ∧ y < 2 ^ 31) →
      (railRun l Quad.zero Quad.zero).map BitVec.toInt = exactRun l IntQuad.zero IntQuad.zero)

/-! ## Half-band stages -/

/-- HB1_STEP: the call of R191-R194 in closed form on (D_I, D_Q) (R191-R196). -/
def Obligations.Hb1StepResult : Prop :=
  ∀ s : State, s.par.wf = true → HalfBandInv 32 s.hb1 →
    ∃ t, exec .hb1Step s = .next t ∧
      t = { s with hb1 := t.hb1, resI := t.resI, resQ := t.resQ, resValid := t.resValid } ∧
      t.hb1.ptr = (s.hb1.ptr + 1) % 32 ∧ t.hb1.fill = min (s.hb1.fill + 1) 32 ∧
      t.hb1.buf.length = 32 ∧ t.hb1.buf[s.hb1.ptr]? = some ⟨s.dI, s.dQ⟩ ∧
      (∀ j, j ≠ s.hb1.ptr → t.hb1.buf[j]? = s.hb1.buf[j]?) ∧
      (t.resValid = true ↔ t.hb1.fill = 32 ∧ s.hb1.ptr % 2 = 1) ∧
      (t.resValid = false → t.resI = s.resI ∧ t.resQ = s.resQ) ∧
      (t.resValid = true →
        t.resI.toInt = min 32767 (max (-32768) ((∑ k ∈ Finset.range s.par.hb1K.length,
          s.par.hb1K.getD k 0 * (t.hb1.buf.getD ((s.hb1.ptr + 32 - k) % 32) .zero).re.toInt) / 32768)) ∧
        t.resQ.toInt = min 32767 (max (-32768) ((∑ k ∈ Finset.range s.par.hb1K.length,
          s.par.hb1K.getD k 0 * (t.hb1.buf.getD ((s.hb1.ptr + 32 - k) % 32) .zero).im.toInt) / 32768)))

/-- HB2_STEP: the same with stage 2, buffer length 64 and kernel HB2_K (R191-R195, R197). -/
def Obligations.Hb2StepResult : Prop :=
  ∀ s : State, s.par.wf = true → HalfBandInv 64 s.hb2 →
    ∃ t, exec .hb2Step s = .next t ∧
      t = { s with hb2 := t.hb2, resI := t.resI, resQ := t.resQ, resValid := t.resValid } ∧
      t.hb2.ptr = (s.hb2.ptr + 1) % 64 ∧ t.hb2.fill = min (s.hb2.fill + 1) 64 ∧
      t.hb2.buf.length = 64 ∧ t.hb2.buf[s.hb2.ptr]? = some ⟨s.dI, s.dQ⟩ ∧
      (∀ j, j ≠ s.hb2.ptr → t.hb2.buf[j]? = s.hb2.buf[j]?) ∧
      (t.resValid = true ↔ t.hb2.fill = 64 ∧ s.hb2.ptr % 2 = 1) ∧
      (t.resValid = false → t.resI = s.resI ∧ t.resQ = s.resQ) ∧
      (t.resValid = true →
        t.resI.toInt = min 32767 (max (-32768) ((∑ k ∈ Finset.range s.par.hb2K.length,
          s.par.hb2K.getD k 0 * (t.hb2.buf.getD ((s.hb2.ptr + 64 - k) % 64) .zero).re.toInt) / 32768)) ∧
        t.resQ.toInt = min 32767 (max (-32768) ((∑ k ∈ Finset.range s.par.hb2K.length,
          s.par.hb2K.getD k 0 * (t.hb2.buf.getD ((s.hb2.ptr + 64 - k) % 64) .zero).im.toInt) / 32768)))

/-- How many outputs a run of calls gives: from reset, none before the L-th call and floor((n − L)/2) + 1 after n ≥ L
calls; once warm, every second call (R199). -/
def Obligations.HalfBandOutputCount : Prop :=
  ∀ (l : Nat) (h : List Int) (zs : List Sample), l = 32 ∨ l = 64 →
    ((hbRun l h zs (HalfBand.reset l)).1.length = if zs.length < l then 0 else (zs.length - l) / 2 + 1) ∧
    ∀ b : HalfBand, HalfBandInv l b → (hbRun l h zs b).1.length = hbEmissions l b zs.length

/-- Pairing the taps of a symmetric kernel gives the same sums, with any sample values and any write index (R198). -/
def Obligations.HalfBandPairing : Prop :=
  ∀ (l p : Nat) (h : List Int) (x : Nat → Int), Params.wfKernel l h = true → p < l →
    convolve h l p x =
      h.getD ((h.length - 1) / 2) 0 * x (tapIndex l p ((h.length - 1) / 2)) +
      ∑ k ∈ Finset.range ((h.length - 1) / 2),
        h.getD k 0 * (x (tapIndex l p k) + x (tapIndex l p (h.length - 1 - k)))

/-- With a legal kernel the sums of R193 stay within int32, and a constant input comes out exactly (R193, R194). -/
def Obligations.HalfBandRangeAndGain : Prop :=
  ∀ (l p : Nat) (h : List Int) (buf : List Sample), Params.wfKernel l h = true →
    (∀ f : Sample → Half, -(2 ^ 31) ≤ convolve h l p (fun k => (f (buf.getD k .zero)).toInt) ∧
      convolve h l p (fun k => (f (buf.getD k .zero)).toInt) < 2 ^ 31) ∧
    (∀ z : Sample, p < l → buf = List.replicate l z → hbOutput h l p buf = z)

/-! ## Droop corrector and noise reduction -/

/-- DROOP b: the index, the scaling and the saturation of R211 and R212 on (D_I, D_Q), after the apply point (R211,
R212, R214). -/
def Obligations.DroopResult : Prop :=
  ∀ (b : Half) (s : State), s.par.wf = true →
    ∃ t, exec (.droop b) s = .next t ∧
      t = { applyPoint s with resI := t.resI, resQ := t.resQ, resValid := true } ∧
      let n : Int := s.par.fftN
      let w := (b.toInt + (applyPoint s).fcActive.loBinOffset.toInt + n / 2) % n - n / 2
      w.natAbs < s.par.droop.length ∧
      t.resI.toInt = min 32767 (max (-32768) (s.dI.toInt * s.par.droop.getD w.natAbs 0 / 2 ^ s.par.droopShift)) ∧
      t.resQ.toInt = min 32767 (max (-32768) (s.dQ.toInt * s.par.droop.getD w.natAbs 0 / 2 ^ s.par.droopShift))

/-- Without an offset, bins b and −b get the same correction; with offset o, bin −o gets entry 0; and bins that differ
by N get the same (R211, R215). -/
def Obligations.DroopSymmetry : Prop :=
  ∀ (p : Params) (b o : Int) (z : Sample), p.wf = true →
    droopCorr p 0 b z = droopCorr p 0 (-b) z ∧ droopIndex p (-o) o = 0 ∧
    droopCorr p o b z = droopCorr p o (b + p.fftN) z

/-- NR_BIN sel, b with b in range and a well-formed filter control: the estimates, the gain and the result of R221-R227,
on the selected side and bin only (R221-R228, R230). -/
def Obligations.NrBinResult : Prop :=
  ∀ (side : Side) (b : Half) (s : State), s.par.wf = true → NrInv s.par.half s.fft.nr → FilterReady s →
    b.toNat < s.par.fftN / 2 →
    ∃ t, exec (.nrBin side b) s = .next t ∧
      t = { applyPoint s with fft := { s.fft with nr := t.fft.nr }, resI := t.resI, resQ := t.resQ, resValid := true } ∧
      let fc := (applyPoint s).fcActive
      let m : Int := max (abs s.dI.toInt) (abs s.dQ.toInt) + min (abs s.dI.toInt) (abs s.dQ.toInt) / 4
      let sig0 : Int := ((s.fft.nr.sig side).getD b.toNat 0).toNat
      let noise0 : Int := ((s.fft.nr.noise side).getD b.toNat 0).toNat
      let sg := sig0 + (m - sig0) / 2 ^ fc.noiseSmoothing.toNat
      let ssc := sg * 2 ^ fc.noiseSmoothing.toNat
      let nn := max (min (noise0 + s.par.nrNoiseRise) ssc) 1
      let thr : Int := if fc.noiseThreshold = 0
        then s.par.nrAdapt.getD (min (ssc / nn).toNat (s.par.nrAdapt.length - 1)) 0 else fc.noiseThreshold.toNat
      let g := min 32768 (max 0 (32768 - thr * nn * 32768 / max ssc 1))
      (((t.fft.nr.sig side).getD b.toNat 0).toNat : Int) = sg ∧
      (((t.fft.nr.noise side).getD b.toNat 0).toNat : Int) = nn ∧
      t.resI.toInt = s.dI.toInt * g / 32768 ∧ t.resQ.toInt = s.dQ.toInt * g / 32768 ∧
      ∀ side' b', side' ≠ side ∨ b' ≠ b.toNat →
        (t.fft.nr.sig side')[b']? = (s.fft.nr.sig side')[b']? ∧
        (t.fft.nr.noise side')[b']? = (s.fft.nr.noise side')[b']?

/-- An update of a bin in closed form (R221-R227): the estimates, the gain, the attenuated bin; no other entry changes;
and the ranges: SIG at most 40960, NOISE at least 1 and at most max(SIG << sm, 1), the gain in 0..GAIN_ONE, so that a
component never leaves int16 (R227, R231). -/
def Obligations.NrUpdateRanges : Prop :=
  ∀ (p : Params) (side : Side) (b h sm thr : Nat) (z : Sample) (n : NrEstimates), NrInv h n → b < h → sm ≤ 15 →
    let u := nrUpdate p side b z sm thr n
    let m : Int := max (abs z.re.toInt) (abs z.im.toInt) + min (abs z.re.toInt) (abs z.im.toInt) / 4
    let sig0 : Int := ((n.sig side).getD b 0).toNat
    let noise0 : Int := ((n.noise side).getD b 0).toNat
    let sg := sig0 + (m - sig0) / 2 ^ sm
    let ssc := sg * 2 ^ sm
    let nn := max (min (noise0 + p.nrNoiseRise) ssc) 1
    let t : Int := if thr = 0 then p.nrAdapt.getD (min (ssc / nn).toNat (p.nrAdapt.length - 1)) 0 else thr
    let g := min 32768 (max 0 (32768 - t * nn * 32768 / max ssc 1))
    (((u.2.sig side).getD b 0).toNat : Int) = sg ∧ (((u.2.noise side).getD b 0).toNat : Int) = nn ∧
    u.1.re.toInt = z.re.toInt * g / 32768 ∧ u.1.im.toInt = z.im.toInt * g / 32768 ∧
    (∀ side' b', side' ≠ side ∨ b' ≠ b →
      (u.2.sig side')[b']? = (n.sig side')[b']? ∧ (u.2.noise side')[b']? = (n.noise side')[b']?) ∧
    ((u.2.sig side).getD b 0).toNat ≤ 40960 ∧ 1 ≤ ((u.2.noise side).getD b 0).toNat ∧
    ((u.2.noise side).getD b 0).toNat ≤ max (((u.2.sig side).getD b 0).toNat * 2 ^ sm) 1 ∧ 0 ≤ g ∧ g ≤ 32768

/-! ## FFT filter -/

/-- FFT_PUSH before the frame is full: the sample joins the frame, RES_VALID becomes 0, nothing else changes but the
apply point (R264, R265). -/
def Obligations.FftPushCollects : Prop :=
  ∀ s : State, s.fft.frameFill + 1 ≠ s.par.fftN / 2 →
    exec .fftPush s = .next { applyPoint s with
      fft := { s.fft with frame := s.fft.frame.set s.fft.frameFill ⟨s.dI, s.dQ⟩, frameFill := s.fft.frameFill + 1 }
      resValid := false }

/-- FFT_PUSH that completes a frame. The frame: x is the windowed previous and new frame; y the spectrum of the walks
over the forward transform of x, with the three bins around the peak zeroed where the notch acts; z the inverse engine's
output on y with its parts swapped; the outputs are the saturated sums of z's first half, swapped back, with PREV_OUT,
and PREV_OUT takes its second half; PREV_IN takes the frame. The Q4 outputs are appended in order from OUT_COUNT, those
past OUT_MAX are dropped and set OVF, RES takes the first output, and every other byte and register is unchanged (R252,
R253, R261-R265; what the engine, the walks, the peak registers and the capture are, the statements
ButterflyOrderIrrelevant, MaskedBins, NotchActsOnSteadyPeak and CaptureUpdate say). -/
def Obligations.FftPushRunsFrame : Prop :=
  ∀ s : State, s.par.wf = true → FilterReady s → s.fft.frameFill + 1 = s.par.fftN / 2 →
    s.outCount.toNat ≤ s.par.outMax →
    let full := { s.fft with frame := s.fft.frame.set s.fft.frameFill ⟨s.dI, s.dQ⟩, frameFill := 0 }
    let o := (frameStep s.par (applyPoint s).fcActive full).1
    ∃ t, exec .fftPush s = .next t ∧ o.length = s.par.fftN / 4 ∧
      t = { applyPoint s with
        fft := (frameStep s.par (applyPoint s).fcActive full).2, mem := t.mem, outCount := t.outCount, ovf := t.ovf,
        resI := (o.getD 0 .zero).re, resQ := (o.getD 0 .zero).im, resValid := true } ∧
      t.outCount.toNat = min (s.outCount.toNat + s.par.fftN / 4) s.par.outMax ∧
      (t.ovf = true ↔ s.ovf = true ∨ s.par.outMax < s.outCount.toNat + s.par.fftN / 4) ∧
      (∀ n, n < s.par.fftN / 4 → s.outCount.toNat + n < s.par.outMax →
        t.mem.readWord .outI (s.outCount.toNat + n) = (o.getD n .zero).re ∧
        t.mem.readWord .outQ (s.outCount.toNat + n) = (o.getD n .zero).im) ∧
      (∀ b x, outsideOut b x s.outCount.toNat t.outCount.toNat → t.mem.readByte b x = s.mem.readByte b x) ∧
      t.fft.prevIn = full.frame ∧ t.fft.frame = full.frame ∧ t.fft.frameFill = 0 ∧
      let fc := (applyPoint s).fcActive
      ∃ x y : List Sample, x.length = s.par.fftN ∧ y.length = s.par.fftN / 2 ∧
        (∀ n, n < s.par.fftN →
          let win := if n < s.par.fftN / 2 then s.fft.prevIn.getD n .zero
            else full.frame.getD (n - s.par.fftN / 2) .zero
          (x.getD n .zero).re.toInt = win.re.toInt * s.par.window.getD n 0 / 2 ^ 15 ∧
          (x.getD n .zero).im.toInt = win.im.toInt * s.par.window.getD n 0 / 2 ^ 15) ∧
        let w := walk s.par fc (engine s.par (Nat.log2 s.par.fftN) x) s.fft.nr
        let z := engine s.par (Nat.log2 s.par.fftN - 1) (y.map fun v => ⟨v.im, v.re⟩)
        t.fft.nr = w.nr ∧
        (∀ j, j < s.par.fftN / 2 →
          let notched := fc.flags.getLsbD 3 = true ∧ s.par.notchMax / 2 < t.fft.notchCnt.toNat ∧
            ∃ k, w.trk.peak = some k ∧ 3 ≤ k ∧ k ≤ s.par.fftN / 2 - 1 - 3 ∧ (j + 1 = k ∨ j = k ∨ j = k + 1)
          (notched → y.getD j .zero = ⟨0, 0⟩) ∧ (¬notched → y.getD j .zero = w.y.getD j .zero)) ∧
        ∀ n, n < s.par.fftN / 4 →
          (o.getD n .zero).re.toInt =
            min 32767 (max (-32768) ((z.getD n .zero).im.toInt + (s.fft.prevOut.getD n .zero).re.toInt)) ∧
          (o.getD n .zero).im.toInt =
            min 32767 (max (-32768) ((z.getD n .zero).re.toInt + (s.fft.prevOut.getD n .zero).im.toInt)) ∧
          t.fft.prevOut[n]? =
            some ⟨(z.getD (s.par.fftN / 4 + n) .zero).im, (z.getD (s.par.fftN / 4 + n) .zero).re⟩

/-- A bin that does not pass is (0, 0) in Y, and its estimates are untouched. A bin that passes is the forward bin X[k],
or X[N − j], droop-corrected with its signed index, at Y[k] or Y[H − j]; with noise reduction enabled and the index at
least 4 it is then attenuated and its estimates updated, and else its estimates are untouched. The estimates that no
walk visits keep their values: positive indices from Q4 on, negative index 0 and those above Q4, and on both sides every
index below 4, or every index at all without noise reduction (R229, R251, R257-R259). -/
def Obligations.MaskedBins : Prop :=
  ∀ (p : Params) (fc : FilterControl) (x : List Sample) (nr : NrEstimates), p.wf = true →
    (∀ k, k < p.quarter → ¬(fc.flags.getLsbD 1 = true ∧ fc.startBin.toNat ≤ k ∧ k ≤ fc.stopBin.toNat) →
      (walk p fc x nr).y[k]? = some ⟨0, 0⟩ ∧ (walk p fc x nr).nr.sigPos[k]? = nr.sigPos[k]? ∧
      (walk p fc x nr).nr.noisePos[k]? = nr.noisePos[k]?) ∧
    (∀ j, 1 ≤ j → j ≤ p.quarter → ¬(fc.flags.getLsbD 0 = true ∧ fc.startBin.toNat ≤ j ∧ j ≤ fc.stopBin.toNat) →
      (walk p fc x nr).y[p.half - j]? = some ⟨0, 0⟩ ∧ (walk p fc x nr).nr.sigNeg[j]? = nr.sigNeg[j]? ∧
      (walk p fc x nr).nr.noiseNeg[j]? = nr.noiseNeg[j]?) ∧
    (∀ k, p.quarter ≤ k → (walk p fc x nr).nr.sigPos[k]? = nr.sigPos[k]? ∧
      (walk p fc x nr).nr.noisePos[k]? = nr.noisePos[k]?) ∧
    (∀ j, j = 0 ∨ p.quarter < j → (walk p fc x nr).nr.sigNeg[j]? = nr.sigNeg[j]? ∧
      (walk p fc x nr).nr.noiseNeg[j]? = nr.noiseNeg[j]?) ∧
    (∀ (side : Side) k, k < 4 ∨ fc.flags.getLsbD 4 = false →
      ((walk p fc x nr).nr.sig side)[k]? = (nr.sig side)[k]? ∧
      ((walk p fc x nr).nr.noise side)[k]? = (nr.noise side)[k]?) ∧
    ∀ (side : Side) (k out fwd : Nat) (bin : Int),
      (side = .pos ∧ k < p.quarter ∧ fc.flags.getLsbD 1 = true ∧ out = k ∧ fwd = k ∧ bin = k) ∨
        (side = .neg ∧ 1 ≤ k ∧ k ≤ p.quarter ∧ fc.flags.getLsbD 0 = true ∧ out = p.half - k ∧ fwd = p.fftN - k ∧
          bin = -(k : Int)) →
      fc.startBin.toNat ≤ k → k ≤ fc.stopBin.toNat →
      let len : Int := p.fftN
      let c := p.droop.getD ((bin + fc.loBinOffset.toInt + len / 2) % len - len / 2).natAbs 0
      ∃ v : Sample,
        v.re.toInt = min 32767 (max (-32768) ((x.getD fwd .zero).re.toInt * c / 2 ^ p.droopShift)) ∧
        v.im.toInt = min 32767 (max (-32768) ((x.getD fwd .zero).im.toInt * c / 2 ^ p.droopShift)) ∧
        let u := if fc.flags.getLsbD 4 = true ∧ 4 ≤ k
          then nrUpdate p side k v fc.noiseSmoothing.toNat fc.noiseThreshold.toNat nr else (v, nr)
        (walk p fc x nr).y[out]? = some u.1 ∧ ((walk p fc x nr).nr.sig side)[k]? = (u.2.sig side)[k]? ∧
        ((walk p fc x nr).nr.noise side)[k]? = (u.2.noise side)[k]?

/-- The walks' peak is the first pass bin of largest magnitude, in the order of the walks, the runner-up the first of
largest magnitude among the others, and a bin of magnitude 0 is neither (R260). -/
def Obligations.PeakIsFirstLargest : Prop :=
  ∀ (p : Params) (fc : FilterControl) (x : List Sample) (nr : NrEstimates),
    let l := passBins p fc x
    let t := (walk p fc x nr).trk
    (t.peak = none ↔ ∀ e ∈ l, e.2 = 0) ∧
    (t.peak = none → t.runner = none) ∧
    (∀ k, t.peak = some k → ∃ i, FirstLargest l i (k, t.peakMag) ∧
      (t.runner = none ↔ ∀ e ∈ l.eraseIdx i, e.2 = 0) ∧
      ∀ k', t.runner = some k' → ∃ j, FirstLargest (l.eraseIdx i) j (k', t.runnerMag))

/-- A frame counts NOTCH_CNT up, to NOTCH_MAX, when its walks find a peak and the frame before found the same, and down,
to 0, otherwise, and records its peak and runner-up; the notch acts iff it is enabled, the count exceeds half its maximum
and the peak is not within 3 bins of an end of Y, so never when disabled or at an edge. From reset, a peak that every
frame finds makes the count n − 1 after frame n, up to NOTCH_MAX; the enabled notch acts on it exactly from frame
NOTCH_MAX div 2 + 2 on, and zeroes the peak's bin and its two neighbours and no other (R261, R267). -/
def Obligations.NotchActsOnSteadyPeak : Prop :=
  (∀ (p : Params) (fc : FilterControl) (f : Fft), p.wf = true →
    let trk := (walk p fc (engine p (fftM p) (windowed p f.prevIn f.frame)) f.nr).trk
    let f' := (frameStep p fc f).2
    (∀ k, trk.peak = some k → k < p.half ∧ f'.peakIdx.toNat = k ∧ f'.prevPeak.toNat = k ∧
      f'.notchCnt.toNat =
        if f.prevPeak.toNat = k then min (f.notchCnt.toNat + 1) p.notchMax else f.notchCnt.toNat - 1) ∧
    (trk.peak = none → f'.peakIdx = 0xFFFF ∧ f'.prevPeak = 0xFFFF ∧ f'.notchCnt.toNat = f.notchCnt.toNat - 1) ∧
    (∀ k, trk.runner = some k → k < p.half ∧ f'.runnerIdx.toNat = k) ∧
    (trk.runner = none → f'.runnerIdx = 0xFFFF)) ∧
  (∀ (p : Params) (fc : FilterControl) (cnt : Half) (k : Nat), p.wf = true →
    (notchActs p fc cnt k = true ↔
      fc.flags.getLsbD 3 = true ∧ p.notchMax / 2 < cnt.toNat ∧ 3 ≤ k ∧ k ≤ p.half - 1 - 3)) ∧
  ∀ (p : Params) (fc : FilterControl) (k n : Nat) (y : List Sample), p.wf = true → k < p.half → 1 ≤ n →
    let cnt := notchRun p k n 0xFFFF 0
    cnt.toNat = min (n - 1) p.notchMax ∧
    (fc.flags.getLsbD 3 = true → 3 ≤ k → k ≤ p.half - 1 - 3 →
      (notchActs p fc cnt k = true ↔ p.notchMax / 2 + 2 ≤ n)) ∧
    (notchActs p fc cnt k = true → y.length = p.half →
      ∀ j, j < p.half → (notchBins p fc cnt (some k) y)[j]? =
        if j + 1 = k ∨ j = k ∨ j = k + 1 then some ⟨0, 0⟩ else y[j]?) ∧
    (notchActs p fc cnt k = false → notchBins p fc cnt (some k) y = y)

/-- The transform engine: input n goes to the index with the low m bits of n in reverse order, then stages 0..m−1 run in
order; stage s writes both elements of each pair g·span + k, g·span + k + half with the butterfly on the twiddle
k·(N/span), halved on even stages and saturated; and the butterflies of one stage may run in any order (R254). -/
def Obligations.ButterflyOrderIrrelevant : Prop :=
  ∀ (p : Params) (m s : Nat) (b : List Sample) (js : List Nat), List.Perm js (List.range (2 ^ (m - 1))) →
    js.foldl (butterflyAt p s) b = engineStage p m b s ∧
    (∀ g k, b.length = 2 ^ m → k < 2 ^ s → (g + 1) * 2 ^ (s + 1) ≤ 2 ^ m →
      let lo := g * 2 ^ (s + 1) + k
      let u := b.getD lo .zero
      let v := b.getD (lo + 2 ^ s) .zero
      let wr := p.twCos.getD (k * (p.fftN / 2 ^ (s + 1))) 0
      let wi := -(p.twSin.getD (k * (p.fftN / 2 ^ (s + 1))) 0)
      let tr := (v.re.toInt * wr - v.im.toInt * wi) / 2 ^ 15
      let ti := (v.re.toInt * wi + v.im.toInt * wr) / 2 ^ 15
      let out : Int → Int := fun a => min 32767 (max (-32768) (if s % 2 = 0 then a / 2 else a))
      ∃ q r : Sample, (engineStage p m b s)[lo]? = some q ∧ (engineStage p m b s)[lo + 2 ^ s]? = some r ∧
        q.re.toInt = out (u.re.toInt + tr) ∧ q.im.toInt = out (u.im.toInt + ti) ∧
        r.re.toInt = out (u.re.toInt - tr) ∧ r.im.toInt = out (u.im.toInt - ti)) ∧
    engine p m b = (List.range m).foldl (engineStage p m) (bitReverse m b) ∧
    ∀ n r, n < 2 ^ m → r < 2 ^ m → (∀ i, i < m → r.testBit i = n.testBit (m - 1 - i)) →
      (bitReverse m b)[r]? = some (b.getD n .zero)

/-- With both sidebands disabled a frame emits the retained half of the frame before, retains zeros, and finds no peak:
two such frames in a row emit zeros (R50, R257, R260, R263). -/
def Obligations.SilentWithoutSidebands : Prop :=
  ∀ (p : Params) (fc fc' : FilterControl) (f f' : Fft), p.wf = true → FftInv p f →
    fc.flags.getLsbD 0 = false → fc.flags.getLsbD 1 = false →
    fc'.flags.getLsbD 0 = false → fc'.flags.getLsbD 1 = false →
    (frameStep p fc f).1 = f.prevOut ∧ (frameStep p fc f).2.peakIdx = 0xFFFF ∧
    (frameStep p fc f).2.runnerIdx = 0xFFFF ∧
    (f'.prevOut = (frameStep p fc f).2.prevOut → (frameStep p fc' f').1 = List.replicate p.quarter ⟨0, 0⟩)

/-- With capture enabled, CAP[k] moves toward R221's magnitude of forward bin k by R256's formula and stays in
[0, 40960]; disabled, CAP keeps its value (R64, R221, R256). -/
def Obligations.CaptureUpdate : Prop :=
  ∀ (p : Params) (fc : FilterControl) (f : Fft), FftInv p f → fc.spectrumSmoothing.toNat ≤ 15 →
    let x := engine p (fftM p) (windowed p f.prevIn f.frame)
    (fc.flags.getLsbD 2 = true → ∀ k, k < p.fftN →
      let re := (x.getD k .zero).re.toInt
      let im := (x.getD k .zero).im.toInt
      (((frameStep p fc f).2.cap.getD k 0).toNat : Int) = (f.cap.getD k 0).toNat +
        (max (abs re) (abs im) + min (abs re) (abs im) / 4 - (f.cap.getD k 0).toNat) / 2 ^ fc.spectrumSmoothing.toNat ∧
      ((frameStep p fc f).2.cap.getD k 0).toNat ≤ 40960) ∧
    (fc.flags.getLsbD 2 = false → (frameStep p fc f).2.cap = f.cap)

/-! ## Squelch -/

/-- SQ_INIT, SQ_DISABLE, SQ_CALIBRATE and SQ_SET_TIMEOUT: what each writes, nothing else, and the rejection of reserved
bits (R304, R306, R307, R308). -/
def Obligations.SquelchSettings : Prop :=
  ∀ (v : Half) (s : State),
    exec (.sqInit v) s = .next { s with sq := ⟨.disabled, 0, v, 0, s.sq.s9⟩ } ∧
    exec .sqDisable s = .next { s with sq := { s.sq with mode := .disabled } } ∧
    exec (.sqCalibrate v) s = .next { s with sq := { s.sq with s9 := v } } ∧
    exec (.sqSetTimeout v) s = .next { s with sq := { s.sq with timeout := v } } ∧
    ∀ fld,
      runWord (packWord 0x20 fld v) s =
        (if fld = 0 then exec (.sqInit v) s else .next (raiseCmdError .reservedField s)) ∧
      runWord (packWord 0x22 fld v) s =
        (if fld = 0 ∧ v = 0 then exec .sqDisable s else .next (raiseCmdError .reservedField s)) ∧
      runWord (packWord 0x23 fld v) s =
        (if fld = 0 then exec (.sqCalibrate v) s else .next (raiseCmdError .reservedField s)) ∧
      runWord (packWord 0x24 fld v) s =
        (if fld = 0 then exec (.sqSetTimeout v) s else .next (raiseCmdError .reservedField s))

/-- SQ_ENABLE L: for L ≤ 12 the threshold becomes the parameter SQ_THRESH(L, SQ_S9), in the REF profile the value of
R302's table, the mode ENABLED and nothing else changes; above 12 it is rejected (R302, R305; how SQ_THRESH is written
down and that its values are below 2^32 is the model's choice, entry 19). -/
def Obligations.SqEnableResult : Prop :=
  ∀ (l : Half) (s : State),
    (l.toNat ≤ 12 → ∃ thr : Word,
      exec (.sqEnable l) s = .next { s with sq := { s.sq with threshold := thr, mode := .enabled } } ∧
      (s.par.wf = true → ∃ row, s.par.sqLevels[l.toNat]? = some row ∧ thr.toNat = (match row with
        | .scaled mult shift => s.sq.s9.toNat * mult / 2 ^ shift
        | .listed values => values.getD s.sq.s9.toNat 0)) ∧
      (s.par.sqLevels = Config.ref.sqLevels → thr.toNat =
        if l.toNat ≤ 9 then s.sq.s9.toNat / 2 ^ (9 - l.toNat)
        else if l.toNat = 10 then s.sq.s9.toNat * 101 / 32
        else if l.toNat = 11 then s.sq.s9.toNat * 10
        else s.sq.s9.toNat * 1011 / 32)) ∧
    (12 < l.toNat → exec (.sqEnable l) s = .next (raiseCmdError .operandRange s))

/-- SQ_UPDATE x: the transition table of R303 with the strict comparison of R301, and the new mode in RES_I (R301, R303,
R309). -/
def Obligations.SqUpdateFollowsTable : Prop :=
  ∀ (x : Half) (s : State),
    ∃ t, exec (.sqUpdate x) s = .next t ∧
      t = { s with
        sq := { s.sq with mode := t.sq.mode, count := t.sq.count }
        resI := BitVec.ofNat 16 t.sq.mode.code, resQ := 0, resValid := true } ∧
      readReg t 0x02 = readReg t 0x0B ∧
      (t.sq.mode, t.sq.count) = (match s.sq.mode, decide (s.sq.threshold.toNat < x.toNat) with
        | .disabled, _ => (.disabled, s.sq.count)
        | .enabled, true => (.rise, s.sq.count)
        | .enabled, false => (.enabled, s.sq.count)
        | .rise, true => (.signalHi, s.sq.count)
        | .rise, false => (.fall, s.sq.count)
        | .signalHi, true => (.signalHi, s.sq.count)
        | .signalHi, false => (.fall, s.sq.count)
        | .fall, true => (.signalHi, s.sq.count)
        | .fall, false => (.signalLo, s.sq.timeout)
        | .signalLo, true => (.signalHi, s.sq.count)
        | .signalLo, false =>
          if s.sq.count.toNat ≤ 1 then (.timeout, 0) else (.signalLo, BitVec.ofNat 16 (s.sq.count.toNat - 1))
        | .timeout, _ => (.enabled, s.sq.count)
        | .unknown, _ => (.unknown, s.sq.count))

/-- DOC's squelch example for every threshold T ≥ 1, timeout t0 and start count: five levels T − 1 stay ENABLED, five
T + 1 give RISE and then SIGNALHI, and T − 1 from there gives FALL, SIGNALLO with the countdown from t0, TIMEOUT after
t0 + 2 calls and ENABLED after t0 + 3 when t0 ≥ 1 (R311). -/
def Obligations.SquelchDocExample : Prop :=
  ∀ (q : Squelch) (lo hi : Half), q.mode = .enabled → 1 ≤ q.threshold.toNat → lo.toNat = q.threshold.toNat - 1 →
    hi.toNat = q.threshold.toNat + 1 →
    (∀ n, n ≤ 5 → sqRun (List.replicate n lo) q = q) ∧
    sqRun [hi] q = { q with mode := .rise } ∧
    (∀ n, 2 ≤ n → n ≤ 5 → sqRun (List.replicate n hi) q = { q with mode := .signalHi }) ∧
    let up := { q with mode := .signalHi }
    sqRun [lo] up = { q with mode := .fall } ∧
    sqRun [lo, lo] up = { q with mode := .signalLo, count := q.timeout } ∧
    (1 ≤ q.timeout.toNat →
      (∀ n, n < q.timeout.toNat → sqRun (List.replicate (n + 2) lo) up =
        { q with mode := .signalLo, count := BitVec.ofNat 16 (q.timeout.toNat - n) }) ∧
      sqRun (List.replicate (q.timeout.toNat + 2) lo) up = { q with mode := .timeout, count := 0 } ∧
      sqRun (List.replicate (q.timeout.toNat + 3) lo) up = { q with mode := .enabled, count := 0 })

/-- The squelch is touched by its own commands only: any other command but SOFT_RESET leaves it as it is and does the
same whatever it holds; and only a reset leads into UNKNOWN (R300, R312, R330). -/
def Obligations.SquelchIsIndependent : Prop :=
  ∀ (i : Instr) (s t : State), exec i s = .next t →
    (t.sq.mode = .unknown → s.sq.mode = .unknown ∨ i = .softReset) ∧
    (opField (encode i) < 0x20 → i ≠ .softReset →
      t.sq = s.sq ∧ ∀ q, exec i { s with sq := q } = .next { t with sq := q })

/-! ## Blocks, memory and frames -/

/-- PROCESS_BLOCK sel, 0 (SYNC) applies a published configuration and clears OUT_COUNT, RAIL and OVF, nothing else
(R138, R339). -/
def Obligations.SyncResult : Prop :=
  ∀ (sel : InSel) (s : State), exec (.processBlock sel 0) s = .next { s with
    fcActive := if s.fcChanged then s.fcStaged else s.fcActive, fcChanged := false, outCount := 0, ovf := false,
    cic := { s.cic with rail := .i } }

/-- PROCESS_BLOCK with a legal length and a well-formed filter control completes, and changes nothing but the units, the
filter control taken at its start, OUT_COUNT, OVF and the words it appends to OUT_I and OUT_Q from word 0 on (R101, R102,
R336, R339, R405). -/
def Obligations.BlockCompletes : Prop :=
  ∀ (sel : InSel) (n : Half) (s : State), s.par.wf = true → n.toNat % 2 = 0 → n.toNat ≤ s.par.inBufSize →
    FilterReady s →
    ∃ t, exec (.processBlock sel n) s = .next t ∧
      t = { applyPoint s with
        cic := t.cic, hb1 := t.hb1, hb2 := t.hb2, fft := t.fft, mem := t.mem, outCount := t.outCount,
        ovf := t.ovf } ∧
      t.outCount.toNat ≤ s.par.outMax ∧
      ∀ b x, outsideOut b x 0 t.outCount.toNat → t.mem.readByte b x = s.mem.readByte b x

/-- PROCESS_BLOCK is the pipeline of its units: the input words through the CIC decimator, its outputs through stage 1,
those through stage 2, and those into the frame, in order, from the state the apply point and the clearing of OUT_COUNT,
RAIL and OVF leave (R101, R330, R336, R339). OwnsInput says that the host writes none of those words meanwhile, in the
terms of the model's list of overlapping accesses (entry 6). -/
def Obligations.BlockIsPipeline : Prop :=
  ∀ (sel : InSel) (n : Half) (s : State), s.par.wf = true → n.toNat % 2 = 0 → n.toNat ≤ s.par.inBufSize →
    FilterReady s → OwnsInput sel n.toNat s →
    let words := (List.range n.toNat).map fun a => (s.mem.readWord (inputBuffer sel) a).toNat % 2 ^ s.par.adcBits
    let c := cicRun s.par (applyPoint s).fcActive.phaseStep words { s.cic with rail := .i }
    let h1 := hbRun 32 s.par.hb1K c.1 s.hb1
    let h2 := hbRun 64 s.par.hb2K h1.1 s.hb2
    ∃ t, exec (.processBlock sel n) s = .next t ∧
      pushRun h2.1 { applyPoint s with outCount := 0, ovf := false, cic := c.2, hb1 := h1.2, hb2 := h2.2 } = .ok t

/-- The counts of a block: CIC outputs, stage outputs, frames and output samples, whatever the words are; and the phase
and the rail after it (R166, R168, R199, R263, R264, R339, R340). -/
def Obligations.BlockOutputCount : Prop :=
  ∀ (sel : InSel) (n : Half) (s t : State), s.par.wf = true → s.cic.decCnt.toNat < s.par.cicR →
    HalfBandInv 32 s.hb1 → HalfBandInv 64 s.hb2 → s.fft.frameFill < s.par.fftN / 2 →
    n.toNat % 2 = 0 → n.toNat ≤ s.par.inBufSize → exec (.processBlock sel n) s = .next t →
    let c := (s.cic.decCnt.toNat + n.toNat) / s.par.cicR
    let e1 := hbEmissions 32 s.hb1 c
    let e2 := hbEmissions 64 s.hb2 e1
    let frames := (s.fft.frameFill + e2) / (s.par.fftN / 2)
    t.cic.decCnt.toNat = (s.cic.decCnt.toNat + n.toNat) % s.par.cicR ∧
    t.cic.rail = .i ∧
    t.cic.phase.toNat = (s.cic.phase.toNat + n.toNat * (applyPoint s).fcActive.phaseStep.toNat) % 2 ^ 32 ∧
    t.hb1.ptr = (s.hb1.ptr + c) % 32 ∧ t.hb1.fill = min (s.hb1.fill + c) 32 ∧
    t.hb2.ptr = (s.hb2.ptr + e1) % 64 ∧ t.hb2.fill = min (s.hb2.fill + e1) 64 ∧
    t.fft.frameFill = (s.fft.frameFill + e2) % (s.par.fftN / 2) ∧
    t.outCount.toNat = min (s.par.fftN / 4 * frames) s.par.outMax ∧
    (t.ovf = true ↔ s.par.outMax < s.par.fftN / 4 * frames)

/-- While the host keeps off the words being read, PROCESS_BLOCK does the same whatever else the host accesses: writes
to the other buffer and reads never influence it (R113, R115, R401; the list of overlapping accesses is the model's,
entry 6). -/
def Obligations.BlockIgnoresOtherAccesses : Prop :=
  ∀ (sel : InSel) (n : Half) (s t : State), OwnsInput sel n.toNat s →
    (exec (.processBlock sel n) s = .next t ↔
      t.overlap = s.overlap ∧ exec (.processBlock sel n) { s with overlap := [] } = .next { t with overlap := [] })

/-- Only FFT_PUSH and PROCESS_BLOCK write a buffer, and only the words of OUT_I and OUT_Q that they append, from OUT_COUNT
and from word 0 on; the operand registers are written by SETI, SETQ and SOFT_RESET only, and the result registers by
CIC_STEP, HB1_STEP, HB2_STEP, DROOP, NR_BIN, FFT_PUSH, SQ_UPDATE and SOFT_RESET only (R42, R43, R101, R102, R405). -/
def Obligations.CommandFrames : Prop :=
  ∀ (i : Instr) (s t : State), exec i s = .next t →
    (i ≠ .fftPush → (∀ sel n, i ≠ .processBlock sel n) → ∀ b x, t.mem.readByte b x = s.mem.readByte b x) ∧
    (i = .fftPush → s.par.outMax ≤ 65535 →
      ∀ b x, outsideOut b x s.outCount.toNat t.outCount.toNat → t.mem.readByte b x = s.mem.readByte b x) ∧
    (∀ sel n, i = .processBlock sel n → s.par.outMax ≤ 65535 →
      ∀ b x, outsideOut b x 0 t.outCount.toNat → t.mem.readByte b x = s.mem.readByte b x) ∧
    (∀ x, t.mem.readByte .in0 x = s.mem.readByte .in0 x ∧ t.mem.readByte .in1 x = s.mem.readByte .in1 x) ∧
    (i ≠ .softReset → (∀ v, i ≠ .seti v) → t.dI = s.dI) ∧ (i ≠ .softReset → (∀ v, i ≠ .setq v) → t.dQ = s.dQ) ∧
    (opField (encode i) ∉ [0x10, 0x11, 0x12, 0x13, 0x14, 0x15, 0x25] → i ≠ .softReset →
      t.resI = s.resI ∧ t.resQ = s.resQ ∧ t.resValid = s.resValid) ∧
    t.pending = s.pending ∧ t.overlap = s.overlap ∧ t.replies = s.replies ∧ t.draws = s.draws

end ObligationsSlice0
end

