-- ==== Sys2Proof/Laws/State.lean ====
section
/-! SUPPORT. One lemma per field of State for each shared operation that updates the state: what the field holds
afterwards. Proofs cite these instead of unfolding a record update. -/

namespace Sys2Proof.Machine

/-! ## Writing a result (R43) -/

@[simp] theorem State_withResult_par (o : Option Sample) (s : State) : (s.withResult o).par = s.par := rfl
@[simp] theorem State_withResult_dI (o : Option Sample) (s : State) : (s.withResult o).dI = s.dI := rfl
@[simp] theorem State_withResult_dQ (o : Option Sample) (s : State) : (s.withResult o).dQ = s.dQ := rfl
@[simp] theorem State_withResult_resI (o : Option Sample) (s : State) : (s.withResult o).resI = (o.map Sample.re).getD s.resI := rfl
@[simp] theorem State_withResult_resQ (o : Option Sample) (s : State) : (s.withResult o).resQ = (o.map Sample.im).getD s.resQ := rfl
@[simp] theorem State_withResult_resValid (o : Option Sample) (s : State) : (s.withResult o).resValid = o.isSome := rfl
@[simp] theorem State_withResult_busy (o : Option Sample) (s : State) : (s.withResult o).busy = s.busy := rfl
@[simp] theorem State_withResult_err (o : Option Sample) (s : State) : (s.withResult o).err = s.err := rfl
@[simp] theorem State_withResult_errCode (o : Option Sample) (s : State) : (s.withResult o).errCode = s.errCode := rfl
@[simp] theorem State_withResult_fcChanged (o : Option Sample) (s : State) : (s.withResult o).fcChanged = s.fcChanged := rfl
@[simp] theorem State_withResult_ovf (o : Option Sample) (s : State) : (s.withResult o).ovf = s.ovf := rfl
@[simp] theorem State_withResult_outCount (o : Option Sample) (s : State) : (s.withResult o).outCount = s.outCount := rfl
@[simp] theorem State_withResult_fcStaged (o : Option Sample) (s : State) : (s.withResult o).fcStaged = s.fcStaged := rfl
@[simp] theorem State_withResult_fcActive (o : Option Sample) (s : State) : (s.withResult o).fcActive = s.fcActive := rfl
@[simp] theorem State_withResult_cic (o : Option Sample) (s : State) : (s.withResult o).cic = s.cic := rfl
@[simp] theorem State_withResult_hb1 (o : Option Sample) (s : State) : (s.withResult o).hb1 = s.hb1 := rfl
@[simp] theorem State_withResult_hb2 (o : Option Sample) (s : State) : (s.withResult o).hb2 = s.hb2 := rfl
@[simp] theorem State_withResult_fft (o : Option Sample) (s : State) : (s.withResult o).fft = s.fft := rfl
@[simp] theorem State_withResult_sq (o : Option Sample) (s : State) : (s.withResult o).sq = s.sq := rfl
@[simp] theorem State_withResult_mem (o : Option Sample) (s : State) : (s.withResult o).mem = s.mem := rfl
@[simp] theorem State_withResult_pending (o : Option Sample) (s : State) : (s.withResult o).pending = s.pending := rfl
@[simp] theorem State_withResult_overlap (o : Option Sample) (s : State) : (s.withResult o).overlap = s.overlap := rfl
@[simp] theorem State_withResult_replies (o : Option Sample) (s : State) : (s.withResult o).replies = s.replies := rfl
@[simp] theorem State_withResult_draws (o : Option Sample) (s : State) : (s.withResult o).draws = s.draws := rfl

/-! ## Raising a command error (R362) -/

@[simp] theorem raiseCmdError_par (e : CmdError) (s : State) : (raiseCmdError e s).par = s.par := rfl
@[simp] theorem raiseCmdError_dI (e : CmdError) (s : State) : (raiseCmdError e s).dI = s.dI := rfl
@[simp] theorem raiseCmdError_dQ (e : CmdError) (s : State) : (raiseCmdError e s).dQ = s.dQ := rfl
@[simp] theorem raiseCmdError_resI (e : CmdError) (s : State) : (raiseCmdError e s).resI = s.resI := rfl
@[simp] theorem raiseCmdError_resQ (e : CmdError) (s : State) : (raiseCmdError e s).resQ = s.resQ := rfl
@[simp] theorem raiseCmdError_resValid (e : CmdError) (s : State) : (raiseCmdError e s).resValid = s.resValid := rfl
@[simp] theorem raiseCmdError_busy (e : CmdError) (s : State) : (raiseCmdError e s).busy = false := rfl
@[simp] theorem raiseCmdError_err (e : CmdError) (s : State) : (raiseCmdError e s).err = true := rfl
@[simp] theorem raiseCmdError_errCode (e : CmdError) (s : State) : (raiseCmdError e s).errCode = if s.err then s.errCode else some e := rfl
@[simp] theorem raiseCmdError_fcChanged (e : CmdError) (s : State) : (raiseCmdError e s).fcChanged = s.fcChanged := rfl
@[simp] theorem raiseCmdError_ovf (e : CmdError) (s : State) : (raiseCmdError e s).ovf = s.ovf := rfl
@[simp] theorem raiseCmdError_outCount (e : CmdError) (s : State) : (raiseCmdError e s).outCount = s.outCount := rfl
@[simp] theorem raiseCmdError_fcStaged (e : CmdError) (s : State) : (raiseCmdError e s).fcStaged = s.fcStaged := rfl
@[simp] theorem raiseCmdError_fcActive (e : CmdError) (s : State) : (raiseCmdError e s).fcActive = s.fcActive := rfl
@[simp] theorem raiseCmdError_cic (e : CmdError) (s : State) : (raiseCmdError e s).cic = s.cic := rfl
@[simp] theorem raiseCmdError_hb1 (e : CmdError) (s : State) : (raiseCmdError e s).hb1 = s.hb1 := rfl
@[simp] theorem raiseCmdError_hb2 (e : CmdError) (s : State) : (raiseCmdError e s).hb2 = s.hb2 := rfl
@[simp] theorem raiseCmdError_fft (e : CmdError) (s : State) : (raiseCmdError e s).fft = s.fft := rfl
@[simp] theorem raiseCmdError_sq (e : CmdError) (s : State) : (raiseCmdError e s).sq = s.sq := rfl
@[simp] theorem raiseCmdError_mem (e : CmdError) (s : State) : (raiseCmdError e s).mem = s.mem := rfl
@[simp] theorem raiseCmdError_pending (e : CmdError) (s : State) : (raiseCmdError e s).pending = s.pending := rfl
@[simp] theorem raiseCmdError_overlap (e : CmdError) (s : State) : (raiseCmdError e s).overlap = s.overlap := rfl
@[simp] theorem raiseCmdError_replies (e : CmdError) (s : State) : (raiseCmdError e s).replies = s.replies := rfl
@[simp] theorem raiseCmdError_draws (e : CmdError) (s : State) : (raiseCmdError e s).draws = s.draws := rfl

/-! ## Clearing the error status (R338) -/

@[simp] theorem clearError_par (s : State) : (clearError s).par = s.par := rfl
@[simp] theorem clearError_dI (s : State) : (clearError s).dI = s.dI := rfl
@[simp] theorem clearError_dQ (s : State) : (clearError s).dQ = s.dQ := rfl
@[simp] theorem clearError_resI (s : State) : (clearError s).resI = s.resI := rfl
@[simp] theorem clearError_resQ (s : State) : (clearError s).resQ = s.resQ := rfl
@[simp] theorem clearError_resValid (s : State) : (clearError s).resValid = s.resValid := rfl
@[simp] theorem clearError_busy (s : State) : (clearError s).busy = s.busy := rfl
@[simp] theorem clearError_err (s : State) : (clearError s).err = false := rfl
@[simp] theorem clearError_errCode (s : State) : (clearError s).errCode = none := rfl
@[simp] theorem clearError_fcChanged (s : State) : (clearError s).fcChanged = s.fcChanged := rfl
@[simp] theorem clearError_ovf (s : State) : (clearError s).ovf = false := rfl
@[simp] theorem clearError_outCount (s : State) : (clearError s).outCount = s.outCount := rfl
@[simp] theorem clearError_fcStaged (s : State) : (clearError s).fcStaged = s.fcStaged := rfl
@[simp] theorem clearError_fcActive (s : State) : (clearError s).fcActive = s.fcActive := rfl
@[simp] theorem clearError_cic (s : State) : (clearError s).cic = s.cic := rfl
@[simp] theorem clearError_hb1 (s : State) : (clearError s).hb1 = s.hb1 := rfl
@[simp] theorem clearError_hb2 (s : State) : (clearError s).hb2 = s.hb2 := rfl
@[simp] theorem clearError_fft (s : State) : (clearError s).fft = s.fft := rfl
@[simp] theorem clearError_sq (s : State) : (clearError s).sq = s.sq := rfl
@[simp] theorem clearError_mem (s : State) : (clearError s).mem = s.mem := rfl
@[simp] theorem clearError_pending (s : State) : (clearError s).pending = s.pending := rfl
@[simp] theorem clearError_overlap (s : State) : (clearError s).overlap = s.overlap := rfl
@[simp] theorem clearError_replies (s : State) : (clearError s).replies = s.replies := rfl
@[simp] theorem clearError_draws (s : State) : (clearError s).draws = s.draws := rfl

/-! ## The apply point (R336) -/

@[simp] theorem applyPoint_par (s : State) : (applyPoint s).par = s.par := rfl
@[simp] theorem applyPoint_dI (s : State) : (applyPoint s).dI = s.dI := rfl
@[simp] theorem applyPoint_dQ (s : State) : (applyPoint s).dQ = s.dQ := rfl
@[simp] theorem applyPoint_resI (s : State) : (applyPoint s).resI = s.resI := rfl
@[simp] theorem applyPoint_resQ (s : State) : (applyPoint s).resQ = s.resQ := rfl
@[simp] theorem applyPoint_resValid (s : State) : (applyPoint s).resValid = s.resValid := rfl
@[simp] theorem applyPoint_busy (s : State) : (applyPoint s).busy = s.busy := rfl
@[simp] theorem applyPoint_err (s : State) : (applyPoint s).err = s.err := rfl
@[simp] theorem applyPoint_errCode (s : State) : (applyPoint s).errCode = s.errCode := rfl
@[simp] theorem applyPoint_fcChanged (s : State) : (applyPoint s).fcChanged = false := rfl
@[simp] theorem applyPoint_ovf (s : State) : (applyPoint s).ovf = s.ovf := rfl
@[simp] theorem applyPoint_outCount (s : State) : (applyPoint s).outCount = s.outCount := rfl
@[simp] theorem applyPoint_fcStaged (s : State) : (applyPoint s).fcStaged = s.fcStaged := rfl
@[simp] theorem applyPoint_fcActive (s : State) : (applyPoint s).fcActive = if s.fcChanged then s.fcStaged else s.fcActive := rfl
@[simp] theorem applyPoint_cic (s : State) : (applyPoint s).cic = s.cic := rfl
@[simp] theorem applyPoint_hb1 (s : State) : (applyPoint s).hb1 = s.hb1 := rfl
@[simp] theorem applyPoint_hb2 (s : State) : (applyPoint s).hb2 = s.hb2 := rfl
@[simp] theorem applyPoint_fft (s : State) : (applyPoint s).fft = s.fft := rfl
@[simp] theorem applyPoint_sq (s : State) : (applyPoint s).sq = s.sq := rfl
@[simp] theorem applyPoint_mem (s : State) : (applyPoint s).mem = s.mem := rfl
@[simp] theorem applyPoint_pending (s : State) : (applyPoint s).pending = s.pending := rfl
@[simp] theorem applyPoint_overlap (s : State) : (applyPoint s).overlap = s.overlap := rfl
@[simp] theorem applyPoint_replies (s : State) : (applyPoint s).replies = s.replies := rfl
@[simp] theorem applyPoint_draws (s : State) : (applyPoint s).draws = s.draws := rfl

/-! ## The reset procedure (R391) -/

@[simp] theorem resetState_par (s : State) : (resetState s).par = s.par := rfl
@[simp] theorem resetState_dI (s : State) : (resetState s).dI = 0 := rfl
@[simp] theorem resetState_dQ (s : State) : (resetState s).dQ = 0 := rfl
@[simp] theorem resetState_resI (s : State) : (resetState s).resI = 0 := rfl
@[simp] theorem resetState_resQ (s : State) : (resetState s).resQ = 0 := rfl
@[simp] theorem resetState_resValid (s : State) : (resetState s).resValid = false := rfl
@[simp] theorem resetState_busy (s : State) : (resetState s).busy = false := rfl
@[simp] theorem resetState_err (s : State) : (resetState s).err = false := rfl
@[simp] theorem resetState_errCode (s : State) : (resetState s).errCode = none := rfl
@[simp] theorem resetState_fcChanged (s : State) : (resetState s).fcChanged = false := rfl
@[simp] theorem resetState_ovf (s : State) : (resetState s).ovf = false := rfl
@[simp] theorem resetState_outCount (s : State) : (resetState s).outCount = 0 := rfl
@[simp] theorem resetState_fcStaged (s : State) : (resetState s).fcStaged = .zero := rfl
@[simp] theorem resetState_fcActive (s : State) : (resetState s).fcActive = .zero := rfl
@[simp] theorem resetState_cic (s : State) : (resetState s).cic = .reset := rfl
@[simp] theorem resetState_hb1 (s : State) : (resetState s).hb1 = .reset Config.hb1L := rfl
@[simp] theorem resetState_hb2 (s : State) : (resetState s).hb2 = .reset Config.hb2L := rfl
@[simp] theorem resetState_fft (s : State) : (resetState s).fft = .reset s.par := rfl
@[simp] theorem resetState_sq (s : State) : (resetState s).sq = .reset := rfl
@[simp] theorem resetState_mem (s : State) : (resetState s).mem = s.mem := rfl
@[simp] theorem resetState_pending (s : State) : (resetState s).pending = s.pending := rfl
@[simp] theorem resetState_overlap (s : State) : (resetState s).overlap = s.overlap := rfl
@[simp] theorem resetState_replies (s : State) : (resetState s).replies = s.replies := rfl
@[simp] theorem resetState_draws (s : State) : (resetState s).draws = s.draws := rfl

/-! ## The start of a block (R339) -/

@[simp] theorem blockStart_par (s : State) : (blockStart s).par = s.par := rfl
@[simp] theorem blockStart_dI (s : State) : (blockStart s).dI = s.dI := rfl
@[simp] theorem blockStart_dQ (s : State) : (blockStart s).dQ = s.dQ := rfl
@[simp] theorem blockStart_resI (s : State) : (blockStart s).resI = s.resI := rfl
@[simp] theorem blockStart_resQ (s : State) : (blockStart s).resQ = s.resQ := rfl
@[simp] theorem blockStart_resValid (s : State) : (blockStart s).resValid = s.resValid := rfl
@[simp] theorem blockStart_busy (s : State) : (blockStart s).busy = s.busy := rfl
@[simp] theorem blockStart_err (s : State) : (blockStart s).err = s.err := rfl
@[simp] theorem blockStart_errCode (s : State) : (blockStart s).errCode = s.errCode := rfl
@[simp] theorem blockStart_fcChanged (s : State) : (blockStart s).fcChanged = false := rfl
@[simp] theorem blockStart_ovf (s : State) : (blockStart s).ovf = false := rfl
@[simp] theorem blockStart_outCount (s : State) : (blockStart s).outCount = 0 := rfl
@[simp] theorem blockStart_fcStaged (s : State) : (blockStart s).fcStaged = s.fcStaged := rfl
@[simp] theorem blockStart_fcActive (s : State) : (blockStart s).fcActive = if s.fcChanged then s.fcStaged else s.fcActive := rfl
@[simp] theorem blockStart_cic (s : State) : (blockStart s).cic = { s.cic with rail := .i } := rfl
@[simp] theorem blockStart_hb1 (s : State) : (blockStart s).hb1 = s.hb1 := rfl
@[simp] theorem blockStart_hb2 (s : State) : (blockStart s).hb2 = s.hb2 := rfl
@[simp] theorem blockStart_fft (s : State) : (blockStart s).fft = s.fft := rfl
@[simp] theorem blockStart_sq (s : State) : (blockStart s).sq = s.sq := rfl
@[simp] theorem blockStart_mem (s : State) : (blockStart s).mem = s.mem := rfl
@[simp] theorem blockStart_pending (s : State) : (blockStart s).pending = s.pending := rfl
@[simp] theorem blockStart_overlap (s : State) : (blockStart s).overlap = s.overlap := rfl
@[simp] theorem blockStart_replies (s : State) : (blockStart s).replies = s.replies := rfl
@[simp] theorem blockStart_draws (s : State) : (blockStart s).draws = s.draws := rfl

/-! ## Accepting a command (R111) -/

@[simp] theorem beginCommand_par (rest : List HostOp) (s : State) : (beginCommand rest s).par = s.par := rfl
@[simp] theorem beginCommand_dI (rest : List HostOp) (s : State) : (beginCommand rest s).dI = s.dI := rfl
@[simp] theorem beginCommand_dQ (rest : List HostOp) (s : State) : (beginCommand rest s).dQ = s.dQ := rfl
@[simp] theorem beginCommand_resI (rest : List HostOp) (s : State) : (beginCommand rest s).resI = s.resI := rfl
@[simp] theorem beginCommand_resQ (rest : List HostOp) (s : State) : (beginCommand rest s).resQ = s.resQ := rfl
@[simp] theorem beginCommand_resValid (rest : List HostOp) (s : State) : (beginCommand rest s).resValid = s.resValid := rfl
@[simp] theorem beginCommand_busy (rest : List HostOp) (s : State) : (beginCommand rest s).busy = true := rfl
@[simp] theorem beginCommand_err (rest : List HostOp) (s : State) : (beginCommand rest s).err = s.err := rfl
@[simp] theorem beginCommand_errCode (rest : List HostOp) (s : State) : (beginCommand rest s).errCode = s.errCode := rfl
@[simp] theorem beginCommand_fcChanged (rest : List HostOp) (s : State) : (beginCommand rest s).fcChanged = s.fcChanged := rfl
@[simp] theorem beginCommand_ovf (rest : List HostOp) (s : State) : (beginCommand rest s).ovf = s.ovf := rfl
@[simp] theorem beginCommand_outCount (rest : List HostOp) (s : State) : (beginCommand rest s).outCount = s.outCount := rfl
@[simp] theorem beginCommand_fcStaged (rest : List HostOp) (s : State) : (beginCommand rest s).fcStaged = s.fcStaged := rfl
@[simp] theorem beginCommand_fcActive (rest : List HostOp) (s : State) : (beginCommand rest s).fcActive = s.fcActive := rfl
@[simp] theorem beginCommand_cic (rest : List HostOp) (s : State) : (beginCommand rest s).cic = s.cic := rfl
@[simp] theorem beginCommand_hb1 (rest : List HostOp) (s : State) : (beginCommand rest s).hb1 = s.hb1 := rfl
@[simp] theorem beginCommand_hb2 (rest : List HostOp) (s : State) : (beginCommand rest s).hb2 = s.hb2 := rfl
@[simp] theorem beginCommand_fft (rest : List HostOp) (s : State) : (beginCommand rest s).fft = s.fft := rfl
@[simp] theorem beginCommand_sq (rest : List HostOp) (s : State) : (beginCommand rest s).sq = s.sq := rfl
@[simp] theorem beginCommand_mem (rest : List HostOp) (s : State) : (beginCommand rest s).mem = s.mem := rfl
@[simp] theorem beginCommand_pending (rest : List HostOp) (s : State) : (beginCommand rest s).pending = afterOverlap rest := rfl
@[simp] theorem beginCommand_overlap (rest : List HostOp) (s : State) : (beginCommand rest s).overlap = overlapping rest := rfl
@[simp] theorem beginCommand_replies (rest : List HostOp) (s : State) : (beginCommand rest s).replies = s.replies := rfl
@[simp] theorem beginCommand_draws (rest : List HostOp) (s : State) : (beginCommand rest s).draws = s.draws := rfl

/-! ## One tick of the CIC decimator (R170) -/

@[simp] theorem tickState_snd_par (r : Nat) (s : State) : ((tickState r s).2).par = s.par := rfl
@[simp] theorem tickState_snd_dI (r : Nat) (s : State) : ((tickState r s).2).dI = s.dI := rfl
@[simp] theorem tickState_snd_dQ (r : Nat) (s : State) : ((tickState r s).2).dQ = s.dQ := rfl
@[simp] theorem tickState_snd_resI (r : Nat) (s : State) : ((tickState r s).2).resI = s.resI := rfl
@[simp] theorem tickState_snd_resQ (r : Nat) (s : State) : ((tickState r s).2).resQ = s.resQ := rfl
@[simp] theorem tickState_snd_resValid (r : Nat) (s : State) : ((tickState r s).2).resValid = s.resValid := rfl
@[simp] theorem tickState_snd_busy (r : Nat) (s : State) : ((tickState r s).2).busy = s.busy := rfl
@[simp] theorem tickState_snd_err (r : Nat) (s : State) : ((tickState r s).2).err = s.err := rfl
@[simp] theorem tickState_snd_errCode (r : Nat) (s : State) : ((tickState r s).2).errCode = s.errCode := rfl
@[simp] theorem tickState_snd_fcChanged (r : Nat) (s : State) : ((tickState r s).2).fcChanged = s.fcChanged := rfl
@[simp] theorem tickState_snd_ovf (r : Nat) (s : State) : ((tickState r s).2).ovf = s.ovf := rfl
@[simp] theorem tickState_snd_outCount (r : Nat) (s : State) : ((tickState r s).2).outCount = s.outCount := rfl
@[simp] theorem tickState_snd_fcStaged (r : Nat) (s : State) : ((tickState r s).2).fcStaged = s.fcStaged := rfl
@[simp] theorem tickState_snd_fcActive (r : Nat) (s : State) : ((tickState r s).2).fcActive = s.fcActive := rfl
@[simp] theorem tickState_snd_cic (r : Nat) (s : State) : ((tickState r s).2).cic = (cicTick s.par s.fcActive.phaseStep r s.cic).2 := rfl
@[simp] theorem tickState_snd_hb1 (r : Nat) (s : State) : ((tickState r s).2).hb1 = s.hb1 := rfl
@[simp] theorem tickState_snd_hb2 (r : Nat) (s : State) : ((tickState r s).2).hb2 = s.hb2 := rfl
@[simp] theorem tickState_snd_fft (r : Nat) (s : State) : ((tickState r s).2).fft = s.fft := rfl
@[simp] theorem tickState_snd_sq (r : Nat) (s : State) : ((tickState r s).2).sq = s.sq := rfl
@[simp] theorem tickState_snd_mem (r : Nat) (s : State) : ((tickState r s).2).mem = s.mem := rfl
@[simp] theorem tickState_snd_pending (r : Nat) (s : State) : ((tickState r s).2).pending = s.pending := rfl
@[simp] theorem tickState_snd_overlap (r : Nat) (s : State) : ((tickState r s).2).overlap = s.overlap := rfl
@[simp] theorem tickState_snd_replies (r : Nat) (s : State) : ((tickState r s).2).replies = s.replies := rfl
@[simp] theorem tickState_snd_draws (r : Nat) (s : State) : ((tickState r s).2).draws = s.draws := rfl

/-! ## One call of half-band stage 1 (R195) -/

@[simp] theorem hb1State_snd_par (z : Sample) (s : State) : ((hb1State z s).2).par = s.par := rfl
@[simp] theorem hb1State_snd_dI (z : Sample) (s : State) : ((hb1State z s).2).dI = s.dI := rfl
@[simp] theorem hb1State_snd_dQ (z : Sample) (s : State) : ((hb1State z s).2).dQ = s.dQ := rfl
@[simp] theorem hb1State_snd_resI (z : Sample) (s : State) : ((hb1State z s).2).resI = s.resI := rfl
@[simp] theorem hb1State_snd_resQ (z : Sample) (s : State) : ((hb1State z s).2).resQ = s.resQ := rfl
@[simp] theorem hb1State_snd_resValid (z : Sample) (s : State) : ((hb1State z s).2).resValid = s.resValid := rfl
@[simp] theorem hb1State_snd_busy (z : Sample) (s : State) : ((hb1State z s).2).busy = s.busy := rfl
@[simp] theorem hb1State_snd_err (z : Sample) (s : State) : ((hb1State z s).2).err = s.err := rfl
@[simp] theorem hb1State_snd_errCode (z : Sample) (s : State) : ((hb1State z s).2).errCode = s.errCode := rfl
@[simp] theorem hb1State_snd_fcChanged (z : Sample) (s : State) : ((hb1State z s).2).fcChanged = s.fcChanged := rfl
@[simp] theorem hb1State_snd_ovf (z : Sample) (s : State) : ((hb1State z s).2).ovf = s.ovf := rfl
@[simp] theorem hb1State_snd_outCount (z : Sample) (s : State) : ((hb1State z s).2).outCount = s.outCount := rfl
@[simp] theorem hb1State_snd_fcStaged (z : Sample) (s : State) : ((hb1State z s).2).fcStaged = s.fcStaged := rfl
@[simp] theorem hb1State_snd_fcActive (z : Sample) (s : State) : ((hb1State z s).2).fcActive = s.fcActive := rfl
@[simp] theorem hb1State_snd_cic (z : Sample) (s : State) : ((hb1State z s).2).cic = s.cic := rfl
@[simp] theorem hb1State_snd_hb1 (z : Sample) (s : State) : ((hb1State z s).2).hb1 = (hbStep Config.hb1L s.par.hb1K z s.hb1).2 := rfl
@[simp] theorem hb1State_snd_hb2 (z : Sample) (s : State) : ((hb1State z s).2).hb2 = s.hb2 := rfl
@[simp] theorem hb1State_snd_fft (z : Sample) (s : State) : ((hb1State z s).2).fft = s.fft := rfl
@[simp] theorem hb1State_snd_sq (z : Sample) (s : State) : ((hb1State z s).2).sq = s.sq := rfl
@[simp] theorem hb1State_snd_mem (z : Sample) (s : State) : ((hb1State z s).2).mem = s.mem := rfl
@[simp] theorem hb1State_snd_pending (z : Sample) (s : State) : ((hb1State z s).2).pending = s.pending := rfl
@[simp] theorem hb1State_snd_overlap (z : Sample) (s : State) : ((hb1State z s).2).overlap = s.overlap := rfl
@[simp] theorem hb1State_snd_replies (z : Sample) (s : State) : ((hb1State z s).2).replies = s.replies := rfl
@[simp] theorem hb1State_snd_draws (z : Sample) (s : State) : ((hb1State z s).2).draws = s.draws := rfl

/-! ## One call of half-band stage 2 (R195) -/

@[simp] theorem hb2State_snd_par (z : Sample) (s : State) : ((hb2State z s).2).par = s.par := rfl
@[simp] theorem hb2State_snd_dI (z : Sample) (s : State) : ((hb2State z s).2).dI = s.dI := rfl
@[simp] theorem hb2State_snd_dQ (z : Sample) (s : State) : ((hb2State z s).2).dQ = s.dQ := rfl
@[simp] theorem hb2State_snd_resI (z : Sample) (s : State) : ((hb2State z s).2).resI = s.resI := rfl
@[simp] theorem hb2State_snd_resQ (z : Sample) (s : State) : ((hb2State z s).2).resQ = s.resQ := rfl
@[simp] theorem hb2State_snd_resValid (z : Sample) (s : State) : ((hb2State z s).2).resValid = s.resValid := rfl
@[simp] theorem hb2State_snd_busy (z : Sample) (s : State) : ((hb2State z s).2).busy = s.busy := rfl
@[simp] theorem hb2State_snd_err (z : Sample) (s : State) : ((hb2State z s).2).err = s.err := rfl
@[simp] theorem hb2State_snd_errCode (z : Sample) (s : State) : ((hb2State z s).2).errCode = s.errCode := rfl
@[simp] theorem hb2State_snd_fcChanged (z : Sample) (s : State) : ((hb2State z s).2).fcChanged = s.fcChanged := rfl
@[simp] theorem hb2State_snd_ovf (z : Sample) (s : State) : ((hb2State z s).2).ovf = s.ovf := rfl
@[simp] theorem hb2State_snd_outCount (z : Sample) (s : State) : ((hb2State z s).2).outCount = s.outCount := rfl
@[simp] theorem hb2State_snd_fcStaged (z : Sample) (s : State) : ((hb2State z s).2).fcStaged = s.fcStaged := rfl
@[simp] theorem hb2State_snd_fcActive (z : Sample) (s : State) : ((hb2State z s).2).fcActive = s.fcActive := rfl
@[simp] theorem hb2State_snd_cic (z : Sample) (s : State) : ((hb2State z s).2).cic = s.cic := rfl
@[simp] theorem hb2State_snd_hb1 (z : Sample) (s : State) : ((hb2State z s).2).hb1 = s.hb1 := rfl
@[simp] theorem hb2State_snd_hb2 (z : Sample) (s : State) : ((hb2State z s).2).hb2 = (hbStep Config.hb2L s.par.hb2K z s.hb2).2 := rfl
@[simp] theorem hb2State_snd_fft (z : Sample) (s : State) : ((hb2State z s).2).fft = s.fft := rfl
@[simp] theorem hb2State_snd_sq (z : Sample) (s : State) : ((hb2State z s).2).sq = s.sq := rfl
@[simp] theorem hb2State_snd_mem (z : Sample) (s : State) : ((hb2State z s).2).mem = s.mem := rfl
@[simp] theorem hb2State_snd_pending (z : Sample) (s : State) : ((hb2State z s).2).pending = s.pending := rfl
@[simp] theorem hb2State_snd_overlap (z : Sample) (s : State) : ((hb2State z s).2).overlap = s.overlap := rfl
@[simp] theorem hb2State_snd_replies (z : Sample) (s : State) : ((hb2State z s).2).replies = s.replies := rfl
@[simp] theorem hb2State_snd_draws (z : Sample) (s : State) : ((hb2State z s).2).draws = s.draws := rfl

/-! ## Appending one output sample (R263) -/

@[simp] theorem appendOut_par (z : Sample) (s : State) : (appendOut s z).par = s.par := by
  unfold appendOut; split <;> rfl
@[simp] theorem appendOut_dI (z : Sample) (s : State) : (appendOut s z).dI = s.dI := by
  unfold appendOut; split <;> rfl
@[simp] theorem appendOut_dQ (z : Sample) (s : State) : (appendOut s z).dQ = s.dQ := by
  unfold appendOut; split <;> rfl
@[simp] theorem appendOut_resI (z : Sample) (s : State) : (appendOut s z).resI = s.resI := by
  unfold appendOut; split <;> rfl
@[simp] theorem appendOut_resQ (z : Sample) (s : State) : (appendOut s z).resQ = s.resQ := by
  unfold appendOut; split <;> rfl
@[simp] theorem appendOut_resValid (z : Sample) (s : State) : (appendOut s z).resValid = s.resValid := by
  unfold appendOut; split <;> rfl
@[simp] theorem appendOut_busy (z : Sample) (s : State) : (appendOut s z).busy = s.busy := by
  unfold appendOut; split <;> rfl
@[simp] theorem appendOut_err (z : Sample) (s : State) : (appendOut s z).err = s.err := by
  unfold appendOut; split <;> rfl
@[simp] theorem appendOut_errCode (z : Sample) (s : State) : (appendOut s z).errCode = s.errCode := by
  unfold appendOut; split <;> rfl
@[simp] theorem appendOut_fcChanged (z : Sample) (s : State) : (appendOut s z).fcChanged = s.fcChanged := by
  unfold appendOut; split <;> rfl
@[simp] theorem appendOut_fcStaged (z : Sample) (s : State) : (appendOut s z).fcStaged = s.fcStaged := by
  unfold appendOut; split <;> rfl
@[simp] theorem appendOut_fcActive (z : Sample) (s : State) : (appendOut s z).fcActive = s.fcActive := by
  unfold appendOut; split <;> rfl
@[simp] theorem appendOut_cic (z : Sample) (s : State) : (appendOut s z).cic = s.cic := by
  unfold appendOut; split <;> rfl
@[simp] theorem appendOut_hb1 (z : Sample) (s : State) : (appendOut s z).hb1 = s.hb1 := by
  unfold appendOut; split <;> rfl
@[simp] theorem appendOut_hb2 (z : Sample) (s : State) : (appendOut s z).hb2 = s.hb2 := by
  unfold appendOut; split <;> rfl
@[simp] theorem appendOut_fft (z : Sample) (s : State) : (appendOut s z).fft = s.fft := by
  unfold appendOut; split <;> rfl
@[simp] theorem appendOut_sq (z : Sample) (s : State) : (appendOut s z).sq = s.sq := by
  unfold appendOut; split <;> rfl
@[simp] theorem appendOut_pending (z : Sample) (s : State) : (appendOut s z).pending = s.pending := by
  unfold appendOut; split <;> rfl
@[simp] theorem appendOut_overlap (z : Sample) (s : State) : (appendOut s z).overlap = s.overlap := by
  unfold appendOut; split <;> rfl
@[simp] theorem appendOut_replies (z : Sample) (s : State) : (appendOut s z).replies = s.replies := by
  unfold appendOut; split <;> rfl
@[simp] theorem appendOut_draws (z : Sample) (s : State) : (appendOut s z).draws = s.draws := by
  unfold appendOut; split <;> rfl

/-! ## A host write (R104) -/

@[simp] theorem hostWrite_par (sp : Space) (a : Nat) (v : Word) (s : State) : (hostWrite sp a v s).par = s.par := by
  unfold hostWrite; split <;> (try split) <;> rfl
@[simp] theorem hostWrite_dI (sp : Space) (a : Nat) (v : Word) (s : State) : (hostWrite sp a v s).dI = s.dI := by
  unfold hostWrite; split <;> (try split) <;> rfl
@[simp] theorem hostWrite_dQ (sp : Space) (a : Nat) (v : Word) (s : State) : (hostWrite sp a v s).dQ = s.dQ := by
  unfold hostWrite; split <;> (try split) <;> rfl
@[simp] theorem hostWrite_resI (sp : Space) (a : Nat) (v : Word) (s : State) : (hostWrite sp a v s).resI = s.resI := by
  unfold hostWrite; split <;> (try split) <;> rfl
@[simp] theorem hostWrite_resQ (sp : Space) (a : Nat) (v : Word) (s : State) : (hostWrite sp a v s).resQ = s.resQ := by
  unfold hostWrite; split <;> (try split) <;> rfl
@[simp] theorem hostWrite_resValid (sp : Space) (a : Nat) (v : Word) (s : State) : (hostWrite sp a v s).resValid = s.resValid := by
  unfold hostWrite; split <;> (try split) <;> rfl
@[simp] theorem hostWrite_busy (sp : Space) (a : Nat) (v : Word) (s : State) : (hostWrite sp a v s).busy = s.busy := by
  unfold hostWrite; split <;> (try split) <;> rfl
@[simp] theorem hostWrite_err (sp : Space) (a : Nat) (v : Word) (s : State) : (hostWrite sp a v s).err = s.err := by
  unfold hostWrite; split <;> (try split) <;> rfl
@[simp] theorem hostWrite_errCode (sp : Space) (a : Nat) (v : Word) (s : State) : (hostWrite sp a v s).errCode = s.errCode := by
  unfold hostWrite; split <;> (try split) <;> rfl
@[simp] theorem hostWrite_fcChanged (sp : Space) (a : Nat) (v : Word) (s : State) : (hostWrite sp a v s).fcChanged = s.fcChanged := by
  unfold hostWrite; split <;> (try split) <;> rfl
@[simp] theorem hostWrite_ovf (sp : Space) (a : Nat) (v : Word) (s : State) : (hostWrite sp a v s).ovf = s.ovf := by
  unfold hostWrite; split <;> (try split) <;> rfl
@[simp] theorem hostWrite_outCount (sp : Space) (a : Nat) (v : Word) (s : State) : (hostWrite sp a v s).outCount = s.outCount := by
  unfold hostWrite; split <;> (try split) <;> rfl
@[simp] theorem hostWrite_fcStaged (sp : Space) (a : Nat) (v : Word) (s : State) : (hostWrite sp a v s).fcStaged = s.fcStaged := by
  unfold hostWrite; split <;> (try split) <;> rfl
@[simp] theorem hostWrite_fcActive (sp : Space) (a : Nat) (v : Word) (s : State) : (hostWrite sp a v s).fcActive = s.fcActive := by
  unfold hostWrite; split <;> (try split) <;> rfl
@[simp] theorem hostWrite_cic (sp : Space) (a : Nat) (v : Word) (s : State) : (hostWrite sp a v s).cic = s.cic := by
  unfold hostWrite; split <;> (try split) <;> rfl
@[simp] theorem hostWrite_hb1 (sp : Space) (a : Nat) (v : Word) (s : State) : (hostWrite sp a v s).hb1 = s.hb1 := by
  unfold hostWrite; split <;> (try split) <;> rfl
@[simp] theorem hostWrite_hb2 (sp : Space) (a : Nat) (v : Word) (s : State) : (hostWrite sp a v s).hb2 = s.hb2 := by
  unfold hostWrite; split <;> (try split) <;> rfl
@[simp] theorem hostWrite_fft (sp : Space) (a : Nat) (v : Word) (s : State) : (hostWrite sp a v s).fft = s.fft := by
  unfold hostWrite; split <;> (try split) <;> rfl
@[simp] theorem hostWrite_sq (sp : Space) (a : Nat) (v : Word) (s : State) : (hostWrite sp a v s).sq = s.sq := by
  unfold hostWrite; split <;> (try split) <;> rfl
@[simp] theorem hostWrite_pending (sp : Space) (a : Nat) (v : Word) (s : State) : (hostWrite sp a v s).pending = s.pending := by
  unfold hostWrite; split <;> (try split) <;> rfl
@[simp] theorem hostWrite_overlap (sp : Space) (a : Nat) (v : Word) (s : State) : (hostWrite sp a v s).overlap = s.overlap := by
  unfold hostWrite; split <;> (try split) <;> rfl
@[simp] theorem hostWrite_replies (sp : Space) (a : Nat) (v : Word) (s : State) : (hostWrite sp a v s).replies = s.replies := by
  unfold hostWrite; split <;> (try split) <;> rfl
@[simp] theorem hostWrite_draws (sp : Space) (a : Nat) (v : Word) (s : State) : (hostWrite sp a v s).draws = s.draws := by
  unfold hostWrite; split <;> (try split) <;> rfl

/-! ## A host access that overlaps a command (R112) -/

@[simp] theorem overlapAccess_par (ws : List WordAccess) (old done now : State) (e : HostAccess × Nat) :
    (overlapAccess ws old done now e).par = now.par := by
  unfold overlapAccess; split <;> simp
@[simp] theorem overlapAccess_dI (ws : List WordAccess) (old done now : State) (e : HostAccess × Nat) :
    (overlapAccess ws old done now e).dI = now.dI := by
  unfold overlapAccess; split <;> simp
@[simp] theorem overlapAccess_dQ (ws : List WordAccess) (old done now : State) (e : HostAccess × Nat) :
    (overlapAccess ws old done now e).dQ = now.dQ := by
  unfold overlapAccess; split <;> simp
@[simp] theorem overlapAccess_resI (ws : List WordAccess) (old done now : State) (e : HostAccess × Nat) :
    (overlapAccess ws old done now e).resI = now.resI := by
  unfold overlapAccess; split <;> simp
@[simp] theorem overlapAccess_resQ (ws : List WordAccess) (old done now : State) (e : HostAccess × Nat) :
    (overlapAccess ws old done now e).resQ = now.resQ := by
  unfold overlapAccess; split <;> simp
@[simp] theorem overlapAccess_resValid (ws : List WordAccess) (old done now : State) (e : HostAccess × Nat) :
    (overlapAccess ws old done now e).resValid = now.resValid := by
  unfold overlapAccess; split <;> simp
@[simp] theorem overlapAccess_busy (ws : List WordAccess) (old done now : State) (e : HostAccess × Nat) :
    (overlapAccess ws old done now e).busy = now.busy := by
  unfold overlapAccess; split <;> simp
@[simp] theorem overlapAccess_err (ws : List WordAccess) (old done now : State) (e : HostAccess × Nat) :
    (overlapAccess ws old done now e).err = now.err := by
  unfold overlapAccess; split <;> simp
@[simp] theorem overlapAccess_errCode (ws : List WordAccess) (old done now : State) (e : HostAccess × Nat) :
    (overlapAccess ws old done now e).errCode = now.errCode := by
  unfold overlapAccess; split <;> simp
@[simp] theorem overlapAccess_fcChanged (ws : List WordAccess) (old done now : State) (e : HostAccess × Nat) :
    (overlapAccess ws old done now e).fcChanged = now.fcChanged := by
  unfold overlapAccess; split <;> simp
@[simp] theorem overlapAccess_ovf (ws : List WordAccess) (old done now : State) (e : HostAccess × Nat) :
    (overlapAccess ws old done now e).ovf = now.ovf := by
  unfold overlapAccess; split <;> simp
@[simp] theorem overlapAccess_outCount (ws : List WordAccess) (old done now : State) (e : HostAccess × Nat) :
    (overlapAccess ws old done now e).outCount = now.outCount := by
  unfold overlapAccess; split <;> simp
@[simp] theorem overlapAccess_fcStaged (ws : List WordAccess) (old done now : State) (e : HostAccess × Nat) :
    (overlapAccess ws old done now e).fcStaged = now.fcStaged := by
  unfold overlapAccess; split <;> simp
@[simp] theorem overlapAccess_fcActive (ws : List WordAccess) (old done now : State) (e : HostAccess × Nat) :
    (overlapAccess ws old done now e).fcActive = now.fcActive := by
  unfold overlapAccess; split <;> simp
@[simp] theorem overlapAccess_cic (ws : List WordAccess) (old done now : State) (e : HostAccess × Nat) :
    (overlapAccess ws old done now e).cic = now.cic := by
  unfold overlapAccess; split <;> simp
@[simp] theorem overlapAccess_hb1 (ws : List WordAccess) (old done now : State) (e : HostAccess × Nat) :
    (overlapAccess ws old done now e).hb1 = now.hb1 := by
  unfold overlapAccess; split <;> simp
@[simp] theorem overlapAccess_hb2 (ws : List WordAccess) (old done now : State) (e : HostAccess × Nat) :
    (overlapAccess ws old done now e).hb2 = now.hb2 := by
  unfold overlapAccess; split <;> simp
@[simp] theorem overlapAccess_fft (ws : List WordAccess) (old done now : State) (e : HostAccess × Nat) :
    (overlapAccess ws old done now e).fft = now.fft := by
  unfold overlapAccess; split <;> simp
@[simp] theorem overlapAccess_sq (ws : List WordAccess) (old done now : State) (e : HostAccess × Nat) :
    (overlapAccess ws old done now e).sq = now.sq := by
  unfold overlapAccess; split <;> simp
@[simp] theorem overlapAccess_pending (ws : List WordAccess) (old done now : State) (e : HostAccess × Nat) :
    (overlapAccess ws old done now e).pending = now.pending := by
  unfold overlapAccess; split <;> simp
@[simp] theorem overlapAccess_overlap (ws : List WordAccess) (old done now : State) (e : HostAccess × Nat) :
    (overlapAccess ws old done now e).overlap = now.overlap := by
  unfold overlapAccess; split <;> simp
@[simp] theorem overlapAccess_draws (ws : List WordAccess) (old done now : State) (e : HostAccess × Nat) :
    (overlapAccess ws old done now e).draws = now.draws := by
  unfold overlapAccess; split <;> simp

end Sys2Proof.Machine
end

