-- ==== Sys2Proof/Laws/Arith.lean ====
section
/-! SUPPORT. What the arithmetic primitives of R26 and R221 give: ranges and integer values. -/

namespace Sys2Proof.Machine

/-- asr is floor division by 2^k: it lies within one unit below the quotient. -/
theorem asr_bounds (v : Int) (k : Nat) : asr v k * (2 ^ k : Nat) ≤ v ∧ v < (asr v k + 1) * (2 ^ k : Nat) := by
  have hp : (0 : Int) < (2 ^ k : Nat) := by exact_mod_cast Nat.two_pow_pos k
  constructor
  · exact Int.ediv_mul_le v (ne_of_gt hp)
  · exact Int.lt_ediv_add_one_mul_self v hp

theorem asr_nonneg {v : Int} (k : Nat) (h : 0 ≤ v) : 0 ≤ asr v k :=
  Int.ediv_nonneg h (by positivity)

theorem asr_le_self {v : Int} (k : Nat) (h : 0 ≤ v) : asr v k ≤ v :=
  Int.ediv_le_self _ h

theorem asr_neg {v : Int} (k : Nat) (h : v < 0) : asr v k < 0 :=
  Int.ediv_neg_of_neg_of_pos h (by exact_mod_cast Nat.two_pow_pos k)

theorem self_le_asr {v : Int} (k : Nat) (h : v ≤ 0) : v ≤ asr v k := by
  have hp : (0 : Int) < (2 ^ k : Nat) := by exact_mod_cast Nat.two_pow_pos k
  rw [asr, Int.le_ediv_iff_mul_le hp]
  nlinarith

theorem clampInt_low {lo hi : Int} (v : Int) (h : lo ≤ hi) : lo ≤ clampInt lo hi v := by
  simp [clampInt, h]

theorem clampInt_high (lo hi v : Int) : clampInt lo hi v ≤ hi := by
  simp [clampInt]

theorem clampInt_of_mem {lo hi v : Int} (h1 : lo ≤ v) (h2 : v ≤ hi) : clampInt lo hi v = v := by
  simp [clampInt, h1, h2]

/-- An integer of the int16 range survives the round trip through an int16 word. -/
theorem toInt_ofInt16 {v : Int} (h1 : -32768 ≤ v) (h2 : v ≤ 32767) : (BitVec.ofInt 16 v).toInt = v := by
  rw [BitVec.toInt_ofInt, Int.bmod_eq_of_le] <;> norm_num <;> omega

/-- sat16 as an integer: the clamp of R26. -/
theorem sat16_toInt (v : Int) : (sat16 v).toInt = clampInt (-32768) 32767 v :=
  toInt_ofInt16 (clampInt_low v (by norm_num)) (clampInt_high _ _ v)

/-- sat16 leaves an int16 value alone. -/
theorem sat16_of_mem {v : Int} (h1 : -32768 ≤ v) (h2 : v ≤ 32767) : (sat16 v).toInt = v := by
  rw [sat16_toInt, clampInt_of_mem h1 h2]

/-- wrap32 of a sum is the sum of the wraps: 32-bit addition is addition modulo 2^32 (R167). -/
theorem wrap32_add (x y : Int) : wrap32 (x + y) = wrap32 x + wrap32 y := by
  simp [wrap32, BitVec.ofInt_add]

theorem wrap32_sub (x y : Int) : wrap32 (x - y) = wrap32 x - wrap32 y := by
  have h := wrap32_add (x - y) y
  rw [sub_add_cancel] at h
  rw [h, BitVec.add_sub_cancel]

/-- An integer of the int32 range survives the round trip through an int32 word. -/
theorem wrap32_toInt {v : Int} (h1 : -(2 ^ 31) ≤ v) (h2 : v < 2 ^ 31) : (wrap32 v).toInt = v := by
  rw [wrap32, BitVec.toInt_ofInt, Int.bmod_eq_of_le] <;> norm_num at * <;> omega

theorem natAbs_toInt_le (v : Half) : v.toInt.natAbs ≤ 32768 := by
  have h1 := BitVec.le_toInt v
  have h2 := BitVec.toInt_lt (x := v)
  norm_num at h1 h2
  omega

/-- MAG lies in [0, 40960] (R221). -/
theorem mag_le (z : Sample) : mag z ≤ 40960 := by
  have h1 := natAbs_toInt_le z.re
  have h2 := natAbs_toInt_le z.im
  simp only [mag]
  omega

/-- A value smoothed toward another stays between the two (R162, R222, R256). -/
theorem smooth_between (a m : Int) (k : Nat) : min a m ≤ a + asr (m - a) k ∧ a + asr (m - a) k ≤ max a m := by
  rcases le_or_gt 0 (m - a) with h | h
  · have h1 := asr_nonneg k h
    have h2 := asr_le_self k h
    omega
  · have h1 := self_le_asr k h.le
    have h2 := asr_neg k h
    omega

end Sys2Proof.Machine
end

