-- ==== Sys2Proof/Laws/Cic.lean ====
section
/-! SUPPORT. The CIC decimator: what one tick does to each element, and that it keeps the unit's invariant. -/

namespace Sys2Proof.Machine

/-- The parameter facts of R9 and R10 that the CIC needs. -/
theorem Params_wf_cic {p : Params} (h : p.wf = true) :
    2 ≤ p.adcBits ∧ p.adcBits ≤ 16 ∧ 2 ≤ p.cicR ∧ p.cicR ≤ 65535 := by
  simp only [Params.wf, Params.wfSample, Params.wfCic, Bool.and_eq_true, decide_eq_true_eq] at h
  omega

/-- An input below 2^ADC_BITS becomes a signed value of the ADC range (R161). -/
theorem signedCode_range {p : Params} {r : Nat} (h : 1 ≤ p.adcBits) (hr : r < 2 ^ p.adcBits) :
    -(2 ^ (p.adcBits - 1) : Nat) ≤ signedCode p r ∧ signedCode p r < (2 ^ (p.adcBits - 1) : Nat) := by
  obtain ⟨k, hk⟩ : ∃ k, p.adcBits = k + 1 := ⟨p.adcBits - 1, by omega⟩
  rw [hk, Nat.pow_succ] at hr
  simp only [signedCode, hk, Nat.add_sub_cancel]
  omega

theorem two_pow_adc_le {p : Params} (h : p.adcBits ≤ 16) : (2 ^ (p.adcBits - 1) : Nat) ≤ 32768 :=
  calc (2 ^ (p.adcBits - 1) : Nat) ≤ 2 ^ 15 := Nat.pow_le_pow_right (by norm_num) (by omega)
    _ = 32768 := by norm_num

/-- The DC tracker as an integer, and that it stays in the signed ADC range (R55, R162). -/
theorem dcUpdate_toInt {p : Params} {dc : Word} {x : Int} (h : p.adcBits ≤ 16)
    (h1 : -(2 ^ (p.adcBits - 1) : Nat) ≤ dc.toInt) (h2 : dc.toInt < (2 ^ (p.adcBits - 1) : Nat))
    (h3 : -(2 ^ (p.adcBits - 1) : Nat) ≤ x) (h4 : x < (2 ^ (p.adcBits - 1) : Nat)) :
    (dcUpdate p dc x).toInt = dc.toInt + asr (x - dc.toInt) p.dcShift ∧
      -(2 ^ (p.adcBits - 1) : Nat) ≤ (dcUpdate p dc x).toInt ∧
      (dcUpdate p dc x).toInt < (2 ^ (p.adcBits - 1) : Nat) := by
  have hb := smooth_between dc.toInt x p.dcShift
  have hp := two_pow_adc_le h
  have he : (dcUpdate p dc x).toInt = dc.toInt + asr (x - dc.toInt) p.dcShift :=
    wrap32_toInt (by omega) (by omega)
  exact ⟨he, by omega, by omega⟩

/-- The output and the new count of the decimation stage: it emits iff the count reaches CIC_R (R168). -/
theorem cicBack_emits (p : Params) (c : Cic) :
    (cicBack p c).1.isSome = decide (p.cicR ≤ c.decCnt.toNat + 1) := by
  unfold cicBack
  split <;> simp <;> omega

@[simp] theorem cicBack_dc (p : Params) (c : Cic) : (cicBack p c).2.dc = c.dc := by unfold cicBack; split <;> rfl
@[simp] theorem cicBack_rail (p : Params) (c : Cic) : (cicBack p c).2.rail = c.rail := by unfold cicBack; split <;> rfl
@[simp] theorem cicBack_phase (p : Params) (c : Cic) : (cicBack p c).2.phase = c.phase := by
  unfold cicBack; split <;> rfl
@[simp] theorem cicBack_intI (p : Params) (c : Cic) : (cicBack p c).2.intI = c.intI := by unfold cicBack; split <;> rfl
@[simp] theorem cicBack_intQ (p : Params) (c : Cic) : (cicBack p c).2.intQ = c.intQ := by unfold cicBack; split <;> rfl
@[simp] theorem cicFront_dc (p : Params) (step : Word) (r : Nat) (c : Cic) :
    (cicFront p step r c).dc = dcUpdate p c.dc (signedCode p r) := rfl
@[simp] theorem cicFront_rail (p : Params) (step : Word) (r : Nat) (c : Cic) :
    (cicFront p step r c).rail = c.rail.other := rfl
@[simp] theorem cicFront_phase (p : Params) (step : Word) (r : Nat) (c : Cic) :
    (cicFront p step r c).phase = c.phase + step := rfl
@[simp] theorem cicFront_dlyI (p : Params) (step : Word) (r : Nat) (c : Cic) : (cicFront p step r c).dlyI = c.dlyI := rfl
@[simp] theorem cicFront_dlyQ (p : Params) (step : Word) (r : Nat) (c : Cic) : (cicFront p step r c).dlyQ = c.dlyQ := rfl
@[simp] theorem cicFront_decCnt (p : Params) (step : Word) (r : Nat) (c : Cic) :
    (cicFront p step r c).decCnt = c.decCnt := rfl

/-- The decimation count after a tick: one more, or 0 when it reaches CIC_R (R168). -/
theorem cicBack_decCnt {p : Params} {c : Cic} (h : p.cicR ≤ 65535) :
    (cicBack p c).2.decCnt.toNat = if c.decCnt.toNat + 1 < p.cicR then c.decCnt.toNat + 1 else 0 := by
  unfold cicBack
  split
  · simp only [BitVec.toNat_ofNat]; omega
  · rfl

/-- A tick of a legal raw code keeps the invariant of the CIC decimator. -/
theorem cicTick_inv {p : Params} {step : Word} {r : Nat} {c : Cic} (hp : p.wf = true) (hr : r < 2 ^ p.adcBits)
    (h : CicInv p c) : CicInv p (cicTick p step r c).2 := by
  obtain ⟨ha, hb, hc, hd⟩ := Params_wf_cic hp
  have hs := signedCode_range (p := p) (by omega) hr
  have ht := dcUpdate_toInt (p := p) (x := signedCode p r) hb h.dc_low h.dc_high hs.1 hs.2
  refine ⟨?_, ?_, ?_⟩
  · simpa [cicTick] using ht.2.1
  · simpa [cicTick] using ht.2.2
  · rw [cicTick, cicBack_decCnt hd]
    split <;> omega

end Sys2Proof.Machine
end

