-- ==== Sys2Proof/Laws/Memory.lean ====
section
/-! SUPPORT. The laws of the buffer memory: reading back what was written, leaving every other byte alone, and
keeping the canonical form. -/

namespace Sys2Proof.Machine

/-! ## Cells -/

theorem Cells_find_put_same (l : Cells) (a : Nat) (v : Byte) : (Cells.put l a v).find a = some v := by
  induction l with
  | nil => simp [Cells.put, Cells.find]
  | cons e rest ih =>
    obtain ⟨b, w⟩ := e
    simp only [Cells.put]
    split
    · simp [Cells.find]
    · split
      · simp [Cells.find]
      · have : b ≠ a := by omega
        simp [Cells.find, this, ih]

theorem Cells_find_put_other (l : Cells) {a x : Nat} (v : Byte) (h : x ≠ a) : (Cells.put l a v).find x = l.find x := by
  induction l with
  | nil => simp [Cells.put, Cells.find, Ne.symm h]
  | cons e rest ih =>
    obtain ⟨b, w⟩ := e
    simp only [Cells.put]
    split
    · simp [Cells.find, Ne.symm h]
    · split
      · next hab => subst hab; simp [Cells.find, Ne.symm h]
      · simp [Cells.find, ih]

/-- The head address of a cell list is above a bound, or the list is empty. -/
def Cells.headAbove (lo : Nat) : Cells → Prop
  | [] => True
  | (b, _) :: _ => lo < b

theorem Cells_wf_cons (a : Nat) (v : Byte) (l : Cells) :
    Cells.wf ((a, v) :: l) = true ↔ Cells.headAbove a l ∧ Cells.wf l = true := by
  cases l with
  | nil => simp [Cells.wf, Cells.headAbove]
  | cons e rest => simp [Cells.wf, Cells.headAbove]

theorem Cells_put_headAbove {lo a : Nat} (l : Cells) (v : Byte) (h : Cells.headAbove lo l) (ha : lo < a) :
    Cells.headAbove lo (Cells.put l a v) := by
  cases l with
  | nil => simpa [Cells.put, Cells.headAbove]
  | cons e rest =>
    obtain ⟨b, w⟩ := e
    simp only [Cells.put]
    split
    · simpa [Cells.headAbove]
    · split
      · simpa [Cells.headAbove]
      · simpa [Cells.headAbove] using h

theorem Cells_put_wf (l : Cells) (a : Nat) (v : Byte) (h : Cells.wf l = true) : Cells.wf (Cells.put l a v) = true := by
  induction l with
  | nil => simp [Cells.put, Cells.wf]
  | cons e rest ih =>
    obtain ⟨b, w⟩ := e
    have hh := (Cells_wf_cons b w rest).1 h
    simp only [Cells.put]
    split
    · next hlt => exact (Cells_wf_cons a v _).2 ⟨hlt, h⟩
    · split
      · next hab => subst hab; exact (Cells_wf_cons a v _).2 hh
      · next h1 h2 =>
        exact (Cells_wf_cons b w _).2 ⟨Cells_put_headAbove rest v hh.1 (by omega), ih hh.2⟩

/-! ## Buffers -/

@[simp] theorem Memory_cells_setCells_same (m : Memory) (b : Buffer) (c : Cells) : (m.setCells b c).cells b = c := by
  cases b <;> rfl

theorem Memory_cells_setCells_other (m : Memory) {b b' : Buffer} (c : Cells) (h : b' ≠ b) :
    (m.setCells b c).cells b' = m.cells b' := by
  cases b <;> cases b' <;> first | rfl | exact absurd rfl h

theorem Memory_wf_iff (m : Memory) : m.wf = true ↔ ∀ b, Cells.wf (m.cells b) = true := by
  constructor
  · intro h b
    simp only [Memory.wf, Bool.and_eq_true] at h
    cases b <;> simp [Memory.cells, h]
  · intro h
    have h0 := h .in0
    have h1 := h .in1
    have h2 := h .outI
    have h3 := h .outQ
    simp only [Memory.cells] at h0 h1 h2 h3
    simp [Memory.wf, h0, h1, h2, h3]

theorem Memory_writeByte_wf {m : Memory} (b : Buffer) (a : Nat) (v : Byte) (h : m.wf = true) :
    (m.writeByte b a v).wf = true := by
  rw [Memory_wf_iff] at h ⊢
  intro b'
  by_cases hb : b' = b
  · subst hb
    simpa [Memory.writeByte] using Cells_put_wf _ _ _ (h b')
  · simpa [Memory.writeByte, Memory_cells_setCells_other _ _ hb] using h b'

/-- Every word write keeps the canonical form. -/
theorem Memory_writeWord_wf {m : Memory} (b : Buffer) (a : Nat) (v : Half) (h : m.wf = true) :
    (m.writeWord b a v).wf = true :=
  Memory_writeByte_wf _ _ _ (Memory_writeByte_wf _ _ _ h)

theorem Memory_readByte_writeByte_same (m : Memory) (b : Buffer) (a : Nat) (v : Byte) :
    (m.writeByte b a v).readByte b a = v := by
  simp [Memory.readByte, Memory.writeByte, Cells_find_put_same]

theorem Memory_readByte_writeByte_other (m : Memory) {b b' : Buffer} {a x : Nat} (v : Byte) (h : b' ≠ b ∨ x ≠ a) :
    (m.writeByte b a v).readByte b' x = m.readByte b' x := by
  by_cases hb : b' = b
  · subst hb
    have hx : x ≠ a := by simpa using h
    simp [Memory.readByte, Memory.writeByte, Cells_find_put_other _ _ hx]
  · simp [Memory.readByte, Memory.writeByte, Memory_cells_setCells_other _ _ hb]

/-- A word write leaves every byte outside its two bytes alone. -/
theorem Memory_readByte_writeWord_other (m : Memory) {b b' : Buffer} {a x : Nat} (v : Half)
    (h : b' ≠ b ∨ inWord a x = false) : (m.writeWord b a v).readByte b' x = m.readByte b' x := by
  have h1 : b' ≠ b ∨ x ≠ 2 * a := h.imp id (by intro h; simp [inWord] at h; exact h.1)
  have h2 : b' ≠ b ∨ x ≠ 2 * a + 1 := h.imp id (by intro h; simp [inWord] at h; exact h.2)
  rw [Memory.writeWord, Memory_readByte_writeByte_other _ _ h2, Memory_readByte_writeByte_other _ _ h1]

/-- A word reads back as it was written. -/
theorem Memory_readWord_writeWord_same (m : Memory) (b : Buffer) (a : Nat) (v : Half) :
    (m.writeWord b a v).readWord b a = v := by
  rw [Memory.readWord, Memory.writeWord, Memory_readByte_writeByte_same,
    Memory_readByte_writeByte_other _ _ (.inr (by omega)), Memory_readByte_writeByte_same]
  exact BitVec.eq_of_toNat_eq (by
    rw [BitVec.toNat_append, ← Nat.shiftLeft_add_eq_or_of_lt (BitVec.isLt _)]
    simp only [BitVec.extractLsb'_toNat, Nat.shiftLeft_eq, Nat.shiftRight_eq_div_pow]
    omega)

/-- A word write leaves every other word alone. -/
theorem Memory_readWord_writeWord_other (m : Memory) {b b' : Buffer} {a x : Nat} (v : Half) (h : b' ≠ b ∨ x ≠ a) :
    (m.writeWord b a v).readWord b' x = m.readWord b' x := by
  have h1 : b' ≠ b ∨ inWord a (2 * x) = false := h.imp id fun h => by simp [inWord]; omega
  have h2 : b' ≠ b ∨ inWord a (2 * x + 1) = false := h.imp id fun h => by simp [inWord]; omega
  rw [Memory.readWord, Memory.readWord, Memory_readByte_writeWord_other _ _ h1, Memory_readByte_writeWord_other _ _ h2]

end Sys2Proof.Machine
end

