-- ==== Sys2Proof/Laws/NoiseReduction.lean ====
section
/-! SUPPORT. The noise-reduction estimator: the ranges of the estimates and of the gain, and that an update keeps the
unit's invariant. -/

namespace Sys2Proof.Machine

/-- The signal estimate stays between the old one and the magnitude (R222). -/
theorem nrSignal_range {sig m : Nat} (sm : Nat) (h1 : sig ≤ 40960) (h2 : m ≤ 40960) :
    0 ≤ nrSignal sig m sm ∧ nrSignal sig m sm ≤ 40960 := by
  have h := smooth_between (sig : Int) m sm
  simp only [nrSignal]
  omega

/-- The noise estimate is at least 1 and at most max(Ssc, 1) (R223). -/
theorem nrNoise_range (rise noise : Nat) (ssc : Int) : 1 ≤ nrNoise rise noise ssc ∧ nrNoise rise noise ssc ≤ max ssc 1 := by
  simp only [nrNoise]
  omega

/-- The gain lies in [0, GAIN_ONE] (R226). -/
theorem nrGain_range (thr : Nat) (nn ssc : Int) : 0 ≤ nrGain thr nn ssc ∧ nrGain thr nn ssc ≤ 32768 := by
  have h : gainOne = 32768 := by decide
  exact ⟨clampInt_low _ (by rw [h]; norm_num), h ▸ clampInt_high 0 gainOne _⟩

/-- An int16 value times a gain in [0, GAIN_ONE], shifted by GAIN_BITS, stays in int16 (R227). -/
theorem scaleAsr_gain_range {v : Half} {g : Int} (h1 : 0 ≤ g) (h2 : g ≤ 32768) :
    -32768 ≤ scaleAsr v g 15 ∧ scaleAsr v g 15 ≤ 32767 := by
  have ha := BitVec.le_toInt v
  have hb := BitVec.toInt_lt (x := v)
  norm_num at ha hb
  have hk : ((2 ^ 15 : Nat) : Int) = 32768 := by norm_num
  simp only [scaleAsr, asr, hk]
  constructor
  · rw [Int.le_ediv_iff_mul_le (by norm_num)]
    nlinarith
  · rw [← Int.lt_add_one_iff, Int.ediv_lt_iff_lt_mul (by norm_num)]
    nlinarith

@[simp] theorem NrEstimates_put_lengths (n : NrEstimates) (side : Side) (b : Nat) (x y : Word) :
    (n.put side b x y).sigPos.length = n.sigPos.length ∧ (n.put side b x y).sigNeg.length = n.sigNeg.length ∧
    (n.put side b x y).noisePos.length = n.noisePos.length ∧ (n.put side b x y).noiseNeg.length = n.noiseNeg.length := by
  cases side <;> simp [NrEstimates.put]

/-- Writing one entry of each estimate array keeps the invariant when the entries are in range. -/
theorem NrEstimates_put_inv {h : Nat} {n : NrEstimates} (side : Side) (b : Nat) {x y : Word} (hn : NrInv h n)
    (hx : x.toNat ≤ 40960) (hy : 1 ≤ y.toNat ∧ y.toNat ≤ 40960 * 2 ^ 15) : NrInv h (n.put side b x y) := by
  obtain ⟨l1, l2, l3, l4⟩ := NrEstimates_put_lengths n side b x y
  refine ⟨l1.trans hn.lenSigPos, l2.trans hn.lenSigNeg, l3.trans hn.lenNoisePos, l4.trans hn.lenNoiseNeg, ?_, ?_, ?_, ?_⟩ <;>
    cases side <;> simp only [NrEstimates.put] <;> intro w hw
  · rcases List.mem_or_eq_of_mem_set hw with hm | he
    · exact hn.sigPos w hm
    · exact he ▸ hx
  · exact hn.sigPos w hw
  · exact hn.sigNeg w hw
  · rcases List.mem_or_eq_of_mem_set hw with hm | he
    · exact hn.sigNeg w hm
    · exact he ▸ hx
  · rcases List.mem_or_eq_of_mem_set hw with hm | he
    · exact hn.noisePos w hm
    · exact he ▸ hy
  · exact hn.noisePos w hw
  · exact hn.noiseNeg w hw
  · rcases List.mem_or_eq_of_mem_set hw with hm | he
    · exact hn.noiseNeg w hm
    · exact he ▸ hy

/-- A signal estimate of either side is at most 40960, listed or not. -/
theorem NrInv_sig_le {h : Nat} {n : NrEstimates} (hn : NrInv h n) (side : Side) (b : Nat) :
    ((n.sig side).getD b 0).toNat ≤ 40960 := by
  rw [List.getD_eq_getElem?_getD]
  cases hq : (n.sig side)[b]? with
  | none => simp
  | some x =>
    have hm : x ∈ n.sig side := List.mem_of_getElem? hq
    cases side
    · exact hn.sigPos x hm
    · exact hn.sigNeg x hm

/-- The estimates one update writes, as natural numbers. -/
theorem nrUpdate_values {p : Params} {side : Side} {b : Nat} {z : Sample} {sm : Nat} {n : NrEstimates} {h : Nat}
    (hsm : sm ≤ 15) (hn : NrInv h n) :
    (BitVec.ofInt 32 (nrSignal ((n.sig side).getD b 0).toNat (mag z) sm)).toNat ≤ 40960 ∧
    1 ≤ (BitVec.ofInt 32 (nrNoise p.nrNoiseRise ((n.noise side).getD b 0).toNat
      (nrSignal ((n.sig side).getD b 0).toNat (mag z) sm * (2 ^ sm : Nat)))).toNat ∧
    (BitVec.ofInt 32 (nrNoise p.nrNoiseRise ((n.noise side).getD b 0).toNat
      (nrSignal ((n.sig side).getD b 0).toNat (mag z) sm * (2 ^ sm : Nat)))).toNat ≤ 40960 * 2 ^ 15 := by
  obtain ⟨h1, h2⟩ := nrSignal_range sm (NrInv_sig_le hn side b) (mag_le z)
  generalize nrSignal ((n.sig side).getD b 0).toNat (mag z) sm = sg at h1 h2 ⊢
  have hq : ((2 ^ sm : Nat) : Int) ≤ 32768 := by
    have : (2 ^ sm : Nat) ≤ 2 ^ 15 := Nat.pow_le_pow_right (by norm_num) hsm
    norm_num at this
    exact_mod_cast this
  have hq0 : (0 : Int) ≤ (2 ^ sm : Nat) := by positivity
  have hs : sg * (2 ^ sm : Nat) ≤ 40960 * 32768 := by nlinarith
  obtain ⟨h3, h4⟩ := nrNoise_range p.nrNoiseRise ((n.noise side).getD b 0).toNat (sg * (2 ^ sm : Nat))
  generalize nrNoise p.nrNoiseRise ((n.noise side).getD b 0).toNat (sg * (2 ^ sm : Nat)) = nn at h3 h4 ⊢
  simp only [BitVec.toNat_ofInt]
  norm_num
  omega

/-- An update keeps the invariant of the estimates (R231). -/
theorem nrUpdate_inv {p : Params} {side : Side} {b : Nat} {z : Sample} {sm thr : Nat} {n : NrEstimates} {h : Nat}
    (hsm : sm ≤ 15) (hn : NrInv h n) : NrInv h (nrUpdate p side b z sm thr n).2 := by
  obtain ⟨h1, h2, h3⟩ := nrUpdate_values (p := p) (side := side) (b := b) (z := z) hsm hn
  exact NrEstimates_put_inv side b hn h1 ⟨h2, h3⟩

end Sys2Proof.Machine
end

