-- ==== Sys2Proof/Laws/Fft.lean ====
section
/-! SUPPORT. The FFT filter: lengths of every list a frame builds, the bins a walk writes, the ranges of the capture
and notch registers, what appending output samples does, and what FRAME_PUSH can do. -/

namespace Sys2Proof.Machine

/-- The parameter facts of R12 that the FFT filter needs. -/
theorem Params_wf_fft {p : Params} (h : p.wf = true) :
    p.fftN = 2 ^ fftM p ∧ 16 ≤ p.fftN ∧ p.fftN ≤ 4096 ∧ p.notchMax ≤ 65535 ∧ 4 ≤ fftM p := by
  have h1 : p.fftN = 2 ^ fftM p ∧ 16 ≤ p.fftN ∧ p.fftN ≤ 4096 ∧ p.notchMax ≤ 65535 := by
    simp only [Params.wf, Params.wfFft, Bool.and_eq_true, decide_eq_true_eq] at h
    exact ⟨h.1.1.2.1.1.1.1.1.1.1.1, by omega, by omega, by omega⟩
  refine ⟨h1.1, h1.2.1, h1.2.2.1, h1.2.2.2, ?_⟩
  by_contra hc
  have : 2 ^ fftM p ≤ 2 ^ 3 := Nat.pow_le_pow_right (by norm_num) (by omega)
  omega

/-- H = 2·Q4 and N = 4·Q4, all positive (R12). -/
theorem Params_wf_sizes {p : Params} (h : p.wf = true) :
    p.half = 2 * p.quarter ∧ p.fftN = 4 * p.quarter ∧ 4 ≤ p.quarter ∧ p.half ≤ 2048 := by
  obtain ⟨h1, h2, h3, _, h5⟩ := Params_wf_fft h
  obtain ⟨k, hk⟩ : ∃ k, fftM p = k + 2 := ⟨fftM p - 2, by omega⟩
  rw [hk, pow_add] at h1
  simp only [Params.half, Params.quarter]
  omega

/-! ## Lengths -/

theorem foldl_set_length {α β : Type} (f : List α → β → List α) (hf : ∀ l x, (f l x).length = l.length) (xs : List β)
    (l : List α) : (xs.foldl f l).length = l.length := by
  induction xs generalizing l with
  | nil => rfl
  | cons x rest ih => rw [List.foldl_cons, ih, hf]

@[simp] theorem windowed_length (p : Params) (a b : List Sample) : (windowed p a b).length = p.fftN := by
  simp [windowed]

@[simp] theorem bitReverse_length (m : Nat) (a : List Sample) : (bitReverse m a).length = 2 ^ m := by
  rw [bitReverse, foldl_set_length _ (by simp)]
  simp

@[simp] theorem butterflyAt_length (p : Params) (s : Nat) (b : List Sample) (j : Nat) :
    (butterflyAt p s b j).length = b.length := by
  simp [butterflyAt]

@[simp] theorem engineStage_length (p : Params) (m : Nat) (b : List Sample) (s : Nat) :
    (engineStage p m b s).length = b.length :=
  foldl_set_length _ (by simp) _ _

/-- A transform of length 2^m gives 2^m bins (R254). -/
@[simp] theorem engine_length (p : Params) (m : Nat) (a : List Sample) : (engine p m a).length = 2 ^ m := by
  rw [engine, foldl_set_length _ (by simp), bitReverse_length]

@[simp] theorem inverse_length (p : Params) (y : List Sample) : (inverse p y).length = 2 ^ (fftM p - 1) := by
  simp [inverse]

@[simp] theorem capture_length (p : Params) (ssm : Nat) (x : List Sample) (cap : List Half) :
    (capture p ssm x cap).length = p.fftN := by
  simp [capture]

@[simp] theorem overlapAdd_length (p : Params) (a b : List Sample) : (overlapAdd p a b).length = p.quarter := by
  simp [overlapAdd]

@[simp] theorem keepSecondHalf_length (p : Params) (a : List Sample) : (keepSecondHalf p a).length = p.quarter := by
  simp [keepSecondHalf]

@[simp] theorem walkBin_length (p : Params) (fc : FilterControl) (x : List Sample) (side : Side) (w : Walk) (k : Nat) :
    (walkBin p fc x side w k).y.length = w.y.length := by
  unfold walkBin
  split <;> simp

theorem foldl_walkBin_length (p : Params) (fc : FilterControl) (x : List Sample) (side : Side) (ks : List Nat) (w : Walk) :
    (ks.foldl (walkBin p fc x side) w).y.length = w.y.length := by
  induction ks generalizing w with
  | nil => rfl
  | cons k rest ih => rw [List.foldl_cons, ih, walkBin_length]

/-- Y has H bins (R251). -/
@[simp] theorem walk_length (p : Params) (fc : FilterControl) (x : List Sample) (nr : NrEstimates) :
    (walk p fc x nr).y.length = p.half := by
  simp [walk, foldl_walkBin_length]

/-! ## What one butterfly and one bin write -/

/-- A butterfly writes its own two elements and no other (R254). -/
theorem butterflyAt_other (p : Params) (s : Nat) (b : List Sample) {j i : Nat}
    (h1 : i ≠ j / 2 ^ s * (2 * 2 ^ s) + j % 2 ^ s) (h2 : i ≠ j / 2 ^ s * (2 * 2 ^ s) + j % 2 ^ s + 2 ^ s) :
    (butterflyAt p s b j)[i]? = b[i]? := by
  simp only [butterflyAt]
  rw [List.getElem?_set_ne h2.symm, List.getElem?_set_ne h1.symm]

/-- One bin of a walk writes its own element of Y and no other (R257-R259). -/
theorem walkBin_y_other (p : Params) (fc : FilterControl) (x : List Sample) (side : Side) (w : Walk) {k i : Nat}
    (h : i ≠ outputIndex p side k) : (walkBin p fc x side w k).y[i]? = w.y[i]? := by
  unfold walkBin
  split <;> exact List.getElem?_set_ne h.symm

/-! ## What a walk keeps -/

/-- Anything that holds of the walk's start and that every bin of either side keeps holds of its end. -/
theorem foldl_keeps {α β : Type} {P : α → Prop} {Q : β → Prop} (f : α → β → α) (hf : ∀ a b, Q b → P a → P (f a b)) :
    ∀ (bs : List β) (a : α), (∀ b ∈ bs, Q b) → P a → P (bs.foldl f a)
  | [], _, _, ha => ha
  | b :: rest, a, hq, ha =>
    foldl_keeps f hf rest (f a b) (fun x hx => hq x (List.mem_cons_of_mem _ hx)) (hf a b (hq b List.mem_cons_self) ha)

/-- The tracker holds indices below h (R260). -/
def TrackerBelow (h : Nat) (t : Tracker) : Prop := (∀ k, t.peak = some k → k < h) ∧ (∀ k, t.runner = some k → k < h)

theorem track_below {h idx mg : Nat} {t : Tracker} (hi : idx < h) (ht : TrackerBelow h t) :
    TrackerBelow h (t.track idx mg) := by
  unfold Tracker.track
  split
  · exact ⟨fun k hk => by simpa using (Option.some.inj hk) ▸ hi, ht.1⟩
  · split
    · exact ⟨ht.1, fun k hk => by simpa using (Option.some.inj hk) ▸ hi⟩
    · exact ht

theorem walkReduce_inv {p : Params} {fc : FilterControl} {side : Side} {k h : Nat} {v : Sample} {nr : NrEstimates}
    (hsm : fc.noiseSmoothing.toNat ≤ 15) (hn : NrInv h nr) : NrInv h (walkReduce p fc side k v nr).2 := by
  unfold walkReduce
  split
  · exact nrUpdate_inv hsm hn
  · exact hn

theorem walkBin_inv {p : Params} {fc : FilterControl} {x : List Sample} {side : Side} {w : Walk} {k h : Nat}
    (hsm : fc.noiseSmoothing.toNat ≤ 15) (hk : outputIndex p side k < h)
    (hw : TrackerBelow h w.trk ∧ NrInv p.half w.nr) :
    TrackerBelow h (walkBin p fc x side w k).trk ∧ NrInv p.half (walkBin p fc x side w k).nr := by
  unfold walkBin
  split
  · exact ⟨track_below hk hw.1, walkReduce_inv hsm hw.2⟩
  · exact hw

/-- A walk tracks indices of Y only and keeps the invariant of the estimates (R231, R258-R260). -/
theorem walk_inv {p : Params} {fc : FilterControl} {x : List Sample} {nr : NrEstimates} (hp : p.wf = true)
    (hsm : fc.noiseSmoothing.toNat ≤ 15) (hn : NrInv p.half nr) :
    TrackerBelow p.half (walk p fc x nr).trk ∧ NrInv p.half (walk p fc x nr).nr := by
  obtain ⟨h1, _, h3, _⟩ := Params_wf_sizes hp
  have hstart : TrackerBelow p.half Tracker.start := ⟨by simp [Tracker.start], by simp [Tracker.start]⟩
  have hpos := foldl_keeps (P := fun w : Walk => TrackerBelow p.half w.trk ∧ NrInv p.half w.nr)
    (Q := fun k => outputIndex p .pos k < p.half) (walkBin p fc x .pos) (fun w k hk hw => walkBin_inv hsm hk hw)
    (List.range p.quarter) ⟨List.replicate p.half .zero, .start, nr⟩
    (fun k hk => by have := List.mem_range.1 hk; simp only [outputIndex]; omega) ⟨hstart, hn⟩
  exact foldl_keeps (P := fun w : Walk => TrackerBelow p.half w.trk ∧ NrInv p.half w.nr)
    (Q := fun k => outputIndex p .neg k < p.half) (walkBin p fc x .neg) (fun w k hk hw => walkBin_inv hsm hk hw)
    (List.range' 1 p.quarter) _ (fun k hk => by
      have := List.mem_range'_1.1 hk
      simp only [outputIndex]
      omega) hpos

/-! ## Registers of a frame -/

theorem binReg_inv {h : Nat} {o : Option Nat} (hh : h ≤ 2048) (ho : ∀ k, o = some k → k < h) : BinRegInv h (binReg o) := by
  cases o with
  | none => exact .inr rfl
  | some k =>
    have hk := ho k rfl
    left
    simp only [binReg, BitVec.toNat_ofNat]
    omega

/-- The register value of an index below H reads back as the index (R65). -/
theorem binReg_toNat {h k : Nat} (hh : h ≤ 2048) (hk : k < h) : (binReg (some k)).toNat = k := by
  simp only [binReg, BitVec.toNat_ofNat]
  omega

/-- The hysteresis count stays in 0..NOTCH_MAX (R65, R261). -/
theorem notchCount_le {p : Params} {prev cnt : Half} {peak : Option Nat} (hm : p.notchMax ≤ 65535)
    (h : cnt.toNat ≤ p.notchMax) : (notchCount p prev peak cnt).toNat ≤ p.notchMax := by
  unfold notchCount
  split <;> simp only [BitVec.toNat_ofNat] <;> omega

theorem notchBins_length (p : Params) (fc : FilterControl) (cnt : Half) (peak : Option Nat) (y : List Sample) :
    (notchBins p fc cnt peak y).length = y.length := by
  cases peak with
  | none => rfl
  | some k => simp only [notchBins]; split <;> simp

/-- A captured magnitude stays in [0, 40960] (R64, R256). -/
theorem captureBin_le {ssm : Nat} {c : Half} {z : Sample} (h : c.toNat ≤ 40960) :
    (captureBin ssm c z).toNat ≤ 40960 := by
  have hb := smooth_between (c.toNat : Int) (mag z) ssm
  have hm := mag_le z
  have h1 : (0 : Int) ≤ (c.toNat : Int) + asr ((mag z : Int) - c.toNat) ssm := by omega
  have h2 : (c.toNat : Int) + asr ((mag z : Int) - c.toNat) ssm ≤ 40960 := by omega
  generalize (c.toNat : Int) + asr ((mag z : Int) - c.toNat) ssm = v at h1 h2
  simp only [captureBin, BitVec.toNat_ofInt]
  generalize hv : (c.toNat : Int) + asr ((mag z : Int) - c.toNat) ssm = w at *
  norm_num
  have hw1 : 0 ≤ w := by have := hb.1; omega
  have hw2 : w ≤ 40960 := by have := hb.2; omega
  omega

theorem capture_le {p : Params} {ssm : Nat} {x : List Sample} {cap : List Half} (h : ∀ c ∈ cap, c.toNat ≤ 40960) :
    ∀ c ∈ capture p ssm x cap, c.toNat ≤ 40960 := by
  intro c hc
  simp only [capture, List.mem_map] at hc
  obtain ⟨k, _, rfl⟩ := hc
  refine captureBin_le ?_
  rw [List.getD_eq_getElem?_getD]
  cases hq : cap[k]? with
  | none => simp
  | some v => exact h v (List.mem_of_getElem? hq)

/-- A frame whose filter control is well-formed keeps the invariant of the FFT filter (R252). -/
theorem frameStep_inv {p : Params} {fc : FilterControl} {f : Fft} (hp : p.wf = true) (hfc : fc.wf = true)
    (h : FftInv p f) : FftInv p (frameStep p fc f).2 := by
  have hsm : fc.noiseSmoothing.toNat ≤ 15 := by
    simp only [FilterControl.wf, Bool.and_eq_true, decide_eq_true_eq] at hfc
    exact hfc.1.2
  obtain ⟨_, _, _, h4⟩ := Params_wf_sizes hp
  obtain ⟨_, _, _, hm, _⟩ := Params_wf_fft hp
  have hw := walk_inv (fc := fc) (x := engine p (fftM p) (windowed p f.prevIn f.frame)) hp hsm h.nr
  refine ⟨h.lenFrame, h.fill, h.lenFrame, by simp [frameStep], hw.2, ?_, ?_, notchCount_le hm h.notch, ?_, ?_, ?_⟩
  · simp only [frameStep, frameCore]
    split
    · simp
    · exact h.lenCap
  · simp only [frameStep, frameCore]
    split
    · exact capture_le h.cap
    · exact h.cap
  · exact binReg_inv h4 hw.1.1
  · exact binReg_inv h4 hw.1.1
  · exact binReg_inv h4 hw.1.2

/-! ## Appending output -/

/-- What appending one sample does: it stores the pair and counts it, or, when the buffers are full, drops it and
sets OVF (R263). -/
theorem appendOut_cases (s : State) (z : Sample) :
    (s.outCount.toNat < s.par.outMax ∧
      (appendOut s z).mem = (s.mem.writeWord .outI s.outCount.toNat z.re).writeWord .outQ s.outCount.toNat z.im ∧
      (appendOut s z).outCount = BitVec.ofNat 16 (s.outCount.toNat + 1) ∧ (appendOut s z).ovf = s.ovf) ∨
    (s.par.outMax ≤ s.outCount.toNat ∧ (appendOut s z).mem = s.mem ∧ (appendOut s z).outCount = s.outCount ∧
      (appendOut s z).ovf = true) := by
  unfold appendOut
  split
  · next h => exact .inl ⟨h, rfl, rfl, rfl⟩
  · next h => exact .inr ⟨by omega, rfl, rfl, rfl⟩

/-- Appending samples changes nothing but the buffers, OUT_COUNT and OVF: any property that ignores those three and
is kept by one append is kept by all. -/
theorem foldl_appendOut_keeps {P : State → Prop} (hP : ∀ s z, P s → P (appendOut s z)) (zs : List Sample) (s : State)
    (h : P s) : P (zs.foldl appendOut s) :=
  foldl_keeps (Q := fun _ => True) appendOut (fun s z _ hs => hP s z hs) zs s (fun _ _ => trivial) h

/-! ## FRAME_PUSH -/

/-- What FFT_FRAME can do on the whole state (R252). -/
theorem fftFrame_ok {s t : State} {o : List Sample} (h : fftFrame s = .ok (o, t)) :
    s.fcActive.wf = true ∧ o = (frameStep s.par s.fcActive s.fft).1 ∧
      t = o.foldl appendOut { s with fft := (frameStep s.par s.fcActive s.fft).2 } := by
  unfold fftFrame at h
  split at h
  · next hwf =>
    simp only [Except.ok.injEq, Prod.mk.injEq] at h
    exact ⟨hwf, h.1.symm, by rw [← h.2, ← h.1]⟩
  · cases h

/-- What FRAME_PUSH can do: store the sample, or store it and run the frame it completes (R264). -/
theorem framePush_ok {z : Sample} {s t : State} {o : Option Sample} (h : framePush z s = .ok (o, t)) :
    (s.fft.frameFill + 1 ≠ s.par.half ∧ o = none ∧ t = { s with fft := framePut z s.fft }) ∨
    (s.fft.frameFill + 1 = s.par.half ∧ s.fcActive.wf = true ∧
      ∃ f, f = { framePut z s.fft with frameFill := 0 } ∧
        o = some ((frameStep s.par s.fcActive f).1.getD 0 .zero) ∧
        t = (frameStep s.par s.fcActive f).1.foldl appendOut { s with fft := (frameStep s.par s.fcActive f).2 }) := by
  unfold framePush at h
  dsimp only at h
  split at h
  · next hfull =>
    right
    split at h
    · next o1 s1 hf =>
      obtain ⟨hwf, ho, ht⟩ := fftFrame_ok hf
      simp only [Except.ok.injEq, Prod.mk.injEq] at h
      refine ⟨hfull, hwf, _, rfl, ?_, ?_⟩
      · rw [← h.1, ho]
      · rw [← h.2, ht, ho]
    · cases h
  · next hfull =>
    left
    simp only [Except.ok.injEq, Prod.mk.injEq] at h
    exact ⟨hfull, h.1.symm, h.2.symm⟩

/-- FRAME_PUSH is refused only when it completes a frame while FC_ACTIVE is not well-formed (R252, R367). -/
theorem framePush_error {z : Sample} {s : State} {e : Refusal} (h : framePush z s = .error e) :
    s.fft.frameFill + 1 = s.par.half ∧ s.fcActive.wf = false ∧ e = .fcPrecondition := by
  unfold framePush fftFrame at h
  dsimp only at h
  split at h
  · next hfull =>
    split at h
    · cases h
    · next e1 hf =>
      split at hf
      · cases hf
      · next hwf =>
        simp only [Except.error.injEq] at h hf
        exact ⟨hfull, by simpa using hwf, by rw [← h, ← hf]⟩
  · cases h

end Sys2Proof.Machine
end

