-- ==== Sys2Proof/Laws/HalfBand.lean ====
section
/-! SUPPORT. The half-band stages: what one call does to the buffer, the pointer and the fill count, when it emits,
and that it keeps the unit's invariant. -/

namespace Sys2Proof.Machine

@[simp] theorem hbStep_snd (l : Nat) (h : List Int) (z : Sample) (b : HalfBand) : (hbStep l h z b).2 = hbPush l z b := rfl
@[simp] theorem hbPush_buf (l : Nat) (z : Sample) (b : HalfBand) : (hbPush l z b).buf = b.buf.set b.ptr z := rfl
@[simp] theorem hbPush_ptr (l : Nat) (z : Sample) (b : HalfBand) : (hbPush l z b).ptr = (b.ptr + 1) % l := rfl
@[simp] theorem hbPush_fill (l : Nat) (z : Sample) (b : HalfBand) : (hbPush l z b).fill = min (b.fill + 1) l := rfl

/-- A call emits iff the buffer is full after the write and the write index is odd (R192). -/
theorem hbStep_isSome (l : Nat) (h : List Int) (z : Sample) (b : HalfBand) :
    (hbStep l h z b).1.isSome = hbEmits l b := by
  simp only [hbStep]
  split <;> simp_all

/-- A call keeps the invariant of a stage. -/
theorem hbPush_inv {l : Nat} {z : Sample} {b : HalfBand} (h : HalfBandInv l b) : HalfBandInv l (hbPush l z b) := by
  have hl : 0 < l := Nat.lt_of_le_of_lt (Nat.zero_le _) h.ptr
  refine ⟨?_, ?_, ?_, ?_⟩
  · simp [h.len]
  · exact Nat.mod_lt _ hl
  · simp
  · intro hf
    have h1 : b.fill + 1 < l := by simpa using hf
    have h2 := h.filling (by omega)
    simp only [hbPush_ptr, hbPush_fill, h2]
    rw [Nat.mod_eq_of_lt h1]
    omega

/-- A tap index lies inside the buffer (R191). -/
theorem tapIndex_lt {l : Nat} (p k : Nat) (h : 0 < l) : tapIndex l p k < l := by
  have h1 : (0 : Int) ≤ ((p : Int) - k) % l := Int.emod_nonneg _ (by omega)
  have h2 : ((p : Int) - k) % l < l := Int.emod_lt_of_pos _ (by omega)
  simp only [tapIndex]
  omega

end Sys2Proof.Machine
end

