-- ==== Sys2Proof/Laws/Interleave.lean ====
section
/-! SUPPORT. The interleaving of a command with the host accesses that overlap it: the places never go back, an input
read finds the old word or a racing write, a view keeps what every word access keeps, and the end of a command adds to
its result one reply for each overlapping read and the overlapping writes of IN0 and IN1 (R107, R112-R114). -/

namespace Sys2Proof.Machine

/-! ## Places -/

@[simp] theorem placesFrom_length (d p n : Nat) : (placesFrom d p n).length = n := by
  induction n generalizing d p with
  | zero => rfl
  | succ n ih => simp [placesFrom, ih]

/-- Every place is at or after the place that the list starts from. -/
theorem le_of_mem_placesFrom {d p n q : Nat} (h : q ∈ placesFrom d p n) : p ≤ q := by
  induction n generalizing d p with
  | zero => cases h
  | succ n ih =>
    rcases List.mem_cons.1 h with rfl | h
    · exact Nat.le_add_right _ _
    · exact (Nat.le_add_right _ _).trans (ih h)

/-- The host's accesses take their places in the host's order (R112). -/
theorem placesFrom_pairwise (d p n : Nat) : (placesFrom d p n).Pairwise (· ≤ ·) := by
  induction n generalizing d p with
  | zero => exact .nil
  | succ n ih => exact .cons (fun _ h => le_of_mem_placesFrom h) (ih _ _)

@[simp] theorem placedOverlap_map_fst (s : State) : (placedOverlap s).map Prod.fst = s.overlap :=
  List.map_fst_zip (by simp)

@[simp] theorem placedOverlap_map_snd (s : State) :
    (placedOverlap s).map Prod.snd = placesFrom s.draws 0 s.overlap.length :=
  List.map_snd_zip (by simp)

/-! ## The input race (R113) -/

/-- The writes before an access are racing writes, in their order. -/
theorem writesBefore_sublist (s : State) (sel : InSel) (a now : Nat) :
    (writesBefore s sel a now).Sublist (racingWrites s sel a) := by
  rw [racingWrites, ← placedOverlap_map_fst s, List.filterMap_map, writesBefore]
  induction placedOverlap s with
  | nil => exact .slnil
  | cons e l ih =>
    simp only [List.filterMap_cons, Function.comp]
    cases e.1.writesTo (inputSpace sel) a with
    | none => exact ih
    | some v =>
      by_cases h : e.2 ≤ now
      · simpa [Option.filter, h] using ih
      · simpa [Option.filter, h] using ih.trans (List.sublist_cons_self _ _)

/-- Without a racing write an input read finds the word in the buffer (R115, R401). -/
theorem readInput_owned {s : State} {sel : InSel} {a : Nat} (now : Nat) (h : racingWrites s sel a = []) :
    readInput sel a now s = s.mem.readWord (inputBuffer sel) a := by
  have hw := writesBefore_sublist s sel a now
  rw [h, List.sublist_nil] at hw
  rw [readInput, hw]; rfl

/-- An input read finds the old word or the word of a racing write (R113). -/
theorem readInput_cases (sel : InSel) (a now : Nat) (s : State) :
    readInput sel a now s = s.mem.readWord (inputBuffer sel) a ∨ readInput sel a now s ∈ racingWrites s sel a := by
  unfold readInput
  cases hw : writesBefore s sel a now with
  | nil => exact .inl rfl
  | cons v l =>
    refine .inr ((writesBefore_sublist s sel a now).subset ?_)
    rw [hw, List.getLastD_cons, List.getLastD_eq_getLast?]
    cases l with
    | nil => simp
    | cons x l => simp [List.getLast?_eq_getLast_of_ne_nil]

/-! ## Views (R114) -/

/-- What holds of the start, is kept by every word access and holds of the end, holds of every view. -/
theorem viewAt_keeps {P : State → Prop} {ws : List WordAccess} {u done : State} (p : Nat) (hu : P u)
    (hw : ∀ f ∈ ws, ∀ v, P v → P (f v)) (hd : P done) : P (viewAt ws p u done) := by
  induction ws generalizing p u with
  | nil => exact hd
  | cons f ws ih =>
    cases p with
    | zero => exact hu
    | succ p => exact ih p (hw f (.head _) u hu) fun g hg => hw g (.tail _ hg)

/-- Before a command's first word access the host sees the old state, if the command makes one. -/
theorem viewAt_start {ws : List WordAccess} (h : ws ≠ []) (u done : State) : viewAt ws 0 u done = u := by
  cases ws with
  | nil => exact absurd rfl h
  | cons f ws => rfl

/-- After a command's last word access the host sees its result. -/
theorem viewAt_end {ws : List WordAccess} {p : Nat} (h : ws.length ≤ p) (u done : State) : viewAt ws p u done = done := by
  induction ws generalizing p u with
  | nil => rfl
  | cons f ws ih =>
    cases p with
    | zero => simp at h
    | succ p => exact ih (by simpa using h) _

/-- A view of two lists of accesses, one behind the other: the first list's, or the second's from what the first leaves. -/
theorem viewAt_append (ws ws' : List WordAccess) (p : Nat) (u done : State) :
    viewAt (ws ++ ws') p u done =
      if p < ws.length then viewAt ws p u done else viewAt ws' (p - ws.length) (ws.foldl (fun v f => f v) u) done := by
  induction ws generalizing p u with
  | nil => simp
  | cons f ws ih =>
    cases p with
    | zero => simp [viewAt]
    | succ p => simp [viewAt, ih]

/-- A free order leaves out no write and repeats none. -/
theorem anyOrder_perm (d g : Nat) (l : List WordAccess) : (anyOrder d g l).Perm l := by
  induction l with
  | nil => exact .nil
  | cons f l ih =>
    have hl : (anyOrder d g l).length = l.length := ih.length_eq
    refine (List.perm_insertIdx f _ ?_).trans (ih.cons f)
    rw [hl]
    exact Nat.le_of_lt_succ (Nat.mod_lt _ (Nat.succ_pos _))

@[simp] theorem mem_anyOrder {d g : Nat} {l : List WordAccess} {f : WordAccess} : f ∈ anyOrder d g l ↔ f ∈ l :=
  (anyOrder_perm d g l).mem_iff

/-! ## Old or new (R112, R114) -/

/-- If every word access leaves what f reads or makes it the new one, it is old and then new. `Q` is anything that
the start and the end have and every access keeps. -/
theorem OldThenNew_of {α : Type} {f : State → α} {ws : List WordAccess} {s t : State} (Q : State → Prop) (hs : Q s)
    (ht : Q t) (h : ∀ g ∈ ws, ∀ v, Q v → Q (g v) ∧ (f (g v) = f v ∨ f (g v) = f t)) : OldThenNew f ws s t := by
  intro p
  constructor
  · exact (viewAt_keeps (P := fun v => Q v ∧ (f v = f s ∨ f v = f t)) p ⟨hs, .inl rfl⟩
      (fun g hg v hv => ⟨(h g hg v hv.1).1, by
        rcases (h g hg v hv.1).2 with e | e <;> rw [e] <;> [exact hv.2; exact .inr rfl]⟩) ⟨ht, .inr rfl⟩).2
  · intro q hpq
    induction ws generalizing p q s with
    | nil => intro _; rfl
    | cons g ws ih =>
      intro hn
      cases p with
      | zero =>
        exact (viewAt_keeps (P := fun v => Q v ∧ f v = f t) q ⟨hs, hn⟩
          (fun g hg v hv => ⟨(h g hg v hv.1).1, by rcases (h g hg v hv.1).2 with e | e <;> rw [e]; exact hv.2⟩)
          ⟨ht, rfl⟩).2
      | succ p =>
        cases q with
        | zero => omega
        | succ q =>
          exact ih (h g (.head _) s hs).1 (fun g' hg' => h g' (.tail _ hg')) p q (by omega) hn

/-- A word access on the way to t: every word but STATUS, and every field of STATUS but BUSY, it leaves or gives its
value in t. -/
def Settles (t : State) (g : WordAccess) : Prop :=
  ∀ v, v.par = t.par → (g v).par = t.par ∧
    (∀ sp a, ¬(sp = .reg ∧ a = 0x01) → hostRead (g v) sp a = hostRead v sp a ∨ hostRead (g v) sp a = hostRead t sp a) ∧
    ((g v).err = v.err ∨ (g v).err = t.err) ∧ ((g v).errCode = v.errCode ∨ (g v).errCode = t.errCode) ∧
    ((g v).fcChanged = v.fcChanged ∨ (g v).fcChanged = t.fcChanged) ∧ ((g v).ovf = v.ovf ∨ (g v).ovf = t.ovf) ∧
    ((g v).resValid = v.resValid ∨ (g v).resValid = t.resValid) ∧ ((g v).sq.mode = v.sq.mode ∨ (g v).sq.mode = t.sq.mode)

/-- A command that makes only such accesses shows each word old and then new. -/
theorem OldThenNew_of_settles {ws : List WordAccess} {s t : State} (hp : s.par = t.par) (h : ∀ g ∈ ws, Settles t g) :
    StatusOldThenNew ws s t ∧ ∀ sp a, ¬(sp = .reg ∧ a = 0x01) → OldThenNew (hostRead · sp a) ws s t := by
  refine ⟨⟨?_, ?_, ?_, ?_, ?_, ?_⟩, fun sp a ha => ?_⟩
  all_goals
    refine OldThenNew_of (fun v => v.par = t.par) hp rfl fun g hg v hv => ?_
    obtain ⟨h0, h1, h2, h3, h4, h5, h6, h7⟩ := h g hg v hv
    first
      | exact ⟨h0, h2⟩ | exact ⟨h0, h3⟩ | exact ⟨h0, h4⟩ | exact ⟨h0, h5⟩ | exact ⟨h0, h6⟩ | exact ⟨h0, h7⟩
      | exact ⟨h0, h1 sp a ha⟩

theorem inputRead_settles (t : State) : Settles t inputRead := fun _ hv =>
  ⟨hv, fun _ _ _ => .inl rfl, .inl rfl, .inl rfl, .inl rfl, .inl rfl, .inl rfl, .inl rfl⟩

/-- Every write of one register that takes its value from t is on the way to t. -/
theorem registerWrite_settles (t : State) : ∀ g ∈ [dIWrite t, dQWrite t, resIWrite t, resQWrite t, resValidWrite t,
    errWrite t, errCodeWrite t, fcChangedWrite t, ovfWrite t, outCountWrite t, frameFillWrite t, notchCntWrite t,
    peakIdxWrite t, runnerIdxWrite t, sqModeWrite t, sqThresholdWrite t, sqTimeoutWrite t, sqCountWrite t,
    sqS9Write t, fun u => { u with fcStaged := t.fcStaged }, fun u => { u with fcActive := t.fcActive }],
    Settles t g := by
  simp only [List.forall_mem_cons, List.not_mem_nil, false_imp_iff, implies_true, and_true]
  refine ⟨?_, ?_, ?_, ?_, ?_, ?_, ?_, ?_, ?_, ?_, ?_, ?_, ?_, ?_, ?_, ?_, ?_, ?_, ?_, ?_, ?_⟩
  all_goals
    intro v hv
    refine ⟨hv, fun sp a ha => ?_, ?_⟩
    · simp only [hostRead, dIWrite, dQWrite, resIWrite, resQWrite, resValidWrite, errWrite, errCodeWrite, fcChangedWrite,
        ovfWrite, outCountWrite, frameFillWrite, notchCntWrite, peakIdxWrite, runnerIdxWrite, sqModeWrite,
        sqThresholdWrite, sqTimeoutWrite, sqCountWrite, sqS9Write, hv]
      split
      · cases sp <;> try exact .inl rfl
        simp only [readReg]
        split
        all_goals first
          | exact absurd ⟨rfl, rfl⟩ ha
          | exact .inl rfl
          | exact .inr rfl
          | (split <;> first | exact .inl rfl | exact .inr rfl)
      · exact .inl rfl
    · exact ⟨by first | exact .inl rfl | exact .inr rfl, by first | exact .inl rfl | exact .inr rfl,
        by first | exact .inl rfl | exact .inr rfl, by first | exact .inl rfl | exact .inr rfl,
        by first | exact .inl rfl | exact .inr rfl, by first | exact .inl rfl | exact .inr rfl⟩

/-- Copying one field of the filter control leaves or copies each field that REG shows. -/
theorem copyField_readField (x y : FilterControl) (f k : Nat) :
    (x.copyField y f).readField k = y.readField k ∨ (x.copyField y f).readField k = x.readField k := by
  unfold FilterControl.copyField
  split <;> unfold FilterControl.readField <;> (try split) <;> first | exact .inl rfl | exact .inr rfl

/-- Writing one field of a copy of the filter control from t is on the way to t. -/
theorem fieldWrite_settles (t : State) (f : Nat) :
    Settles t (fun u => { u with fcStaged := t.fcStaged.copyField u.fcStaged f }) ∧
    Settles t (fun u => { u with fcActive := t.fcActive.copyField u.fcActive f }) := by
  constructor
  all_goals
    intro v hv
    refine ⟨hv, fun sp a ha => ?_, .inl rfl, .inl rfl, .inl rfl, .inl rfl, .inl rfl, .inl rfl⟩
    simp only [hostRead, hv]
    split
    · cases sp <;> try exact .inl rfl
      simp only [readReg]
      split
      all_goals first
        | exact .inl rfl
        | (split <;> first
            | exact .inl rfl
            | exact copyField_readField _ _ _ _
            | (split <;> first | exact copyField_readField _ _ _ _ | exact .inl rfl))
    · exact .inl rfl

/-- Writing one word of CAP from t is on the way to t. -/
theorem capWrite_settles (t : State) (k : Nat) : Settles t (capWrite t k) := by
  intro v hv
  refine ⟨hv, fun sp a _ => ?_, .inl rfl, .inl rfl, .inl rfl, .inl rfl, .inl rfl, .inl rfl⟩
  simp only [hostRead, capWrite, hv]
  split
  · cases sp <;> try exact .inl rfl
    by_cases h : k = a ∧ k < v.fft.cap.length
    · exact .inr (by simp [List.getD_eq_getElem?_getD, h.1, h.1 ▸ h.2])
    · refine .inl ?_
      simp only [List.getD_eq_getElem?_getD, List.getElem?_set]
      split
      · next e => subst e; simp at h; simp [Nat.not_lt.2 h]
      · rfl
  · exact .inl rfl

/-- Writing one word of OUT_I or OUT_Q from t is on the way to t. -/
theorem outWrite_settles (t : State) (b : Buffer) (hb : b = .outI ∨ b = .outQ) (c : Nat) :
    Settles t (fun u => { u with mem := u.mem.writeWord b c (t.mem.readWord b c) }) := by
  intro v hv
  refine ⟨hv, fun sp a _ => ?_, .inl rfl, .inl rfl, .inl rfl, .inl rfl, .inl rfl, .inl rfl⟩
  simp only [hostRead, hv]
  split
  · rcases hb with rfl | rfl <;> cases sp <;> try exact .inl rfl
    all_goals
      by_cases h : a = c
      · subst h; exact .inr (by simp [Memory_readWord_writeWord_same])
      · exact .inl (by simp [Memory_readWord_writeWord_other _ _ (.inr h)])
  · exact .inl rfl

/-! ## The end of a command -/

/-- What every overlapping access keeps, all of them keep. -/
theorem foldl_overlap_keeps {P : State → Prop} (ws : List WordAccess) (old done : State)
    (h : ∀ now e, P now → P (overlapAccess ws old done now e)) (l : List (HostAccess × Nat)) {now : State} (hn : P now) :
    P (l.foldl (overlapAccess ws old done) now) := by
  induction l generalizing now with
  | nil => exact hn
  | cons e l ih => exact ih (h now e hn)

/-- The entries behind a command are the overlapping accesses and then what is held (R111). -/
theorem overlapping_append_held (ops : List HostAccess) (held : List HostOp) (h1 : ∀ a ∈ ops, a.command = none)
    (h2 : ∀ h ∈ held.head?, h.overlap = false ∨ h.access.command.isSome = true) :
    overlapping (ops.map (fun a => ⟨a, true⟩) ++ held) = ops ∧
      afterOverlap (ops.map (fun a => ⟨a, true⟩) ++ held) = held := by
  induction ops with
  | nil =>
    cases held with
    | nil => exact ⟨rfl, rfl⟩
    | cons h t =>
      have := h2 h rfl
      have hc : (h.overlap && h.access.command.isNone) = false := by
        rcases this with e | e
        · simp [e]
        · cases hh : h.access.command <;> simp_all
      simp [overlapping, afterOverlap, hc]
  | cons a l ih =>
    have ih := ih fun x hx => h1 x (.tail _ hx)
    have ha := h1 a (.head _)
    simp [overlapping, afterOverlap, ha, ih]

/-- What overlapping accesses at their places can do to a command's result t, when the command left the input buffers of
s as they were: they write the input buffers, add the replies, and do nothing else (R100, R112, R114). -/
theorem foldl_overlapAccess_cases (ws : List WordAccess) (old t s : State) (hp : t.par = s.par)
    (hm0 : t.mem.in0 = s.mem.in0) (hm1 : t.mem.in1 = s.mem.in1) (l : List (HostAccess × Nat)) :
    ∃ (u : State) (r : List (Option Word)), l.foldl (overlapAccess ws old t) t = u ∧
      u = { t with mem := u.mem, replies := t.replies ++ r.reduceOption } ∧ u.mem.outI = t.mem.outI ∧
      u.mem.outQ = t.mem.outQ ∧
      (∀ sel a v, a < s.par.inBufSize → LastWrite (l.map Prod.fst) (inputSpace sel) a v →
          u.mem.readWord (inputBuffer sel) a = v.extractLsb' 0 16) ∧
      (∀ sel x, NoWrite (l.map Prod.fst) (inputSpace sel) (x / 2) ∨ s.par.inBufSize ≤ x / 2 →
          u.mem.readByte (inputBuffer sel) x = s.mem.readByte (inputBuffer sel) x) ∧
      r.length = l.length ∧
      ∀ k acc p, l[k]? = some (acc, p) →
          (∀ v, acc.kind = .write v → r[k]? = some none) ∧
          (acc.kind = .read → acc.space.isInput = false → r[k]? =
            some (some (hostRead { viewAt ws p old t with busy := true } acc.space acc.addr))) ∧
          ∀ sel, acc.kind = .read → acc.space = inputSpace sel →
            (NoWrite ((l.map Prod.fst).take k) acc.space acc.addr →
              r[k]? = some (some (hostRead s acc.space acc.addr))) ∧
            ∀ v, acc.addr < s.par.inBufSize → LastWrite ((l.map Prod.fst).take k) acc.space acc.addr v →
              r[k]? = some (some ((v.extractLsb' 0 16).setWidth 32)) := by
  induction l using List.reverseRecOn with
  | nil =>
    refine ⟨t, [], rfl, by simp, rfl, rfl, ?_, ?_, rfl, by simp⟩
    · rintro sel a v _ ⟨l1, x, l2, h, _⟩; simp at h
    · intro sel x _
      cases sel <;> simp [Memory.readByte, Memory.cells, inputBuffer, hm0, hm1]
  | append_singleton l e ih =>
    obtain ⟨u, r, hf, hu, ho1, ho2, hlast, hno, hlen, hk⟩ := ih
    obtain ⟨acc, p⟩ := e
    have hpar : u.par = s.par := by rw [hu]; exact hp
    have noW : ∀ sel a, NoWrite (l.map Prod.fst) (inputSpace sel) a →
        u.mem.readWord (inputBuffer sel) a = s.mem.readWord (inputBuffer sel) a := by
      intro sel a h
      rw [Memory.readWord, Memory.readWord, hno sel (2 * a + 1) (.inl (by rwa [show (2 * a + 1) / 2 = a by omega])),
        hno sel (2 * a) (.inl (by rwa [show (2 * a) / 2 = a by omega]))]
    have old_k : ∀ (o : Option Word) k acc' p', (l ++ [(acc, p)])[k]? = some (acc', p') → k < l.length →
        (∀ v, acc'.kind = .write v → (r ++ [o])[k]? = some none) ∧
          (acc'.kind = .read → acc'.space.isInput = false → (r ++ [o])[k]? =
            some (some (hostRead { viewAt ws p' old t with busy := true } acc'.space acc'.addr))) ∧
          ∀ sel, acc'.kind = .read → acc'.space = inputSpace sel →
            (NoWrite (((l ++ [(acc, p)]).map Prod.fst).take k) acc'.space acc'.addr →
              (r ++ [o])[k]? = some (some (hostRead s acc'.space acc'.addr))) ∧
            ∀ v, acc'.addr < s.par.inBufSize → LastWrite (((l ++ [(acc, p)]).map Prod.fst).take k) acc'.space acc'.addr v →
              (r ++ [o])[k]? = some (some ((v.extractLsb' 0 16).setWidth 32)) := by
      intro o k acc' p' hget hlt
      rw [List.getElem?_append_left hlt] at hget
      rw [List.getElem?_append_left (by omega)]
      have : ((l ++ [(acc, p)]).map Prod.fst).take k = (l.map Prod.fst).take k := by
        rw [List.map_append, List.take_append_of_le_length (by simp; omega)]
      rw [this]
      exact hk k acc' p' hget
    have lastIdx : ∀ k acc' p', (l ++ [(acc, p)])[k]? = some (acc', p') → ¬k < l.length →
        k = l.length ∧ acc' = acc ∧ p' = p := by
      intro k acc' p' h hn
      have hk1 : k < (l ++ [(acc, p)]).length := by
        by_contra hc; rw [List.getElem?_eq_none (by omega)] at h; cases h
      have : k = l.length := by simp at hk1; omega
      subst this; simp at h; exact ⟨rfl, h.1.symm, h.2.symm⟩
    rw [List.foldl_append, hf]
    cases hkind : acc.kind with
    | read =>
      refine ⟨_, r ++ [some (overlapReply ws old t u acc p)], rfl, ?_, ?_, ?_, ?_, ?_, by simp [hlen], ?_⟩
      · simp only [List.foldl_cons, List.foldl_nil, overlapAccess, hkind, List.reduceOption_append]
        rw [hu]; simp [List.reduceOption, List.append_assoc, overlapReply]
      · simpa [overlapAccess, hkind] using ho1
      · simpa [overlapAccess, hkind] using ho2
      · intro sel a v ha hl
        simp only [List.foldl_cons, List.foldl_nil, overlapAccess, hkind]
        refine hlast sel a v ha ?_
        obtain ⟨l1, x, l2, he, hs, had, hx, hn⟩ := hl
        rcases List.eq_nil_or_concat l2 with rfl | ⟨l2', y, rfl⟩
        · simp at he
          rw [← he.2, hkind] at hx; cases hx
        · have he' : l.map Prod.fst ++ [acc] = (l1 ++ x :: l2') ++ [y] := by simpa using he
          have := List.append_inj_left' he' rfl
          exact ⟨l1, x, l2', this, hs, had, hx, fun z hz => hn z (by simp [hz])⟩
      · intro sel x h
        simp only [List.foldl_cons, List.foldl_nil, overlapAccess, hkind]
        exact hno sel x (h.imp_left fun h z hz => h z (by simp at hz ⊢; exact .inl hz))
      · intro k acc' p' hget
        by_cases hlt : k < l.length
        · exact old_k _ k acc' p' hget hlt
        · obtain ⟨rfl, rfl, rfl⟩ := lastIdx k acc' p' hget hlt
          have hr : (r ++ [some (overlapReply ws old t u acc' p')])[l.length]? =
              some (some (overlapReply ws old t u acc' p')) := by
            rw [← hlen]; simp
          refine ⟨fun v h => absurd (hkind.symm.trans h) (by simp), fun _ hi => ?_, fun sel _ hsp => ?_⟩
          · rw [hr]; simp [overlapReply, hi]
          have htake : ((l ++ [(acc', p')]).map Prod.fst).take l.length = l.map Prod.fst := by
            rw [List.map_append]; exact List.take_left' (by simp)
          rw [htake, hr]
          have hin : acc'.space.isInput = true := by rw [hsp]; cases sel <;> rfl
          simp only [overlapReply, hin, if_true]
          constructor
          · intro hn
            rw [hsp] at hn ⊢
            have := noW sel acc'.addr hn
            cases sel <;> simp only [hostRead, inputSpace, hpar, inputBuffer] at this ⊢ <;> rw [this] <;> rfl
          · intro v ha hl
            rw [hsp] at hl ⊢
            have := hlast sel acc'.addr v ha hl
            cases sel <;>
              simp [hostRead, inputSpace, hpar, inputBuffer, spaceSize, ha, zext16] at this ⊢ <;> rw [this]
    | write v =>
      have hstep : ∀ w', overlapAccess ws old t w' (acc, p) = hostWrite acc.space acc.addr v w' := fun w' => by
        simp [overlapAccess, hkind]
      simp only [List.foldl_cons, List.foldl_nil, hstep]
      have hside : ∀ b, (b = .outI ∨ b = .outQ) → (hostWrite acc.space acc.addr v u).mem.cells b = u.mem.cells b := by
        intro b hb
        unfold hostWrite
        split <;> (try split) <;> rcases hb with rfl | rfl <;> rfl
      have hframe : ∀ sel x, (acc.space ≠ inputSpace sel ∨ acc.addr ≠ x / 2 ∨ s.par.inBufSize ≤ x / 2) →
          (hostWrite acc.space acc.addr v u).mem.readByte (inputBuffer sel) x = u.mem.readByte (inputBuffer sel) x := by
        intro sel x h
        unfold hostWrite
        split
        all_goals first
          | rfl
          | (split
             · next hsp hlt =>
               rw [hpar] at hlt
               refine Memory_readByte_writeWord_other _ _ ?_
               rw [hsp] at h
               cases sel <;> simp [inputSpace, inputBuffer, inWord] at h ⊢
               all_goals omega
             · rfl)
      have hput : ∀ sel, acc.space = inputSpace sel → acc.addr < s.par.inBufSize →
          (hostWrite acc.space acc.addr v u).mem.readWord (inputBuffer sel) acc.addr = v.extractLsb' 0 16 := by
        intro sel hsp hlt
        rw [hsp]
        cases sel <;> simp [hostWrite, inputSpace, inputBuffer, hpar, hlt, Memory_readWord_writeWord_same]
      refine ⟨_, r ++ [none], rfl, ?_, ?_, ?_, ?_, ?_, by simp [hlen], ?_⟩
      · have hfields : hostWrite acc.space acc.addr v u = { u with mem := (hostWrite acc.space acc.addr v u).mem } := by
          unfold hostWrite; split <;> (try split) <;> rfl
        rw [List.reduceOption_append]
        conv_lhs => rw [hfields]
        rw [hu]; simp [List.reduceOption]
      · exact (hside .outI (.inl rfl)).trans ho1
      · exact (hside .outQ (.inr rfl)).trans ho2
      · intro sel a v' ha hl
        obtain ⟨l1, x, l2, he, hs, had, hx, hn⟩ := hl
        rcases List.eq_nil_or_concat l2 with rfl | ⟨l2', y, rfl⟩
        · simp at he
          obtain ⟨_, rfl⟩ := he
          rw [hkind] at hx
          cases hx
          rw [← had]; exact hput sel hs (had ▸ ha)
        · have he' : l.map Prod.fst ++ [acc] = (l1 ++ x :: l2') ++ [y] := by simpa using he
          have hl := List.append_inj_left' he' rfl
          have hy : acc = y := by have := List.append_inj_right' he' rfl; simpa using this
          subst hy
          have hne : acc.space ≠ inputSpace sel ∨ acc.addr ≠ a := by
            by_contra hc
            push Not at hc
            have := hn acc (by simp) hc.1 hc.2
            rw [hkind] at this; cases this
          have hf1 := hframe sel (2 * a + 1) (hne.imp_right fun h => .inl (by omega))
          have hf0 := hframe sel (2 * a) (hne.imp_right fun h => .inl (by omega))
          have := hlast sel a v' ha ⟨l1, x, l2', hl, hs, had, hx, fun z hz => hn z (by simp [hz])⟩
          rw [Memory.readWord] at this ⊢
          rw [hf1, hf0]; exact this
      · intro sel x h
        rw [hframe sel x, hno sel x (h.imp_left fun h z hz => h z (by simp at hz ⊢; exact .inl hz))]
        rcases h with h | h
        · by_cases h1 : acc.space = inputSpace sel
          · refine .inr (.inl fun h2 => ?_)
            have := h acc (by simp) h1 h2
            rw [hkind] at this; cases this
          · exact .inl h1
        · exact .inr (.inr h)
      · intro k acc' p' hget
        by_cases hlt : k < l.length
        · exact old_k _ k acc' p' hget hlt
        · obtain ⟨rfl, rfl, rfl⟩ := lastIdx k acc' p' hget hlt
          refine ⟨fun _ _ => by rw [← hlen]; simp, fun h => ?_, fun _ h => ?_⟩ <;> rw [hkind] at h <;> cases h

end Sys2Proof.Machine
end

