-- ==== Sys2Proof/Laws/Block.lean ====
section
/-! SUPPORT. PROCESS_BLOCK's loop: what every operation of the chain keeps, the loop keeps; the loop is refused only
while FC_ACTIVE is not well-formed (R339, R367). -/

namespace Sys2Proof.Machine

/-- A property of the state that every operation of the chain keeps. -/
structure ChainKeeps (P : State → Prop) : Prop where
  tick : ∀ r s, r < 2 ^ s.par.adcBits → P s → P (tickState r s).2
  hb1 : ∀ z s, P s → P (hb1State z s).2
  hb2 : ∀ z s, P s → P (hb2State z s).2
  push : ∀ z s o t, framePush z s = .ok (o, t) → P s → P t

theorem rawCode_lt (p : Params) (w : Half) : rawCode p w < 2 ^ p.adcBits :=
  Nat.mod_lt _ (Nat.two_pow_pos _)

/-- What the stages before the frame keep. -/
theorem chainFront_keeps {P : State → Prop} (hk : ChainKeeps P) (sel : InSel) (a now : Nat) {s : State} (hs : P s) :
    P (chainFront sel a now s).2 := by
  have h1 := hk.tick (rawCode s.par (readInput sel a now s)) s (rawCode_lt _ _) hs
  unfold chainFront
  generalize tickState (rawCode s.par (readInput sel a now s)) s = u at h1 ⊢
  obtain ⟨_ | z, s1⟩ := u
  · exact h1
  · have h2 := hk.hb1 z s1 h1
    dsimp only
    generalize hb1State z s1 = u at h2 ⊢
    obtain ⟨_ | z2, s2⟩ := u
    · exact h2
    · exact hk.hb2 z2 s2 h2

/-- What one word of a block can do: nothing after the stages before the frame, or one FRAME_PUSH of their output. -/
theorem blockTick_cases (sel : InSel) (a now : Nat) (s : State) :
    (∃ u, chainFront sel a now s = (none, u) ∧ blockTick sel a now s = .ok u) ∨
    (∃ z u, chainFront sel a now s = (some z, u) ∧
      ((∃ o t, framePush z u = .ok (o, t) ∧ blockTick sel a now s = .ok t) ∨
       (∃ e, framePush z u = .error e ∧ blockTick sel a now s = .error e))) := by
  unfold blockTick
  generalize chainFront sel a now s = f
  obtain ⟨_ | z, u⟩ := f
  · exact .inl ⟨u, rfl, rfl⟩
  · refine .inr ⟨z, u, rfl, ?_⟩
    dsimp only
    cases hf : framePush z u with
    | ok r => exact .inl ⟨r.1, r.2, rfl, rfl⟩
    | error e => exact .inr ⟨e, rfl, rfl⟩

theorem blockTick_keeps {P : State → Prop} (hk : ChainKeeps P) {sel : InSel} {a now : Nat} {s t : State}
    (h : blockTick sel a now s = .ok t) (hs : P s) : P t := by
  have h1 := chainFront_keeps hk sel a now hs
  rcases blockTick_cases sel a now s with ⟨u, hc, hb⟩ | ⟨z, u, hc, ⟨o, v, hf, hb⟩ | ⟨e, _, hb⟩⟩ <;>
    rw [hb] at h <;> simp only [Except.ok.injEq, reduceCtorEq] at h <;> rw [hc] at h1
  · exact h ▸ h1
  · exact h ▸ hk.push z u o v hf h1

/-- What every operation of the chain keeps, a block keeps. -/
theorem blockLoop_keeps {P : State → Prop} (hk : ChainKeeps P) {sel : InSel} {n a now : Nat} {s t : State}
    (h : blockLoop sel n a now s = .ok t) (hs : P s) : P t := by
  induction n generalizing a now s with
  | zero => simp only [blockLoop, Except.ok.injEq] at h; exact h ▸ hs
  | succ n ih =>
    simp only [blockLoop] at h
    cases hb : blockTick sel a now s with
    | ok s1 => simp only [hb] at h; exact ih h (blockTick_keeps hk hb hs)
    | error e => simp [hb] at h

/-- A field that appending output leaves alone, a completed FRAME_PUSH of any frame leaves alone. -/
theorem framePush_field {α : Type} (f : State → α) (hf : ∀ s x, f { s with fft := x } = f s)
    (ha : ∀ s z, f (appendOut s z) = f s) {z : Sample} {s t : State} {o : Option Sample}
    (h : framePush z s = .ok (o, t)) : f t = f s := by
  rcases framePush_ok h with ⟨_, _, rfl⟩ | ⟨_, _, g, _, _, rfl⟩
  · exact hf s _
  · exact foldl_appendOut_keeps (P := fun u => f u = f s) (fun u z hu => (ha u z).trans hu) _ _ (hf s _)

/-- A field that no operation of the chain touches has the same value after a block. -/
theorem blockLoop_field {α : Type} (f : State → α)
    (hc : ∀ s x, f { s with cic := x } = f s) (h1 : ∀ s x, f { s with hb1 := x } = f s)
    (h2 : ∀ s x, f { s with hb2 := x } = f s) (hf : ∀ s x, f { s with fft := x } = f s)
    (ha : ∀ s z, f (appendOut s z) = f s) {sel : InSel} {n a now : Nat} {s t : State}
    (h : blockLoop sel n a now s = .ok t) : f t = f s := by
  refine blockLoop_keeps (P := fun u => f u = f s) ⟨?_, ?_, ?_, ?_⟩ h rfl
  · intro r u _ hu; exact (hc u _).trans hu
  · intro z u hu; exact (h1 u _).trans hu
  · intro z u hu; exact (h2 u _).trans hu
  · intro z u o v hp hu; exact (framePush_field f hf ha hp).trans hu

/-- A refused FRAME_PUSH is refused for FC_ACTIVE. -/
theorem framePush_isOk {z : Sample} {s : State} (h : s.fcActive.wf = true) : ∃ r, framePush z s = .ok r := by
  cases hp : framePush z s with
  | ok r => exact ⟨r, rfl⟩
  | error e => have := (framePush_error hp).2.1; rw [h] at this; cases this

/-- The stages before the frame leave FC_ACTIVE alone. -/
theorem chainFront_fcActive (sel : InSel) (a now : Nat) (s : State) :
    (chainFront sel a now s).2.fcActive = s.fcActive := by
  unfold chainFront
  split
  · next z s1 h1 =>
    have e1 : s1.fcActive = s.fcActive := congrArg (fun u => u.2.fcActive) h1.symm
    split
    · next z2 s2 h2 =>
      have e2 : s2.fcActive = s1.fcActive := congrArg (fun u => u.2.fcActive) h2.symm
      rw [hb2State_snd_fcActive, e2, e1]
    · next s2 h2 => exact (congrArg (fun u => u.2.fcActive) h2.symm).trans e1
  · next s1 h1 => exact congrArg (fun u => u.2.fcActive) h1.symm

theorem blockTick_ok {sel : InSel} {a now : Nat} {s : State} (h : s.fcActive.wf = true) :
    ∃ t, blockTick sel a now s = .ok t := by
  have h0 := chainFront_fcActive sel a now s
  rcases blockTick_cases sel a now s with ⟨u, _, hb⟩ | ⟨z, u, hc, ⟨o, t, _, hb⟩ | ⟨e, hf, _⟩⟩
  · exact ⟨u, hb⟩
  · exact ⟨t, hb⟩
  · rw [hc] at h0
    obtain ⟨r, hr⟩ := framePush_isOk (z := z) (s := u) (by rw [h0]; exact h)
    rw [hr] at hf; cases hf

/-- A word of a block leaves FC_ACTIVE alone. -/
theorem blockTick_fcActive {sel : InSel} {a now : Nat} {s t : State} (h : blockTick sel a now s = .ok t) :
    t.fcActive = s.fcActive := by
  have hl : blockLoop sel 1 a now s = .ok t := by simp [blockLoop, h]
  exact blockLoop_field State.fcActive (fun _ _ => rfl) (fun _ _ => rfl) (fun _ _ => rfl)
    (fun _ _ => rfl) (fun s z => appendOut_fcActive z s) hl

/-- A block whose FC_ACTIVE is well-formed runs to completion (R111, R339). -/
theorem blockLoop_ok {sel : InSel} {n a now : Nat} {s : State} (h : s.fcActive.wf = true) :
    ∃ t, blockLoop sel n a now s = .ok t := by
  induction n generalizing a now s with
  | zero => exact ⟨s, rfl⟩
  | succ n ih =>
    obtain ⟨u, hu⟩ := blockTick_ok (sel := sel) (a := a) (now := now) h
    simp only [blockLoop, hu]
    exact ih (by rw [blockTick_fcActive hu]; exact h)

/-- A refused block is refused for FC_ACTIVE (R367). -/
theorem blockLoop_error {sel : InSel} {n a now : Nat} {s : State} {e : Refusal}
    (h : blockLoop sel n a now s = .error e) : s.fcActive.wf = false := by
  cases hw : s.fcActive.wf with
  | false => rfl
  | true =>
    obtain ⟨t, ht⟩ := blockLoop_ok (sel := sel) (n := n) (a := a) (now := now) hw
    rw [ht] at h; cases h

/-- A block of m + k words is its first m words and then the other k, in its state and in its word accesses (R339). -/
theorem blockLoop_add {sel : InSel} {m a now : Nat} {s u : State} (k : Nat) (h : blockLoop sel m a now s = .ok u) :
    blockLoop sel (m + k) a now s = blockLoop sel k (a + m) (now + (loopWrites sel m a now s).length) u ∧
    loopWrites sel (m + k) a now s =
      loopWrites sel m a now s ++ loopWrites sel k (a + m) (now + (loopWrites sel m a now s).length) u := by
  induction m generalizing a now s with
  | zero => simp only [blockLoop, Except.ok.injEq] at h; subst h; simp [loopWrites]
  | succ m ih =>
    cases hb : blockTick sel a now s with
    | error e => simp [blockLoop, hb] at h
    | ok s1 =>
      simp only [blockLoop, hb] at h
      obtain ⟨h1, h2⟩ := ih h
      rw [show m + 1 + k = m + k + 1 by omega]
      simp only [blockLoop, loopWrites, hb, h1, h2, List.length_append, List.append_assoc]
      rw [show a + 1 + m = a + (m + 1) by omega, Nat.add_assoc now]
      exact ⟨rfl, rfl⟩

/-- Every prefix of a block that completes, completes. -/
theorem blockLoop_prefix_ok {sel : InSel} {m n a now : Nat} {s t : State} (h : blockLoop sel n a now s = .ok t)
    (hm : m ≤ n) : ∃ u, blockLoop sel m a now s = .ok u := by
  induction n generalizing m a now s with
  | zero => obtain rfl : m = 0 := by omega
            exact ⟨s, rfl⟩
  | succ n ih =>
    cases m with
    | zero => exact ⟨s, rfl⟩
    | succ m =>
      cases hb : blockTick sel a now s with
      | error e => simp [blockLoop, hb] at h
      | ok s1 =>
        simp only [blockLoop, hb] at h ⊢
        exact ih h (by omega)

end Sys2Proof.Machine
end

