-- ==== Sys2Proof/Laws/Invariant.lean ====
section
/-! SUPPORT. The invariant of the units: what each operation of the block keeps, one lemma per operation. -/

namespace Sys2Proof.Machine

/-- The part of the invariant that also holds while a command runs. -/
structure UnitsInv (s : State) : Prop where
  par : s.par.wf = true
  cic : CicInv s.par s.cic
  hb1 : HalfBandInv Config.hb1L s.hb1
  hb2 : HalfBandInv Config.hb2L s.hb2
  fft : FftInv s.par s.fft
  err : s.errCode = none ↔ s.err = false
  out : s.outCount.toNat ≤ s.par.outMax
  sq : s.sq.mode = .timeout → s.sq.count = 0
  mem : s.mem.wf = true

/-- The invariant is that part, BUSY 0 and no access left over from a command. -/
theorem Inv_iff (s : State) : Inv s ↔ UnitsInv s ∧ s.busy = false ∧ s.overlap = [] :=
  ⟨fun h => ⟨⟨h.par, h.cic, h.hb1, h.hb2, h.fft, h.err, h.out, h.sq, h.mem⟩, h.busy, h.overlap⟩,
   fun ⟨h, h1, h2⟩ => ⟨h.par, h.cic, h.hb1, h.hb2, h.fft, h.err, h.out, h.sq, h.mem, h1, h2⟩⟩

/-- The parameter facts of R9 that the output buffers need. -/
theorem Params_wf_out {p : Params} (h : p.wf = true) : 1 ≤ p.outMax ∧ p.outMax ≤ 65535 := by
  simp only [Params.wf, Params.wfSample, Bool.and_eq_true, decide_eq_true_eq] at h
  omega

/-- Appending one output sample keeps the units' invariant (R263). -/
theorem appendOut_units {s : State} {z : Sample} (h : UnitsInv s) : UnitsInv (appendOut s z) := by
  have ho := (Params_wf_out h.par).2
  unfold appendOut
  split
  · next hlt =>
    exact ⟨h.par, h.cic, h.hb1, h.hb2, h.fft, h.err, by simp only [BitVec.toNat_ofNat]; omega, h.sq,
      Memory_writeWord_wf _ _ _ (Memory_writeWord_wf _ _ _ h.mem)⟩
  · exact ⟨h.par, h.cic, h.hb1, h.hb2, h.fft, h.err, h.out, h.sq, h.mem⟩

/-- A filter in its ranges keeps the units' invariant. -/
theorem UnitsInv_withFft {s : State} {f : Fft} (h : UnitsInv s) (hf : FftInv s.par f) : UnitsInv { s with fft := f } :=
  ⟨h.par, h.cic, h.hb1, h.hb2, hf, h.err, h.out, h.sq, h.mem⟩

/-- FRAME_PUSH keeps the units' invariant (R264). -/
theorem framePush_units {z : Sample} {s t : State} {o : Option Sample} (hp : framePush z s = .ok (o, t))
    (h : UnitsInv s) : UnitsInv t := by
  rcases framePush_ok hp with ⟨hne, _, rfl⟩ | ⟨_, hwf, g, rfl, _, rfl⟩
  · refine UnitsInv_withFft h ?_
    have hf := h.fft
    have := hf.fill
    exact ⟨by simpa [framePut] using hf.lenFrame, by simp only [framePut]; omega, hf.lenPrevIn, hf.lenPrevOut, hf.nr, hf.lenCap,
      hf.cap, hf.notch, hf.prevPeak, hf.peakIdx, hf.runnerIdx⟩
  · refine foldl_appendOut_keeps (P := UnitsInv) (fun _ _ => appendOut_units) _ _ (UnitsInv_withFft h (frameStep_inv h.par hwf ?_))
    have hf := h.fft
    have := hf.fill
    exact ⟨by simpa [framePut] using hf.lenFrame, by simp only; omega, hf.lenPrevIn, hf.lenPrevOut, hf.nr, hf.lenCap,
      hf.cap, hf.notch, hf.prevPeak, hf.peakIdx, hf.runnerIdx⟩

/-- A tick of a legal raw code keeps the units' invariant (R170). -/
theorem tickState_units {r : Nat} {s : State} (hr : r < 2 ^ s.par.adcBits) (h : UnitsInv s) : UnitsInv (tickState r s).2 :=
  ⟨h.par, cicTick_inv h.par hr h.cic, h.hb1, h.hb2, h.fft, h.err, h.out, h.sq, h.mem⟩

/-- A call of half-band stage 1 keeps the units' invariant (R195). -/
theorem hb1State_units {z : Sample} {s : State} (h : UnitsInv s) : UnitsInv (hb1State z s).2 :=
  ⟨h.par, h.cic, hbPush_inv h.hb1, h.hb2, h.fft, h.err, h.out, h.sq, h.mem⟩

/-- A call of half-band stage 2 keeps the units' invariant (R195). -/
theorem hb2State_units {z : Sample} {s : State} (h : UnitsInv s) : UnitsInv (hb2State z s).2 :=
  ⟨h.par, h.cic, h.hb1, hbPush_inv h.hb2, h.fft, h.err, h.out, h.sq, h.mem⟩

/-- Every operation of the chain keeps the units' invariant (R339). -/
theorem units_chain : ChainKeeps UnitsInv :=
  ⟨fun _ _ => tickState_units, fun _ _ => hb1State_units, fun _ _ => hb2State_units, fun _ _ _ _ => framePush_units⟩

/-- The apply point keeps the units' invariant (R336). -/
theorem applyPoint_units {s : State} (h : UnitsInv s) : UnitsInv (applyPoint s) :=
  ⟨h.par, h.cic, h.hb1, h.hb2, h.fft, h.err, h.out, h.sq, h.mem⟩

/-- Writing a result keeps the units' invariant (R43). -/
theorem withResult_units {s : State} {o} (h : UnitsInv s) : UnitsInv (s.withResult o) :=
  ⟨h.par, h.cic, h.hb1, h.hb2, h.fft, h.err, h.out, h.sq, h.mem⟩

/-- The start of a block keeps the units' invariant (R339). -/
theorem blockStart_units {s : State} (h : UnitsInv s) : UnitsInv (blockStart s) :=
  ⟨h.par, ⟨h.cic.dc_low, h.cic.dc_high, h.cic.dec⟩, h.hb1, h.hb2, h.fft, h.err, by simp [blockStart], h.sq, h.mem⟩

/-- Raising a command error keeps the units' invariant (R362). -/
theorem raise_units {s : State} {e} (h : UnitsInv s) : UnitsInv (raiseCmdError e s) := by
  refine ⟨h.par, h.cic, h.hb1, h.hb2, h.fft, ?_, h.out, h.sq, h.mem⟩
  have := h.err
  simp only [raiseCmdError]
  cases he : s.err <;> simp_all

/-- A squelch whose count is 0 in TIMEOUT keeps the units' invariant (R312). -/
theorem withSq_units {s : State} {q} (h : UnitsInv s) (hq : q.mode = SqMode.timeout → q.count = 0) : UnitsInv { s with sq := q } :=
  ⟨h.par, h.cic, h.hb1, h.hb2, h.fft, h.err, h.out, hq, h.mem⟩

/-- A half-band stage at reset is in its ranges (R60). -/
theorem hbreset_inv (l) (h : 0 < l) : HalfBandInv l (HalfBand.reset l) :=
  ⟨by simp [HalfBand.reset], h, by simp [HalfBand.reset], by simp [HalfBand.reset]⟩

/-- The FFT filter and the CIC decimator at reset are in their ranges (R55, R56, R62-R65). -/
theorem reset_units {p : Params} (h : p.wf = true) : FftInv p (Fft.reset p) ∧ CicInv p Cic.reset := by
  obtain ⟨h1, h2, h3, h4⟩ := Params_wf_sizes h
  obtain ⟨a1, a2, a3, a4⟩ := Params_wf_cic h
  constructor
  · refine ⟨by simp [Fft.reset], by simp [Fft.reset]; omega, by simp [Fft.reset], by simp [Fft.reset], ?_, by simp [Fft.reset],
      ?_, by simp [Fft.reset], .inr rfl, .inr rfl, .inr rfl⟩
    · refine ⟨by simp [Fft.reset, NrEstimates.reset], by simp [Fft.reset, NrEstimates.reset], by simp [Fft.reset, NrEstimates.reset],
       by simp [Fft.reset, NrEstimates.reset], ?_, ?_, ?_, ?_⟩ <;>
      · intro x hx
        have := List.eq_of_mem_replicate hx
        subst this; decide
    · intro x hx
      have := List.eq_of_mem_replicate hx
      subst this; decide
  · refine ⟨?_, ?_, ?_⟩ <;> simp [Cic.reset]
    omega

/-- RESET_STATE keeps the units' invariant (R391). -/
theorem resetState_units {s : State} (h : UnitsInv s) : UnitsInv (resetState s) :=
  ⟨h.par, (reset_units h.par).2, hbreset_inv _ (by decide), hbreset_inv _ (by decide), (reset_units h.par).1, by simp [resetState], by simp [resetState],
   by simp [resetState, Squelch.reset], h.mem⟩

/-- No transition enters TIMEOUT with a count other than 0 (R312). -/
theorem sqStep_timeout (q : Squelch) (x : Half) (h : q.mode = .timeout → q.count = 0) : (sqStep q x).mode = .timeout → (sqStep q x).count = 0 := by
  unfold sqStep sqCountdown
  cases hm : q.mode <;> simp only [hm] <;> (try split) <;> simp_all

/-- A host write keeps the units' invariant (R100). -/
theorem hostWrite_units {sp a v} {s : State} (h : UnitsInv s) : UnitsInv (hostWrite sp a v s) := by
  unfold hostWrite
  split <;> (try split) <;> first | exact h | exact ⟨h.par, h.cic, h.hb1, h.hb2, h.fft, h.err, h.out, h.sq, Memory_writeWord_wf _ _ _ h.mem⟩

/-- An overlapping host access keeps the units' invariant (R112). -/
theorem overlapAccess_units {ws old done} {now : State} {e} (h : UnitsInv now) : UnitsInv (overlapAccess ws old done now e) := by
  unfold overlapAccess
  split
  · exact ⟨h.par, h.cic, h.hb1, h.hb2, h.fft, h.err, h.out, h.sq, h.mem⟩
  · exact hostWrite_units h

/-- Ending a command keeps the units' invariant (R111, R112). -/
theorem endCommand_units {ws old} {done : State} (h : UnitsInv done) : UnitsInv (endCommand ws old done) := by
  have hf := foldl_overlap_keeps (P := UnitsInv) ws old done (fun _ _ => overlapAccess_units) (placedOverlap old) h
  exact ⟨hf.par, hf.cic, hf.hb1, hf.hb2, hf.fft, hf.err, hf.out, hf.sq, hf.mem⟩

end Sys2Proof.Machine
end

