-- ==== Sys2Proof/Laws/Operands.lean ====
section
/-! SUPPORT. The operand range checks of the meanings: when each passes, in the words of the rules (R361); and the
threshold that a legal level of SQ_ENABLE selects (R13). -/

namespace Sys2Proof.Machine

/-- CIC_STEP accepts r below 2^ADC_BITS (R171). -/
theorem rawCodeInRange_iff (p : Params) (r : Half) : rawCodeInRange p r = true ↔ r.toNat < 2 ^ p.adcBits :=
  decide_eq_true_iff

/-- NR_BIN accepts b below N/2 (R230). -/
theorem nrBinInRange_iff (p : Params) (b : Half) : nrBinInRange p b = true ↔ b.toNat < p.fftN / 2 :=
  decide_eq_true_iff

/-- SQ_ENABLE accepts L up to 12 (R305). -/
theorem levelInRange_iff (l : Half) : levelInRange l = true ↔ l.toNat ≤ 12 :=
  decide_eq_true_iff

@[simp] theorem levelThreshold_scaled (mult shift s9 : Nat) :
    levelThreshold (.scaled mult shift) s9 = s9 * mult / 2 ^ shift := rfl
@[simp] theorem levelThreshold_listed (values : List Nat) (s9 : Nat) :
    levelThreshold (.listed values) s9 = values.getD s9 0 := rfl

/-- A well-formed row's threshold of a u16 reference is below 2^32 (entry 19). -/
theorem levelThreshold_lt {row : LevelThreshold} (h : row.wf = true) {s9 : Nat} (hs : s9 ≤ 65535) :
    levelThreshold row s9 < 2 ^ 32 := by
  cases row with
  | scaled mult shift =>
    have h1 : 65535 * mult / 2 ^ shift < 2 ^ 32 := of_decide_eq_true h
    exact lt_of_le_of_lt (Nat.div_le_div_right (Nat.mul_le_mul_right _ hs)) h1
  | listed values =>
    simp only [LevelThreshold.wf, Bool.and_eq_true, decide_eq_true_eq, List.all_eq_true] at h
    have hl : s9 < values.length := by omega
    rw [levelThreshold_listed, List.getD_eq_getElem _ _ hl]
    exact h.2 _ (List.getElem_mem hl)

/-- A legal level selects a row of the parameter, and SQ_THRESHOLD takes that row's value exactly (R13, R305). -/
theorem sqThresh_toNat {p : Params} (hp : p.wf = true) {l s9 : Nat} (hl : l ≤ 12) (hs : s9 ≤ 65535) :
    ∃ row, p.sqLevels[l]? = some row ∧ (sqThresh p l s9).toNat = levelThreshold row s9 := by
  have h : p.sqLevels.length = 13 ∧ ∀ row ∈ p.sqLevels, row.wf = true := by
    simp only [Params.wf, Params.wfSquelch, Bool.and_eq_true, decide_eq_true_eq, List.all_eq_true] at hp
    exact hp.2
  have hi : l < p.sqLevels.length := by omega
  refine ⟨_, List.getElem?_eq_getElem hi, ?_⟩
  rw [sqThresh, List.getD_eq_getElem _ _ hi, BitVec.toNat_ofNat,
    Nat.mod_eq_of_lt (levelThreshold_lt (h.2 _ (List.getElem_mem hi)) hs)]

/-- CFG_WRITE accepts f up to 8, and for f = 6 a value below 32 (R335). -/
theorem cfgWriteInRange_iff (f : BitVec 8) (v : Half) :
    cfgWriteInRange f v = true ↔ f.toNat ≤ 8 ∧ (f.toNat = 6 → v.toNat < 32) := by
  have h : cfgWriteInRange f v = true ↔ f.toNat ≤ 8 ∧ ¬(f.toNat = 6 ∧ v.toNat / 32 ≠ 0) := by
    unfold cfgWriteInRange fldIndex uimm
    rw [Bool.and_eq_true, decide_eq_true_iff, Bool.not_eq_true', Bool.and_eq_false_iff]
    simp only [decide_eq_false_iff_not, not_and_or]
  rw [h]
  exact and_congr_right fun _ => ⟨fun h6 e => by by_contra hc; exact h6 ⟨e, by omega⟩, fun h6 hc => by
    have := h6 hc.1
    omega⟩

/-- PROCESS_BLOCK accepts an even n up to IN_BUF_SIZE (R339). -/
theorem blockLengthInRange_iff (p : Params) (n : Half) :
    blockLengthInRange p n = true ↔ n.toNat % 2 = 0 ∧ n.toNat ≤ p.inBufSize := by
  unfold blockLengthInRange uimm
  rw [Bool.not_eq_true', Bool.or_eq_false_iff, decide_eq_false_iff_not, decide_eq_false_iff_not]
  omega

end Sys2Proof.Machine
end

