-- ==== Sys2Proof/Laws/PerInstr.lean ====
section
/-! SUPPORT. Statements made once per command: the encoding of a command has an assigned opcode and every bit that
its format reserves is 0 (R131, R133). -/

namespace Sys2Proof.Laws.CleanEncoding

/-- The encoding of a command has an assigned opcode and clear reserved bits. -/
def Statement (i : Instr) : Prop :=
  ∃ fmt, formatOf (opField (encode i)) = some fmt ∧ reservedClear fmt (fldField (encode i)) (immField (encode i)) = true

theorem nop : Statement .nop :=
  ⟨.n, by simp [encode, opField_packWord, formatOf], by simp [encode, fldField_packWord, immField_packWord, reservedClear]⟩

theorem softReset : Statement .softReset :=
  ⟨.n, by simp [encode, opField_packWord, formatOf], by simp [encode, fldField_packWord, immField_packWord, reservedClear]⟩

theorem seti (v : Half) : Statement (.seti v) :=
  ⟨.i, by simp [encode, opField_packWord, formatOf], by simp [encode, fldField_packWord, reservedClear]⟩

theorem setq (v : Half) : Statement (.setq v) :=
  ⟨.i, by simp [encode, opField_packWord, formatOf], by simp [encode, fldField_packWord, reservedClear]⟩

theorem cfgWrite (f : BitVec 8) (v : Half) : Statement (.cfgWrite f v) :=
  ⟨.f, by simp [encode, opField_packWord, formatOf], rfl⟩

theorem cfgPublish : Statement .cfgPublish :=
  ⟨.n, by simp [encode, opField_packWord, formatOf], by simp [encode, fldField_packWord, immField_packWord, reservedClear]⟩

theorem clrErr : Statement .clrErr :=
  ⟨.n, by simp [encode, opField_packWord, formatOf], by simp [encode, fldField_packWord, immField_packWord, reservedClear]⟩

theorem processBlock (sel : InSel) (n : Half) : Statement (.processBlock sel n) :=
  ⟨.x, by simp [encode, opField_packWord, formatOf], by cases sel <;> simp [encode, fldField_packWord, reservedClear, InSel.fld]⟩

theorem cicStep (r : Half) : Statement (.cicStep r) :=
  ⟨.i, by simp [encode, opField_packWord, formatOf], by simp [encode, fldField_packWord, reservedClear]⟩

theorem hb1Step : Statement .hb1Step :=
  ⟨.n, by simp [encode, opField_packWord, formatOf], by simp [encode, fldField_packWord, immField_packWord, reservedClear]⟩

theorem hb2Step : Statement .hb2Step :=
  ⟨.n, by simp [encode, opField_packWord, formatOf], by simp [encode, fldField_packWord, immField_packWord, reservedClear]⟩

theorem droop (b : Half) : Statement (.droop b) :=
  ⟨.i, by simp [encode, opField_packWord, formatOf], by simp [encode, fldField_packWord, reservedClear]⟩

theorem nrBin (side : Side) (b : Half) : Statement (.nrBin side b) :=
  ⟨.x, by simp [encode, opField_packWord, formatOf], by cases side <;> simp [encode, fldField_packWord, reservedClear, Side.fld]⟩

theorem fftPush : Statement .fftPush :=
  ⟨.n, by simp [encode, opField_packWord, formatOf], by simp [encode, fldField_packWord, immField_packWord, reservedClear]⟩

theorem sqInit (t : Half) : Statement (.sqInit t) :=
  ⟨.i, by simp [encode, opField_packWord, formatOf], by simp [encode, fldField_packWord, reservedClear]⟩

theorem sqEnable (l : Half) : Statement (.sqEnable l) :=
  ⟨.i, by simp [encode, opField_packWord, formatOf], by simp [encode, fldField_packWord, reservedClear]⟩

theorem sqDisable : Statement .sqDisable :=
  ⟨.n, by simp [encode, opField_packWord, formatOf], by simp [encode, fldField_packWord, immField_packWord, reservedClear]⟩

theorem sqCalibrate (v : Half) : Statement (.sqCalibrate v) :=
  ⟨.i, by simp [encode, opField_packWord, formatOf], by simp [encode, fldField_packWord, reservedClear]⟩

theorem sqSetTimeout (t : Half) : Statement (.sqSetTimeout t) :=
  ⟨.i, by simp [encode, opField_packWord, formatOf], by simp [encode, fldField_packWord, reservedClear]⟩

theorem sqUpdate (x : Half) : Statement (.sqUpdate x) :=
  ⟨.i, by simp [encode, opField_packWord, formatOf], by simp [encode, fldField_packWord, reservedClear]⟩

end Sys2Proof.Laws.CleanEncoding
end

