-- ==== Sys2Proof/Tests/Slice0.lean ====
section
/-! SUPPORT. The model's own tests: the parameters meet their constraints, an ill-formed operand is refused for each
check of WellFormed, every constructor decodes from a word written out by hand, one or two steps per command with the
values of spec/95_test_vectors.md, and for every obligation with hypotheses a state that meets them. -/

namespace Sys2Proof.Tests.Slice0

-- One test after another: side by side they start more threads than the memory limit of a check has stacks for.
set_option Elab.async false

open Sys2Proof.Machine

/-! ## Helpers -/

/-- The outcome is a next state that passes a check. -/
def nextIs (o : Host.Outcome State Fault Refusal) (f : State → Bool) : Bool :=
  match o with
  | .next t => f t
  | .fault _ => false
  | .refused _ => false

/-- The outcome is a next state. -/
def runs (o : Host.Outcome State Fault Refusal) : Bool := nextIs o fun _ => true

/-- The outcome is the given refusal. -/
def refusedAs (o : Host.Outcome State Fault Refusal) (r : Refusal) : Bool :=
  match o with
  | .next _ => false
  | .fault _ => false
  | .refused q => decide (q = r)

/-- The block right after reset with the TST profile (95_test_vectors.md section 1). -/
def tst : State := State.powerOn Config.tst

/-- The same with operand registers x and y. -/
def tstWith (x y : Half) : State := { tst with dI := x, dQ := y }

/-- TST with both sidebands, bins 0..4, active. -/
def tstOpen : State := { tst with fcActive := { FilterControl.zero with stopBin := 4, flags := 3 } }

/-- TST with seven of the eight samples of the first frame collected, each (1000, 0), and the eighth in D_I, D_Q. -/
def tstFull : State :=
  { tstOpen with
    dI := 1000
    fft := { Fft.reset Config.tst with frame := List.replicate 7 ⟨1000, 0⟩ ++ [.zero], frameFill := 7 } }

/-- TST with start_bin above stop_bin: not well-formed. -/
def tstBad : State := { tst with fcActive := { FilterControl.zero with startBin := 5, stopBin := 4 } }

/-- The same with every unit one input short of an output: two more words give a CIC output, both half-band stages emit
on it, and its sample fills the frame. -/
def tstBadFull : State :=
  { tstBad with
    cic := { Cic.reset with decCnt := 19 }
    hb1 := ⟨List.replicate 32 .zero, 31, 31⟩
    hb2 := ⟨List.replicate 64 .zero, 63, 63⟩
    fft := { Fft.reset Config.tst with frameFill := 7 }
    mem := (Memory.empty.writeWord .in0 0 2048).writeWord .in0 1 2048 }

/-- Words a of IN0 written with the mid-scale code 2048, for a = 0 and 1. -/
def twoWords : Memory := (Memory.empty.writeWord .in0 0 2048).writeWord .in0 1 2048

/-! ## Parameters -/

theorem test_ref_wf : Config.ref.wf = true := by decide +kernel
theorem test_tst_wf : Config.tst.wf = true := by decide +kernel

/-- The REF table entries that 95_test_vectors.md section 1 lists. -/
theorem test_ref_tables :
    ([0, 1, 128, 256, 512, 768].map fun k => (Config.ref.cosLut.getD k 9, Config.ref.sinLut.getD k 9)) =
      [(32767, 0), (32766, 201), (23170, 23170), (0, 32767), (-32767, 0), (0, -32767)] ∧
    ([0, 3, 7, 56, 62, 64, 128].map fun k => Config.ref.droop.getD k 9) =
      [16384, 16385, 16389, 16709, 16783, 16810, 18163] := by decide +kernel

/-! ## WellFormed -/

theorem test_wf_raw_code : (Instr.cicStep 4096).wf Config.tst = false ∧ (Instr.cicStep 4095).wf Config.tst = true := by
  decide
theorem test_wf_nr_bin : (Instr.nrBin .pos 8).wf Config.tst = false ∧ (Instr.nrBin .neg 7).wf Config.tst = true := by
  decide
theorem test_wf_field : (Instr.cfgWrite 9 0).wf Config.tst = false ∧ (Instr.cfgWrite 8 0xFFFF).wf Config.tst = true := by
  decide
theorem test_wf_flags : (Instr.cfgWrite 6 32).wf Config.tst = false ∧ (Instr.cfgWrite 6 31).wf Config.tst = true := by
  decide
theorem test_wf_odd_block :
    (Instr.processBlock .in0 3).wf Config.tst = false ∧ (Instr.processBlock .in0 2).wf Config.tst = true := by decide
theorem test_wf_long_block :
    (Instr.processBlock .in1 4002).wf Config.tst = false ∧ (Instr.processBlock .in1 4000).wf Config.tst = true := by decide
theorem test_wf_level : (Instr.sqEnable 13).wf Config.tst = false ∧ (Instr.sqEnable 12).wf Config.tst = true := by decide

/-! ## Decoding: words written out from R131 and R133 -/

theorem test_decode_nop : decode 0x00000000 = .ok .nop := by decide
theorem test_decode_soft_reset : decode 0x01000000 = .ok .softReset := by decide
theorem test_decode_seti : decode 0x0200FFFB = .ok (.seti (-5)) := by decide
theorem test_decode_setq : decode 0x0300FC18 = .ok (.setq (-1000)) := by decide
theorem test_decode_cfg_write : decode 0x04084000 = .ok (.cfgWrite 8 0x4000) := by decide
theorem test_decode_cfg_publish : decode 0x05000000 = .ok .cfgPublish := by decide
theorem test_decode_clr_err : decode 0x06000000 = .ok .clrErr := by decide
theorem test_decode_process_block : decode 0x07010FA0 = .ok (.processBlock .in1 4000) := by decide
theorem test_decode_cic_step : decode 0x10000864 = .ok (.cicStep 2148) := by decide
theorem test_decode_hb1_step : decode 0x11000000 = .ok .hb1Step := by decide
theorem test_decode_hb2_step : decode 0x12000000 = .ok .hb2Step := by decide
theorem test_decode_droop : decode 0x1300FFFE = .ok (.droop (-2)) := by decide
theorem test_decode_nr_bin : decode 0x1401007F = .ok (.nrBin .neg 127) := by decide
theorem test_decode_fft_push : decode 0x15000000 = .ok .fftPush := by decide
theorem test_decode_sq_init : decode 0x20000003 = .ok (.sqInit 3) := by decide
theorem test_decode_sq_enable : decode 0x21000009 = .ok (.sqEnable 9) := by decide
theorem test_decode_sq_disable : decode 0x22000000 = .ok .sqDisable := by decide
theorem test_decode_sq_calibrate : decode 0x230003E8 = .ok (.sqCalibrate 1000) := by decide
theorem test_decode_sq_set_timeout : decode 0x24000064 = .ok (.sqSetTimeout 100) := by decide
theorem test_decode_sq_update : decode 0x250003E9 = .ok (.sqUpdate 1001) := by decide

/-- V-ERR-1 to V-ERR-7: the opcode is checked before the reserved bits, and they before the operands. -/
theorem test_decode_errors :
    decode 0x08000000 = .error .illegalOpcode ∧ decode 0x16000000 = .error .illegalOpcode ∧
    decode 0xFF000001 = .error .illegalOpcode ∧ decode 0x00000001 = .error .reservedField ∧
    decode 0x07020000 = .error .reservedField ∧ decode 0x2101000D = .error .reservedField ∧
    decode 0x04FF0000 = .ok (.cfgWrite 255 0) := by decide

theorem test_decode_table_word : decodeTableWord 32 0x0200FFFB = some (.seti (-5)) ∧ decodeTableWord 32 0x26000000 = none := by
  decide

/-! ## Assembler (R137, R138) -/

theorem test_assemble_seti : assembleLine "SETI -5".toList = some [.seti 0xFFFB] := by decide +kernel
theorem test_assemble_cfg_write : assembleLine "CFG_WRITE 6, 0x13".toList = some [.cfgWrite 6 0x13] := by decide +kernel
theorem test_assemble_range :
    assembleLine "SETI 32768".toList = none ∧ assembleLine "CIC_STEP -1".toList = none ∧
    assembleLine "SETI -32768".toList = some [.seti 0x8000] := by decide +kernel
theorem test_assemble_pseudo :
    assembleLine "CFG_STEP 0x40000000".toList = some [.cfgWrite 7 0, .cfgWrite 8 0x4000] ∧
    assembleLine "CFG_FLAGS 1, 1, 0, 1, 0".toList = some [.cfgWrite 6 11] ∧
    (assembleLine "SYNC".toList).map (List.map encode) = some [0x07000000] := by decide +kernel

/-! ## One step of each command -/

/-- P4 steps 1 and 6: a rejected NOP sets ERR and RESERVED_FIELD and nothing else. -/
theorem test_nop_rejected : nextIs (runWord 0x00000001 tst) (fun t => statusWord t = 0x20A) = true := by decide
/-- NOP does not apply a published configuration (R331). -/
theorem test_nop_applies_nothing : nextIs (exec .nop { tst with fcChanged := true }) (fun t => t.fcChanged) = true := by
  decide
/-- V-CTL-8. -/
theorem test_soft_reset :
    nextIs (exec .softReset { tstFull with err := true, errCode := some .illegalOpcode, outCount := 4, mem := twoWords })
      (fun t => decide (statusWord t = 0x200) && decide (t.sq.mode = .unknown) && decide (t.outCount = 0) &&
        decide (t.fft.nr.noisePos = List.replicate 8 1) && decide (t.fft.frameFill = 0) &&
        decide (t.fft.peakIdx = 0xFFFF) && decide (t.mem = twoWords)) = true := by decide +kernel
/-- V-ENC-2. -/
theorem test_seti : nextIs (runWord 0x0200FFFB tst) (fun t => readReg t 0x05 = 0xFFFFFFFB) = true := by decide
/-- V-ENC-4. -/
theorem test_setq : nextIs (runWord 0x0300FC18 tst) (fun t => t.dQ.toInt = -1000 && t.dI = 0) = true := by decide
/-- V-CTL-9, second write. -/
theorem test_cfg_write_phase :
    nextIs (exec (.cfgWrite 8 0xABCD) { tst with fcStaged := { FilterControl.zero with phaseStep := 0x1234 } })
      (fun t => readReg t 0x1F = 0xABCD1234 && readReg t 0x17 = 0) = true := by decide
/-- V-CTL-3: a write withdraws a publication. -/
theorem test_cfg_write_withdraws :
    nextIs (exec (.cfgWrite 1 4) { tst with fcChanged := true }) (fun t => statusWord t = 0x200 && t.fcStaged.stopBin = 4) =
      true := by decide
/-- V-CTL-1. -/
theorem test_cfg_publish : nextIs (exec .cfgPublish tst) (fun t => statusWord t = 0x240) = true := by decide
/-- V-ERR-17. -/
theorem test_clr_err :
    nextIs (exec .clrErr { tst with err := true, errCode := some .illegalOpcode, ovf := true })
      (fun t => statusWord t = 0x200) = true := by decide
/-- V-CTL-2: SYNC applies and clears OUT_COUNT. -/
theorem test_process_block_sync :
    nextIs (exec (.processBlock .in0 0)
        { tst with fcChanged := true, fcStaged := { FilterControl.zero with startBin := 2 }, outCount := 7 })
      (fun t => t.fcActive.startBin = 2 && !t.fcChanged && t.outCount = 0) = true := by decide
/-- V-CIC-10: two words of 2048 from RAIL = 1 leave RAIL at I and everything else at 0 but DEC_CNT. -/
theorem test_process_block_two :
    nextIs (exec (.processBlock .in0 2) { tst with mem := twoWords, cic := { Cic.reset with rail := .q } })
      (fun t => decide (t.cic = { Cic.reset with decCnt := 2 }) && decide (t.mem = twoWords)) = true := by decide +kernel
/-- V-CIC-1. -/
theorem test_cic_step :
    nextIs (exec (.cicStep 2148) tst) (fun t => t.cic = ⟨0, .q, 0, ⟨99, 99, 99, 99⟩, .zero, .zero, .zero, 1⟩ && !t.resValid) =
      true := by decide +kernel
/-- V-CIC-3: asr rounds toward minus infinity, in the tracker and in the mixer. -/
theorem test_cic_step_negative :
    nextIs (exec (.cicStep 0) tst)
      (fun t => t.cic.dc.toInt = -2 && t.cic.intI = ⟨-2046, -2046, -2046, -2046⟩) = true := by decide +kernel
/-- V-HB-2: the 32nd call of a constant input emits it. -/
theorem test_hb1_step :
    nextIs (exec .hb1Step { tstWith 1000 (-1000) with hb1 := ⟨List.replicate 32 ⟨1000, -1000⟩, 31, 31⟩ })
      (fun t => t.resValid && t.resI.toInt = 1000 && t.resQ.toInt = -1000 && t.hb1.ptr = 0 && t.hb1.fill = 32) = true := by
  decide +kernel
/-- V-HB-3, first call: an even write index emits nothing. -/
theorem test_hb1_step_even :
    nextIs (exec .hb1Step { tstWith 1000 (-1000) with hb1 := ⟨List.replicate 32 ⟨1000, -1000⟩, 0, 32⟩ })
      (fun t => !t.resValid && t.hb1.ptr = 1) = true := by decide +kernel
/-- V-HB-6: the 64th call of stage 2 emits. -/
theorem test_hb2_step :
    nextIs (exec .hb2Step { tstWith 1000 (-1000) with hb2 := ⟨List.replicate 64 ⟨1000, -1000⟩, 63, 63⟩ })
      (fun t => t.resValid && t.resI.toInt = 1000 && t.resQ.toInt = -1000 && decide (t.hb1 = .reset 32)) = true := by
  decide +kernel
/-- V-DRP-5 (REF, o = −2). -/
theorem test_droop :
    nextIs (exec (.droop (-2))
        { State.reset with dI := 1000, dQ := -1000, fcActive := { FilterControl.zero with loBinOffset := -2 } })
      (fun t => t.resI.toInt = 1000 && t.resQ.toInt = -1001 && t.resValid) = true := by decide +kernel
/-- V-DRP-8 (REF): both parts saturate at the last entry of the table. -/
theorem test_droop_saturates :
    nextIs (exec (.droop 128) { State.reset with dI := 32767, dQ := -32768 })
      (fun t => t.resI.toInt = 32767 && t.resQ.toInt = -32768) = true := by decide +kernel
/-- V-NR-1 (REF). -/
theorem test_nr_bin :
    nextIs (exec (.nrBin .pos 5)
        { State.reset with dI := 1000, fcActive := { FilterControl.zero with noiseThreshold := 1 } })
      (fun t => t.resI.toInt = 998 && t.resQ = 0 && t.fft.nr.sigPos.getD 5 0 = 1000 && t.fft.nr.noisePos.getD 5 0 = 2) =
      true := by decide +kernel
/-- V-NR-5 (REF): the negative side, the most negative sample. -/
theorem test_nr_bin_negative :
    nextIs (exec (.nrBin .neg 3)
        { State.reset with dI := -32768, fcActive := { FilterControl.zero with noiseThreshold := 1 } })
      (fun t => t.resI.toInt = -32766 && t.fft.nr.sigNeg.getD 3 0 = 32768 && t.fft.nr.sigPos.getD 3 7 = 0) = true := by
  decide +kernel
/-- V-FFT-1, the first frame: its first output in RES, all four in the output memory, the tracked bins. -/
theorem test_fft_push_frame :
    nextIs (exec .fftPush tstFull)
      (fun t => t.resI.toInt = -5 && t.resQ.toInt = 31 && t.resValid && t.outCount = 4 && t.fft.peakIdx = 0 &&
        t.fft.runnerIdx = 1 && t.fft.notchCnt = 0 && (t.mem.readWord .outI 3).toInt = -70 &&
        (t.mem.readWord .outQ 3).toInt = -36) = true := by decide +kernel
/-- V-FFT-8: the push that would run a frame with start_bin above stop_bin is refused. -/
theorem test_fft_push_refused :
    refusedAs (exec .fftPush { tstBad with fft := { Fft.reset Config.tst with frameFill := 7 } }) .fcPrecondition = true := by
  decide +kernel
/-- V-SQ-1. -/
theorem test_sq_init :
    nextIs (exec (.sqInit 3) tst) (fun t => t.sq = ⟨.disabled, 0, 3, 0, 0⟩ && statusWord t = 0x200) = true := by decide
/-- V-SQ-13 (level 12 with S9 = 1000). -/
theorem test_sq_enable :
    nextIs (exec (.sqEnable 12) { tst with sq := { Squelch.reset with s9 := 1000 } })
      (fun t => t.sq.threshold = 31593 && t.sq.mode = .enabled && statusWord t = 0) = true := by decide
/-- V-SQ-12. -/
theorem test_sq_disable :
    nextIs (exec .sqDisable { tst with sq := ⟨.signalHi, 1000, 3, 1, 1000⟩ })
      (fun t => t.sq = ⟨.disabled, 1000, 3, 1, 1000⟩) = true := by decide
/-- V-SQ-10. -/
theorem test_sq_calibrate :
    nextIs (exec (.sqCalibrate 2000) { tst with sq := ⟨.enabled, 1000, 0, 0, 1000⟩ })
      (fun t => t.sq = ⟨.enabled, 1000, 0, 0, 2000⟩) = true := by decide
/-- V-SQ-11. -/
theorem test_sq_set_timeout :
    nextIs (exec (.sqSetTimeout 100) { tst with sq := ⟨.signalLo, 1000, 3, 2, 1000⟩ })
      (fun t => t.sq = ⟨.signalLo, 1000, 100, 2, 1000⟩) = true := by decide
/-- V-SQ-5: a level equal to the threshold is not above it. -/
theorem test_sq_update_equal :
    nextIs (exec (.sqUpdate 1000) { tst with sq := ⟨.enabled, 1000, 0, 0, 1000⟩ })
      (fun t => t.sq.mode = .enabled && t.resI = 1 && t.resQ = 0 && statusWord t = 0x100) = true := by decide
/-- V-SQ-8: the countdown decrements before the zero test. -/
theorem test_sq_update_countdown :
    nextIs (exec (.sqUpdate 999) { tst with sq := ⟨.signalLo, 1000, 3, 1, 1000⟩ })
      (fun t => t.sq.mode = .timeout && t.sq.count = 0) = true := by decide

/-! ## The host -/

/-- A host access of one whole word. -/
def rd (sp : Space) (a : Nat) : HostAccess := ⟨sp, a, 0, wordBits sp, .read⟩

/-- A host write of one whole word. -/
def wr (sp : Space) (a : Nat) (v : Word) : HostAccess := ⟨sp, a, 0, wordBits sp, .write v⟩

/-- The word of a table row placed for the next step is the command that step runs. -/
theorem test_with_fetch_word :
    nextIs (step (State.reset.withFetchWord 32 0x0200FFFB)) (fun t => t.dI.toInt = -5 && t.pending.isEmpty && !t.busy) =
      true := by decide
/-- A host read answers the word; outside its space it answers 0 (R104). -/
theorem test_host_read :
    nextIs (step { tst with pending := [⟨rd .reg 1, false⟩] }) (fun t => t.replies = [0x200]) = true ∧
    nextIs (step { tst with pending := [⟨rd .cap 16, false⟩] }) (fun t => t.replies = [0]) = true := by decide
/-- A read of STATUS that overlaps a command sees BUSY = 1 (R111). -/
theorem test_overlapping_status :
    nextIs (step { tst with pending := [⟨cmdWrite 0, false⟩, ⟨rd .reg 1, true⟩] })
      (fun t => t.replies = [0x201] && t.pending.isEmpty) = true := by decide
/-- What the host sees of a SYNC at its places: the configuration taken, FC_CHANGED cleared, then OUT_COUNT 0 (R112, R339). -/
theorem test_block_views :
    let s := { tst with fcChanged := true, fcStaged := { FilterControl.zero with startBin := 2 }, outCount := 7 }
    ((List.range 5).map fun p =>
        let u := viewAt (commandWrites 0x07000000 s s) p s s
        (u.fcActive.startBin, u.fcChanged, u.outCount)) =
      [(0, true, 7), (2, true, 7), (2, false, 7), (2, false, 0), (0, true, 7)] := by decide
/-- ERR_CODE is written before ERR (R362). -/
theorem test_error_views :
    let t := raiseCmdError .illegalOpcode tst
    ((List.range 3).map fun p => statusWord (viewAt (commandWrites 0xFF000000 tst t) p tst t)) = [0x200, 0x204, 0x206] := by
  decide
/-- An input read finds a racing write that stands before it, and not one behind it (R113). -/
theorem test_racing_write :
    let s := { tst with mem := twoWords, overlap := [⟨.in0, 0, 0, 16, .write 5⟩] }
    readInput .in0 0 (Config.raceDraw 0) s = 5 ∧
    (∀ now, now < Config.raceDraw 0 → readInput .in0 0 now s = 2048) ∧ readInput .in0 1 (Config.raceDraw 0) s = 2048 := by
  refine ⟨?_, fun now h => ?_, ?_⟩
  · simp [readInput, writesBefore, placedOverlap, placesFrom, HostAccess.writesTo, inputSpace, tst, State.powerOn]
  · rw [readInput]
    have : ¬Config.raceDraw 0 ≤ now := by omega
    simp [writesBefore, placedOverlap, placesFrom, HostAccess.writesTo, inputSpace, tst, State.powerOn, this]
    decide
  · decide
/-- A CMD write made while a command runs is held, with everything behind it (R111). -/
theorem test_held_command :
    nextIs (step { tst with pending := [⟨cmdWrite 0x02000001, false⟩, ⟨cmdWrite 0x02000002, true⟩, ⟨rd .reg 5, true⟩] })
      (fun t => t.dI = 1 && decide (t.pending.length = 2) && t.replies.isEmpty) = true := by decide
/-- A byte access is refused (R106). -/
theorem test_narrow_access : refusedAs (step { tst with pending := [⟨⟨.in0, 0, 0, 8, .read⟩, false⟩] }) .hostAccess = true := by
  decide

/-! ## Witnesses: for every obligation with hypotheses, states and operands that meet them -/

theorem witness_DecodedWordReencodes : decode 0x1401007F = .ok (.nrBin .neg 127) := by decide

/-- Both kinds of error; and in range, from ERR = 1, a command that completes, one that clears, one that is refused. -/
theorem witness_CommandProcedure :
    decode 0x08000000 = .error .illegalOpcode ∧
    (decode 0x2100000D = .ok (.sqEnable 13) ∧ (Instr.sqEnable 13).wf tst.par = false) ∧
    (decode 0x2100000C = .ok (.sqEnable 12) ∧ (Instr.sqEnable 12).wf tst.par = true) ∧
    nextIs (exec (.sqEnable 12) { tst with err := true }) (fun t => t.err && t.sq.mode = .enabled) = true ∧
    (decode 0x06000000 = .ok .clrErr ∧ nextIs (exec .clrErr { tst with err := true }) (fun t => !t.err) = true) ∧
    (decode 0x14000000 = .ok (.nrBin .pos 0) ∧ (Instr.nrBin .pos 0).wf tstBad.par = true ∧
      refusedAs (exec (.nrBin .pos 0) { tstBad with err := true }) .fcPrecondition = true) := by decide +kernel

theorem witness_OperandRangeErrors :
    2 ^ tst.par.adcBits ≤ (4096 : Half).toNat ∧ tst.par.fftN / 2 ≤ (8 : Half).toNat ∧ 8 < (9 : BitVec 8).toNat ∧
    32 ≤ (32 : Half).toNat ∧ (3999 : Half).toNat % 2 = 1 ∧ tst.par.inBufSize < (4002 : Half).toNat ∧
    12 < (13 : Half).toNat := by decide

theorem witness_CommandErrorIsPrecise :
    let s := { tst with pending := [⟨cmdWrite 0x2100000D, false⟩, ⟨cmdWrite 0, true⟩] }
    s.pending = ⟨cmdWrite 0x2100000D, false⟩ :: [⟨cmdWrite 0, true⟩] ∧ NoOverlap [⟨cmdWrite 0, true⟩] ∧
    s.busy = false ∧ s.overlap = [] ∧ decode 0x08000000 = .error .illegalOpcode ∧
    decode 0x2100000D = .ok (.sqEnable 13) ∧ (Instr.sqEnable 13).wf s.par = false :=
  ⟨rfl, rfl, rfl, rfl, by decide, by decide, by decide⟩

/-- An error while ERR is 1, with both kinds of head: a failing command and a host read. -/
theorem witness_ErrorStatusIsSticky :
    nextIs (step { tst with err := true, errCode := some .illegalOpcode, pending := [⟨cmdWrite 0x2100000D, false⟩] })
      (fun t => t.err && t.errCode = some .illegalOpcode) = true ∧
    decode 0x2100000D ≠ .ok .clrErr ∧ decode 0x2100000D ≠ .ok .softReset ∧
    runs (step { tst with err := true, pending := [⟨rd .reg 1, false⟩] }) = true ∧
    (decode 0x02000001 = .ok (.seti 1) ∧ (Instr.seti 1).wf tst.par = true ∧ Instr.seti 1 ≠ .clrErr ∧
      Instr.seti 1 ≠ .softReset) ∧
    runs (step { tst with pending := [⟨cmdWrite 0x02000001, false⟩] }) = true := by decide

theorem witness_RefusedForFilterControlOnly :
    ¬FilterReady tstBad ∧ (7 : Half).toNat < tstBad.par.fftN / 2 ∧
    (let s := { tstBad with fft := { Fft.reset Config.tst with frameFill := 7 } }
     ¬FilterReady s ∧ s.fft.frameFill + 1 = s.par.fftN / 2 ∧ refusedAs (exec .fftPush s) .fcPrecondition = true) := by
  refine ⟨by unfold FilterReady; decide, by decide, by unfold FilterReady; decide, by decide, by decide +kernel⟩

/-- Two words that complete a frame, refused, and the same two words with one sample fewer in the frame, which run. -/
theorem witness_RefusedForFilterControlOnly_block :
    ¬FilterReady tstBadFull ∧ tstBadFull.par.wf = true ∧ tstBadFull.cic.decCnt.toNat < tstBadFull.par.cicR ∧
    HalfBandInv 32 tstBadFull.hb1 ∧ HalfBandInv 64 tstBadFull.hb2 ∧
    tstBadFull.fft.frameFill < tstBadFull.par.fftN / 2 ∧
    tstBadFull.fft.frameFill + hbEmissions 64 tstBadFull.hb2 (hbEmissions 32 tstBadFull.hb1 ((19 + 2) / 20)) =
      tstBadFull.par.fftN / 2 ∧
    refusedAs (exec (.processBlock .in0 2) tstBadFull) .fcPrecondition = true ∧
    runs (exec (.processBlock .in0 2) { tstBadFull with fft := { Fft.reset Config.tst with frameFill := 6 } }) = true :=
  ⟨by unfold FilterReady; decide, test_tst_wf, by decide, ⟨by decide, by decide, by decide, by decide⟩,
    ⟨by decide, by decide, by decide, by decide⟩, by decide, by decide, by decide +kernel, by decide +kernel⟩

theorem witness_HostAccessesWithoutEffect :
    (∃ rest, ({ tst with pending := [⟨rd .outI 511, false⟩] } : State).pending =
      ⟨⟨.outI, 511, 0, wordBits .outI, .read⟩, false⟩ :: rest) ∧
    spaceSize tst.par .in0 ≤ 4000 ∧ spaceSize tst.par .reg ≤ 64 ∧
    (511 < tst.par.outMax ∧ 3999 < tst.par.inBufSize ∧ 15 < tst.par.fftN ∧ tst.fft.cap[15]? = some 0) ∧
    (∃ rest, ({ tst with pending := [⟨wr .reg 64 5, false⟩] } : State).pending =
      ⟨⟨.reg, 64, 0, wordBits .reg, .write 5⟩, false⟩ :: rest) ∧
    (∃ rest, ({ tst with pending := [⟨wr .reg 1 5, false⟩] } : State).pending =
      ⟨⟨.reg, 1, 0, wordBits .reg, .write 5⟩, false⟩ :: rest) ∧
    (∃ rest, ({ tst with pending := [⟨wr .cap 0 5, false⟩] } : State).pending =
      ⟨⟨.cap, 0, 0, wordBits .cap, .write 5⟩, false⟩ :: rest) :=
  ⟨⟨[], rfl⟩, by decide, by decide, by decide, ⟨[], rfl⟩, ⟨[], rfl⟩, ⟨[], rfl⟩⟩

theorem witness_HostInputWrite :
    3999 < tst.par.inBufSize ∧
    ({ tst with pending := [⟨wr .in1 3999 0x1234, false⟩] } : State).pending =
      ⟨⟨inputSpace .in1, 3999, 0, 16, .write 0x1234⟩, false⟩ :: [] ∧
    nextIs (step { tst with pending := [⟨wr .in1 3999 0x1234, false⟩] })
      (fun t => t.mem.readWord .in1 3999 = 0x1234 && decide (t.mem.in1 = [(7998, 0x34), (7999, 0x12)])) = true :=
  ⟨by decide, rfl, by decide +kernel⟩

theorem witness_MalformedAccessRefused :
    (⟨.in0, 0, 0, 8, .read⟩ : HostAccess).width ≠ wordBits .in0 ∧ (⟨.reg, 0, 1, 32, .read⟩ : HostAccess).skew ≠ 0 ∧
    (∃ x ∈ overlapping [⟨⟨.in0, 0, 1, 16, .read⟩, true⟩], x.skew ≠ 0 ∨ x.width ≠ wordBits x.space) :=
  ⟨by decide, by decide, ⟨_, List.mem_singleton.2 rfl, .inl (by decide)⟩⟩

/-- Two reads around a write of word 3 of IN1, with a held CMD write behind them. -/
def overlapOps : List HostAccess := [rd .in1 3, wr .in1 3 9, rd .reg 1, rd .in1 3]

/-- A command, a refused command and an error word with those accesses, and the writes before and behind each read. -/
theorem witness_StepRunsDecodedCommand :
    (∀ a ∈ overlapOps, a.wholeWord = true ∧ a.command = none) ∧
    (∀ h ∈ ([⟨cmdWrite 0, true⟩] : List HostOp).head?, h.overlap = false ∨ h.access.command.isSome = true) ∧
    (let s0 := { tst with busy := true, pending := [⟨cmdWrite 0, true⟩], overlap := overlapOps }
     runs (exec (.seti 1) s0) = true ∧ runs (exec (.seti 1) { s0 with overlap := [] }) = true) ∧
    refusedAs (exec (.nrBin .pos 0) { tstBad with busy := true, overlap := overlapOps }) .fcPrecondition = true ∧
    decode 0xFF000000 = .error .illegalOpcode ∧ 3 < tst.par.inBufSize ∧
    LastWrite overlapOps (inputSpace .in1) 3 9 ∧ NoWrite overlapOps (inputSpace .in1) (8 / 2) ∧
    NoWrite (overlapOps.take 0) .in1 3 ∧ LastWrite (overlapOps.take 3) .in1 3 9 :=
  ⟨by decide, by decide, by decide, by decide +kernel, by decide, by decide,
    ⟨[rd .in1 3], wr .in1 3 9, [rd .reg 1, rd .in1 3], rfl, rfl, rfl, rfl, by unfold NoWrite; decide⟩,
    by unfold NoWrite; decide, by unfold NoWrite; decide,
    ⟨[rd .in1 3], wr .in1 3 9, [rd .reg 1], rfl, rfl, rfl, rfl, by unfold NoWrite; decide⟩⟩

theorem witness_HeldCommandsRunInOrder :
    let l : List (Word × Bool) := [(0x02000001, false), (0x02000002, true), (0x08000000, true)]
    let s := { tst with pending := l.map fun (e : Word × Bool) => ⟨cmdWrite e.1, e.2⟩ }
    s.overlap = [] ∧ s.pending = l.map (fun e => ⟨cmdWrite e.1, e.2⟩) ∧
    nextIs (commandsRun (l.map Prod.fst) { s with pending := [] }) (fun t => t.dI = 2 && t.err) = true :=
  ⟨rfl, rfl, by decide⟩

theorem witness_StepProgress :
    acceptable ⟨cmdWrite 0x15000000, false⟩ [⟨rd .reg 1, true⟩] = true ∧ FilterReady tstOpen ∧ tst.pending = [] :=
  ⟨by decide, by unfold FilterReady; decide, rfl⟩

/-- One overlapping write stands before the read; it is one of the word read, or of another word. -/
theorem witness_RacesAdmitOldOrNew :
    (∀ k p, (placesFrom 0 0 1)[k]? = some p → (p ≤ Config.raceDraw 0 ↔ k < 1)) ∧
    LastWrite ([wr .in0 0 5].take 1) (inputSpace .in0) 0 5 ∧ NoWrite ([wr .in1 0 5].take 1) (inputSpace .in0) 0 := by
  refine ⟨fun k p h => ?_, ⟨[], wr .in0 0 5, [], rfl, rfl, rfl, rfl, fun x h => by cases h⟩,
    by unfold NoWrite; decide⟩
  cases k with
  | zero => simp only [placesFrom, List.getElem?_cons_zero, Option.some.injEq] at h; omega
  | succ k => simp [placesFrom] at h

/-- Commands of each of the three kinds that complete, an error among them, from a state that meets the bounds. -/
theorem witness_RacesAdmitOldOrNew_views :
    (tstFull.par.wf = true ∧ tstFull.fft.cap.length = tstFull.par.fftN ∧ tstFull.outCount.toNat ≤ tstFull.par.outMax) ∧
    runs (runWord 0x02000001 tstFull) = true ∧ runs (runWord 0x070000FF tstFull) = true ∧
    (255 : Half).toNat % 2 = 1 ∧ runs (runWord 0x15000000 tstFull) = true ∧ decode 0x15000000 = .ok .fftPush ∧
    runs (runWord 0x07000000 tstFull) = true ∧ decode 0x07000000 = .ok (.processBlock .in0 0) ∧
    (0 : Half).toNat % 2 = 0 ∧ (0 : Half).toNat ≤ tstFull.par.inBufSize :=
  ⟨⟨test_tst_wf, by decide, by decide⟩, by decide, by decide, by decide, by decide +kernel, by decide, by decide, by decide,
    by decide, by decide⟩

/-- A block whose second word completes a frame with the capture on: it runs, FRAME_FILL returns to 0 and OUT_COUNT is 4. -/
theorem witness_RacesAdmitOldOrNew_block :
    let s := { tstBadFull with fcActive := { FilterControl.zero with stopBin := 4, flags := 7 } }
    s.par.wf = true ∧ s.fft.cap.length = s.par.fftN ∧ s.outCount.toNat ≤ s.par.outMax ∧
    decode 0x07000002 = .ok (.processBlock .in0 2) ∧ (2 : Half).toNat % 2 = 0 ∧ (2 : Half).toNat ≤ s.par.inBufSize ∧
    nextIs (runWord 0x07000002 s) (fun t => t.fft.frameFill = 0 && t.outCount = 4) = true ∧
    s.fft.frameFill + 1 = s.par.fftN / 2 :=
  ⟨test_tst_wf, by decide, by decide, by decide, by decide, by decide, by decide +kernel, by decide⟩

/-- A state of the invariant that is not the reset state: an error recorded, the squelch expired, input words written. -/
def busyState : State :=
  { tst with err := true, errCode := some .operandRange, sq := ⟨.timeout, 5, 2, 0, 9⟩, mem := twoWords, outCount := 512 }

/-- The same with a CLR_ERR at the head of the queue. -/
def busyClr : State := { busyState with pending := [⟨cmdWrite 0x06000000, false⟩] }

theorem witness_inv : Inv busyClr :=
  ⟨test_tst_wf, (reset_units test_tst_wf).2, hbreset_inv _ (by decide), hbreset_inv _ (by decide),
    (reset_units test_tst_wf).1, (by constructor <;> intro h <;> cases h), by decide, fun _ => rfl, by decide +kernel, rfl,
    rfl⟩

theorem witness_StepKeepsInvariant : Inv busyClr ∧ runs (step busyClr) = true := ⟨witness_inv, by decide +kernel⟩

theorem witness_StepKeepsMemoryFormAndParameters :
    busyState.mem.wf = true ∧ runs (step { busyState with pending := [⟨wr .in0 0 7, false⟩] }) = true := by decide +kernel

theorem witness_CfgWriteResult :
    ((8 : BitVec 8).toNat ≤ 8 ∧ ((8 : BitVec 8) = 6 → (0xFFFF : Half).toNat < 32)) ∧
    ((6 : BitVec 8).toNat ≤ 8 ∧ ((6 : BitVec 8) = 6 → (31 : Half).toNat < 32)) ∧ 8 < (9 : BitVec 8).toNat ∧
    32 ≤ (32 : Half).toNat := by decide

theorem witness_ApplyPoint :
    (Instr.cicStep 4095).wf tst.par = true ∧ (Instr.nrBin .neg 7).wf tst.par = true ∧
    (Instr.processBlock .in0 0).wf tst.par = true ∧ runs (exec (.droop 0) { tstOpen with fcChanged := true }) = true ∧
    Instr.hb1Step ≠ .softReset ∧ runs (exec .hb1Step tst) = true := by decide +kernel

theorem witness_CicStepResult :
    tst.par.wf = true ∧ CicInv tst.par { Cic.reset with decCnt := 18 } ∧ CicInv tst.par { Cic.reset with decCnt := 19 } ∧
    (4095 : Half).toNat < 2 ^ tst.par.adcBits ∧ (18 : Half).toNat + 1 < tst.par.cicR ∧
    (19 : Half).toNat + 1 = tst.par.cicR :=
  ⟨test_tst_wf, ⟨by decide, by decide, by decide⟩, ⟨by decide, by decide, by decide⟩, by decide, by decide, by decide⟩

theorem witness_CicWrapIsExact :
    exactRun [(3, false), (2, true)] .zero .zero = [14] ∧ ∀ y ∈ [(14 : Int)], -(2 ^ 31) ≤ y ∧ y < 2 ^ 31 := by decide

theorem witness_Hb1StepResult :
    tst.par.wf = true ∧ HalfBandInv 32 (HalfBand.reset 32) ∧
    HalfBandInv 32 ⟨List.replicate 32 ⟨1, 2⟩, 31, 31⟩ ∧ HalfBandInv 32 ⟨List.replicate 32 ⟨1, 2⟩, 0, 32⟩ :=
  ⟨test_tst_wf, hbreset_inv _ (by decide), ⟨by decide, by decide, by decide, by decide⟩,
    ⟨by decide, by decide, by decide, by decide⟩⟩

theorem witness_Hb2StepResult :
    tst.par.wf = true ∧ HalfBandInv 64 ⟨List.replicate 64 ⟨1, 2⟩, 63, 63⟩ ∧
    HalfBandInv 64 ⟨List.replicate 64 ⟨1, 2⟩, 62, 64⟩ :=
  ⟨test_tst_wf, ⟨by decide, by decide, by decide, by decide⟩, ⟨by decide, by decide, by decide, by decide⟩⟩

theorem witness_HalfBandOutputCount : HalfBandInv 32 (HalfBand.reset 32) ∧ HalfBandInv 64 (HalfBand.reset 64) :=
  ⟨hbreset_inv _ (by decide), hbreset_inv _ (by decide)⟩

theorem witness_HalfBandPairing : Params.wfKernel 32 Config.tk7 = true ∧ Params.wfKernel 64 Config.tk7 = true := by
  decide +kernel

theorem witness_HalfBandRangeAndGain :
    Params.wfKernel 32 Config.tk7 = true ∧ List.replicate 32 (⟨-32768, 7⟩ : Sample) = List.replicate 32 ⟨-32768, 7⟩ ∧
    hbOutput Config.tk7 32 31 (List.replicate 32 ⟨-32768, 7⟩) = ⟨-32768, 7⟩ := by decide +kernel

theorem witness_DroopResult : tst.par.wf = true := test_tst_wf

theorem witness_DroopSymmetry : Config.ref.wf = true := test_ref_wf

theorem witness_NrBinResult :
    tst.par.wf = true ∧ NrInv tst.par.half tst.fft.nr ∧ FilterReady tstOpen ∧ (7 : Half).toNat < tst.par.fftN / 2 :=
  ⟨test_tst_wf, (reset_units test_tst_wf).1.nr, by unfold FilterReady; decide, by decide⟩

theorem witness_NrUpdateRanges : NrInv 8 (NrEstimates.reset 8) ∧ 7 < 8 ∧ 15 ≤ 15 :=
  ⟨(reset_units test_tst_wf).1.nr, by decide, by decide⟩

theorem witness_FftPushCollects : tst.fft.frameFill + 1 ≠ tst.par.fftN / 2 := by decide

theorem witness_FftPushRunsFrame :
    tstFull.par.wf = true ∧ FilterReady tstFull ∧ tstFull.fft.frameFill + 1 = tstFull.par.fftN / 2 ∧
    (512 : Half).toNat ≤ tstFull.par.outMax ∧
    nextIs (exec .fftPush { tstFull with outCount := 510 }) (fun t => t.outCount = 512 && t.ovf) = true :=
  ⟨test_tst_wf, by unfold FilterReady; decide, by decide, by decide, by decide +kernel⟩

/-- Bins 0 and 3, and 1 and 4, on either edge of the walks, masked by flags, by start_bin and by stop_bin. -/
theorem witness_MaskedBins :
    let fc : FilterControl := { FilterControl.zero with startBin := 1, stopBin := 3, flags := 3 }
    Config.tst.wf = true ∧ 0 < Config.tst.quarter ∧
    ¬(fc.flags.getLsbD 1 = true ∧ fc.startBin.toNat ≤ 0 ∧ 0 ≤ fc.stopBin.toNat) ∧ 4 ≤ Config.tst.quarter ∧
    ¬(fc.flags.getLsbD 0 = true ∧ fc.startBin.toNat ≤ 4 ∧ 4 ≤ fc.stopBin.toNat) ∧
    ¬(FilterControl.zero.flags.getLsbD 1 = true ∧ FilterControl.zero.startBin.toNat ≤ 0 ∧ 0 ≤ FilterControl.zero.stopBin.toNat) :=
  ⟨test_tst_wf, by decide, by decide, by decide, by decide, by decide⟩

/-- The last positive bin, below NR_MIN_BIN, and the last negative bin, at NR_MIN_BIN, both passing with noise reduction on. -/
theorem witness_MaskedBins_pass :
    let fc : FilterControl := { FilterControl.zero with startBin := 3, stopBin := 4, flags := 0x13 }
    (3 < Config.tst.quarter ∧ fc.flags.getLsbD 1 = true ∧ fc.startBin.toNat ≤ 3 ∧ 3 ≤ fc.stopBin.toNat) ∧
    (1 ≤ 4 ∧ 4 ≤ Config.tst.quarter ∧ fc.flags.getLsbD 0 = true ∧ fc.startBin.toNat ≤ 4 ∧ 4 ≤ fc.stopBin.toNat) ∧
    (fc.flags.getLsbD 4 = true ∧ ¬4 ≤ 3) := by decide

/-- The first positive index that no walk visits, and negative indices 0 and Q4 + 1. -/
theorem witness_MaskedBins_unvisited :
    Config.tst.quarter ≤ 4 ∧ Config.tst.quarter < 5 ∧ 5 < Config.tst.half ∧ 3 < 4 ∧
    (FilterControl.zero.flags.getLsbD 4 = false) := by decide

/-- A frame with a peak and a runner-up, and one with neither. -/
theorem witness_PeakIsFirstLargest :
    trackRun [(0, 3), (1, 7), (2, 7), (5, 4)] = ⟨some 1, 7, some 2, 7⟩ ∧ trackRun [(0, 0), (1, 0)] = ⟨none, 0, none, 0⟩ ∧
    trackRun [(4, 6), (5, 0)] = ⟨some 4, 6, none, 0⟩ := by decide

/-- In TST the notch first acts in frame 4 on bins 3 and 4, and never on bins 2 and 5. -/
theorem witness_NotchActsOnSteadyPeak :
    let fc : FilterControl := { FilterControl.zero with flags := 8 }
    Config.tst.wf = true ∧ 4 < Config.tst.half ∧ fc.flags.getLsbD 3 = true ∧ 4 ≤ Config.tst.half - 1 - 3 ∧
    notchActs Config.tst fc (notchRun Config.tst 4 3 0xFFFF 0) 4 = false ∧
    notchActs Config.tst fc (notchRun Config.tst 4 4 0xFFFF 0) 4 = true ∧
    notchActs Config.tst fc (notchRun Config.tst 5 9 0xFFFF 0) 5 = false ∧
    notchActs Config.tst fc (notchRun Config.tst 2 9 0xFFFF 0) 2 = false :=
  ⟨test_tst_wf, by decide, by decide, by decide, by decide, by decide, by decide, by decide⟩

/-- The frame of V-FFT-1 finds peak 0 and runner-up 1, and a frame of zeros finds neither. -/
theorem witness_NotchActsOnSteadyPeak_frame :
    (let f := tstFull.fft
     let t := (walk Config.tst tstOpen.fcActive (engine Config.tst 4 (windowed Config.tst f.prevIn
       (f.frame.set 7 ⟨1000, 0⟩))) f.nr).trk
     t.peak = some 0 ∧ t.runner = some 1) ∧
    (let t := (walk Config.tst tstOpen.fcActive (engine Config.tst 4 (windowed Config.tst tst.fft.prevIn
       tst.fft.frame)) tst.fft.nr).trk
     t.peak = none ∧ t.runner = none) := by decide +kernel

/-- The last pair of the last stage of a transform of 8, and an index with its bits reversed. -/
theorem witness_ButterflyOrderIrrelevant :
    List.Perm [2, 0, 3, 1] (List.range (2 ^ (3 - 1))) ∧ (List.replicate 8 Sample.zero).length = 2 ^ 3 ∧ 3 < 2 ^ 2 ∧
    (0 + 1) * 2 ^ (2 + 1) ≤ 2 ^ 3 ∧ (∀ i, i < 3 → Nat.testBit 3 i = Nat.testBit 6 (3 - 1 - i)) := by decide

theorem witness_SilentWithoutSidebands :
    Config.tst.wf = true ∧ FftInv Config.tst (Fft.reset Config.tst) ∧
    (({ FilterControl.zero with flags := 0x1C } : FilterControl).flags.getLsbD 0 = false) ∧
    (({ FilterControl.zero with flags := 0x1C } : FilterControl).flags.getLsbD 1 = false) :=
  ⟨test_tst_wf, (reset_units test_tst_wf).1, by decide, by decide⟩

theorem witness_CaptureUpdate :
    FftInv Config.tst (Fft.reset Config.tst) ∧ (15 : Half).toNat ≤ 15 ∧ (4 : BitVec 5).getLsbD 2 = true ∧
    (3 : BitVec 5).getLsbD 2 = false :=
  ⟨(reset_units test_tst_wf).1, by decide, by decide, by decide⟩

theorem witness_SqEnableResult :
    (12 : Half).toNat ≤ 12 ∧ 12 < (13 : Half).toNat ∧ tst.par.wf = true ∧ tst.par.sqLevels = Config.ref.sqLevels :=
  ⟨by decide, by decide, test_tst_wf, rfl⟩

/-- A threshold that shifts before it multiplies is a listed row: 7 at level 0 gives (7 >> 2)·3. -/
theorem test_listed_threshold :
    sqThresh { Config.tst with sqLevels := [.listed ((List.range 8).map fun s9 => s9 / 4 * 3)] } 0 7 = 3 := by decide

theorem witness_SquelchDocExample :
    let q : Squelch := ⟨.enabled, 1000, 2, 0, 1000⟩
    q.mode = .enabled ∧ 1 ≤ q.threshold.toNat ∧ (999 : Half).toNat = q.threshold.toNat - 1 ∧
    (1001 : Half).toNat = q.threshold.toNat + 1 ∧ 1 ≤ q.timeout.toNat ∧ 1 < q.timeout.toNat := by decide

theorem witness_SquelchIsIndependent :
    runs (exec .fftPush tst) = true ∧ opField (encode .fftPush) < 0x20 ∧ Instr.fftPush ≠ .softReset ∧
    nextIs (exec .softReset busyState) (fun t => t.sq.mode = .unknown) = true := by decide +kernel

theorem witness_BlockCompletes :
    tstOpen.par.wf = true ∧ (4000 : Half).toNat % 2 = 0 ∧ (4000 : Half).toNat ≤ tstOpen.par.inBufSize ∧ FilterReady tstOpen :=
  ⟨test_tst_wf, by decide, by decide, by unfold FilterReady; decide⟩

theorem witness_BlockIsPipeline :
    tstOpen.par.wf = true ∧ (2 : Half).toNat % 2 = 0 ∧ (2 : Half).toNat ≤ tstOpen.par.inBufSize ∧
    FilterReady { tstOpen with mem := twoWords } ∧ OwnsInput .in0 2 { tstOpen with mem := twoWords } ∧
    runs (exec (.processBlock .in0 2) { tstOpen with mem := twoWords }) = true :=
  ⟨test_tst_wf, by decide, by decide, by unfold FilterReady; decide, fun _ _ => rfl, by decide +kernel⟩

/-- The counts of 95_test_vectors.md section 3.9, blocks 0 and 3, come out of the closed form. -/
theorem witness_BlockOutputCount :
    tst.par.wf = true ∧ (19 : Half).toNat < tst.par.cicR ∧ HalfBandInv 32 (HalfBand.reset 32) ∧
    HalfBandInv 64 (HalfBand.reset 64) ∧ 7 < tst.par.fftN / 2 ∧ (2 : Half).toNat % 2 = 0 ∧
    runs (exec (.processBlock .in0 2) { tst with mem := twoWords }) = true ∧
    hbEmissions 32 (HalfBand.reset 32) 200 = 85 ∧ hbEmissions 64 (HalfBand.reset 64) 85 = 11 ∧
    hbEmissions 32 ⟨[], 24, 32⟩ 200 = 100 ∧ hbEmissions 64 ⟨[], 29, 64⟩ 100 = 50 :=
  ⟨test_tst_wf, by decide, hbreset_inv _ (by decide), hbreset_inv _ (by decide), by decide, by decide, by decide +kernel,
    by decide, by decide, by decide, by decide⟩

theorem witness_BlockIgnoresOtherAccesses :
    OwnsInput .in0 2 { tst with mem := twoWords, overlap := [wr .in1 0 5, rd .reg 1, wr .in0 2 5] } ∧
    runs (exec (.processBlock .in0 2) { tst with mem := twoWords, overlap := [wr .in1 0 5, rd .reg 1, wr .in0 2 5] }) =
      true := by
  refine ⟨fun a ha => ?_, by decide +kernel⟩
  rcases (by omega : a = 0 ∨ a = 1) with rfl | rfl <;> decide

theorem witness_CommandFrames :
    runs (exec (.seti 1) tst) = true ∧ runs (exec .fftPush tst) = true ∧ tst.par.outMax ≤ 65535 ∧
    opField (encode (.processBlock .in0 0)) ∉ ([0x10, 0x11, 0x12, 0x13, 0x14, 0x15, 0x25] : List (BitVec 8)) ∧
    opField (encode (.sqInit 3)) ∉ ([0x10, 0x11, 0x12, 0x13, 0x14, 0x15, 0x25] : List (BitVec 8)) ∧ runs (exec (.processBlock .in0 0) tst) = true := by decide +kernel

end Sys2Proof.Tests.Slice0
end

section
/-! PROOFS of the family 00_scope: what a step keeps of the memory's form and of the parameters, and SQ_ENABLE. First
the inversion lemmas of the step, which any invariant of the step can use. -/

namespace Sys2Proof.Machine

/-! ## What a step can do -/

/-- An operand check that raises OPERAND_RANGE answers one of two next states, by the check. -/
theorem ite_next_cases {c : Bool} {u v t : State}
    (h : (if c then .next u else .next v : Host.Outcome State Fault Refusal) = .next t) :
    (c = true ∧ t = u) ∨ (c = false ∧ t = v) := by
  cases c with
  | true => exact .inl ⟨rfl, (Host.Outcome.next.inj h).symm⟩
  | false => exact .inr ⟨rfl, (Host.Outcome.next.inj h).symm⟩

/-- A command word runs the command it decodes to, or raises its decode error (R136). -/
theorem runWord_next_cases {w : Word} {s t : State} (h : runWord w s = .next t) :
    (∃ i, decode w = .ok i ∧ exec i s = .next t) ∨ (∃ e, decode w = .error e ∧ t = raiseCmdError e s) := by
  unfold runWord at h
  cases hd : decode w with
  | ok i => rw [hd] at h; exact .inl ⟨i, rfl, h⟩
  | error e => rw [hd] at h; exact .inr ⟨e, rfl, (Host.Outcome.next.inj h).symm⟩

/-- A command that completes is the run of its word, and then the end of the command (R110-R114). -/
theorem runCommand_next {w : Word} {rest : List HostOp} {s t : State} (h : runCommand w rest s = .next t) :
    ∃ done, runWord w (beginCommand rest s) = .next done ∧
      t = endCommand (commandWrites w (beginCommand rest s) done) (beginCommand rest s) done := by
  unfold runCommand at h
  cases hr : runWord w (beginCommand rest s) with
  | next done => rw [hr] at h; exact ⟨done, rfl, (Host.Outcome.next.inj h).symm⟩
  | fault r => rw [hr] at h; cases h
  | refused r => rw [hr] at h; cases h

/-- A step that is not refused idles, makes one host access, or runs one whole command (R8, R375). -/
theorem step_next_cases {s t : State} (h : step s = .next t) :
    (s.pending = [] ∧ t = s) ∨
    ∃ op rest, s.pending = op :: rest ∧ acceptable op rest = true ∧
      ((op.access.command = none ∧ t = hostAccess op.access { s with pending := rest }) ∨
       ∃ w done, op.access.command = some w ∧ runWord w (beginCommand rest s) = .next done ∧
         t = endCommand (commandWrites w (beginCommand rest s) done) (beginCommand rest s) done) := by
  unfold step at h
  cases hp : s.pending with
  | nil => rw [hp] at h; exact .inl ⟨rfl, (Host.Outcome.next.inj h).symm⟩
  | cons op rest =>
    rw [hp] at h
    dsimp only at h
    split at h
    · next hacc =>
      refine .inr ⟨op, rest, rfl, hacc, ?_⟩
      cases hc : op.access.command with
      | none => rw [hc] at h; exact .inl ⟨rfl, (Host.Outcome.next.inj h).symm⟩
      | some w =>
        rw [hc] at h
        obtain ⟨done, hrun, ht⟩ := runCommand_next h
        exact .inr ⟨w, done, rfl, hrun, ht⟩
    · cases h

/-! ## The canonical memory form and the parameters (R20, R118, R394; entry 10) -/

/-- From s to t the parameters are the same and the canonical form of the memory is kept. -/
structure FormAndParKept (s t : State) : Prop where
  form : s.mem.wf = true → t.mem.wf = true
  par : t.par = s.par

/-- An operation that touches neither the memory nor the parameters keeps both. -/
theorem FormAndParKept.of_eq {s t : State} (hm : t.mem = s.mem) (hp : t.par = s.par) : FormAndParKept s t :=
  ⟨fun h => hm ▸ h, hp⟩

theorem FormAndParKept.trans {s t u : State} (h : FormAndParKept s t) (h' : FormAndParKept t u) : FormAndParKept s u :=
  ⟨fun hs => h'.form (h.form hs), h'.par.trans h.par⟩

/-- Appending one output sample writes the output buffers by whole words only (R263). -/
theorem appendOut_keepsFormAndPar (s : State) (z : Sample) : FormAndParKept s (appendOut s z) := by
  refine ⟨fun h => ?_, appendOut_par z s⟩
  rcases appendOut_cases s z with ⟨_, hm, _, _⟩ | ⟨_, hm, _, _⟩
  · rw [hm]; exact Memory_writeWord_wf _ _ _ (Memory_writeWord_wf _ _ _ h)
  · rw [hm]; exact h

/-- FRAME_PUSH reaches the memory through appended output samples only (R264). -/
theorem framePush_keepsFormAndPar {z : Sample} {s t : State} {o : Option Sample} (h : framePush z s = .ok (o, t)) :
    FormAndParKept s t := by
  rcases framePush_ok h with ⟨_, _, rfl⟩ | ⟨_, _, f, _, _, rfl⟩
  · exact .of_eq rfl rfl
  · exact foldl_appendOut_keeps (fun u x hu => hu.trans (appendOut_keepsFormAndPar u x)) _ _ (.of_eq rfl rfl)

/-- Every operation of the chain keeps the form and the parameters (R339). -/
theorem chainKeeps_formAndPar (s : State) : ChainKeeps (FormAndParKept s) where
  tick r u _ hu := hu.trans (.of_eq (tickState_snd_mem r u) (tickState_snd_par r u))
  hb1 z u hu := hu.trans (.of_eq (hb1State_snd_mem z u) (hb1State_snd_par z u))
  hb2 z u hu := hu.trans (.of_eq (hb2State_snd_mem z u) (hb2State_snd_par z u))
  push _ _ _ _ h hu := hu.trans (framePush_keepsFormAndPar h)

/-- A host write reaches the memory by one whole word of an input buffer only (R100, R101). -/
theorem hostWrite_keepsFormAndPar (sp : Space) (a : Nat) (v : Word) (s : State) :
    FormAndParKept s (hostWrite sp a v s) := by
  refine ⟨fun h => ?_, hostWrite_par sp a v s⟩
  have hw : ∀ b, (s.mem.writeWord b a (v.extractLsb' 0 16)).wf = true := fun b => Memory_writeWord_wf b _ _ h
  cases sp with
  | in0 => simp only [hostWrite]; split; exacts [hw .in0, h]
  | in1 => simp only [hostWrite]; split; exacts [hw .in1, h]
  | reg | outI | outQ | cap => exact h

theorem hostAccess_keepsFormAndPar (acc : HostAccess) (s : State) : FormAndParKept s (hostAccess acc s) := by
  unfold hostAccess
  cases acc.kind with
  | read => exact .of_eq rfl rfl
  | write v => exact hostWrite_keepsFormAndPar _ _ _ _

theorem overlapAccess_keepsFormAndPar (ws : List WordAccess) (old done now : State) (e : HostAccess × Nat) :
    FormAndParKept now (overlapAccess ws old done now e) := by
  unfold overlapAccess
  cases e.1.kind with
  | read => exact .of_eq rfl rfl
  | write v => exact hostWrite_keepsFormAndPar _ _ _ _

/-- The end of a command makes the overlapping accesses, and none of them disturbs the form (R112). -/
theorem endCommand_keepsFormAndPar (ws : List WordAccess) (old done : State) :
    FormAndParKept done (endCommand ws old done) :=
  have hfold : FormAndParKept done ((placedOverlap old).foldl (overlapAccess ws old done) done) :=
    foldl_overlap_keeps ws old done (fun now e h => h.trans (overlapAccess_keepsFormAndPar ws old done now e)) _
      (.of_eq rfl rfl)
  hfold.trans (.of_eq rfl rfl)

/-! ### The commands -/

theorem raiseCmdError_keepsFormAndPar (e : CmdError) (s : State) : FormAndParKept s (raiseCmdError e s) :=
  .of_eq (raiseCmdError_mem e s) (raiseCmdError_par e s)

/-- NR_BIN changes the estimates and the result alone (R230). -/
theorem execNrBin_keepsFormAndPar {side : Side} {b : Half} {s t : State} (h : execNrBin side b s = .next t) :
    FormAndParKept s t := by
  simp only [execNrBin] at h
  split at h
  · split at h
    · cases h; exact .of_eq rfl rfl
    · cases h
  · cases h; exact raiseCmdError_keepsFormAndPar _ s

/-- FFT_PUSH is the apply point, FRAME_PUSH and the result (R265). -/
theorem execFftPush_keepsFormAndPar {s t : State} (h : execFftPush s = .next t) : FormAndParKept s t := by
  simp only [execFftPush] at h
  split at h
  · next o u hp =>
    cases h
    have hpush : FormAndParKept (applyPoint s) u := framePush_keepsFormAndPar hp
    have happly : FormAndParKept s (applyPoint s) := .of_eq (applyPoint_mem s) (applyPoint_par s)
    exact (happly.trans hpush).trans (.of_eq (State_withResult_mem o u) (State_withResult_par o u))
  · cases h

/-- PROCESS_BLOCK is its start and then the chain, word by word (R339). -/
theorem execProcessBlock_keepsFormAndPar {sel : InSel} {n : Half} {s t : State}
    (h : execProcessBlock sel n s = .next t) : FormAndParKept s t := by
  unfold execProcessBlock at h
  split at h
  · split at h
    · next u hl =>
      cases h
      exact blockLoop_keeps (chainKeeps_formAndPar s) hl (.of_eq (blockStart_mem s) (blockStart_par s))
    · cases h
  · cases h; exact raiseCmdError_keepsFormAndPar _ s

/-- Every command keeps the form and the parameters: only FFT_PUSH and PROCESS_BLOCK write the memory at all. -/
theorem exec_keepsFormAndPar {i : Instr} {s t : State} (h : exec i s = .next t) : FormAndParKept s t := by
  cases i with
  | processBlock sel n => exact execProcessBlock_keepsFormAndPar h
  | fftPush => exact execFftPush_keepsFormAndPar h
  | nrBin side b => exact execNrBin_keepsFormAndPar h
  | cfgWrite _ _ | cicStep _ | sqEnable _ =>
    obtain ⟨_, rfl⟩ | ⟨_, rfl⟩ := ite_next_cases h
    · exact .of_eq rfl rfl
    · exact raiseCmdError_keepsFormAndPar _ s
  | nop | softReset | seti _ | setq _ | cfgPublish | clrErr | hb1Step | hb2Step | droop _ | sqInit _ | sqDisable
  | sqCalibrate _ | sqSetTimeout _ | sqUpdate _ =>
    cases h; exact .of_eq rfl rfl

theorem runWord_keepsFormAndPar {w : Word} {s t : State} (h : runWord w s = .next t) : FormAndParKept s t := by
  obtain ⟨i, _, hi⟩ | ⟨e, _, rfl⟩ := runWord_next_cases h
  · exact exec_keepsFormAndPar hi
  · exact raiseCmdError_keepsFormAndPar e s

theorem step_keepsFormAndPar {s t : State} (h : step s = .next t) : FormAndParKept s t := by
  obtain ⟨_, rfl⟩ | ⟨op, rest, _, _, ⟨_, rfl⟩ | ⟨w, done, _, hrun, rfl⟩⟩ := step_next_cases h
  · exact .of_eq rfl rfl
  · have hpop : FormAndParKept s { s with pending := rest } := .of_eq rfl rfl
    exact hpop.trans (hostAccess_keepsFormAndPar op.access _)
  · have hbegin : FormAndParKept s (beginCommand rest s) := .of_eq (beginCommand_mem rest s) (beginCommand_par rest s)
    exact (hbegin.trans (runWord_keepsFormAndPar hrun)).trans (endCommand_keepsFormAndPar _ _ done)

/-- Settles O24: a step is an idle step, a host access or a command, and each writes the memory by whole words only. -/
theorem stepKeepsMemoryFormAndParameters : Obligations.StepKeepsMemoryFormAndParameters := fun _ _ h =>
  ⟨(step_keepsFormAndPar h).form, (step_keepsFormAndPar h).par⟩

/-! ## SQ_ENABLE (R302, R305; entry 19) -/

/-- SQ_ENABLE of a legal level sets the threshold and the mode (R305). -/
theorem exec_sqEnable_of_le {l : Half} (s : State) (h : l.toNat ≤ 12) :
    exec (.sqEnable l) s =
      .next { s with sq := { s.sq with threshold := sqThresh s.par l.toNat s.sq.s9.toNat, mode := .enabled } } :=
  if_pos ((levelInRange_iff l).2 h)

/-- SQ_ENABLE of a level above 12 is rejected (R305). -/
theorem exec_sqEnable_of_lt {l : Half} (s : State) (h : 12 < l.toNat) :
    exec (.sqEnable l) s = .next (raiseCmdError .operandRange s) :=
  if_neg fun hl => absurd ((levelInRange_iff l).1 hl) (by omega)

/-- SQ_THRESH takes the value of the row that stands at the level, if that row is well-formed. -/
theorem sqThresh_toNat_of_row {p : Params} {l s9 : Nat} {row : LevelThreshold} (hrow : p.sqLevels[l]? = some row)
    (hwf : row.wf = true) (hs : s9 ≤ 65535) : (sqThresh p l s9).toNat = levelThreshold row s9 := by
  rw [sqThresh, List.getD_eq_getElem?_getD, hrow, Option.getD_some, BitVec.toNat_ofNat,
    Nat.mod_eq_of_lt (levelThreshold_lt hwf hs)]

/-- Every row of the REF thresholds is well-formed (R302). -/
theorem refSqLevels_wf : ∀ row ∈ Config.refSqLevels, row.wf = true := by decide

/-- Up to level 9 the REF rows are powers of two below the reference (R302). -/
theorem refSqLevels_low : ∀ l ≤ 9, Config.refSqLevels[l]? = some (.scaled 1 (9 - l)) := by decide

/-- With the REF thresholds, SQ_THRESH is R302's table. -/
theorem sqThresh_ref {p : Params} (hp : p.sqLevels = Config.refSqLevels) {l s9 : Nat} (hl : l ≤ 12) (hs : s9 ≤ 65535) :
    (sqThresh p l s9).toNat =
      if l ≤ 9 then s9 / 2 ^ (9 - l) else if l = 10 then s9 * 101 / 32 else if l = 11 then s9 * 10
      else s9 * 1011 / 32 := by
  have hrow : ∀ {row : LevelThreshold}, Config.refSqLevels[l]? = some row →
      (sqThresh p l s9).toNat = levelThreshold row s9 := fun {_} h =>
    sqThresh_toNat_of_row (hp ▸ h) (refSqLevels_wf _ (List.mem_of_getElem? h)) hs
  by_cases hlow : l ≤ 9
  · rw [hrow (refSqLevels_low l hlow)]
    simp [hlow]
  · obtain rfl | rfl | rfl : l = 10 ∨ l = 11 ∨ l = 12 := by omega
    · simp [hrow (row := .scaled 101 5) rfl]
    · simp [hrow (row := .scaled 10 0) rfl]
    · simp [hrow (row := .scaled 1011 5) rfl]

/-- Settles O51: the threshold is SQ_THRESH of the level, read from the parameter's row or from R302's table. -/
theorem sqEnableResult : Obligations.SqEnableResult := by
  intro l s
  have hs : s.sq.s9.toNat ≤ 65535 := by omega
  refine ⟨fun hl => ⟨_, exec_sqEnable_of_le s hl, fun hp => ?_, fun href => sqThresh_ref href hl hs⟩,
    exec_sqEnable_of_lt s⟩
  obtain ⟨row, hrow, hthr⟩ := sqThresh_toNat hp hl hs
  refine ⟨row, hrow, ?_⟩
  cases row with
  | scaled mult shift => exact hthr
  | listed values => exact hthr

end Sys2Proof.Machine
end

section
/-! PROOFS of the family 10_state: the STATUS word, the register map and the state after power-on; what every step keeps
of the units' ranges; what a frame does to the retained half and to the spectrum capture; and which commands write the
buffers, the operand registers and the result registers. -/

namespace Sys2Proof.Machine

/-! ## The STATUS word (R45) -/

/-- The fields of STATUS fit the places R45 gives them. -/
theorem statusFields_le (s : State) :
    s.busy.toNat ≤ 1 ∧ s.err.toNat ≤ 1 ∧ errCodeBits s.errCode ≤ 3 ∧ s.fcChanged.toNat ≤ 1 ∧ s.ovf.toNat ≤ 1 ∧
      s.resValid.toNat ≤ 1 ∧ (sqOpen s.sq.mode).toNat ≤ 1 := by
  have hcode : errCodeBits s.errCode ≤ 3 := by obtain _ | _ | _ | _ := s.errCode <;> decide
  exact ⟨Bool.toNat_le _, Bool.toNat_le _, hcode, Bool.toNat_le _, Bool.toNat_le _, Bool.toNat_le _, Bool.toNat_le _⟩

/-- STATUS is the sum of its fields at their places, and the sum does not wrap (R45). -/
theorem statusWord_toNat (s : State) :
    (statusWord s).toNat = s.busy.toNat + 2 * s.err.toNat + 4 * errCodeBits s.errCode + 64 * s.fcChanged.toNat +
      128 * s.ovf.toNat + 256 * s.resValid.toNat + 512 * (sqOpen s.sq.mode).toNat := by
  have hfields := statusFields_le s
  rw [statusWord, BitVec.toNat_ofNat, Nat.mod_eq_of_lt (by omega)]

/-- Bit i of a word is the parity of its quotient by 2^i. -/
theorem getLsbD_of_toNat {w : Word} {b : Bool} (i : Nat) (h : w.toNat / 2 ^ i % 2 = b.toNat) : w.getLsbD i = b := by
  rw [BitVec.getLsbD, Nat.testBit_eq_decide_div_mod_eq, h]
  cases b <;> rfl

/-- Settles O10: each field is read off the sum that STATUS is. -/
theorem statusWordLayout : Obligations.StatusWordLayout := by
  intro s
  have hsum := statusWord_toNat s
  have hfields := statusFields_le s
  have hcodeField : (statusWord s).extractLsb' 2 4 = BitVec.ofNat 4 (errCodeBits s.errCode) := by
    apply BitVec.eq_of_toNat_eq
    rw [BitVec.extractLsb'_toNat, BitVec.toNat_ofNat, Nat.shiftRight_eq_div_pow]
    omega
  have hreserved : (statusWord s).extractLsb' 10 22 = 0 := by
    apply BitVec.eq_of_toNat_eq
    have hzero : (0 : BitVec 22).toNat = 0 := rfl
    rw [BitVec.extractLsb'_toNat, Nat.shiftRight_eq_div_pow, hzero]
    omega
  refine ⟨getLsbD_of_toNat 0 (by omega), getLsbD_of_toNat 1 (by omega), ?_, getLsbD_of_toNat 6 (by omega),
    getLsbD_of_toNat 7 (by omega), getLsbD_of_toNat 8 (by omega), hreserved⟩
  rw [hcodeField]
  obtain _ | _ | _ | _ := s.errCode <;> rfl

/-! ## The register map (R69, R72) -/

/-- Inside the REG space a host read is the register map (R72, R104). -/
theorem hostRead_reg_of_lt (s : State) {a : Nat} (h : a < 64) : hostRead s .reg a = readReg s a := if_pos h

/-- Above the two copies of the filter control no register is listed (R72). -/
theorem readReg_of_ge (s : State) {a : Nat} (h : 0x20 ≤ a) : readReg s a = 0 := by
  obtain ⟨k, rfl⟩ := Nat.exists_eq_add_of_le' h
  have hmap : readReg s (k + 0x20) =
      if 0x10 ≤ k + 0x20 ∧ k + 0x20 ≤ 0x17 then s.fcActive.readField (k + 0x20 - 0x10)
      else if 0x18 ≤ k + 0x20 ∧ k + 0x20 ≤ 0x1F then s.fcStaged.readField (k + 0x20 - 0x18) else 0 := rfl
  rw [hmap, if_neg (by omega), if_neg (by omega)]

theorem hostRead_reg_of_ge (s : State) {a : Nat} (h : 0x20 ≤ a) : hostRead s .reg a = 0 := by
  by_cases hin : a < 64
  · rw [hostRead_reg_of_lt s hin, readReg_of_ge s h]
  · exact if_neg hin

/-- Settles O12: every listed address is one arm of the register map. -/
theorem registerMap : Obligations.RegisterMap := by
  intro s
  have hmode : hostRead s .reg 0x0B = BitVec.ofNat 32 s.sq.mode.code := rfl
  refine ⟨rfl, rfl, rfl, rfl, rfl, rfl, rfl, rfl, rfl, rfl, rfl, ?_, rfl, rfl, rfl, rfl, ?_,
    fun a ha => hostRead_reg_of_ge s ha⟩
  · rw [hmode]; cases s.sq.mode <;> rfl
  · rintro base fc (⟨rfl, rfl⟩ | ⟨rfl, rfl⟩)
    · exact ⟨rfl, rfl, rfl, rfl, rfl, rfl, rfl, rfl⟩
    · exact ⟨rfl, rfl, rfl, rfl, rfl, rfl, rfl, rfl⟩

/-! ## The state after power-on (R77, R391) -/

/-- Settles O20: R391's list, read off the state after power-on; UNKNOWN leaves SQ_OPEN at 1, the rest of STATUS at 0. -/
theorem powerOnState : Obligations.PowerOnState := by
  intro p
  exact ⟨⟨rfl, rfl, rfl, rfl, rfl, rfl, rfl, rfl, rfl, rfl, rfl, rfl, rfl⟩, ⟨rfl, rfl⟩, rfl, rfl, rfl, rfl, rfl, rfl⟩

/-! ## The invariant of the steps (R47, R55, R56, R60, R62-R65, R231, R312, R365) -/

/-- A well-formed filter control has a noise smoothing shift of at most 15 (R53). -/
theorem FilterControl_wf_noiseSmoothing {fc : FilterControl} (h : fc.wf = true) : fc.noiseSmoothing.toNat ≤ 15 := by
  simp only [FilterControl.wf, Bool.and_eq_true, decide_eq_true_eq] at h
  obtain ⟨⟨_, hsm⟩, _⟩ := h
  exact hsm

/-! ### The commands -/

/-- CIC_STEP feeds a raw code to the decimator only when the code is in range (R171). -/
theorem execCicStep_units {r : Half} {s t : State} (hs : UnitsInv s) (h : execCicStep r s = .next t) : UnitsInv t := by
  obtain ⟨hr, rfl⟩ | ⟨_, rfl⟩ := ite_next_cases h
  · exact withResult_units (tickState_units ((rawCodeInRange_iff _ r).1 hr) (applyPoint_units hs))
  · exact raise_units hs

/-- NR_BIN updates the estimates only under a well-formed filter control (R230). -/
theorem execNrBin_units {side : Side} {b : Half} {s t : State} (hs : UnitsInv s) (h : execNrBin side b s = .next t) :
    UnitsInv t := by
  have ha : UnitsInv (applyPoint s) := applyPoint_units hs
  simp only [execNrBin] at h
  split at h
  · split at h
    · next hwf =>
      cases h
      have hnr := nrUpdate_inv (p := (applyPoint s).par) (side := side) (b := uimm b) (z := dSample (applyPoint s))
        (thr := (applyPoint s).fcActive.noiseThreshold.toNat) (FilterControl_wf_noiseSmoothing hwf) ha.fft.nr
      exact withResult_units (UnitsInv_withFft ha { ha.fft with nr := hnr })
    · cases h
  · cases h; exact raise_units hs

/-- FFT_PUSH is the apply point, FRAME_PUSH and the result (R265). -/
theorem execFftPush_units {s t : State} (hs : UnitsInv s) (h : execFftPush s = .next t) : UnitsInv t := by
  simp only [execFftPush] at h
  split at h
  · next o u hp => cases h; exact withResult_units (framePush_units hp (applyPoint_units hs))
  · cases h

/-- PROCESS_BLOCK is its start and then the chain, word by word (R339). -/
theorem execProcessBlock_units {sel : InSel} {n : Half} {s t : State} (hs : UnitsInv s)
    (h : execProcessBlock sel n s = .next t) : UnitsInv t := by
  unfold execProcessBlock at h
  split at h
  · split at h
    · next u hl => cases h; exact blockLoop_keeps units_chain hl (blockStart_units hs)
    · cases h
  · cases h; exact raise_units hs

/-- CLR_ERR clears ERR and ERR_CODE together (R338). -/
theorem clearError_units {s : State} (h : UnitsInv s) : UnitsInv (clearError s) :=
  { h with err := ⟨fun _ => rfl, fun _ => rfl⟩ }

/-- Every command that completes leaves every unit in its ranges. -/
theorem exec_units {i : Instr} {s t : State} (hs : UnitsInv s) (h : exec i s = .next t) : UnitsInv t := by
  cases i with
  | processBlock sel n => exact execProcessBlock_units hs h
  | cicStep r => exact execCicStep_units hs h
  | nrBin side b => exact execNrBin_units hs h
  | fftPush => exact execFftPush_units hs h
  | nop => cases h; exact hs
  | softReset => cases h; exact resetState_units hs
  | clrErr => cases h; exact clearError_units hs
  | seti _ | setq _ | cfgPublish => cases h; exact { hs with }
  | cfgWrite _ _ =>
    obtain ⟨_, rfl⟩ | ⟨_, rfl⟩ := ite_next_cases h
    · exact { hs with }
    · exact raise_units hs
  | hb1Step => cases h; exact withResult_units (hb1State_units hs)
  | hb2Step => cases h; exact withResult_units (hb2State_units hs)
  | droop _ => cases h; exact withResult_units (applyPoint_units hs)
  | sqInit _ | sqDisable => cases h; exact withSq_units hs nofun
  | sqEnable _ =>
    obtain ⟨_, rfl⟩ | ⟨_, rfl⟩ := ite_next_cases h
    · exact withSq_units hs nofun
    · exact raise_units hs
  | sqCalibrate _ | sqSetTimeout _ => cases h; exact withSq_units hs hs.sq
  | sqUpdate x => cases h; exact withResult_units (withSq_units hs (sqStep_timeout s.sq x hs.sq))

theorem runWord_units {w : Word} {s t : State} (hs : UnitsInv s) (h : runWord w s = .next t) : UnitsInv t := by
  obtain ⟨i, _, hi⟩ | ⟨e, _, rfl⟩ := runWord_next_cases h
  · exact exec_units hs hi
  · exact raise_units hs

/-! ### The step -/

theorem beginCommand_units {rest : List HostOp} {s : State} (h : UnitsInv s) : UnitsInv (beginCommand rest s) :=
  { h with }

/-- A host access made while no command runs keeps the invariant: it adds a reply or writes an input buffer (R100). -/
theorem hostAccess_inv {acc : HostAccess} {s : State} (h : Inv s) : Inv (hostAccess acc s) := by
  unfold hostAccess
  cases acc.kind with
  | read => exact { h with }
  | write v =>
    obtain ⟨hunits, hbusy, hoverlap⟩ := (Inv_iff s).1 h
    exact (Inv_iff _).2 ⟨hostWrite_units hunits, by simpa using hbusy, by simpa using hoverlap⟩

/-- Settles O23: the units' part of the invariant holds all through a command, and its end clears BUSY and the
overlapping accesses. -/
theorem stepKeepsInvariant : Obligations.StepKeepsInvariant := by
  intro s t hs h
  obtain ⟨_, rfl⟩ | ⟨op, rest, _, _, ⟨_, rfl⟩ | ⟨w, done, _, hrun, rfl⟩⟩ := step_next_cases h
  · exact hs
  · have hpop : Inv { s with pending := rest } := { hs with }
    exact hostAccess_inv hpop
  · have hdone : UnitsInv done := runWord_units (beginCommand_units ((Inv_iff s).1 hs).1) hrun
    exact (Inv_iff _).2 ⟨endCommand_units hdone, rfl, rfl⟩

/-! ## The spectrum capture (R64, R221, R256) -/

/-- R221's magnitude over the integers. -/
theorem mag_eq_abs (z : Sample) :
    (mag z : Int) =
      max (abs z.re.toInt) (abs z.im.toInt) + min (abs z.re.toInt) (abs z.im.toInt) / 4 := by
  simp [mag]

/-- A captured bin as an integer: the smoothing of R256 never wraps (R64). -/
theorem captureBin_toNat {ssm : Nat} {c : Half} (z : Sample) (h : c.toNat ≤ 40960) :
    ((captureBin ssm c z).toNat : Int) = c.toNat + ((mag z : Int) - c.toNat) / 2 ^ ssm := by
  obtain ⟨hlow, hhigh⟩ := smooth_between (c.toNat : Int) (mag z) ssm
  have hm := mag_le z
  have hasr : asr ((mag z : Int) - c.toNat) ssm = ((mag z : Int) - c.toNat) / 2 ^ ssm := by
    rw [asr, Nat.cast_pow, Nat.cast_ofNat]
  rw [captureBin, BitVec.toNat_ofInt, ← hasr, Int.toNat_of_nonneg (Int.emod_nonneg _ (by norm_num)),
    Int.emod_eq_of_lt]
  · omega
  · norm_num; omega

/-- Every entry of CAP, and the 0 that stands for an entry past its end, is at most 40960. -/
theorem FftInv_cap_getD_le {p : Params} {f : Fft} (h : FftInv p f) (k : Nat) : (f.cap.getD k 0).toNat ≤ 40960 := by
  rw [List.getD_eq_getElem?_getD]
  cases hk : f.cap[k]? with
  | none => simp
  | some c => exact h.cap c (List.mem_of_getElem? hk)

/-- CAPTURE writes every bin by R256's formula. -/
theorem capture_getD (p : Params) (ssm : Nat) (x : List Sample) (cap : List Half) {k : Nat} (h : k < p.fftN) :
    (capture p ssm x cap).getD k 0 = captureBin ssm (cap.getD k 0) (x.getD k .zero) := by
  simp [capture, List.getD_eq_getElem?_getD, h]

/-- With capture enabled a frame captures its forward transform (R252, R256). -/
theorem frameStep_cap_of_enabled {p : Params} {fc : FilterControl} {f : Fft} (h : fc.captureEnabled = true) :
    (frameStep p fc f).2.cap =
      capture p fc.spectrumSmoothing.toNat (engine p (fftM p) (windowed p f.prevIn f.frame)) f.cap := if_pos h

/-- With capture disabled a frame leaves CAP alone (R256). -/
theorem frameStep_cap_of_disabled {p : Params} {fc : FilterControl} {f : Fft} (h : fc.captureEnabled = false) :
    (frameStep p fc f).2.cap = f.cap := if_neg (ne_true_of_eq_false h)

/-- Settles O49: a frame captures each bin of its forward transform, and no captured value leaves [0, 40960]. -/
theorem captureUpdate : Obligations.CaptureUpdate := by
  intro p fc f hf _ x
  refine ⟨fun hon k hk => ?_, fun hoff => ?_⟩
  · have hcap : (frameStep p fc f).2.cap.getD k 0 =
        captureBin fc.spectrumSmoothing.toNat (f.cap.getD k 0) (x.getD k .zero) := by
      rw [frameStep_cap_of_enabled hon, capture_getD _ _ _ _ hk]
    have hold := FftInv_cap_getD_le hf k
    rw [hcap, captureBin_toNat _ hold, mag_eq_abs]
    exact ⟨rfl, captureBin_le hold⟩
  · exact frameStep_cap_of_disabled hoff

/-! ## A frame without sidebands (R50, R257, R260, R263) -/

/-- Every sample of the list is (0, 0). -/
def AllZero (l : List Sample) : Prop := ∀ z ∈ l, z = Sample.zero

theorem allZero_replicate (n : Nat) : AllZero (List.replicate n .zero) := fun _ hz => List.eq_of_mem_replicate hz

/-- Inside the list and past its end a sample reads (0, 0). -/
theorem AllZero.getD {l : List Sample} (h : AllZero l) (n : Nat) : l.getD n .zero = .zero := by
  rw [List.getD_eq_getElem?_getD]
  cases hn : l[n]? with
  | none => rfl
  | some z => exact h z (List.mem_of_getElem? hn)

theorem AllZero.set {l : List Sample} (h : AllZero l) (n : Nat) : AllZero (l.set n .zero) := fun _ hz =>
  (List.mem_or_eq_of_mem_set hz).elim (h _) id

theorem AllZero.map_swap {l : List Sample} (h : AllZero l) : AllZero (l.map Sample.swap) := by
  intro z hz
  obtain ⟨y, hy, rfl⟩ := List.mem_map.1 hz
  rw [h y hy]; rfl

/-! ### The transform engine on zeros (R254, R262) -/

theorem asr_zero (k : Nat) : asr 0 k = 0 := Int.zero_ediv _

/-- A butterfly of zeros gives zeros, whatever its twiddle factor and whether its stage halves. -/
theorem butterfly_zero (wr wi : Int) (scale : Bool) :
    butterfly wr wi scale .zero .zero = (.zero, .zero) := by
  have hre : Sample.zero.re.toInt = 0 := rfl
  have him : Sample.zero.im.toInt = 0 := rfl
  have hsat : sat16 0 = 0 := rfl
  cases scale <;> simp [butterfly, hre, him, hsat, asr_zero] <;> rfl

theorem AllZero.bitReverse {a : List Sample} (h : AllZero a) (m : Nat) : AllZero (bitReverse m a) := by
  refine foldl_keeps (P := AllZero) (Q := fun _ => True) _ (fun b n _ hb => ?_) _ _ (fun _ _ => trivial)
    (allZero_replicate _)
  rw [h.getD]
  exact hb.set _

theorem AllZero.butterflyAt {p : Params} {s : Nat} {b : List Sample} (h : AllZero b) (j : Nat) :
    AllZero (butterflyAt p s b j) := by
  simp only [Machine.butterflyAt, h.getD, butterfly_zero]
  exact (h.set _).set _

theorem AllZero.engineStage {p : Params} {m : Nat} {b : List Sample} (h : AllZero b) (s : Nat) :
    AllZero (engineStage p m b s) :=
  foldl_keeps (Q := fun _ => True) _ (fun _ j _ hb => hb.butterflyAt j) _ _ (fun _ _ => trivial) h

/-- The engine takes zeros to zeros (R254). -/
theorem AllZero.engine {a : List Sample} (h : AllZero a) (p : Params) (m : Nat) : AllZero (engine p m a) :=
  foldl_keeps (Q := fun _ => True) _ (fun _ s _ hb => hb.engineStage s) _ _ (fun _ _ => trivial) (h.bitReverse m)

theorem AllZero.inverse {y : List Sample} (h : AllZero y) (p : Params) : AllZero (inverse p y) :=
  (h.map_swap.engine p _).map_swap

/-! ### The walks with every bin masked (R257-R260) -/

/-- A walk that has found no bin: Y all zero, no peak and no runner-up. -/
structure FoundNothing (w : Walk) : Prop where
  y : AllZero w.y
  trk : w.trk = .start

/-- With its sideband disabled a side has no pass bin (R50, R257). -/
theorem passes_eq_false {fc : FilterControl} (hlow : fc.lowerSideband = false) (hup : fc.upperSideband = false)
    (side : Side) (k : Nat) : fc.passes side k = false := by
  cases side <;> simp [FilterControl.passes, hlow, hup]

/-- A masked bin writes (0, 0) and is not tracked (R257). -/
theorem walkBin_of_masked {p : Params} {fc : FilterControl} {x : List Sample} {side : Side} {w : Walk} {k : Nat}
    (h : fc.passes side k = false) :
    walkBin p fc x side w k = { w with y := w.y.set (outputIndex p side k) .zero } :=
  if_neg (ne_true_of_eq_false h)

section
variable {p : Params} {fc : FilterControl} (hlow : fc.lowerSideband = false) (hup : fc.upperSideband = false)
include hlow hup

theorem foldl_walkBin_foundNothing (x : List Sample) (side : Side) (ks : List Nat) {w : Walk} (hw : FoundNothing w) :
    FoundNothing (ks.foldl (walkBin p fc x side) w) := by
  refine foldl_keeps (Q := fun _ => True) _ (fun w k _ hw => ?_) _ _ (fun _ _ => trivial) hw
  rw [walkBin_of_masked (passes_eq_false hlow hup side k)]
  exact ⟨hw.y.set _, hw.trk⟩

/-- Without sidebands the walks find nothing. -/
theorem walk_foundNothing (x : List Sample) (nr : NrEstimates) : FoundNothing (walk p fc x nr) :=
  foldl_walkBin_foundNothing hlow hup x .neg _
    (foldl_walkBin_foundNothing hlow hup x .pos _ ⟨allZero_replicate _, rfl⟩)

/-- Without sidebands the inverse transform of a frame is all zero, and the frame finds no peak and no runner-up. -/
theorem frameCore_silent (f : Fft) :
    AllZero (frameCore p fc f).1 ∧ (frameCore p fc f).2.peakIdx = noBin ∧ (frameCore p fc f).2.runnerIdx = noBin := by
  have hw := walk_foundNothing (p := p) hlow hup (engine p (fftM p) (windowed p f.prevIn f.frame)) f.nr
  simp only [frameCore, hw.trk, Tracker.start, notchBins, binReg]
  exact ⟨hw.y.inverse p, trivial, trivial⟩

end

/-! ### Overlap-add with a silent frame (R263) -/

/-- An int16 value saturates to itself. -/
theorem sat16_toInt_self (v : Half) : sat16 v.toInt = v := by
  have hlow := BitVec.le_toInt v
  have hhigh := BitVec.toInt_lt (x := v)
  exact BitVec.eq_of_toInt_eq (sat16_of_mem (by norm_num at hlow; omega) (by norm_num at hhigh; omega))

/-- A silent frame emits the retained half as it stands. -/
theorem overlapAdd_allZero {p : Params} {y prevOut : List Sample} (hy : AllZero y) (hlen : prevOut.length = p.quarter) :
    overlapAdd p y prevOut = prevOut := by
  refine List.ext_getElem (by simp [hlen]) fun n _ hn => ?_
  have hre : Sample.zero.re.toInt = 0 := rfl
  have him : Sample.zero.im.toInt = 0 := rfl
  have hget : prevOut.getD n .zero = prevOut[n] := by simp [hn]
  simp only [overlapAdd, List.getElem_map, List.getElem_range, hy.getD, hget, hre, him, zero_add, sat16_toInt_self]

/-- A silent frame retains zeros. -/
theorem keepSecondHalf_allZero {y : List Sample} (p : Params) (hy : AllZero y) :
    keepSecondHalf p y = List.replicate p.quarter .zero := by
  simp only [keepSecondHalf, hy.getD, List.map_const', List.length_range]

/-- Settles O48: with every bin masked Y is all zero, so the inverse transform is, and the overlap-add passes the
retained half on and retains zeros. -/
theorem silentWithoutSidebands : Obligations.SilentWithoutSidebands := by
  intro p fc fc' f f' _ hf hlow hup hlow' hup'
  obtain ⟨hy, hpeak, hrunner⟩ := frameCore_silent (p := p) (fc := fc) hlow hup f
  refine ⟨overlapAdd_allZero hy hf.lenPrevOut, hpeak, hrunner, fun hprev => ?_⟩
  have hzeros : f'.prevOut = List.replicate p.quarter .zero := hprev.trans (keepSecondHalf_allZero p hy)
  have hy' := (frameCore_silent (p := p) (fc := fc') hlow' hup' f').1
  calc (frameStep p fc' f').1 = f'.prevOut := overlapAdd_allZero hy' (by simp [hzeros])
    _ = List.replicate p.quarter .zero := hzeros

/-! ## What a command leaves alone (R42, R43, R101, R102, R405) -/

/-! ### The bytes that appended output leaves alone (R263) -/

/-- From s to t the parameters are the same, OUT_COUNT has not gone below `lo`, and every byte outside the words from `lo`
up to OUT_COUNT of OUT_I and OUT_Q is as it was. -/
structure AppendsFrom (lo : Nat) (s t : State) : Prop where
  par : t.par = s.par
  count : lo ≤ t.outCount.toNat
  bytes : ∀ b x, outsideOut b x lo t.outCount.toNat → t.mem.readByte b x = s.mem.readByte b x

theorem AppendsFrom.of_eq {lo : Nat} {s t : State} (hp : t.par = s.par) (hm : t.mem = s.mem)
    (hc : lo ≤ t.outCount.toNat) : AppendsFrom lo s t := ⟨hp, hc, fun _ _ _ => by rw [hm]⟩

/-- An operation that touches neither the parameters nor the memory nor OUT_COUNT appends nothing. -/
theorem AppendsFrom.of_unchanged {lo : Nat} {s t u : State} (h : AppendsFrom lo s t) (hp : u.par = t.par)
    (hm : u.mem = t.mem) (hc : u.outCount = t.outCount) : AppendsFrom lo s u :=
  ⟨hp.trans h.par, hc ▸ h.count, fun b x hx => by rw [hm]; exact h.bytes b x (hc ▸ hx)⟩

/-- A byte outside the words lo, …, n of OUT_I and OUT_Q lies outside lo, …, n−1 and not in word n. -/
theorem outsideOut_succ {b : Buffer} {x lo n : Nat} (hn : lo ≤ n) (h : outsideOut b x lo (n + 1)) :
    outsideOut b x lo n ∧ (.outI ≠ b ∨ inWord n x = false) ∧ (.outQ ≠ b ∨ inWord n x = false) := by
  rcases h with ⟨hI, hQ⟩ | hx
  · exact ⟨.inl ⟨hI, hQ⟩, .inl hI.symm, .inl hQ.symm⟩
  · have hword : inWord n x = false := by simp only [inWord, Bool.or_eq_false_iff, decide_eq_false_iff_not]; omega
    exact ⟨.inr (by omega), .inr hword, .inr hword⟩

/-- One more output sample goes to the word at OUT_COUNT; OUT_COUNT does not wrap, since OUT_MAX is a u16 (R9, R263). -/
theorem appendOut_appendsFrom {lo : Nat} {s t : State} (z : Sample) (hmax : s.par.outMax ≤ 65535)
    (h : AppendsFrom lo s t) : AppendsFrom lo s (appendOut t z) := by
  have hpar := h.par
  have hlo := h.count
  rcases appendOut_cases t z with ⟨hlt, hm, hc, _⟩ | ⟨_, hm, hc, _⟩
  · have hcount : (appendOut t z).outCount.toNat = t.outCount.toNat + 1 := by
      rw [hpar] at hlt
      rw [hc, BitVec.toNat_ofNat, Nat.mod_eq_of_lt (by omega)]
    refine ⟨(appendOut_par z t).trans hpar, by omega, fun b x hx => ?_⟩
    obtain ⟨hbelow, hI, hQ⟩ := outsideOut_succ hlo (hcount ▸ hx)
    rw [hm, Memory_readByte_writeWord_other _ _ (hQ.imp_left Ne.symm),
      Memory_readByte_writeWord_other _ _ (hI.imp_left Ne.symm)]
    exact h.bytes b x hbelow
  · exact h.of_unchanged (appendOut_par z t) hm hc

/-- FRAME_PUSH writes the memory by appending output samples only (R264). -/
theorem framePush_appendsFrom {lo : Nat} {z : Sample} {s t u : State} {o : Option Sample}
    (hmax : s.par.outMax ≤ 65535) (hp : framePush z t = .ok (o, u)) (h : AppendsFrom lo s t) : AppendsFrom lo s u := by
  rcases framePush_ok hp with ⟨_, _, rfl⟩ | ⟨_, _, f, _, _, rfl⟩
  · exact h.of_unchanged rfl rfl rfl
  · exact foldl_appendOut_keeps (fun _ z hu => appendOut_appendsFrom z hmax hu) _ _ (h.of_unchanged rfl rfl rfl)

/-- Every operation of the chain appends at most (R339). -/
theorem chainKeeps_appendsFrom {lo : Nat} {s : State} (hmax : s.par.outMax ≤ 65535) :
    ChainKeeps (AppendsFrom lo s) where
  tick r u _ hu := hu.of_unchanged (tickState_snd_par r u) (tickState_snd_mem r u) (tickState_snd_outCount r u)
  hb1 z u hu := hu.of_unchanged (hb1State_snd_par z u) (hb1State_snd_mem z u) (hb1State_snd_outCount z u)
  hb2 z u hu := hu.of_unchanged (hb2State_snd_par z u) (hb2State_snd_mem z u) (hb2State_snd_outCount z u)
  push _ _ _ _ hp hu := framePush_appendsFrom hmax hp hu

/-- FFT_PUSH appends from OUT_COUNT on (R265). -/
theorem execFftPush_appendsFrom {s t : State} (hmax : s.par.outMax ≤ 65535) (h : execFftPush s = .next t) :
    AppendsFrom s.outCount.toNat s t := by
  simp only [execFftPush] at h
  split at h
  · next o u hp =>
    cases h
    have hstart : AppendsFrom s.outCount.toNat s (applyPoint s) := .of_eq rfl rfl le_rfl
    exact (framePush_appendsFrom hmax hp hstart).of_unchanged rfl rfl rfl
  · cases h

/-- PROCESS_BLOCK clears OUT_COUNT and appends from word 0 on (R339). -/
theorem execProcessBlock_appendsFrom {sel : InSel} {n : Half} {s t : State} (hmax : s.par.outMax ≤ 65535)
    (h : execProcessBlock sel n s = .next t) : AppendsFrom 0 s t := by
  unfold execProcessBlock at h
  split at h
  · split at h
    · next u hl =>
      cases h
      exact blockLoop_keeps (chainKeeps_appendsFrom hmax) hl (.of_eq rfl rfl (Nat.zero_le _))
    · cases h
  · cases h; exact .of_eq rfl rfl (Nat.zero_le _)

/-! ### The registers that a command leaves alone -/

/-- The operand registers (R42). -/
def operandRegs (s : State) : Half × Half := (s.dI, s.dQ)

/-- The result registers (R43). -/
def resultRegs (s : State) : Half × Half × Bool := (s.resI, s.resQ, s.resValid)

/-- The input buffers, which only the host writes (R101). -/
def inputCells (s : State) : Cells × Cells := (s.mem.in0, s.mem.in1)

/-- The host's side of the state. -/
def hostSide (s : State) : List HostOp × List HostAccess × List Word × Nat := (s.pending, s.overlap, s.replies, s.draws)

/-- Everything above: what no operation of the chain touches. -/
def offChain (s : State) := (operandRegs s, resultRegs s, inputCells s, hostSide s)

theorem appendOut_offChain (s : State) (z : Sample) : offChain (appendOut s z) = offChain s := by
  unfold appendOut; split <;> rfl

theorem framePush_offChain {z : Sample} {s t : State} {o : Option Sample} (h : framePush z s = .ok (o, t)) :
    offChain t = offChain s :=
  framePush_field offChain (fun _ _ => rfl) appendOut_offChain h

theorem blockLoop_offChain {sel : InSel} {n a now : Nat} {s t : State} (h : blockLoop sel n a now s = .ok t) :
    offChain t = offChain s :=
  blockLoop_field offChain (fun _ _ => rfl) (fun _ _ => rfl) (fun _ _ => rfl) (fun _ _ => rfl) appendOut_offChain h

/-- The opcodes of CIC_STEP, HB1_STEP, HB2_STEP, DROOP, NR_BIN, FFT_PUSH and SQ_UPDATE, which answer a result (R43). -/
def resultOpcodes : List (BitVec 8) := [0x10, 0x11, 0x12, 0x13, 0x14, 0x15, 0x25]

/-- What a command that takes s to t leaves alone, by the command: the buffers unless it appends output, each operand
register unless it is the register's own write, the result registers unless its opcode is one that answers a result, and
always the input buffers and the host's side. SOFT_RESET clears every register. -/
structure CommandFrame (i : Instr) (s t : State) : Prop where
  mem : i ≠ .fftPush → (∀ sel n, i ≠ .processBlock sel n) → t.mem = s.mem
  dI : i ≠ .softReset → (∀ v, i ≠ .seti v) → t.dI = s.dI
  dQ : i ≠ .softReset → (∀ v, i ≠ .setq v) → t.dQ = s.dQ
  results : opField (encode i) ∉ resultOpcodes → i ≠ .softReset → resultRegs t = resultRegs s
  inputs : inputCells t = inputCells s
  host : hostSide t = hostSide s

section
variable {i : Instr} {s t : State}

/-- A command that leaves everything off the chain alone, and the memory unless it is one that appends output. -/
theorem CommandFrame.of_offChain (h : offChain t = offChain s)
    (hm : i ≠ .fftPush → (∀ sel n, i ≠ .processBlock sel n) → t.mem = s.mem) : CommandFrame i s t := by
  simp only [offChain, operandRegs, Prod.mk.injEq] at h
  obtain ⟨⟨hI, hQ⟩, hres, hin, hhost⟩ := h
  exact ⟨hm, fun _ _ => hI, fun _ _ => hQ, fun _ _ => hres, hin, hhost⟩

/-- A command that leaves the memory and everything else off the chain alone. -/
theorem CommandFrame.of_eq (h : offChain t = offChain s) (hm : t.mem = s.mem) : CommandFrame i s t :=
  .of_offChain h fun _ _ => hm

/-- A command of an opcode that answers a result may write the result registers beside what else it changes. -/
theorem CommandFrame.withResult (o : Option Sample) (hop : opField (encode i) ∈ resultOpcodes)
    (h : CommandFrame i s t) : CommandFrame i s (t.withResult o) :=
  { h with results := fun hno => absurd hop hno }

/-- The opcode of a packed command answers a result if the opcode is listed (R130). -/
theorem opField_packWord_mem {op fld : BitVec 8} {imm : Half} (h : op ∈ resultOpcodes) :
    opField (packWord op fld imm) ∈ resultOpcodes := by
  rwa [opField_packWord]

theorem raiseCmdError_frame (e : CmdError) : CommandFrame i s (raiseCmdError e s) := .of_eq rfl rfl

theorem execCicStep_frame {r : Half} (h : execCicStep r s = .next t) : CommandFrame (.cicStep r) s t := by
  obtain ⟨_, rfl⟩ | ⟨_, rfl⟩ := ite_next_cases h
  · exact .withResult _ (opField_packWord_mem (by decide)) (.of_eq rfl rfl)
  · exact raiseCmdError_frame _

theorem execNrBin_frame {side : Side} {b : Half} (h : execNrBin side b s = .next t) :
    CommandFrame (.nrBin side b) s t := by
  simp only [execNrBin] at h
  split at h
  · split at h
    · cases h; exact .withResult _ (opField_packWord_mem (by decide)) (.of_eq rfl rfl)
    · cases h
  · cases h; exact raiseCmdError_frame _

theorem execFftPush_frame (h : execFftPush s = .next t) : CommandFrame .fftPush s t := by
  simp only [execFftPush] at h
  split at h
  · next o u hp =>
    have happly : offChain (applyPoint s) = offChain s := rfl
    have hpush : offChain u = offChain s := (framePush_offChain hp).trans happly
    cases h
    exact .withResult o (opField_packWord_mem (by decide)) (.of_offChain hpush fun hno _ => absurd rfl hno)
  · cases h

theorem execProcessBlock_frame {sel : InSel} {n : Half} (h : execProcessBlock sel n s = .next t) :
    CommandFrame (.processBlock sel n) s t := by
  unfold execProcessBlock at h
  split at h
  · split at h
    · next u hl =>
      have hstart : offChain (blockStart s) = offChain s := rfl
      have hblock : offChain u = offChain s := (blockLoop_offChain hl).trans hstart
      cases h
      exact .of_offChain hblock fun _ hno => absurd rfl (hno sel n)
    · cases h
  · cases h; exact raiseCmdError_frame _

/-- Every command that completes keeps to its frame. -/
theorem exec_frame (h : exec i s = .next t) : CommandFrame i s t := by
  cases i with
  | processBlock sel n => exact execProcessBlock_frame h
  | fftPush => exact execFftPush_frame h
  | nrBin side b => exact execNrBin_frame h
  | cicStep r => exact execCicStep_frame h
  | hb1Step | hb2Step | droop _ | sqUpdate _ =>
    cases h; exact .withResult _ (opField_packWord_mem (by decide)) (.of_eq rfl rfl)
  | softReset => cases h; exact ⟨fun _ _ => rfl, nofun, nofun, nofun, rfl, rfl⟩
  | seti v => cases h; exact ⟨fun _ _ => rfl, fun _ hno => absurd rfl (hno v), fun _ _ => rfl, fun _ _ => rfl, rfl, rfl⟩
  | setq v => cases h; exact ⟨fun _ _ => rfl, fun _ _ => rfl, fun _ hno => absurd rfl (hno v), fun _ _ => rfl, rfl, rfl⟩
  | cfgWrite _ _ | sqEnable _ =>
    obtain ⟨_, rfl⟩ | ⟨_, rfl⟩ := ite_next_cases h
    · exact .of_eq rfl rfl
    · exact raiseCmdError_frame _
  | nop | cfgPublish | clrErr | sqInit _ | sqDisable | sqCalibrate _ | sqSetTimeout _ => cases h; exact .of_eq rfl rfl

end

/-- Settles O60: the frame of each command, and for the two that append output the words they append. -/
theorem commandFrames : Obligations.CommandFrames := by
  intro i s t h
  obtain ⟨hmem, hdI, hdQ, hres, hin, hhost⟩ := exec_frame h
  simp only [inputCells, hostSide, resultRegs, Prod.mk.injEq] at hin hhost hres
  obtain ⟨hin0, hin1⟩ := hin
  refine ⟨fun hf hb b x => by rw [hmem hf hb], ?_, ?_, fun x => ?_, hdI, hdQ, hres, hhost⟩
  · rintro rfl hmax
    exact (execFftPush_appendsFrom hmax h).bytes
  · rintro sel n rfl hmax
    exact (execProcessBlock_appendsFrom hmax h).bytes
  · simp only [Memory.readByte, Memory.cells, hin0, hin1, and_self]

end Sys2Proof.Machine
end

section
/-! PROOFS of the family 20_memory, first part: the host's accesses and what a step does around a command (R72,
R100-R107, R110-R115). -/

namespace Sys2Proof.Machine

/-! ## Host accesses that are no CMD write (R72, R100, R104, R106, R107) -/

/-- Only a write to address 0 of REG is a CMD write. -/
theorem HostAccess_command_eq_none {acc : HostAccess} (h : acc.space ≠ .reg ∨ acc.addr ≠ 0 ∨ acc.kind = .read) :
    acc.command = none := by
  unfold HostAccess.command
  split
  · next hsp ha hk => rw [hsp, ha, hk] at h; simp at h
  · rfl

/-- A whole-word access that is no CMD write is made in one step (R104, R106). -/
theorem step_hostAccess {s : State} {op : HostOp} {rest : List HostOp} (hp : s.pending = op :: rest)
    (hw : op.access.wholeWord = true) (hc : op.access.command = none) :
    step s = .next (hostAccess op.access { s with pending := rest }) := by
  have hacc : acceptable op rest = true := by simp [acceptable, hw, hc]
  simp only [step, hp, hacc, hc, if_true]

/-- An access of the width of its space that begins at a word is whole (R106). -/
theorem wholeWord_mk (sp : Space) (a : Nat) (k : AccessKind) :
    HostAccess.wholeWord ⟨sp, a, 0, wordBits sp, k⟩ = true := by
  simp [HostAccess.wholeWord]

theorem wholeWord_eq_false {acc : HostAccess} (h : acc.skew ≠ 0 ∨ acc.width ≠ wordBits acc.space) :
    acc.wholeWord = false := by
  simpa [HostAccess.wholeWord, or_iff_not_imp_left] using h

/-- A read outside its space answers 0 (R104). -/
theorem hostRead_outside {s : State} {sp : Space} {a : Nat} (h : spaceSize s.par sp ≤ a) : hostRead s sp a = 0 :=
  if_neg (Nat.not_lt.2 h)

/-- A read inside an output space or the capture answers its word (R100). -/
theorem hostRead_outI {s : State} {a : Nat} (h : a < s.par.outMax) :
    hostRead s .outI a = (s.mem.readWord .outI a).setWidth 32 := if_pos h
theorem hostRead_outQ {s : State} {a : Nat} (h : a < s.par.outMax) :
    hostRead s .outQ a = (s.mem.readWord .outQ a).setWidth 32 := if_pos h
theorem hostRead_cap {s : State} {a : Nat} (h : a < s.par.fftN) :
    hostRead s .cap a = (s.fft.cap.getD a 0).setWidth 32 := if_pos h

/-- A read inside an input buffer answers its word (R100). -/
theorem hostRead_input {s : State} (sel : InSel) {a : Nat} (h : a < s.par.inBufSize) :
    hostRead s (inputSpace sel) a = (s.mem.readWord (inputBuffer sel) a).setWidth 32 := by
  cases sel <;> exact if_pos h

/-- A write outside its space, to a register, or to a space that the host may only read has no effect (R72, R100, R104;
entry 14). -/
theorem hostWrite_no_effect {s : State} {sp : Space} {a : Nat} (v : Word)
    (h : spaceSize s.par sp ≤ a ∨ sp = .reg ∨ sp = .outI ∨ sp = .outQ ∨ sp = .cap) : hostWrite sp a v s = s := by
  cases sp with
  | reg | outI | outQ | cap => rfl
  | in0 | in1 => simp only [reduceCtorEq, or_false] at h; exact if_neg (Nat.not_lt.2 h)

/-- A write inside an input buffer stores bits 15:0 of its data (R100). -/
theorem hostWrite_input {s : State} (sel : InSel) {a : Nat} (v : Word) (h : a < s.par.inBufSize) :
    hostWrite (inputSpace sel) a v s =
      { s with mem := s.mem.writeWord (inputBuffer sel) a (v.extractLsb' 0 16) } := by
  cases sel <;> exact if_pos h

/-- Settles O13: a read or an ineffective write is one host access, and that access changes nothing of the block. -/
theorem hostAccessesWithoutEffect : Obligations.HostAccessesWithoutEffect := by
  intro s sp a b rest
  refine ⟨fun k => ?_, fun hp => ?_, hostRead_outside, fun ha => ⟨hostRead_outI ha, hostRead_outQ ha⟩,
    fun ha => ⟨hostRead_input .in0 ha, hostRead_input .in1 ha⟩, fun v ha hv => ?_, fun v h hp => ?_⟩
  · simp [accessAt, systemAddress]
  · exact step_hostAccess hp (wholeWord_mk sp a .read) (HostAccess_command_eq_none (.inr (.inr rfl)))
  · have hcap : s.fft.cap.getD a 0 = v := by simp [List.getD_eq_getElem?_getD, hv]
    exact (hostRead_cap ha).trans (congrArg _ hcap)
  · have hnone : HostAccess.command ⟨sp, a, 0, wordBits sp, .write v⟩ = none := by
      refine HostAccess_command_eq_none (or_iff_not_imp_left.2 fun hreg => .inl ?_)
      obtain rfl : sp = .reg := not_not.1 hreg
      rcases h with h | ⟨_, h⟩ | h | h | h
      · intro (ha : a = 0); subst ha; cases h
      · exact h
      all_goals cases h
    have hkeep : hostWrite sp a v { s with pending := rest } = { s with pending := rest } :=
      hostWrite_no_effect v (h.imp_right (Or.imp_left And.left))
    exact (step_hostAccess hp (wholeWord_mk sp a _) hnone).trans (congrArg _ hkeep)

/-- Settles O14: the step is the one write, and the laws of the buffer memory say what it leaves alone. -/
theorem hostInputWrite : Obligations.HostInputWrite := by
  intro s sel a v b rest ha hp
  have hspace : inputSpace sel ≠ .reg := by cases sel <;> nofun
  have hwidth : wordBits (inputSpace sel) = 16 := by cases sel <;> rfl
  have hwhole : HostAccess.wholeWord ⟨inputSpace sel, a, 0, 16, .write v⟩ = true := by
    rw [← hwidth]; exact wholeWord_mk _ _ _
  have hstep := step_hostAccess hp hwhole (HostAccess_command_eq_none (.inl hspace))
  have hword := Memory_readWord_writeWord_same s.mem (inputBuffer sel) a (v.extractLsb' 0 16)
  refine ⟨_, hstep.trans (congrArg _ (hostWrite_input sel v ha)), rfl, hword, ?_, fun b' x hx => ?_⟩
  · rw [hostRead_input sel (s := { s with pending := rest, mem := _ }) ha, hword]
  · exact Memory_readByte_writeWord_other _ _ hx

/-- Settles O15: the step checks its own access and those that overlap its command before anything else. -/
theorem malformedAccessRefused : Obligations.MalformedAccessRefused := by
  intro s op rest hp
  have hrefuse : acceptable op rest = false → step s = .refused .hostAccess := fun h => by
    simp only [step, hp, h, Bool.false_eq_true, if_false]
  refine ⟨fun h => hrefuse ?_, fun w hw ⟨x, hx, h⟩ => hrefuse ?_⟩
  · simp [acceptable, wholeWord_eq_false h]
  · have hall : (overlapping rest).all HostAccess.wholeWord = false :=
      List.all_eq_false.2 ⟨x, hx, by simp [wholeWord_eq_false h]⟩
    simp [acceptable, hw, hall, HostAccess.command, cmdWrite]

end Sys2Proof.Machine
end

section
/-! PROOFS of the family 20_memory, second part: what a command does not depend on, the block as the chain of its units,
and what a step does around a command (R101, R110-R115, R330, R339, R401). -/

namespace Sys2Proof.Machine

/-! ## The step of a CMD write (R110, R111) -/

/-- An outcome with its next state changed. -/
def onNext (f : State → State) : Host.Outcome State Fault Refusal → Host.Outcome State Fault Refusal
  | .next t => .next (f t)
  | .fault r => .fault r
  | .refused r => .refused r

/-- An acceptable CMD write runs its command (R110). -/
theorem step_command {s : State} {op : HostOp} {rest : List HostOp} {w : Word} (hp : s.pending = op :: rest)
    (hacc : acceptable op rest = true) (hc : op.access.command = some w) : step s = runCommand w rest s := by
  simp only [step, hp, hacc, hc, if_true]

/-- A command is the run of its word, and then its end (R110-R114). -/
theorem runCommand_eq (w : Word) (rest : List HostOp) (s : State) :
    runCommand w rest s =
      onNext (fun t => endCommand (commandWrites w (beginCommand rest s) t) (beginCommand rest s) t)
        (runWord w (beginCommand rest s)) := by
  unfold runCommand
  cases runWord w (beginCommand rest s) <;> rfl

/-- A word that decodes runs its command (R136). -/
theorem runWord_of_ok {w : Word} {i : Instr} (h : decode w = .ok i) (s : State) : runWord w s = exec i s := by
  simp only [runWord, h]

/-- A command word leaves the input buffers and the host's side alone (R101). -/
theorem runWord_frame {w : Word} {s t : State} (h : runWord w s = .next t) :
    inputCells t = inputCells s ∧ hostSide t = hostSide s := by
  obtain ⟨i, _, hi⟩ | ⟨e, _, rfl⟩ := runWord_next_cases h
  · exact ⟨(exec_frame hi).inputs, (exec_frame hi).host⟩
  · exact ⟨rfl, rfl⟩

/-- A CMD write whose overlapping accesses are whole words is acceptable (R106). -/
theorem acceptable_cmdWrite {w : Word} {b : Bool} {rest : List HostOp}
    (h : ∀ a ∈ overlapping rest, a.wholeWord = true) : acceptable ⟨cmdWrite w, b⟩ rest = true := by
  have hall : (overlapping rest).all HostAccess.wholeWord = true := List.all_eq_true.2 h
  simp [acceptable, hall, cmdWrite, HostAccess.wholeWord, wordBits]

/-- Without overlapping accesses a step is the command and nothing else (R110). -/
theorem step_without_overlap {s : State} {w : Word} {b : Bool} {rest : List HostOp}
    (hp : s.pending = ⟨cmdWrite w, b⟩ :: rest) (hno : overlapping rest = []) (hall : afterOverlap rest = rest) :
    step s = onNext (fun t => { t with busy := false, overlap := [] })
      (runWord w { s with busy := true, pending := rest, overlap := [] }) := by
  have hbegin : beginCommand rest s = { s with busy := true, pending := rest, overlap := [] } := by
    simp only [beginCommand, hno, hall]
  rw [step_command hp (acceptable_cmdWrite (by simp [hno])) rfl, runCommand_eq, hbegin]
  cases hr : runWord w { s with busy := true, pending := rest, overlap := [] } with
  | next t =>
    have hhost := (runWord_frame hr).2
    simp only [hostSide, Prod.mk.injEq] at hhost
    obtain ⟨_, _, _, hdraws⟩ := hhost
    refine congrArg Host.Outcome.next ?_
    have hend : endCommand (commandWrites w { s with busy := true, pending := rest, overlap := [] } t)
        { s with busy := true, pending := rest, overlap := [] } t =
          { t with busy := false, overlap := [], draws := s.draws } := rfl
    exact hend.trans (by rw [← hdraws])
  | fault r => rfl
  | refused r => rfl

/-! ## Progress (R111, R367) -/

/-- With a filter control that the apply point leaves well-formed, every command completes (R367). -/
theorem exec_completes {s : State} (h : FilterReady s) (i : Instr) : ∃ t, exec i s = .next t := by
  cases i with
  | processBlock sel n =>
    obtain ⟨t, ht⟩ := blockLoop_ok (sel := sel) (n := uimm n) (a := 0) (now := (blockStartWrites s).length)
      (s := blockStart s) h
    simp only [exec, execProcessBlock, ht]
    split <;> exact ⟨_, rfl⟩
  | fftPush =>
    obtain ⟨⟨o, t⟩, ht⟩ := framePush_isOk (z := dSample (applyPoint s)) (s := applyPoint s) h
    exact ⟨t.withResult o, by simp only [exec, execFftPush, ht]⟩
  | nrBin side b =>
    have h : (applyPoint s).fcActive.wf = true := h
    simp only [exec, execNrBin, h, if_true]
    split <;> exact ⟨_, rfl⟩
  | cfgWrite f v => simp only [exec, execCfgWrite]; split <;> exact ⟨_, rfl⟩
  | cicStep r => simp only [exec, execCicStep]; split <;> exact ⟨_, rfl⟩
  | sqEnable l => simp only [exec, execSqEnable]; split <;> exact ⟨_, rfl⟩
  | nop | softReset | seti _ | setq _ | cfgPublish | clrErr | hb1Step | hb2Step | droop _ | sqInit _ | sqDisable
  | sqCalibrate _ | sqSetTimeout _ | sqUpdate _ => exact ⟨_, rfl⟩

/-- A command word completes: its command does, or it raises its decode error. -/
theorem runWord_completes {s : State} (h : FilterReady s) (w : Word) : ∃ t, runWord w s = .next t := by
  unfold runWord
  split
  · exact exec_completes h _
  · exact ⟨_, rfl⟩

/-- Settles O18: a step idles, makes one host access, or runs a command word, which completes. -/
theorem stepProgress : Obligations.StepProgress := by
  refine fun s => ⟨fun hp => by simp only [step, hp], fun op rest hp hacc hready => ?_⟩
  cases hc : op.access.command with
  | none => exact ⟨_, step_hostAccess hp (Bool.and_eq_true_iff.1 hacc).1 hc⟩
  | some w =>
    obtain ⟨t, ht⟩ := runWord_completes (s := beginCommand rest s) hready w
    rw [step_command hp hacc hc, runCommand_eq, ht]
    exact ⟨_, rfl⟩

/-! ## The step with overlapping accesses (R110-R115) -/

/-- Settles O16: the command runs on the state that its CMD write leaves, and its end makes the overlapping accesses,
each at its place. -/
theorem stepRunsDecodedCommand : Obligations.StepRunsDecodedCommand := by
  intro s w b ops held hp hops hheld s0
  obtain ⟨hover, hafter⟩ := overlapping_append_held ops held (fun a ha => (hops a ha).2) hheld
  have hbegin : beginCommand (ops.map (fun a => ⟨a, true⟩) ++ held) s = s0 := by
    simp only [beginCommand, hover, hafter, s0]
  have hstep : step s = onNext (fun t => endCommand (commandWrites w s0 t) s0 t) (runWord w s0) := by
    rw [step_command hp (acceptable_cmdWrite (by rw [hover]; exact fun a ha => (hops a ha).1)) rfl, runCommand_eq, hbegin]
  refine ⟨fun i hi => ⟨fun r hr => ?_, fun hnone t ht => ?_⟩, fun t ht => ?_⟩
  · rw [hstep, runWord_of_ok hi, hr]; rfl
  · subst hnone
    rw [step_without_overlap hp hover hafter]
    exact congrArg (onNext _) ((runWord_of_ok hi _).trans ht)
  · have hrun : runWord w s0 = .next t := by
      obtain ⟨i, hi, hexec⟩ | ⟨e, he, rfl⟩ := ht
      · rw [runWord_of_ok hi, hexec]
      · simp only [runWord, he]
    obtain ⟨hcells, hhost⟩ := runWord_frame hrun
    simp only [inputCells, hostSide, Prod.mk.injEq] at hcells hhost
    obtain ⟨hin0, hin1⟩ := hcells
    obtain ⟨hpending, _, hreplies, _⟩ := hhost
    replace hpending : t.pending = held := hpending
    replace hreplies : t.replies = s.replies := hreplies
    have hpar : t.par = s.par := (runWord_keepsFormAndPar hrun).par
    obtain ⟨u, r, hu, hfields, houtI, houtQ, hlast, hno, hlen, hreply⟩ :=
      foldl_overlapAccess_cases (commandWrites w s0 t) s0 t s hpar hin0 hin1 (placedOverlap s0)
    rw [placedOverlap_map_fst] at hlast hno hreply
    refine ⟨{ u with busy := false, overlap := [], draws := s.draws + ops.length }, r, ?_, ?_, houtI, houtQ, hlast, hno,
      placesFrom_pairwise _ _ _, placesFrom_length _ _ _, ?_, fun k acc p hacc hplace => hreply k acc p ?_⟩
    · rw [hstep, hrun, ← hu]; rfl
    · rw [← hpending, ← hreplies]
      conv_lhs => rw [hfields]
    · simpa [placedOverlap, s0] using hlen
    · exact List.getElem?_zip_eq_some.2 ⟨hacc, hplace⟩

end Sys2Proof.Machine
end

section
/-! PROOFS of the family 20_memory, third part: what a command does not depend on, and the block as the chain of its
units (R101, R110, R111, R330, R339, R401). -/

namespace Sys2Proof.Machine

/-! ## What a frame does not depend on (R252, R263, R264) -/

/-- The state with the FFT filter replaced. -/
def State.setFft (f : Fft) (s : State) : State := { s with fft := f }

/-- FFT_FRAME in one equation (R252). -/
theorem fftFrame_eq (s : State) :
    fftFrame s = if s.fcActive.wf then
        .ok ((frameStep s.par s.fcActive s.fft).1,
          (frameStep s.par s.fcActive s.fft).1.foldl appendOut (s.setFft (frameStep s.par s.fcActive s.fft).2))
      else .error .fcPrecondition := rfl

/-- FRAME_PUSH in one equation (R264). -/
theorem framePush_eq (z : Sample) (s : State) :
    framePush z s = if s.fft.frameFill + 1 = s.par.half then
        (fftFrame (s.setFft { framePut z s.fft with frameFill := 0 })).map fun r => (some (r.1.getD 0 .zero), r.2)
      else .ok (none, s.setFft (framePut z s.fft)) := by
  have hfill : (framePut z s.fft).frameFill = s.fft.frameFill + 1 := rfl
  rw [framePush, hfill]
  split
  · rw [State.setFft]
    cases fftFrame { s with fft := { framePut z s.fft with frameFill := 0 } } <;> rfl
  · rfl

/-- Appending one sample while there is room (R263). -/
theorem appendOut_of_lt {s : State} {z : Sample} (h : s.outCount.toNat < s.par.outMax) :
    appendOut s z =
      { s with
        mem := (s.mem.writeWord .outI s.outCount.toNat z.re).writeWord .outQ s.outCount.toNat z.im
        outCount := BitVec.ofNat 16 (s.outCount.toNat + 1) } := if_pos h

/-- Appending one sample to full buffers (R263). -/
theorem appendOut_of_not_lt {s : State} {z : Sample} (h : ¬s.outCount.toNat < s.par.outMax) :
    appendOut s z = { s with ovf := true } := if_neg h

/-- A change of the state that neither FRAME_PUSH nor the output it appends can tell. -/
structure FrameBlind (φ : State → State) : Prop where
  par : ∀ s, (φ s).par = s.par
  fft : ∀ s, (φ s).fft = s.fft
  fcActive : ∀ s, (φ s).fcActive = s.fcActive
  setFft : ∀ s f, (φ s).setFft f = φ (s.setFft f)
  append : ∀ s z, appendOut (φ s) z = φ (appendOut s z)

theorem FrameBlind.foldl_append {φ : State → State} (h : FrameBlind φ) (zs : List Sample) (s : State) :
    zs.foldl appendOut (φ s) = φ (zs.foldl appendOut s) :=
  List.foldl_hom φ fun s z => h.append s z

/-- FFT_FRAME commutes with such a change. -/
theorem FrameBlind.fftFrame {φ : State → State} (h : FrameBlind φ) (s : State) :
    fftFrame (φ s) = (Machine.fftFrame s).map (Prod.map id φ) := by
  rw [fftFrame_eq, fftFrame_eq, h.fcActive, h.par, h.fft, h.setFft, h.foldl_append]
  split <;> rfl

/-- FRAME_PUSH commutes with such a change. -/
theorem FrameBlind.framePush {φ : State → State} (h : FrameBlind φ) (z : Sample) (s : State) :
    framePush z (φ s) = (Machine.framePush z s).map (Prod.map id φ) := by
  rw [framePush_eq, framePush_eq, h.fft, h.par, h.setFft, h.setFft, h.fftFrame]
  split
  · cases Machine.fftFrame (s.setFft { framePut z s.fft with frameFill := 0 }) <;> rfl
  · rfl

/-! ## The host's queue (R110, R111) -/

/-- The state with the host's queue and its overlapping accesses changed. -/
def State.mapQueue (f : List HostOp → List HostOp) (g : List HostAccess → List HostAccess) (s : State) : State :=
  { s with pending := f s.pending, overlap := g s.overlap }

theorem frameBlind_mapQueue (f : List HostOp → List HostOp) (g : List HostAccess → List HostAccess) :
    FrameBlind (State.mapQueue f g) where
  par _ := rfl
  fft _ := rfl
  fcActive _ := rfl
  setFft _ _ := rfl
  append s z := by
    by_cases h : s.outCount.toNat < s.par.outMax
    · rw [appendOut_of_lt h, appendOut_of_lt (s := s.mapQueue f g) h]; rfl
    · rw [appendOut_of_not_lt h, appendOut_of_not_lt (s := s.mapQueue f g) h]; rfl

/-! ## The chain on raw codes (R339) -/

/-- The stages before the frame on one raw code. -/
def chainOn (r : Nat) (s : State) : Option Sample × State :=
  match tickState r s with
  | (some z, s1) =>
    match hb1State z s1 with
    | (some z2, s2) => hb2State z2 s2
    | (none, s2) => (none, s2)
  | (none, s1) => (none, s1)

/-- One raw code through the whole chain. -/
def feedCode (r : Nat) (s : State) : Except Refusal State :=
  match chainOn r s with
  | (some z, s1) => (framePush z s1).map Prod.snd
  | (none, s1) => .ok s1

/-- Raw codes through the whole chain, in order, up to the first refusal. -/
def feedCodes : List Nat → State → Except Refusal State
  | [], s => .ok s
  | r :: rs, s => (feedCode r s).bind (feedCodes rs)

/-- One word of a block is the chain on the raw code that its input read finds (R101, R339). -/
theorem blockTick_eq_feedCode (sel : InSel) (a now : Nat) (s : State) :
    blockTick sel a now s = feedCode (rawCode s.par (readInput sel a now s)) s := by
  have hfront : chainFront sel a now s = chainOn (rawCode s.par (readInput sel a now s)) s := rfl
  unfold blockTick feedCode
  rw [hfront]
  obtain ⟨_ | z, s1⟩ := chainOn (rawCode s.par (readInput sel a now s)) s
  · rfl
  · dsimp only
    cases framePush z s1 <;> rfl

/-- What no word of a block changes and its input reads depend on. -/
def readSide (s : State) : Params × List HostAccess × (Cells × Cells) := (s.par, s.overlap, inputCells s)

theorem blockTick_readSide {sel : InSel} {a now : Nat} {s t : State} (h : blockTick sel a now s = .ok t) :
    readSide t = readSide s := by
  have hloop : blockLoop sel 1 a now s = .ok t := by simp [blockLoop, h]
  exact blockLoop_field readSide (fun _ _ => rfl) (fun _ _ => rfl) (fun _ _ => rfl) (fun _ _ => rfl)
    (fun s z => by unfold appendOut; split <;> rfl) hloop

/-- The raw codes of n words of IN_sel from word a on (R101). -/
def inputCodes (sel : InSel) (a n : Nat) (s : State) : List Nat :=
  (List.range' a n).map fun k => rawCode s.par (s.mem.readWord (inputBuffer sel) k)

theorem inputCodes_congr {s t : State} (h : readSide t = readSide s) (sel : InSel) (a n : Nat) :
    inputCodes sel a n t = inputCodes sel a n s := by
  simp only [readSide, inputCells, Prod.mk.injEq] at h
  obtain ⟨hpar, _, hin0, hin1⟩ := h
  unfold inputCodes
  cases sel <;> simp only [Memory.readWord, Memory.readByte, Memory.cells, inputBuffer, hpar, hin0, hin1]

/-- A block whose words the host leaves alone runs the chain on the codes in the buffer, whatever the places are (R115,
R401). -/
theorem blockLoop_eq_feedCodes {sel : InSel} {n a now : Nat} {s : State}
    (h : ∀ k, a ≤ k → k < a + n → racingWrites s sel k = []) :
    blockLoop sel n a now s = feedCodes (inputCodes sel a n s) s := by
  induction n generalizing a now s with
  | zero => rfl
  | succ n ih =>
    have hread : blockTick sel a now s = feedCode (rawCode s.par (s.mem.readWord (inputBuffer sel) a)) s := by
      rw [blockTick_eq_feedCode, readInput_owned now (h a le_rfl (by omega))]
    have hcodes : inputCodes sel a (n + 1) s =
        rawCode s.par (s.mem.readWord (inputBuffer sel) a) :: inputCodes sel (a + 1) n s := rfl
    rw [hcodes, feedCodes, ← hread, blockLoop]
    cases hb : blockTick sel a now s with
    | error e => rfl
    | ok s1 =>
      have hside := blockTick_readSide hb
      have howned : ∀ k, a + 1 ≤ k → k < a + 1 + n → racingWrites s1 sel k = [] := fun k hlo hhi => by
        have hoverlap : s1.overlap = s.overlap := congrArg (fun p => p.2.1) hside
        rw [racingWrites, hoverlap]
        exact h k (by omega) (by omega)
      exact (ih howned).trans (congrArg (feedCodes · s1) (inputCodes_congr hside sel (a + 1) n))

/-- PROCESS_BLOCK of words that the host leaves alone (R339). -/
theorem blockLoop_of_owned {sel : InSel} {n : Half} {s : State} (h : OwnsInput sel n.toNat s) :
    blockLoop sel (uimm n) 0 (blockStartWrites s).length (blockStart s) =
      feedCodes (inputCodes sel 0 n.toNat s) (blockStart s) :=
  blockLoop_eq_feedCodes fun k _ hk => h k (by rwa [Nat.zero_add] at hk)

/-! ## What a command does not depend on (R110, R113, R115, R401) -/

section
variable (f : List HostOp → List HostOp) (g : List HostAccess → List HostAccess)

theorem chainOn_mapQueue (r : Nat) (s : State) :
    chainOn r (s.mapQueue f g) = Prod.map id (State.mapQueue f g) (chainOn r s) := by
  have htick : tickState r (s.mapQueue f g) = Prod.map id (State.mapQueue f g) (tickState r s) := rfl
  unfold chainOn
  rw [htick]
  obtain ⟨_ | z, s1⟩ := tickState r s
  · rfl
  · have hhb1 : hb1State z (s1.mapQueue f g) = Prod.map id (State.mapQueue f g) (hb1State z s1) := rfl
    simp only [Prod.map, id]
    rw [hhb1]
    obtain ⟨_ | z2, s2⟩ := hb1State z s1 <;> rfl

theorem feedCode_mapQueue (r : Nat) (s : State) :
    feedCode r (s.mapQueue f g) = (feedCode r s).map (State.mapQueue f g) := by
  unfold feedCode
  rw [chainOn_mapQueue]
  obtain ⟨_ | z, s1⟩ := chainOn r s
  · rfl
  · simp only [Prod.map, id, (frameBlind_mapQueue f g).framePush]
    cases framePush z s1 <;> rfl

theorem feedCodes_mapQueue (rs : List Nat) (s : State) :
    feedCodes rs (s.mapQueue f g) = (feedCodes rs s).map (State.mapQueue f g) := by
  induction rs generalizing s with
  | nil => rfl
  | cons r rs ih =>
    rw [feedCodes, feedCodes, feedCode_mapQueue]
    cases feedCode r s with
    | ok t => exact ih t
    | error e => rfl

/-- A block whose words the host leaves alone does not depend on the host's queue (R115, R401). -/
theorem execProcessBlock_mapQueue {sel : InSel} {n : Half} {s : State} (h : OwnsInput sel n.toNat s)
    (h' : OwnsInput sel n.toNat (s.mapQueue f g)) :
    execProcessBlock sel n (s.mapQueue f g) = onNext (State.mapQueue f g) (execProcessBlock sel n s) := by
  have hcodes : inputCodes sel 0 n.toNat (s.mapQueue f g) = inputCodes sel 0 n.toNat s := rfl
  have hstart : blockStart (s.mapQueue f g) = (blockStart s).mapQueue f g := rfl
  unfold execProcessBlock
  rw [blockLoop_of_owned h, blockLoop_of_owned h', hcodes, hstart, feedCodes_mapQueue]
  by_cases hn : blockLengthInRange s.par n = true
  · have hn' : blockLengthInRange (s.mapQueue f g).par n = true := hn
    rw [if_pos hn, if_pos hn']
    cases feedCodes (inputCodes sel 0 n.toNat s) (blockStart s) <;> rfl
  · have hn' : ¬blockLengthInRange (s.mapQueue f g).par n = true := hn
    rw [if_neg hn, if_neg hn']
    rfl

/-- No command depends on the host's queue but through the words that a block reads (R110, R113). -/
theorem exec_mapQueue {i : Instr} {s : State}
    (h : ∀ sel n, i = .processBlock sel n → OwnsInput sel n.toNat s ∧ OwnsInput sel n.toNat (s.mapQueue f g)) :
    exec i (s.mapQueue f g) = onNext (State.mapQueue f g) (exec i s) := by
  cases i with
  | processBlock sel n => exact execProcessBlock_mapQueue f g (h sel n rfl).1 (h sel n rfl).2
  | fftPush =>
    have hpush := (frameBlind_mapQueue f g).framePush (dSample (applyPoint s)) (applyPoint s)
    have happly : applyPoint (s.mapQueue f g) = (applyPoint s).mapQueue f g := rfl
    have hd : dSample ((applyPoint s).mapQueue f g) = dSample (applyPoint s) := rfl
    simp only [exec, execFftPush, happly, hd, hpush]
    cases framePush (dSample (applyPoint s)) (applyPoint s) <;> rfl
  | nrBin side b =>
    have hrange : nrBinInRange (s.mapQueue f g).par b = nrBinInRange s.par b := rfl
    have hready : (applyPoint (s.mapQueue f g)).fcActive = (applyPoint s).fcActive := rfl
    simp only [exec, execNrBin, hrange, hready]
    split <;> [split; skip] <;> rfl
  | cicStep r =>
    have hrange : rawCodeInRange (s.mapQueue f g).par r = rawCodeInRange s.par r := rfl
    simp only [exec, execCicStep, hrange]
    split <;> rfl
  | cfgWrite fld v => simp only [exec, execCfgWrite]; split <;> rfl
  | sqEnable l => simp only [exec, execSqEnable]; split <;> rfl
  | nop | softReset | seti _ | setq _ | cfgPublish | clrErr | hb1Step | hb2Step | droop _ | sqInit _ | sqDisable
  | sqCalibrate _ | sqSetTimeout _ | sqUpdate _ => rfl

end

/-- With no overlapping access a command word does not depend on the queue behind it (R110). -/
theorem runWord_mapPending (f : List HostOp → List HostOp) {w : Word} {s : State} (h : s.overlap = []) :
    runWord w (s.mapQueue f id) = onNext (State.mapQueue f id) (runWord w s) := by
  have howned : ∀ sel n, OwnsInput sel n s := fun sel n a _ => by simp only [racingWrites, h, List.filterMap_nil]
  unfold runWord
  cases decode w with
  | ok i => exact exec_mapQueue f id fun sel n _ => ⟨howned sel _, howned sel _⟩
  | error e => rfl

/-! ## Held commands (R110, R111) -/

/-- A CMD write is never made while a command runs: it is held (R111). -/
theorem overlapping_cmdWrites (l : List (Word × Bool)) :
    overlapping (l.map fun e => ⟨cmdWrite e.1, e.2⟩) = [] ∧
      afterOverlap (l.map fun e => ⟨cmdWrite e.1, e.2⟩) = l.map fun e => ⟨cmdWrite e.1, e.2⟩ := by
  cases l with
  | nil => exact ⟨rfl, rfl⟩
  | cons e l => simp [overlapping, afterOverlap, cmdWrite, HostAccess.command]

/-- What an outcome goes on with, if it is a next state. -/
def andThen (o : Host.Outcome State Fault Refusal) (k : State → Host.Outcome State Fault Refusal) :
    Host.Outcome State Fault Refusal :=
  match o with
  | .next t => k t
  | .fault r => .fault r
  | .refused r => .refused r

section
variable {M : Host.Core} {k : Nat} {s : M.State}

theorem Core_run_of_next {t : M.State} (h : M.step s = .next t) : M.run (k + 1) s = M.run k t := by
  rw [Host.Core.run, h]
theorem Core_run_of_fault {r : M.Fault} (h : M.step s = .fault r) : M.run (k + 1) s = .fault r := by
  rw [Host.Core.run, h]
theorem Core_run_of_refused {r : M.Refusal} (h : M.step s = .refused r) : M.run (k + 1) s = .refused r := by
  rw [Host.Core.run, h]

end

/-- A run is its first step, and then the run from there. -/
theorem run_succ (k : Nat) (s : State) :
    Host.Core.run Sys2Proof.core (k + 1) s = andThen (step s) (Host.Core.run Sys2Proof.core k) := by
  cases h : step s with
  | next t => exact Core_run_of_next h
  | fault r => exact Core_run_of_fault h
  | refused r => exact Core_run_of_refused h

theorem commandsRun_cons (w : Word) (ws : List Word) (s : State) :
    commandsRun (w :: ws) s =
      andThen (runWord w { s with busy := true }) fun t => commandsRun ws { t with busy := false } := by
  rw [commandsRun]
  cases runWord w { s with busy := true } <;> rfl

/-- Settles O17: by induction on the queue; each step runs the first command, which does not depend on the rest. -/
theorem heldCommandsRunInOrder : Obligations.HeldCommandsRunInOrder := by
  intro l
  induction l with
  | nil =>
    intro s _ hp
    exact congrArg Host.Outcome.next (by rw [show ([] : List HostOp) = s.pending from hp.symm])
  | cons e l ih =>
    intro s hov hp
    obtain ⟨w, b⟩ := e
    obtain ⟨hno, hall⟩ := overlapping_cmdWrites l
    have hstep := step_without_overlap (s := s) hp hno hall
    generalize hs0 : ({ s with busy := true, pending := l.map fun e => ⟨cmdWrite e.1, e.2⟩, overlap := [] } : State) = s0
      at hstep
    have hrun : runWord w { s with busy := true, pending := [] } =
        onNext (State.mapQueue (fun _ => []) id) (runWord w s0) := by
      rw [← runWord_mapPending _ (by rw [← hs0]), ← hs0]
      simp only [State.mapQueue, hov, id]
    rw [List.length_cons, run_succ, hstep, List.map_cons, commandsRun_cons, hrun]
    cases hw : runWord w s0 with
    | fault r => rfl
    | refused r => rfl
    | next t =>
      have hhost := (runWord_frame hw).2
      simp only [hostSide, ← hs0, Prod.mk.injEq] at hhost
      obtain ⟨hpending, hoverlap, _, _⟩ := hhost
      have hrest := ih { t with busy := false, overlap := [] } rfl hpending
      refine hrest.trans (congrArg _ ?_)
      simp only [State.mapQueue, hoverlap, id]

end Sys2Proof.Machine
end

section
/-! PROOFS of the family 20_memory, fourth part: PROCESS_BLOCK (R101, R102, R330, R336, R339, R401, R405). -/

namespace Sys2Proof.Machine

/-- A block of legal length is its loop from the state that its start leaves (R339). -/
theorem execProcessBlock_of_legal {sel : InSel} {n : Half} {s t : State} (heven : n.toNat % 2 = 0)
    (hle : n.toNat ≤ s.par.inBufSize)
    (h : blockLoop sel n.toNat 0 (blockStartWrites s).length (blockStart s) = .ok t) :
    exec (.processBlock sel n) s = .next t := by
  have hrange : blockLengthInRange s.par n = true := (blockLengthInRange_iff _ _).2 ⟨heven, hle⟩
  have hloop : blockLoop sel (uimm n) 0 (blockStartWrites s).length (blockStart s) = .ok t := h
  simp only [exec, execProcessBlock, hrange, hloop, if_true]

/-- The parameter fact of R9 that appending output needs. -/
theorem Params_wf_outMax {p : Params} (h : p.wf = true) : p.outMax ≤ 65535 := by
  simp only [Params.wf, Params.wfSample, Bool.and_eq_true, decide_eq_true_eq] at h
  omega

/-! ## What a block leaves unchanged (R405) -/

/-- The state without what a block may change. -/
def offBlock (s : State) : State :=
  { s with cic := .reset, hb1 := .reset 0, hb2 := .reset 0, fft := .reset s.par, mem := .empty, outCount := 0, ovf := false }

theorem blockLoop_offBlock {sel : InSel} {n a now : Nat} {s t : State} (h : blockLoop sel n a now s = .ok t) :
    offBlock t = offBlock s :=
  blockLoop_field offBlock (fun _ _ => rfl) (fun _ _ => rfl) (fun _ _ => rfl) (fun _ _ => rfl)
    (fun s z => by unfold appendOut; split <;> rfl) h

/-- Two states that agree off the block differ in what a block may change. -/
theorem eq_of_offBlock {s t : State} (h : offBlock t = offBlock s) :
    t = { s with cic := t.cic, hb1 := t.hb1, hb2 := t.hb2, fft := t.fft, mem := t.mem, outCount := t.outCount, ovf := t.ovf } := by
  cases s; cases t
  simp only [offBlock, State.mk.injEq] at h ⊢
  simp only [h, and_self]

/-- OUT_COUNT never passes OUT_MAX: a sample that finds the buffers full is dropped (R47, R263). -/
theorem appendOut_count_le {s : State} (z : Sample) (hmax : s.par.outMax ≤ 65535) (h : s.outCount.toNat ≤ s.par.outMax) :
    (appendOut s z).outCount.toNat ≤ s.par.outMax := by
  rcases appendOut_cases s z with ⟨hlt, _, hc, _⟩ | ⟨_, _, hc, _⟩
  · rw [hc, BitVec.toNat_ofNat, Nat.mod_eq_of_lt (by omega)]; exact hlt
  · rw [hc]; exact h

/-- The count stays within buffers of m words (R47). -/
def CountWithin (m : Nat) (s : State) : Prop := s.par.outMax = m ∧ s.outCount.toNat ≤ m

theorem CountWithin.append {m : Nat} {s : State} (z : Sample) (hm : m ≤ 65535) (h : CountWithin m s) :
    CountWithin m (appendOut s z) := by
  obtain ⟨rfl, hc⟩ := h
  exact ⟨congrArg Params.outMax (appendOut_par z s), appendOut_count_le z hm hc⟩

theorem framePush_countWithin {m : Nat} {z : Sample} {s t : State} {o : Option Sample} (hm : m ≤ 65535)
    (h : framePush z s = .ok (o, t)) (hs : CountWithin m s) : CountWithin m t := by
  rcases framePush_ok h with ⟨_, _, rfl⟩ | ⟨_, _, f, _, _, rfl⟩
  · exact hs
  · exact foldl_appendOut_keeps (fun _ z hu => hu.append z hm) _ _ hs

theorem chainKeeps_countWithin {m : Nat} (hm : m ≤ 65535) : ChainKeeps (CountWithin m) where
  tick _ _ _ hs := hs
  hb1 _ _ hs := hs
  hb2 _ _ hs := hs
  push _ _ _ _ h hs := framePush_countWithin hm h hs

/-- Settles O56: the loop completes because its filter control is well-formed, and every operation of the chain keeps to
the frame. -/
theorem blockCompletes : Obligations.BlockCompletes := by
  intro sel n s hpar heven hle hready
  have hmax := Params_wf_outMax hpar
  obtain ⟨t, ht⟩ := blockLoop_ok (sel := sel) (n := n.toNat) (a := 0) (now := (blockStartWrites s).length)
    (s := blockStart s) hready
  have hexec := execProcessBlock_of_legal heven hle ht
  obtain ⟨_, hcount⟩ := blockLoop_keeps (chainKeeps_countWithin hmax) ht ⟨rfl, Nat.zero_le _⟩
  have hoff : offBlock t = offBlock (blockStart s) := blockLoop_offBlock ht
  exact ⟨t, hexec, eq_of_offBlock (s := applyPoint s) hoff, hcount, (execProcessBlock_appendsFrom hmax hexec).bytes⟩

/-! ## The block as the pipeline of its units (R330, R339) -/

/-- The units before the frame: the CIC decimator and the two half-band stages. -/
abbrev Front := Cic × HalfBand × HalfBand

/-- The state with those units replaced. -/
def State.setFront (u : Front) (s : State) : State := { s with cic := u.1, hb1 := u.2.1, hb2 := u.2.2 }

/-- Those units of a state. -/
def State.front (s : State) : Front := (s.cic, s.hb1, s.hb2)

theorem frameBlind_setFront (u : Front) : FrameBlind (State.setFront u) where
  par _ := rfl
  fft _ := rfl
  fcActive _ := rfl
  setFft _ _ := rfl
  append s z := by
    by_cases h : s.outCount.toNat < s.par.outMax
    · rw [appendOut_of_lt h, appendOut_of_lt (s := s.setFront u) h]; rfl
    · rw [appendOut_of_not_lt h, appendOut_of_not_lt (s := s.setFront u) h]; rfl

/-- One raw code through those units: stage 2's output, if there is one, and the units after it (R339). -/
def frontOn (p : Params) (step : Word) (r : Nat) (u : Front) : Option Sample × Front :=
  match cicTick p step r u.1 with
  | (none, c) => (none, c, u.2)
  | (some z, c) =>
    match hbStep 32 p.hb1K z u.2.1 with
    | (none, b1) => (none, c, b1, u.2.2)
    | (some z2, b1) => ((hbStep 64 p.hb2K z2 u.2.2).1, c, b1, (hbStep 64 p.hb2K z2 u.2.2).2)

/-- The stages before the frame depend on their own units, the parameters and the phase step, and change those units
only. -/
theorem chainOn_eq (r : Nat) (s : State) :
    chainOn r s =
      ((frontOn s.par s.fcActive.phaseStep r s.front).1,
        s.setFront (frontOn s.par s.fcActive.phaseStep r s.front).2) := by
  have htick : tickState r s = ((cicTick s.par s.fcActive.phaseStep r s.cic).1,
    { s with cic := (cicTick s.par s.fcActive.phaseStep r s.cic).2 }) := rfl
  have hcic : s.front.1 = s.cic := rfl
  unfold chainOn frontOn
  rw [htick, hcic]
  obtain ⟨_ | z, c⟩ := cicTick s.par s.fcActive.phaseStep r s.cic
  · rfl
  · have hhb1 : hb1State z { s with cic := c } = ((hbStep 32 s.par.hb1K z s.front.2.1).1,
      { s with cic := c, hb1 := (hbStep 32 s.par.hb1K z s.front.2.1).2 }) := rfl
    dsimp only
    rw [hhb1]
    obtain ⟨_ | z2, b1⟩ := hbStep 32 s.par.hb1K z s.front.2.1 <;> rfl

/-- The three units one after another over a list of raw codes: stage 2's outputs in order, and the units after them. -/
def frontRun (p : Params) (step : Word) (rs : List Nat) (u : Front) : List Sample × Front :=
  let x := cicRun p step rs u.1
  let y := hbRun 32 p.hb1K x.1 u.2.1
  let w := hbRun 64 p.hb2K y.1 u.2.2
  (w.1, x.2, y.2, w.2)

theorem cicRun_cons (p : Params) (step : Word) (r : Nat) (rs : List Nat) (c : Cic) :
    cicRun p step (r :: rs) c = ((cicTick p step r c).1.toList ++ (cicRun p step rs (cicTick p step r c).2).1,
      (cicRun p step rs (cicTick p step r c).2).2) := rfl

theorem hbRun_cons (l : Nat) (h : List Int) (z : Sample) (zs : List Sample) (b : HalfBand) :
    hbRun l h (z :: zs) b = ((hbStep l h z b).1.toList ++ (hbRun l h zs (hbStep l h z b).2).1,
      (hbRun l h zs (hbStep l h z b).2).2) := rfl

/-- Running each unit over all the codes is running all units over one code after another (R330). -/
theorem frontRun_cons (p : Params) (step : Word) (r : Nat) (rs : List Nat) (u : Front) :
    frontRun p step (r :: rs) u =
      ((frontOn p step r u).1.toList ++ (frontRun p step rs (frontOn p step r u).2).1,
        (frontRun p step rs (frontOn p step r u).2).2) := by
  unfold frontRun frontOn
  rw [cicRun_cons]
  obtain ⟨_ | z, c⟩ := cicTick p step r u.1
  · rfl
  · simp only [Option.toList, List.singleton_append, hbRun_cons]
    obtain ⟨_ | z2, b1⟩ := hbStep 32 p.hb1K z u.2.1
    · rfl
    · simp only [Option.toList, List.singleton_append, hbRun_cons]

/-- A completed FRAME_PUSH leaves the parameters, the active filter control and the units before the frame alone. -/
theorem framePush_front {z : Sample} {s t : State} {o : Option Sample} (h : framePush z s = .ok (o, t)) :
    t.par = s.par ∧ t.fcActive = s.fcActive ∧ t.front = s.front := by
  have hfield := framePush_field (fun u => (u.par, u.fcActive, u.front)) (fun _ _ => rfl)
    (fun s z => by unfold appendOut; split <;> rfl) h
  simpa only [Prod.mk.injEq] using hfield

/-- Codes through the chain one by one are the codes through the units before the frame, and their outputs into the frame
(R330, R339). -/
theorem feedCodes_eq_pushRun (rs : List Nat) (s : State) :
    feedCodes rs s =
      pushRun (frontRun s.par s.fcActive.phaseStep rs s.front).1
        (s.setFront (frontRun s.par s.fcActive.phaseStep rs s.front).2) := by
  induction rs generalizing s with
  | nil => rfl
  | cons r rs ih =>
    rw [frontRun_cons, feedCodes, feedCode, chainOn_eq]
    obtain ⟨_ | z, u⟩ := frontOn s.par s.fcActive.phaseStep r s.front
    · exact ih (s.setFront u)
    · simp only [Option.toList, List.singleton_append, pushRun]
      rw [(frameBlind_setFront u).framePush, (frameBlind_setFront _).framePush]
      cases hp : framePush z s with
      | error e => rfl
      | ok ot =>
        obtain ⟨o, t⟩ := ot
        obtain ⟨hpar, hfc, _⟩ := framePush_front hp
        have hrest := ih (t.setFront u)
        have hpar' : (t.setFront u).par = s.par := hpar
        have hfc' : (t.setFront u).fcActive = s.fcActive := hfc
        rw [hpar', hfc'] at hrest
        exact hrest

/-- Settles O57: the host leaves the words alone, so the block is the chain on the codes in the buffer, and that is the
pipeline. -/
theorem blockIsPipeline : Obligations.BlockIsPipeline := by
  intro sel n s _ heven hle hready howned words c h1 h2
  obtain ⟨t, ht⟩ := blockLoop_ok (sel := sel) (n := n.toNat) (a := 0) (now := (blockStartWrites s).length)
    (s := blockStart s) hready
  refine ⟨t, execProcessBlock_of_legal heven hle ht, ?_⟩
  have hwords : inputCodes sel 0 n.toNat s = words := by
    simp only [inputCodes, words, rawCode, List.range_eq_range']
  rw [← ht]
  refine Eq.symm ((blockLoop_of_owned howned).trans ?_)
  rw [hwords, feedCodes_eq_pushRun]
  rfl

/-! ## Accesses off the words of a block (R113, R115, R401) -/

/-- Settles O59: the block is the same without the overlapping accesses, and no command changes their list. -/
theorem blockIgnoresOtherAccesses : Obligations.BlockIgnoresOtherAccesses := by
  intro sel n s t howned
  have hdrop : exec (.processBlock sel n) { s with overlap := [] } =
      onNext (State.mapQueue id fun _ => []) (exec (.processBlock sel n) s) :=
    exec_mapQueue id (fun _ => []) fun sel' n' h => by
      cases h
      exact ⟨howned, fun _ _ => rfl⟩
  have hkeeps : ∀ u, exec (.processBlock sel n) s = .next u → u.overlap = s.overlap := fun u hu => by
    have hhost := (exec_frame hu).host
    simp only [hostSide, Prod.mk.injEq] at hhost
    exact hhost.2.1
  rw [hdrop]
  refine ⟨fun h => ⟨hkeeps t h, by rw [h]; rfl⟩, fun ⟨hover, h⟩ => ?_⟩
  cases hexec : exec (.processBlock sel n) s with
  | fault r => rw [hexec] at h; cases h
  | refused r => rw [hexec] at h; cases h
  | next u =>
    rw [hexec] at h
    have hfields : State.mapQueue id (fun _ => []) u = { t with overlap := [] } := Host.Outcome.next.inj h
    have hback : u = { State.mapQueue id (fun _ => []) u with overlap := u.overlap } := rfl
    rw [hback, hfields, hkeeps u hexec, ← hover]

end Sys2Proof.Machine
end

section
/-! PROOFS of the family 20_memory, fifth part: the input race, and when two states show the host the same words (R72,
R107, R112-R114). -/

namespace Sys2Proof.Machine

/-! ## The input race (R113) -/

/-- An access that does not write word a of the space has no data for it. -/
theorem HostAccess_writesTo_eq_none {acc : HostAccess} {sp : Space} {a : Nat}
    (h : acc.space = sp → acc.addr = a → acc.kind = .read) : acc.writesTo sp a = none := by
  unfold HostAccess.writesTo
  split
  · next v hk => exact if_neg fun ⟨hsp, ha⟩ => by rw [h hsp ha] at hk; cases hk
  · rfl

/-- A write of word a of the space carries bits 15:0 of its data. -/
theorem HostAccess_writesTo_eq_some {acc : HostAccess} {sp : Space} {a : Nat} {v : Word} (hsp : acc.space = sp)
    (ha : acc.addr = a) (hk : acc.kind = .write v) : acc.writesTo sp a = some (v.extractLsb' 0 16) := by
  simp only [HostAccess.writesTo, hk, hsp, ha, and_self, if_true]

theorem NoWrite.filterMap_eq_nil {l : List HostAccess} {sp : Space} {a : Nat} (h : NoWrite l sp a) :
    l.filterMap (·.writesTo sp a) = [] :=
  List.filterMap_eq_nil_iff.2 fun x hx => HostAccess_writesTo_eq_none (h x hx)

theorem LastWrite.getLastD_filterMap {l : List HostAccess} {sp : Space} {a : Nat} {v : Word} (h : LastWrite l sp a v)
    (d : Half) : (l.filterMap (·.writesTo sp a)).getLastD d = v.extractLsb' 0 16 := by
  obtain ⟨l1, x, l2, rfl, hsp, ha, hk, hno⟩ := h
  rw [List.filterMap_append, List.filterMap_cons_some (f := (HostAccess.writesTo · sp a)) (HostAccess_writesTo_eq_some hsp ha hk), hno.filterMap_eq_nil,
    List.getLastD_concat]

/-- If the first m places are the ones at or before `now`, the writes before it are those of the first m accesses. -/
theorem filterMap_zip_take (sp : Space) (a now : Nat) (l : List HostAccess) :
    ∀ (places : List Nat) (m : Nat), places.length = l.length →
      (∀ k p, places[k]? = some p → (p ≤ now ↔ k < m)) →
      ((l.zip places).filterMap fun e => (e.1.writesTo sp a).filter fun _ => decide (e.2 ≤ now)) =
        (l.take m).filterMap (·.writesTo sp a) := by
  induction l with
  | nil => intro places m _ _; simp
  | cons acc l ih =>
    intro places m hlen hplaces
    obtain _ | ⟨p, places⟩ := places
    · cases hlen
    have hlen' : places.length = l.length := Nat.succ.inj hlen
    have hp : p ≤ now ↔ 0 < m := hplaces 0 p rfl
    have hnext : ∀ k q, places[k]? = some q → (q ≤ now ↔ k + 1 < m) := fun k q hq => hplaces (k + 1) q hq
    cases m with
    | zero =>
      have hrest := ih places 0 hlen' fun k q hq => (hnext k q hq).trans (by omega)
      have hlate : ¬p ≤ now := fun h => absurd (hp.1 h) (lt_irrefl 0)
      have hdrop : ((acc.writesTo sp a).filter fun _ => decide (p ≤ now)) = none := by
        cases acc.writesTo sp a <;> simp [Option.filter, hlate]
      simpa [List.zip_cons_cons, List.filterMap_cons, hdrop] using hrest
    | succ m =>
      have hrest := ih places m hlen' fun k q hq => (hnext k q hq).trans (by omega)
      have hearly : p ≤ now := hp.2 (Nat.succ_pos m)
      have hkeep : ((acc.writesTo sp a).filter fun _ => decide (p ≤ now)) = acc.writesTo sp a := by
        cases acc.writesTo sp a <;> simp [Option.filter, hearly]
      simp only [List.zip_cons_cons, List.take_succ_cons, List.filterMap_cons, hkeep, hrest]

/-- The input read finds the last write of the accesses that stand before it, or the word in the buffer (R113). -/
theorem readInput_eq_getLastD {sel : InSel} {a now m : Nat} {s : State}
    (h : ∀ k p, (placesFrom s.draws 0 s.overlap.length)[k]? = some p → (p ≤ now ↔ k < m)) :
    readInput sel a now s =
      ((s.overlap.take m).filterMap (·.writesTo (inputSpace sel) a)).getLastD (s.mem.readWord (inputBuffer sel) a) :=
  congrArg (List.getLastD · _) (filterMap_zip_take (inputSpace sel) a now s.overlap _ m (placesFrom_length _ _ _) h)

/-! ## Word accesses one after another (R112) -/

/-- The state after all of a list of word accesses. -/
abbrev afterAll (ws : List WordAccess) (u : State) : State := ws.foldl (fun v f => f v) u

/-- A view that is not behind the last access does not depend on the command's result. -/
theorem viewAt_congr_done {ws : List WordAccess} {p : Nat} (h : p < ws.length) (u done done' : State) :
    viewAt ws p u done = viewAt ws p u done' := by
  induction ws generalizing p u with
  | nil => simp at h
  | cons f ws ih =>
    cases p with
    | zero => rfl
    | succ p => exact ih (Nat.lt_of_succ_lt_succ h) (f u)

/-- What every access of a list keeps, all of them keep. -/
theorem afterAll_keeps {P : State → Prop} {ws : List WordAccess} {u : State} (hw : ∀ f ∈ ws, ∀ v, P v → P (f v))
    (hu : P u) : P (afterAll ws u) :=
  foldl_keeps (Q := (· ∈ ws)) (fun v f => f v) (fun v f hf hv => hw f hf v hv) ws u (fun _ h => h) hu

/-- No access of the list makes OUT_COUNT fall, and it ends at most at that of the result. -/
def CountsUp : List WordAccess → State → State → Prop
  | [], u, done => u.outCount.toNat ≤ done.outCount.toNat
  | f :: ws, u, done => u.outCount.toNat ≤ (f u).outCount.toNat ∧ CountsUp ws (f u) done

theorem CountsUp.le {ws : List WordAccess} {u done : State} (h : CountsUp ws u done) :
    u.outCount.toNat ≤ done.outCount.toNat := by
  induction ws generalizing u with
  | nil => exact h
  | cons f ws ih => exact h.1.trans (ih h.2)

/-- One counting list behind another. -/
theorem CountsUp.append {ws ws' : List WordAccess} {u mid done : State} (h : CountsUp ws u mid)
    (h' : CountsUp ws' (afterAll ws u) done) : CountsUp (ws ++ ws') u done := by
  induction ws generalizing u with
  | nil => exact h'
  | cons f ws ih => exact ⟨h.1, ih h.2 h'⟩

/-- A list of accesses that leave OUT_COUNT alone. -/
theorem CountsUp.of_keep {ws : List WordAccess} {u done : State} (hw : ∀ f ∈ ws, ∀ v, (f v).outCount = v.outCount)
    (h : u.outCount = done.outCount) : CountsUp ws u done := by
  induction ws generalizing u with
  | nil => exact le_of_eq (congrArg _ h)
  | cons f ws ih =>
    have hf := hw f (.head _) u
    exact ⟨le_of_eq (congrArg _ hf.symm), ih (fun g hg => hw g (.tail _ hg)) (hf.trans h)⟩

/-- Along the views of such a list OUT_COUNT never falls, from the start to the result. -/
theorem CountsUp.views {ws : List WordAccess} {u done : State} (h : CountsUp ws u done) {p q : Nat} (hpq : p ≤ q) :
    u.outCount.toNat ≤ (viewAt ws p u done).outCount.toNat ∧
    (viewAt ws p u done).outCount.toNat ≤ (viewAt ws q u done).outCount.toNat ∧
    (viewAt ws q u done).outCount.toNat ≤ done.outCount.toNat := by
  induction ws generalizing u p q with
  | nil => exact ⟨h, le_rfl, le_rfl⟩
  | cons f ws ih =>
    obtain ⟨hf, hrest⟩ := h
    match p, q with
    | 0, 0 => exact ⟨le_rfl, le_rfl, hf.trans hrest.le⟩
    | 0, q + 1 =>
      obtain ⟨hlow, _, hhigh⟩ := ih hrest (le_refl q)
      exact ⟨le_rfl, hf.trans hlow, hhigh⟩
    | p + 1, q + 1 =>
      obtain ⟨hlow, hmid, hhigh⟩ := ih hrest (Nat.le_of_succ_le_succ hpq)
      exact ⟨hf.trans hlow, hmid, hhigh⟩

/-! ## The words that the host sees (R72, R100) -/

/-- The words of REG, and the fields of STATUS, that no frame changes. -/
def steadyWords (s : State) :=
  (s.par, (s.dI, s.dQ), (s.resI, s.resQ, s.resValid), (s.err, s.errCode, s.fcChanged), (s.fcStaged, s.fcActive), s.sq)

/-- The words that show the FFT filter: FRAME_FILL, NOTCH_CNT, PEAK_IDX, RUNNER_IDX and CAP. -/
def frameWords (s : State) :=
  (s.fft.frameFill, s.fft.notchCnt, s.fft.peakIdx, s.fft.runnerIdx, s.fft.cap)

/-- Two states in which the host reads the same words, BUSY apart. -/
structure SameView (u v : State) : Prop where
  steady : steadyWords u = steadyWords v
  frame : frameWords u = frameWords v
  count : u.outCount = v.outCount
  ovf : u.ovf = v.ovf
  mem : ∀ b a, u.mem.readWord b a = v.mem.readWord b a

theorem SameView.refl (s : State) : SameView s s := ⟨rfl, rfl, rfl, rfl, fun _ _ => rfl⟩

theorem SameView.trans {s t u : State} (h : SameView s t) (h' : SameView t u) : SameView s u :=
  ⟨h.steady.trans h'.steady, h.frame.trans h'.frame, h.count.trans h'.count, h.ovf.trans h'.ovf,
    fun b a => (h.mem b a).trans (h'.mem b a)⟩

/-- The register addresses that do not show steady words only: STATUS, OUT_COUNT, FRAME_FILL, PEAK_IDX, RUNNER_IDX and
NOTCH_CNT (R72). -/
def unsteadyRegs : List Nat := [0x01, 0x04, 0x07, 0x08, 0x09, 0x0A]

theorem par_of_steadyWords {u v : State} (h : steadyWords u = steadyWords v) : u.par = v.par := congrArg Prod.fst h

/-- Every other register shows steady words only. -/
theorem hostRead_reg_of_steady {u v : State} (h : steadyWords u = steadyWords v) {a : Nat} (ha : a ∉ unsteadyRegs) :
    hostRead u .reg a = hostRead v .reg a := by
  simp only [steadyWords, Prod.mk.injEq] at h
  obtain ⟨hpar, ⟨hdI, hdQ⟩, ⟨hresI, hresQ, _⟩, _, ⟨hstaged, hactive⟩, hsq⟩ := h
  simp only [hostRead, hpar]
  split
  · unfold readReg
    split
    all_goals first
      | simp [unsteadyRegs] at ha; done
      | simp only [hdI, hdQ, hresI, hresQ, hstaged, hactive, hsq]
  · rfl

/-- A read of a word other than STATUS answers the same in both. -/
theorem SameView.hostRead_eq {u v : State} (h : SameView u v) {sp : Space} {a : Nat} (ha : ¬(sp = .reg ∧ a = 0x01)) :
    hostRead u sp a = hostRead v sp a := by
  have hpar := par_of_steadyWords h.steady
  have hframe := h.frame
  simp only [frameWords, Prod.mk.injEq] at hframe
  obtain ⟨hfill, hnotch, hpeak, hrunner, hcap⟩ := hframe
  cases sp with
  | reg =>
    by_cases hreg : a ∈ unsteadyRegs
    · simp only [unsteadyRegs, List.mem_cons, List.not_mem_nil, or_false] at hreg
      rcases hreg with rfl | rfl | rfl | rfl | rfl | rfl
      · exact absurd ⟨rfl, rfl⟩ ha
      all_goals simp only [hostRead, hpar, readReg, h.count, hfill, hnotch, hpeak, hrunner]
    · exact hostRead_reg_of_steady h.steady hreg
  | in0 | in1 | outI | outQ => simp only [hostRead, hpar, h.mem]
  | cap => simp only [hostRead, hpar, hcap]

/-- With the same BUSY every read answers the same. -/
theorem SameView.hostRead_busy {u v : State} (h : SameView u v) (sp : Space) (a : Nat) :
    hostRead { u with busy := v.busy } sp a = hostRead v sp a := by
  by_cases ha : sp = .reg ∧ a = 0x01
  · obtain ⟨rfl, rfl⟩ := ha
    have hsteady := h.steady
    simp only [steadyWords, Prod.mk.injEq] at hsteady
    obtain ⟨hpar, _, ⟨_, _, hvalid⟩, ⟨herr, hcode, hchanged⟩, _, hsq⟩ := hsteady
    simp only [hostRead, hpar, readReg, statusWord, h.ovf, hvalid, herr, hcode, hchanged, hsq]
  · have hview : SameView { u with busy := v.busy } v := ⟨h.steady, h.frame, h.count, h.ovf, h.mem⟩
    exact hview.hostRead_eq ha

end Sys2Proof.Machine
end

section
/-! PROOFS of the family 20_memory, sixth part: the word accesses of FRAME_PUSH and of one word of a block, what each can
be, and the state that they leave (R112, R252, R263, R264, R339). -/

namespace Sys2Proof.Machine

/-! ## What one access of a chain can be -/

/-- The word accesses of FRAME_PUSH, or of one word of a block, that takes s to t. -/
inductive TickAccess (s t : State) : WordAccess → Prop
  | read : TickAccess s t inputRead
  | fill : TickAccess s t (fun u => { u with fft := { u.fft with frameFill := s.fft.frameFill + 1 } })
  | wrap (h : s.fft.frameFill + 1 = s.par.half) : TickAccess s t (fun u => { u with fft := { u.fft with frameFill := 0 } })
  | cap (k : Nat) : TickAccess s t (capWrite t k)
  | notch : TickAccess s t (notchCntWrite t)
  | peak : TickAccess s t (peakIdxWrite t)
  | runner : TickAccess s t (runnerIdxWrite t)
  | outI (c : Nat) (h : c < t.outCount.toNat) :
    TickAccess s t (fun u => { u with mem := u.mem.writeWord .outI c (t.mem.readWord .outI c) })
  | outQ (c : Nat) (h : c < t.outCount.toNat) :
    TickAccess s t (fun u => { u with mem := u.mem.writeWord .outQ c (t.mem.readWord .outQ c) })
  | count (n : Half) : TickAccess s t (fun u => { u with outCount := n })
  | overflow (h : t.ovf = true) : TickAccess s t (fun u => { u with ovf := true })

/-- No such access changes a steady word. -/
theorem TickAccess.steady {s t : State} {g : WordAccess} (h : TickAccess s t g) (v : State) :
    steadyWords (g v) = steadyWords v := by
  cases h <;> rfl

/-! ## The output samples of a frame (R263) -/

/-- The state from s on in which output can still be counted: OUT_COUNT within the buffers, which a u16 counts (R9, R47). -/
def CanCount (s : State) : Prop := s.par.outMax ≤ 65535 ∧ s.outCount.toNat ≤ s.par.outMax

theorem CanCount.append {s : State} (z : Sample) (h : CanCount s) : CanCount (appendOut s z) := by
  obtain ⟨hmax, hcount⟩ := h
  unfold CanCount
  rw [appendOut_par]
  exact ⟨hmax, appendOut_count_le z hmax hcount⟩

theorem appendOut_count_of_lt {s : State} {z : Sample} (hmax : s.par.outMax ≤ 65535)
    (h : s.outCount.toNat < s.par.outMax) : (appendOut s z).outCount.toNat = s.outCount.toNat + 1 := by
  rw [appendOut_of_lt h, BitVec.toNat_ofNat, Nat.mod_eq_of_lt (by omega)]

/-- The accesses of the n-th sample behind one that is appended are those of the sample n + 1 without it. -/
theorem outputWrites_appendOut {s : State} (h : CanCount s) (z : Sample) (t : State) (n : Nat) :
    outputWrites (appendOut s z) t n = outputWrites s t (n + 1) := by
  obtain ⟨hmax, hcount⟩ := h
  unfold outputWrites
  rw [appendOut_par]
  by_cases hlt : s.outCount.toNat < s.par.outMax
  · rw [appendOut_count_of_lt hmax hlt, Nat.add_assoc, Nat.add_comm 1]
  · have hfull : (appendOut s z).outCount = s.outCount := by rw [appendOut_of_not_lt hlt]
    rw [hfull]
    dsimp only
    rw [if_neg (by omega), if_neg (by omega)]

/-- The accesses of the samples zs from s on, when the last of them leaves t. -/
def samplesWrites (zs : List Sample) (s t : State) : List WordAccess :=
  (List.range zs.length).flatMap (outputWrites s t)

theorem samplesWrites_cons {s : State} (h : CanCount s) (z : Sample) (zs : List Sample) (t : State) :
    samplesWrites (z :: zs) s t = outputWrites s t 0 ++ samplesWrites zs (appendOut s z) t := by
  unfold samplesWrites
  rw [List.length_cons, List.range_succ_eq_map, List.flatMap_cons, List.flatMap_map]
  refine congrArg (outputWrites s t 0 ++ ·) (List.flatMap_congr fun n _ => ?_)
  exact (outputWrites_appendOut h z t n).symm

/-- The later samples leave the words before OUT_COUNT, and an OVF that is set. -/
structure Later (s t : State) : Prop where
  appends : AppendsFrom s.outCount.toNat s t
  ovf : s.ovf = true → t.ovf = true

theorem Later.refl (s : State) : Later s s := ⟨.of_eq rfl rfl le_rfl, id⟩

theorem Later.append {s t : State} (z : Sample) (hmax : s.par.outMax ≤ 65535) (h : Later s t) :
    Later s (appendOut t z) := by
  refine ⟨appendOut_appendsFrom z hmax h.appends, fun hs => ?_⟩
  rcases appendOut_cases t z with ⟨_, _, _, ho⟩ | ⟨_, _, _, ho⟩
  · rw [ho]; exact h.ovf hs
  · exact ho

theorem Later.foldl_append {s : State} (hmax : s.par.outMax ≤ 65535) (zs : List Sample) :
    Later s (zs.foldl appendOut s) :=
  foldl_appendOut_keeps (fun _ z hu => hu.append z hmax) zs s (.refl s)

/-- A word of OUT_I or OUT_Q before OUT_COUNT stays. -/
theorem Later.readWord {s t : State} (h : Later s t) (b : Buffer) {c : Nat} (hc : c < s.outCount.toNat) :
    t.mem.readWord b c = s.mem.readWord b c := by
  have hbytes := h.appends.bytes b
  rw [Memory.readWord, Memory.readWord, hbytes (2 * c) (.inr (.inl (by omega))),
    hbytes (2 * c + 1) (.inr (.inl (by omega)))]

/-- The words at OUT_COUNT that one append wrote stay (R263). -/
theorem Later.readWord_append {s t : State} {z : Sample} (h : Later (appendOut s z) t) (hmax : s.par.outMax ≤ 65535)
    (hlt : s.outCount.toNat < s.par.outMax) :
    t.mem.readWord .outI s.outCount.toNat = z.re ∧ t.mem.readWord .outQ s.outCount.toNat = z.im := by
  have hc : s.outCount.toNat < (appendOut s z).outCount.toNat := by
    rw [appendOut_count_of_lt hmax hlt]; exact Nat.lt_succ_self _
  have hmem : (appendOut s z).mem =
      (s.mem.writeWord .outI s.outCount.toNat z.re).writeWord .outQ s.outCount.toNat z.im := by
    rw [appendOut_of_lt hlt]
  rw [h.readWord _ hc, h.readWord _ hc, hmem, Memory_readWord_writeWord_same,
    Memory_readWord_writeWord_other _ _ (.inl (by decide)), Memory_readWord_writeWord_same]
  exact ⟨rfl, rfl⟩

/-- Writing the same word keeps two memories alike. -/
theorem readWord_writeWord_congr {m m' : Memory} (h : ∀ b a, m.readWord b a = m'.readWord b a) (b : Buffer) (c : Nat)
    (v : Half) (b' : Buffer) (a : Nat) : (m.writeWord b c v).readWord b' a = (m'.writeWord b c v).readWord b' a := by
  by_cases hsame : b' = b ∧ a = c
  · obtain ⟨rfl, rfl⟩ := hsame
    rw [Memory_readWord_writeWord_same, Memory_readWord_writeWord_same]
  · have hother : b' ≠ b ∨ a ≠ c := not_and_or.1 hsame
    rw [Memory_readWord_writeWord_other _ _ hother, Memory_readWord_writeWord_other _ _ hother, h]

/-- What the accesses of the first of some samples do: the host sees the sample appended, and OUT_COUNT does not fall. -/
theorem outputWrites_first {s v t : State} {z : Sample} (hmax : s.par.outMax ≤ 65535) (hv : SameView v s)
    (ht : Later (appendOut s z) t) :
    SameView (afterAll (outputWrites s t 0) v) (appendOut s z) ∧ CountsUp (outputWrites s t 0) v (appendOut s z) ∧
    ∀ u, ∀ g ∈ outputWrites s t 0, TickAccess u t g := by
  by_cases hlt : s.outCount.toNat < s.par.outMax
  · obtain ⟨hI, hQ⟩ := ht.readWord_append hmax hlt
    have hcount := appendOut_count_of_lt (z := z) hmax hlt
    have hin : s.outCount.toNat < t.outCount.toNat :=
      Nat.lt_of_succ_le ((le_of_eq hcount.symm).trans ht.appends.count)
    have hws : outputWrites s t 0 =
        [fun u => { u with mem := u.mem.writeWord .outI s.outCount.toNat (t.mem.readWord .outI s.outCount.toNat) },
         fun u => { u with mem := u.mem.writeWord .outQ s.outCount.toNat (t.mem.readWord .outQ s.outCount.toNat) },
         fun u => { u with outCount := BitVec.ofNat 16 (s.outCount.toNat + 1) }] := if_pos hlt
    have happend := appendOut_of_lt (z := z) hlt
    have hmem := readWord_writeWord_congr (readWord_writeWord_congr hv.mem .outI s.outCount.toNat z.re) .outQ
      s.outCount.toNat z.im
    rw [hws]
    refine ⟨?_, ⟨le_rfl, le_rfl, ?_, ?_⟩, fun u => ?_⟩
    · rw [hI, hQ, happend]
      exact ⟨hv.steady, hv.frame, rfl, hv.ovf, hmem⟩
    · have hnew : (BitVec.ofNat 16 (s.outCount.toNat + 1)).toNat = s.outCount.toNat + 1 :=
        (congrArg (·.outCount.toNat) happend).symm.trans hcount
      exact (le_of_eq (congrArg BitVec.toNat hv.count)).trans ((Nat.le_succ _).trans (le_of_eq hnew.symm))
    · exact le_of_eq (congrArg (·.outCount.toNat) happend).symm
    · simp only [List.forall_mem_cons, List.not_mem_nil, false_imp_iff, implies_true, and_true]
      exact ⟨.outI _ hin, .outQ _ hin, .count _⟩
  · have hws : outputWrites s t 0 = [fun u => { u with ovf := true }] := if_neg hlt
    have happend := appendOut_of_not_lt (z := z) hlt
    have hovf : (appendOut s z).ovf = true := congrArg State.ovf happend
    rw [hws]
    refine ⟨?_, .of_keep (by simp) ?_, fun u => ?_⟩
    · rw [happend]; exact ⟨hv.steady, hv.frame, hv.count, rfl, hv.mem⟩
    · rw [happend]; exact hv.count
    · simp only [List.forall_mem_cons, List.not_mem_nil, false_imp_iff, implies_true, and_true]
      exact .overflow (ht.ovf hovf)

/-- What the accesses of the samples of a frame do: the host sees them all appended, and OUT_COUNT does not fall. -/
theorem samplesWrites_view (zs : List Sample) {s v : State} (h : CanCount s) (hv : SameView v s) :
    SameView (afterAll (samplesWrites zs s (zs.foldl appendOut s)) v) (zs.foldl appendOut s) ∧
    CountsUp (samplesWrites zs s (zs.foldl appendOut s)) v (zs.foldl appendOut s) ∧
    ∀ u, ∀ g ∈ samplesWrites zs s (zs.foldl appendOut s), TickAccess u (zs.foldl appendOut s) g := by
  induction zs generalizing s v with
  | nil => exact ⟨hv, le_of_eq (congrArg _ hv.count), fun _ _ hg => absurd hg (List.not_mem_nil)⟩
  | cons z zs ih =>
    obtain ⟨hview, hcount, haccess⟩ := outputWrites_first h.1 hv (Later.foldl_append (h.append z).1 zs)
    obtain ⟨hview', hcount', haccess'⟩ := ih (h.append z) hview
    rw [List.foldl_cons, samplesWrites_cons h]
    refine ⟨?_, hcount.append hcount', fun u g hg => ?_⟩
    · rw [afterAll, List.foldl_append]; exact hview'
    · rcases List.mem_append.1 hg with hg | hg
      · exact haccess u g hg
      · exact haccess' u g hg

/-! ## The capture and the registers of a frame (R256, R261) -/

/-- Copying the first k entries of a list one by one. -/
theorem foldl_set_take {x y : List Half} (hlen : y.length = x.length) {k : Nat} (hk : k ≤ x.length) :
    (List.range k).foldl (fun l i => l.set i (y.getD i 0)) x = y.take k ++ x.drop k := by
  induction k with
  | zero => simp
  | succ k ih =>
    have hy : k < y.length := by omega
    have hx : k < x.length := by omega
    have htake : (y.take k).length = k := by rw [List.length_take, Nat.min_eq_left hy.le]
    rw [List.range_succ, List.foldl_append, ih (by omega), List.foldl_cons, List.foldl_nil,
      List.set_append_right _ _ (le_of_eq htake), htake, Nat.sub_self, List.drop_eq_getElem_cons hx, List.set_cons_zero,
      List.take_succ_eq_append_getElem hy, List.getD_eq_getElem _ _ hy, List.append_assoc]
    rfl

/-- The capture's accesses copy the whole capture (R256). -/
theorem afterAll_capWrites (t : State) {v : State} {n : Nat} (hv : v.fft.cap.length = n) (ht : t.fft.cap.length = n) :
    afterAll ((List.range n).map (capWrite t)) v = { v with fft := { v.fft with cap := t.fft.cap } } := by
  have hcap : ∀ (ks : List Nat) (u : State), afterAll (ks.map (capWrite t)) u =
      { u with fft := { u.fft with cap := ks.foldl (fun l i => l.set i (t.fft.cap.getD i 0)) u.fft.cap } } := by
    intro ks
    induction ks with
    | nil => intro u; rfl
    | cons k ks ih => intro u; exact ih (capWrite t k u)
  rw [hcap, foldl_set_take (ht.trans hv.symm) (le_of_eq hv.symm), List.take_of_length_le (by omega),
    List.drop_of_length_le (by omega), List.append_nil]

/-- The accesses of a frame behind the collection: the capture, NOTCH_CNT, PEAK_IDX and RUNNER_IDX (R256, R261). -/
def spectrumWrites (s t : State) : List WordAccess :=
  (if s.fcActive.captureEnabled then (List.range s.par.fftN).map (capWrite t) else []) ++
    [notchCntWrite t, peakIdxWrite t, runnerIdxWrite t]

theorem spectrumWrites_access {s t u : State} : ∀ g ∈ spectrumWrites s t, TickAccess u t g := by
  intro g hg
  simp only [spectrumWrites, List.mem_append, List.mem_cons, List.not_mem_nil, or_false] at hg
  rcases hg with hg | rfl | rfl | rfl
  · split at hg
    · obtain ⟨k, _, rfl⟩ := List.mem_map.1 hg
      exact .cap k
    · cases hg
  · exact .notch
  · exact .peak
  · exact .runner

/-- The accesses of a frame leave every word but those alone. -/
theorem spectrumWrites_keep {s t : State} {α : Type} (f : State → α) (hcap : ∀ v k, f (capWrite t k v) = f v)
    (hnotch : ∀ v, f (notchCntWrite t v) = f v) (hpeak : ∀ v, f (peakIdxWrite t v) = f v)
    (hrunner : ∀ v, f (runnerIdxWrite t v) = f v) : ∀ g ∈ spectrumWrites s t, ∀ v, f (g v) = f v := by
  intro g hg v
  simp only [spectrumWrites, List.mem_append, List.mem_cons, List.not_mem_nil, or_false] at hg
  rcases hg with hg | rfl | rfl | rfl
  · split at hg
    · obtain ⟨k, _, rfl⟩ := List.mem_map.1 hg
      exact hcap v k
    · cases hg
  · exact hnotch v
  · exact hpeak v
  · exact hrunner v

/-- What they leave: the capture and the three registers of t. -/
theorem afterAll_spectrumWrites {s t v : State} (hv : v.fft.cap.length = s.par.fftN)
    (ht : t.fft.cap.length = s.par.fftN) (hoff : s.fcActive.captureEnabled = false → t.fft.cap = v.fft.cap) :
    afterAll (spectrumWrites s t) v =
      { v with fft := { v.fft with
          cap := t.fft.cap, notchCnt := t.fft.notchCnt, peakIdx := t.fft.peakIdx, runnerIdx := t.fft.runnerIdx } } := by
  rw [spectrumWrites, afterAll, List.foldl_append]
  cases hc : s.fcActive.captureEnabled with
  | true =>
    rw [if_pos rfl]
    exact congrArg (afterAll [notchCntWrite t, peakIdxWrite t, runnerIdxWrite t]) (afterAll_capWrites t hv ht)
  | false => rw [if_neg (by decide), hoff hc]; rfl

/-! ## FRAME_PUSH (R264) -/

/-- FRAME_FILL takes a value. -/
def fillWrite (k : Nat) : WordAccess := fun u => { u with fft := { u.fft with frameFill := k } }

/-- What a FRAME_PUSH from s to t does and accesses: it counts the sample, and, if the frame is full, it runs the frame on
the filter with FRAME_FILL 0 (R252, R264). -/
theorem framePush_accesses {z : Sample} {s t : State} {o : Option Sample} (h : framePush z s = .ok (o, t)) :
    (s.fft.frameFill + 1 ≠ s.par.half ∧ t = s.setFft (framePut z s.fft) ∧
      framePushWrites s t = [fillWrite (s.fft.frameFill + 1)]) ∨
    (s.fft.frameFill + 1 = s.par.half ∧ ∃ zs g,
      g = s.setFft (frameStep s.par s.fcActive { framePut z s.fft with frameFill := 0 }).2 ∧ t = zs.foldl appendOut g ∧
      framePushWrites s t =
        fillWrite (s.fft.frameFill + 1) :: fillWrite 0 :: (spectrumWrites s t ++ samplesWrites zs g t)) := by
  rcases framePush_ok h with ⟨hfill, _, rfl⟩ | ⟨hfill, _, f, rfl, _, ht⟩
  · refine .inl ⟨hfill, rfl, ?_⟩
    rw [framePushWrites, if_neg hfill]; rfl
  · refine .inr ⟨hfill, _, _, rfl, ht, ?_⟩
    rw [framePushWrites, if_pos hfill, fftFrameWrites, samplesWrites]
    have hlen : (frameStep s.par s.fcActive { framePut z s.fft with frameFill := 0 }).1.length = s.par.quarter :=
      overlapAdd_length _ _ _
    rw [hlen]; rfl

/-- The parameters, the length of the capture and the count that a chain needs (R9, R47, R64). -/
structure ChainInv (s : State) : Prop where
  par : s.par.wf = true
  cap : s.fft.cap.length = s.par.fftN
  count : s.outCount.toNat ≤ s.par.outMax

theorem ChainInv.canCount {s : State} (h : ChainInv s) : CanCount s := ⟨Params_wf_outMax h.par, h.count⟩

theorem foldl_appendOut_fft (zs : List Sample) (s : State) : (zs.foldl appendOut s).fft = s.fft :=
  foldl_appendOut_keeps (P := fun u => u.fft = s.fft) (fun u z hu => (appendOut_fft z u).trans hu) zs s rfl

theorem foldl_appendOut_par (zs : List Sample) (s : State) : (zs.foldl appendOut s).par = s.par :=
  foldl_appendOut_keeps (P := fun u => u.par = s.par) (fun u z hu => (appendOut_par z u).trans hu) zs s rfl

theorem frameStep_cap_length {p : Params} (fc : FilterControl) {f : Fft} (h : f.cap.length = p.fftN) :
    (frameStep p fc f).2.cap.length = p.fftN := by
  cases hc : fc.captureEnabled with
  | true => rw [frameStep_cap_of_enabled hc, capture_length]
  | false => rw [frameStep_cap_of_disabled hc, h]

theorem framePush_chainInv {z : Sample} {s t : State} {o : Option Sample} (h : framePush z s = .ok (o, t))
    (hs : ChainInv s) : ChainInv t := by
  obtain ⟨hpar, hcount⟩ := framePush_countWithin (Params_wf_outMax hs.par) h ⟨rfl, hs.count⟩
  obtain ⟨hp, _, _⟩ := framePush_front h
  refine ⟨hp ▸ hs.par, ?_, hpar.symm ▸ hcount⟩
  rw [hp]
  rcases framePush_ok h with ⟨_, _, rfl⟩ | ⟨_, _, f, rfl, _, rfl⟩
  · exact hs.cap
  · rw [foldl_appendOut_fft]
    exact frameStep_cap_length s.fcActive hs.cap

/-- What FRAME_PUSH leaves of FRAME_FILL: one more, or 0 when the frame was full (R264). -/
theorem framePush_fill {z : Sample} {s t : State} {o : Option Sample} (h : framePush z s = .ok (o, t)) :
    t.fft.frameFill = if s.fft.frameFill + 1 = s.par.half then 0 else s.fft.frameFill + 1 := by
  rcases framePush_ok h with ⟨hfill, _, rfl⟩ | ⟨hfill, _, f, rfl, _, rfl⟩
  · rw [if_neg hfill]; rfl
  · rw [if_pos hfill, foldl_appendOut_fft]; rfl

/-- What the accesses of a FRAME_PUSH do: the host ends up seeing its result, OUT_COUNT does not fall on the way, and each
access is one of those of a chain. -/
theorem framePush_view {z : Sample} {s t v : State} {o : Option Sample} (h : framePush z s = .ok (o, t))
    (hs : ChainInv s) (hv : SameView v s) :
    SameView (afterAll (framePushWrites s t) v) t ∧ CountsUp (framePushWrites s t) v t ∧
      ∀ g ∈ framePushWrites s t, TickAccess s t g := by
  have hframe := hv.frame
  simp only [frameWords, Prod.mk.injEq] at hframe
  obtain ⟨_, hnotch, hpeak, hrunner, hcap⟩ := hframe
  rcases framePush_accesses h with ⟨_, rfl, hws⟩ | ⟨hfull, zs, g, hg, ht, hws⟩
  · rw [hws]
    refine ⟨⟨hv.steady, ?_, hv.count, hv.ovf, hv.mem⟩, .of_keep (by simp [fillWrite]) hv.count, ?_⟩
    · simp only [afterAll, List.foldl_cons, List.foldl_nil, fillWrite, frameWords, State.setFft, framePut, hnotch, hpeak,
        hrunner, hcap]
    · simp only [List.forall_mem_cons, List.not_mem_nil, false_imp_iff, implies_true, and_true]
      exact .fill
  · have htfft : t.fft = g.fft := by rw [ht]; exact foldl_appendOut_fft zs g
    have hgcap : g.fft.cap.length = s.par.fftN := by rw [hg]; exact frameStep_cap_length s.fcActive hs.cap
    let v2 : State := fillWrite 0 (fillWrite (s.fft.frameFill + 1) v)
    have hoff : s.fcActive.captureEnabled = false → t.fft.cap = v2.fft.cap := fun hc => by
      rw [htfft, hg]
      exact (frameStep_cap_of_disabled hc).trans hcap.symm
    have hspectrum : afterAll (spectrumWrites s t) v2 = _ :=
      afterAll_spectrumWrites ((congrArg List.length hcap).trans hs.cap) (htfft ▸ hgcap) hoff
    have hview : SameView (afterAll (spectrumWrites s t) v2) g := by
      rw [hspectrum, htfft, hg]
      exact ⟨hv.steady, rfl, hv.count, hv.ovf, hv.mem⟩
    have hcount : CanCount g := by rw [hg]; exact hs.canCount
    obtain ⟨hsamples, hup, haccess⟩ := samplesWrites_view zs hcount hview
    rw [← ht] at hsamples hup haccess
    rw [hws]
    refine ⟨?_, ⟨le_rfl, le_rfl, CountsUp.append (mid := g) (.of_keep ?_ ?_) hup⟩, ?_⟩
    · have happend : afterAll (fillWrite (s.fft.frameFill + 1) :: fillWrite 0 ::
          (spectrumWrites s t ++ samplesWrites zs g t)) v =
            afterAll (samplesWrites zs g t) (afterAll (spectrumWrites s t) v2) := List.foldl_append
      rw [happend]
      exact hsamples
    · exact spectrumWrites_keep State.outCount (fun _ _ => rfl) (fun _ => rfl) (fun _ => rfl) fun _ => rfl
    · rw [hg]; exact hv.count
    · simp only [List.forall_mem_cons, List.mem_append]
      exact ⟨.fill, .wrap hfull, fun f hf => hf.elim (spectrumWrites_access f) (haccess s f)⟩

end Sys2Proof.Machine
end

section
/-! PROOFS of the family 20_memory, seventh part: what the word accesses of each command but PROCESS_BLOCK show and leave
(R112, R114). -/

namespace Sys2Proof.Machine

/-! ## Which list of accesses a command word makes -/

/-- The check of CFG_WRITE's meaning is the operand range of the command (R335). -/
theorem cfgWriteInRange_eq_wf (f : BitVec 8) (v : Half) : cfgWriteInRange f v = wfCfgWrite f v := by
  rw [Bool.eq_iff_iff, cfgWriteInRange_iff]
  simp only [wfCfgWrite, Bool.and_eq_true, Bool.or_eq_true, decide_eq_true_eq]
  omega

/-- The check of PROCESS_BLOCK's meaning is the operand range of the command (R339). -/
theorem blockLengthInRange_eq_wf (p : Params) (n : Half) : blockLengthInRange p n = wfBlockLength p n := by
  rw [Bool.eq_iff_iff, blockLengthInRange_iff]
  simp only [wfBlockLength, Bool.and_eq_true, decide_eq_true_eq]

/-- The operand check of a command is that of its meaning (R361): out of range it raises OPERAND_RANGE (R136). -/
theorem exec_of_not_wf {i : Instr} {s : State} (h : i.wf s.par = false) :
    exec i s = .next (raiseCmdError .operandRange s) := by
  cases i with
  | cicStep r =>
    have hrange : rawCodeInRange s.par r = false := h
    simp only [exec, execCicStep, hrange, Bool.false_eq_true, if_false]
  | nrBin side b =>
    have hrange : nrBinInRange s.par b = false := h
    simp only [exec, execNrBin, hrange, Bool.false_eq_true, if_false]
  | sqEnable l =>
    have hrange : levelInRange l = false := h
    simp only [exec, execSqEnable, hrange, Bool.false_eq_true, if_false]
  | cfgWrite f v =>
    have hrange : cfgWriteInRange f v = false := (cfgWriteInRange_eq_wf f v).trans h
    simp only [exec, execCfgWrite, hrange, Bool.false_eq_true, if_false]
  | processBlock sel n =>
    have hrange : blockLengthInRange s.par n = false := (blockLengthInRange_eq_wf s.par n).trans h
    simp only [exec, execProcessBlock, hrange, Bool.false_eq_true, if_false]
  | nop | softReset | seti _ | setq _ | cfgPublish | clrErr | hb1Step | hb2Step | droop _ | fftPush | sqInit _
  | sqDisable | sqCalibrate _ | sqSetTimeout _ | sqUpdate _ => cases h

theorem commandWrites_of_wf {w : Word} {i : Instr} {s : State} (hd : decode w = .ok i) (h : i.wf s.par = true)
    (t : State) : commandWrites w s t = instrWrites i s t := by
  simp only [commandWrites, hd, h, if_true]

/-- What a command word that completes does and accesses: a command with operands in range, or the raising of an error
(R136, R362). -/
theorem runWord_accesses {w : Word} {s t : State} (h : runWord w s = .next t) :
    (∃ i, decode w = .ok i ∧ i.wf s.par = true ∧ exec i s = .next t ∧ commandWrites w s t = instrWrites i s t) ∨
    ((∀ i, decode w = .ok i → i.wf s.par = false) ∧ ∃ e, t = raiseCmdError e s ∧ commandWrites w s t = errorWrites t) := by
  obtain ⟨i, hd, hexec⟩ | ⟨e, hd, rfl⟩ := runWord_next_cases h
  · cases hwf : i.wf s.par with
    | true => exact .inl ⟨i, hd, hwf, hexec, commandWrites_of_wf hd hwf t⟩
    | false =>
      rw [exec_of_not_wf hwf] at hexec
      refine .inr ⟨fun j hj => ?_, _, (Host.Outcome.next.inj hexec).symm, ?_⟩
      · cases hd.symm.trans hj; exact hwf
      · simp only [commandWrites, hd, hwf, Bool.false_eq_true, if_false]
  · refine .inr ⟨fun i hi => ?_, e, rfl, ?_⟩
    · cases hd.symm.trans hi
    · simp only [commandWrites, hd]

/-! ## Old, then new (R112, R114) -/

/-- The registers that one access takes from t, in the model's names. -/
def registerWrites (t : State) : List WordAccess :=
  [dIWrite t, dQWrite t, resIWrite t, resQWrite t, resValidWrite t, errWrite t, errCodeWrite t, fcChangedWrite t, ovfWrite t,
    outCountWrite t, frameFillWrite t, notchCntWrite t, peakIdxWrite t, runnerIdxWrite t, sqModeWrite t,
    sqThresholdWrite t, sqTimeoutWrite t, sqCountWrite t, sqS9Write t, fun u => { u with fcStaged := t.fcStaged },
    fun u => { u with fcActive := t.fcActive }]

/-- Accesses that each take one register from t are on the way to t. -/
theorem settles_of_subset {ws : List WordAccess} {t : State} (h : ws ⊆ registerWrites t) : ∀ g ∈ ws, Settles t g :=
  fun g hg => registerWrite_settles t g (h hg)

/-- The apply point of a command whose result keeps what it leaves (R336). -/
theorem applyWrites_settle {s t : State} (hactive : t.fcActive = (applyPoint s).fcActive) (hchanged : t.fcChanged = false) :
    ∀ g ∈ applyWrites s, Settles t g := by
  have hws : applyWrites s = [fun u => { u with fcActive := t.fcActive }, fcChangedWrite t] := by
    unfold applyWrites fcChangedWrite
    rw [hactive, hchanged, applyPoint_fcActive]
  rw [hws]
  exact settles_of_subset (by simp [registerWrites])

/-- Accesses in a free order are those of the list. -/
theorem anyOrder_settle {d k : Nat} {ws : List WordAccess} {t : State} (h : ∀ g ∈ ws, Settles t g) :
    ∀ g ∈ anyOrder d k ws, Settles t g := fun g hg => h g (mem_anyOrder.1 hg)

theorem append_settle {ws ws' : List WordAccess} {t : State} (h : ∀ g ∈ ws, Settles t g) (h' : ∀ g ∈ ws', Settles t g) :
    ∀ g ∈ ws ++ ws', Settles t g := fun g hg => (List.mem_append.1 hg).elim (h g) (h' g)

/-- Every access of SOFT_RESET is on the way to its result (R391). -/
theorem resetWrites_settle (d : Nat) (t : State) : ∀ g ∈ resetWrites d t, Settles t g := by
  have hregs : ∀ {ws : List WordAccess}, ws ⊆ registerWrites t → ∀ g ∈ ws, Settles t g := settles_of_subset
  have hfc : ∀ g ∈ filterControlWrites t, Settles t g := fun g hg => by
    rcases List.mem_append.1 hg with hg | hg <;> obtain ⟨f, _, rfl⟩ := List.mem_map.1 hg
    · exact (fieldWrite_settles t f).1
    · exact (fieldWrite_settles t f).2
  have hcap : ∀ g ∈ (List.range t.par.fftN).map (capWrite t), Settles t g := fun g hg => by
    obtain ⟨k, _, rfl⟩ := List.mem_map.1 hg
    exact capWrite_settles t k
  unfold resetWrites
  refine append_settle (append_settle (append_settle (append_settle (append_settle (append_settle (append_settle
    (append_settle (append_settle ?_ ?_) ?_) ?_) ?_) ?_) ?_) ?_) ?_) ?_
  · exact anyOrder_settle (hregs (by simp [registerWrites]))
  · exact anyOrder_settle (hregs (by simp [registerWrites]))
  · exact hregs (by simp [registerWrites])
  · exact anyOrder_settle hfc
  · exact hregs (by simp [registerWrites])
  · exact anyOrder_settle hcap
  · exact hregs (by simp [registerWrites])
  · exact anyOrder_settle (hregs (by simp [registerWrites]))
  · exact hregs (by simp [registerWrites])
  · exact anyOrder_settle (hregs (by simp [registerWrites]))

/-- The apply point and a result written in any order, of a command that keeps what the apply point leaves. -/
theorem applyWrites_append_settle {s t : State} {ws : List WordAccess} (hactive : t.fcActive = (applyPoint s).fcActive)
    (hchanged : t.fcChanged = false) (hws : ws ⊆ registerWrites t) : ∀ g ∈ applyWrites s ++ ws, Settles t g :=
  append_settle (applyWrites_settle hactive hchanged) (settles_of_subset hws)

theorem resultPair_append_subset (d : Nat) (t : State) : resultPair d t ++ [resValidWrite t] ⊆ registerWrites t := by
  intro g hg
  simp only [resultPair, List.mem_append, mem_anyOrder, List.mem_cons, List.not_mem_nil, or_false] at hg
  rcases hg with (rfl | rfl) | rfl <;> simp [registerWrites]

/-- Every command but FFT_PUSH and PROCESS_BLOCK accesses each word on the way to its result. -/
theorem instrWrites_settle {i : Instr} {s t : State} (h : exec i s = .next t) (hwf : i.wf s.par = true)
    (hpush : i ≠ .fftPush) (hblock : ∀ sel n, i ≠ .processBlock sel n) : ∀ g ∈ instrWrites i s t, Settles t g := by
  cases i with
  | fftPush => exact absurd rfl hpush
  | processBlock sel n => exact absurd rfl (hblock sel n)
  | softReset => exact resetWrites_settle _ t
  | cicStep r =>
    obtain ⟨_, rfl⟩ | ⟨hbad, _⟩ := ite_next_cases h
    · exact applyWrites_append_settle rfl rfl (by simp [resultWrites, registerWrites])
    · exact absurd hwf (ne_true_of_eq_false hbad)
  | droop b =>
    cases h
    simp only [instrWrites, List.append_assoc]
    exact applyWrites_append_settle rfl rfl (resultPair_append_subset _ _)
  | nrBin side b =>
    have hrange : nrBinInRange s.par b = true := hwf
    simp only [exec, execNrBin, hrange, if_true] at h
    split at h
    · cases h
      simp only [instrWrites, List.append_assoc]
      exact applyWrites_append_settle rfl rfl (resultPair_append_subset _ _)
    · cases h
  | sqUpdate x =>
    refine append_settle ?_ (settles_of_subset (by simp [registerWrites]))
    unfold sqStepWrites
    split
    · exact anyOrder_settle (settles_of_subset (by simp [registerWrites]))
    · exact settles_of_subset (by simp [registerWrites])
  | nop => exact fun _ hg => absurd hg List.not_mem_nil
  | seti _ | setq _ | cfgWrite _ _ | cfgPublish | clrErr | hb1Step | hb2Step | sqInit _ | sqEnable _ | sqDisable
  | sqCalibrate _ | sqSetTimeout _ =>
    exact settles_of_subset (by simp [instrWrites, resultWrites, registerWrites])

/-! ## After the last access (R114) -/

theorem afterAll_append (ws ws' : List WordAccess) (u : State) :
    afterAll (ws ++ ws') u = afterAll ws' (afterAll ws u) := List.foldl_append

/-- Accesses of different words may be made in any order. -/
theorem afterAll_anyOrder {ws : List WordAccess} (h : ∀ f ∈ ws, ∀ g ∈ ws, ∀ u : State, g (f u) = f (g u)) (d k : Nat)
    (u : State) : afterAll (anyOrder d k ws) u = afterAll ws u :=
  ((anyOrder_perm d k ws).symm.foldl_eq' (fun f hf g hg v => h f hf g hg v) u).symm

theorem capWrite_comm (t : State) (j k : Nat) (u : State) : capWrite t j (capWrite t k u) = capWrite t k (capWrite t j u) := by
  by_cases h : j = k
  · rw [h]
  · simp only [capWrite, List.set_comm _ _ (Ne.symm h)]

theorem copyField_comm (x y : FilterControl) (j k : Nat) :
    x.copyField (x.copyField y j) k = x.copyField (x.copyField y k) j := by
  unfold FilterControl.copyField
  split <;> split <;> rfl

theorem filterControlWrites_comm (t : State) :
    ∀ f ∈ filterControlWrites t, ∀ g ∈ filterControlWrites t, ∀ u : State, g (f u) = f (g u) := by
  intro f hf g hg u
  rcases List.mem_append.1 hf with hf | hf <;> obtain ⟨j, _, rfl⟩ := List.mem_map.1 hf <;>
    rcases List.mem_append.1 hg with hg | hg <;> obtain ⟨k, _, rfl⟩ := List.mem_map.1 hg
  · simp only [copyField_comm]
  · rfl
  · rfl
  · simp only [copyField_comm]

/-- Copying every field copies the filter control (R391). -/
theorem foldl_copyField (x y : FilterControl) : (List.range 8).foldl x.copyField y = x := by
  have hrange : List.range 8 = [0, 1, 2, 3, 4, 5, 6, 7] := rfl
  simp only [hrange, List.foldl_cons, List.foldl_nil, FilterControl.copyField]

/-- The fields of both copies of the filter control, one after another, are both copies. -/
theorem afterAll_filterControlWrites (t u : State) :
    afterAll (filterControlWrites t) u = { u with fcStaged := t.fcStaged, fcActive := t.fcActive } := by
  have hstaged : ∀ (ks : List Nat) (v : State),
      afterAll (ks.map fun f u => { u with fcStaged := t.fcStaged.copyField u.fcStaged f }) v =
        { v with fcStaged := ks.foldl t.fcStaged.copyField v.fcStaged } := by
    intro ks
    induction ks with
    | nil => intro v; rfl
    | cons k ks ih => intro v; exact ih { v with fcStaged := t.fcStaged.copyField v.fcStaged k }
  have hactive : ∀ (ks : List Nat) (v : State),
      afterAll (ks.map fun f u => { u with fcActive := t.fcActive.copyField u.fcActive f }) v =
        { v with fcActive := ks.foldl t.fcActive.copyField v.fcActive } := by
    intro ks
    induction ks with
    | nil => intro v; rfl
    | cons k ks ih => intro v; exact ih { v with fcActive := t.fcActive.copyField v.fcActive k }
  rw [filterControlWrites, afterAll_append, hstaged, hactive, foldl_copyField, foldl_copyField]

/-- SOFT_RESET's accesses leave what the host reads of its result (R391). -/
theorem resetWrites_view {s : State} (hcap : s.fft.cap.length = s.par.fftN) (d : Nat) :
    SameView (afterAll (resetWrites d (resetState s)) s) (resetState s) := by
  have hcaps : ∀ f ∈ (List.range s.par.fftN).map (capWrite (resetState s)),
      ∀ g ∈ (List.range s.par.fftN).map (capWrite (resetState s)), ∀ v : State, g (f v) = f (g v) := by
    intro f hf g hg v
    obtain ⟨j, _, rfl⟩ := List.mem_map.1 hf
    obtain ⟨k, _, rfl⟩ := List.mem_map.1 hg
    exact capWrite_comm _ _ _ _
  have hnew : (resetState s).fft.cap.length = s.par.fftN := List.length_replicate
  simp only [resetWrites, afterAll_append, resetState_par]
  rw [afterAll_anyOrder _ d 0, afterAll_anyOrder _ d 1, afterAll_anyOrder (filterControlWrites_comm _) d 2,
    afterAll_anyOrder hcaps d 3, afterAll_anyOrder _ d 4, afterAll_anyOrder _ d 5, afterAll_filterControlWrites,
    afterAll_capWrites (n := s.par.fftN) _ ?_ hnew]
  · simp only [afterAll, List.foldl_cons, List.foldl_nil, dIWrite, dQWrite, resIWrite, resQWrite, resValidWrite, errWrite,
      errCodeWrite, ovfWrite, fcChangedWrite, outCountWrite, frameFillWrite, notchCntWrite, peakIdxWrite, runnerIdxWrite,
      sqModeWrite, sqThresholdWrite, sqTimeoutWrite, sqCountWrite, sqS9Write]
    exact ⟨rfl, rfl, rfl, rfl, fun _ _ => rfl⟩
  · exact hcap
  all_goals
    simp only [List.forall_mem_cons, List.not_mem_nil, false_imp_iff, implies_true, and_true, true_and]
    repeat' apply And.intro
  all_goals exact fun _ => rfl

/-- A pair written in any order. -/
theorem afterAll_resultPair (d : Nat) (t u : State) :
    afterAll (resultPair d t) u = { u with resI := t.resI, resQ := t.resQ } := by
  refine afterAll_anyOrder (fun f hf g hg v => ?_) d 0 u
  simp only [List.mem_cons, List.not_mem_nil, or_false] at hf hg
  rcases hf with rfl | rfl <;> rcases hg with rfl | rfl <;> rfl

/-- The accesses of a command's result, behind those that leave the host seeing u. -/
theorem SameView.withResult {w u t : State} {o : Option Sample} (h : SameView w u) (ht : t = u.withResult o) :
    SameView { w with resI := t.resI, resQ := t.resQ, resValid := t.resValid } t := by
  have hsteady := h.steady
  simp only [steadyWords, Prod.mk.injEq] at hsteady
  obtain ⟨hpar, ⟨hdI, hdQ⟩, _, ⟨herr, hcode, hchanged⟩, ⟨hstaged, hactive⟩, hsq⟩ := hsteady
  subst ht
  refine ⟨?_, h.frame, h.count, h.ovf, h.mem⟩
  simp only [steadyWords, State_withResult_par, State_withResult_dI, State_withResult_dQ, State_withResult_err,
    State_withResult_errCode, State_withResult_fcChanged, State_withResult_fcStaged, State_withResult_fcActive,
    State_withResult_sq, hpar, hdI, hdQ, herr, hcode, hchanged, hstaged, hactive, hsq]

/-- The apply point's accesses leave what it leaves (R336). -/
theorem applyWrites_view (s : State) : SameView (afterAll (applyWrites s) s) (applyPoint s) :=
  ⟨rfl, rfl, rfl, rfl, fun _ _ => rfl⟩

/-- The accesses of a squelch update leave the squelch that the transition leaves (R303). -/
theorem sqStepWrites_view (d : Nat) (x : Half) (s t : State) (ht : t.sq = sqStep s.sq x) :
    afterAll (sqStepWrites d s t) s = { s with sq := t.sq } := by
  have hwrites : afterAll (sqStepWrites d s t) s =
      { s with sq := { s.sq with mode := t.sq.mode, count := t.sq.count } } := by
    unfold sqStepWrites
    split
    · refine afterAll_anyOrder (fun f hf g hg v => ?_) d 1 s
      simp only [List.mem_cons, List.not_mem_nil, or_false] at hf hg
      rcases hf with rfl | rfl <;> rcases hg with rfl | rfl <;> rfl
    · rfl
  have hkeep : t.sq = { s.sq with mode := t.sq.mode, count := t.sq.count } := by
    rw [ht]
    unfold sqStep sqCountdown
    split <;> (try split) <;> rfl
  rw [hwrites, ← hkeep]

/-- After its last access every command but FFT_PUSH and PROCESS_BLOCK shows its result (R114). -/
theorem instrWrites_view {i : Instr} {s t : State} (h : exec i s = .next t) (hwf : i.wf s.par = true)
    (hcap : s.fft.cap.length = s.par.fftN) (hpush : i ≠ .fftPush) (hblock : ∀ sel n, i ≠ .processBlock sel n) :
    SameView (afterAll (instrWrites i s t) s) t := by
  cases i with
  | fftPush => exact absurd rfl hpush
  | processBlock sel n => exact absurd rfl (hblock sel n)
  | softReset => cases h; exact resetWrites_view hcap _
  | droop b =>
    simp only [instrWrites, afterAll_append, afterAll_resultPair]
    exact (applyWrites_view s).withResult (Host.Outcome.next.inj h).symm
  | nrBin side b =>
    have hrange : nrBinInRange s.par b = true := hwf
    simp only [exec, execNrBin, hrange, if_true] at h
    split at h
    · simp only [instrWrites, afterAll_append, afterAll_resultPair]
      have hview : ∀ nr, SameView (afterAll (applyWrites s) s)
          ((applyPoint s).setFft { (applyPoint s).fft with nr := nr }) := fun _ =>
        ⟨rfl, rfl, rfl, rfl, fun _ _ => rfl⟩
      exact (hview _).withResult (Host.Outcome.next.inj h).symm
    · cases h
  | cicStep r =>
    obtain ⟨_, rfl⟩ | ⟨hbad, _⟩ := ite_next_cases h
    · exact ⟨rfl, rfl, rfl, rfl, fun _ _ => rfl⟩
    · exact absurd hwf (ne_true_of_eq_false hbad)
  | cfgWrite f v =>
    have hrange : cfgWriteInRange f v = true := (cfgWriteInRange_eq_wf f v).trans hwf
    simp only [exec, execCfgWrite, hrange, if_true] at h
    cases h
    exact ⟨rfl, rfl, rfl, rfl, fun _ _ => rfl⟩
  | sqEnable l =>
    have hrange : levelInRange l = true := hwf
    simp only [exec, execSqEnable, hrange, if_true] at h
    cases h
    exact ⟨rfl, rfl, rfl, rfl, fun _ _ => rfl⟩
  | sqUpdate x =>
    cases h
    simp only [instrWrites, afterAll_append]
    rw [sqStepWrites_view _ x s _ rfl]
    exact ⟨rfl, rfl, rfl, rfl, fun _ _ => rfl⟩
  | nop | seti _ | setq _ | cfgPublish | clrErr | hb1Step | hb2Step | sqInit _ | sqDisable | sqCalibrate _
  | sqSetTimeout _ => cases h; exact ⟨rfl, rfl, rfl, rfl, fun _ _ => rfl⟩

/-- After its last access a command that raises an error shows its result (R362). -/
theorem errorWrites_view (e : CmdError) (s : State) :
    SameView (afterAll (errorWrites (raiseCmdError e s)) s) (raiseCmdError e s) :=
  ⟨rfl, rfl, rfl, rfl, fun _ _ => rfl⟩

theorem errorWrites_settle (t : State) : ∀ g ∈ errorWrites t, Settles t g :=
  settles_of_subset (by simp [errorWrites, registerWrites])

end Sys2Proof.Machine
end

section
/-! PROOFS of the family 20_memory, eighth part: what the word accesses of FFT_PUSH show and leave (R112-R114, R264, R265). -/

namespace Sys2Proof.Machine

/-! ## The words apart from the two counters (R114) -/

/-- Addresses of REG that show FRAME_FILL, OUT_COUNT or STATUS. -/
def CounterReg (sp : Space) (a : Nat) : Prop := sp = .reg ∧ (a = 0x01 ∨ a = 0x04 ∨ a = 0x07)

/-- Two states in which the host reads the same words, the counters and BUSY apart. -/
structure SameOffCounters (t' t : State) : Prop where
  par : t'.par = t.par
  read : ∀ sp a, ¬CounterReg sp a → hostRead t' sp a = hostRead t sp a
  err : t'.err = t.err
  errCode : t'.errCode = t.errCode
  fcChanged : t'.fcChanged = t.fcChanged
  ovf : t'.ovf = t.ovf
  resValid : t'.resValid = t.resValid
  mode : t'.sq.mode = t.sq.mode

theorem SameOffCounters.refl (t : State) : SameOffCounters t t := ⟨rfl, fun _ _ _ => rfl, rfl, rfl, rfl, rfl, rfl, rfl⟩

/-- FRAME_FILL and OUT_COUNT show in the counters only. -/
theorem sameOffCounters_counters (t : State) (k : Nat) (n : Half) :
    SameOffCounters { t with fft := { t.fft with frameFill := k }, outCount := n } t := by
  refine ⟨rfl, fun sp a ha => ?_, rfl, rfl, rfl, rfl, rfl, rfl⟩
  cases sp with
  | reg =>
    by_cases hreg : a ∈ unsteadyRegs
    · simp only [unsteadyRegs, List.mem_cons, List.not_mem_nil, or_false] at hreg
      rcases hreg with rfl | rfl | rfl | rfl | rfl | rfl
      · exact absurd ⟨rfl, .inl rfl⟩ ha
      · exact absurd ⟨rfl, .inr (.inl rfl)⟩ ha
      · exact absurd ⟨rfl, .inr (.inr rfl)⟩ ha
      all_goals rfl
    · refine hostRead_reg_of_steady ?_ hreg
      rfl
  | in0 | in1 | outI | outQ | cap => rfl

/-- An access on the way to a state that agrees with t off the counters. -/
def SettlesOffCounters (t : State) (g : WordAccess) : Prop := ∃ t', SameOffCounters t' t ∧ Settles t' g

theorem Settles.offCounters {t : State} {g : WordAccess} (h : Settles t g) : SettlesOffCounters t g := ⟨t, .refl t, h⟩

/-- A command that makes only such accesses shows each word off the counters old and then new (R112, R114). -/
theorem oldThenNew_of_settlesOffCounters {ws : List WordAccess} {s t : State} (hp : s.par = t.par)
    (h : ∀ g ∈ ws, SettlesOffCounters t g) :
    StatusOldThenNew ws s t ∧ ∀ sp a, ¬CounterReg sp a → OldThenNew (hostRead · sp a) ws s t := by
  have hfield : ∀ {α : Type} (f : State → α), (∀ t', SameOffCounters t' t → f t' = f t) →
      (∀ t' g, Settles t' g → ∀ v, v.par = t'.par → f (g v) = f v ∨ f (g v) = f t') → OldThenNew f ws s t := by
    intro α f hsame hset
    refine OldThenNew_of (fun v => v.par = t.par) hp rfl fun g hg v hv => ?_
    obtain ⟨t', hoff, hsettles⟩ := h g hg
    have hv' : v.par = t'.par := hv.trans hoff.par.symm
    exact ⟨(hsettles v hv').1.trans hoff.par, hsame t' hoff ▸ hset t' g hsettles v hv'⟩
  refine ⟨⟨hfield _ (fun _ h => h.err) ?_, hfield _ (fun _ h => h.errCode) ?_, hfield _ (fun _ h => h.fcChanged) ?_,
    hfield _ (fun _ h => h.ovf) ?_, hfield _ (fun _ h => h.resValid) ?_, hfield _ (fun _ h => h.mode) ?_⟩,
    fun sp a ha => hfield _ (fun _ h => h.read sp a ha) ?_⟩
  all_goals
    intro t' g hg v hv
    obtain ⟨_, hread, herr, hcode, hchanged, hovf, hvalid, hmode⟩ := hg v hv
  · exact herr
  · exact hcode
  · exact hchanged
  · exact hovf
  · exact hvalid
  · exact hmode
  · exact hread sp a fun h => ha ⟨h.1, .inl h.2⟩

theorem settles_of_mem {g : WordAccess} {t : State} (h : g ∈ registerWrites t) : Settles t g := registerWrite_settles t g h

/-- A write of FRAME_FILL settles everything off the counters. -/
theorem fillWrite_settles (t : State) (k : Nat) : SettlesOffCounters t (fillWrite k) := by
  refine ⟨_, sameOffCounters_counters t k t.outCount, ?_⟩
  generalize ht : ({ t with fft := { t.fft with frameFill := k }, outCount := t.outCount } : State) = t'
  have hfill : fillWrite k = frameFillWrite t' := by rw [← ht]; rfl
  rw [hfill]
  exact settles_of_mem (by simp [registerWrites])

/-- A write of OUT_COUNT settles everything off the counters. -/
theorem countWrite_settles (t : State) (n : Half) : SettlesOffCounters t (fun u => { u with outCount := n }) := by
  refine ⟨_, sameOffCounters_counters t t.fft.frameFill n, ?_⟩
  generalize ht : ({ t with fft := { t.fft with frameFill := t.fft.frameFill }, outCount := n } : State) = t'
  have hcount : (fun u => { u with outCount := n } : WordAccess) = outCountWrite t' := by rw [← ht]; rfl
  rw [hcount]
  exact settles_of_mem (by simp [registerWrites])

/-- Every access of a chain is on the way to its result, off the counters. -/
theorem TickAccess.settles {s t : State} {g : WordAccess} (h : TickAccess s t g) : SettlesOffCounters t g := by
  cases h with
  | read => exact (inputRead_settles t).offCounters
  | fill => exact fillWrite_settles t _
  | wrap _ => exact fillWrite_settles t 0
  | cap k => exact (capWrite_settles t k).offCounters
  | notch | peak | runner => exact (settles_of_mem (by simp [registerWrites])).offCounters
  | outI c _ => exact (outWrite_settles t .outI (.inl rfl) c).offCounters
  | outQ c _ => exact (outWrite_settles t .outQ (.inr rfl) c).offCounters
  | count n => exact countWrite_settles t n
  | overflow ho =>
    have hset : Settles t (ovfWrite t) := settles_of_mem (by simp [registerWrites])
    unfold ovfWrite at hset
    rw [ho] at hset
    exact hset.offCounters

/-! ## FFT_PUSH (R264, R265) -/

/-- An FFT_PUSH that completes: the apply point, FRAME_PUSH and the result (R265). -/
theorem execFftPush_next {s t : State} (h : exec .fftPush s = .next t) :
    ∃ o u, framePush (dSample (applyPoint s)) (applyPoint s) = .ok (o, u) ∧ t = u.withResult o := by
  simp only [exec, execFftPush] at h
  split at h
  · next o u hp => exact ⟨o, u, hp, (Host.Outcome.next.inj h).symm⟩
  · cases h

/-- The result registers are no word that FRAME_PUSH accesses. -/
theorem framePushWrites_withResult (s u : State) (o : Option Sample) :
    framePushWrites s (u.withResult o) = framePushWrites s u := rfl

theorem TickAccess.withResult {s u : State} {g : WordAccess} (h : TickAccess s u g) (o : Option Sample) :
    TickAccess s (u.withResult o) g := by
  cases h with
  | read => exact .read
  | fill => exact .fill
  | wrap h => exact .wrap h
  | cap k => exact .cap k
  | notch => exact .notch
  | peak => exact .peak
  | runner => exact .runner
  | outI c h => exact .outI c h
  | outQ c h => exact .outQ c h
  | count n => exact .count n
  | overflow h => exact .overflow h

theorem ChainInv.applyPoint {s : State} (h : ChainInv s) : ChainInv (Machine.applyPoint s) := ⟨h.par, h.cap, h.count⟩

/-- The accesses of FFT_PUSH: those of the apply point, of FRAME_PUSH and of the result. -/
theorem instrWrites_fftPush (s u : State) (o : Option Sample) :
    instrWrites .fftPush s (u.withResult o) =
      applyWrites s ++ (framePushWrites (applyPoint s) u ++
        (resValidWrite (u.withResult o) :: resultPair s.draws (u.withResult o))) := by
  simp only [instrWrites, framePushWrites_withResult, List.append_assoc, List.singleton_append]

theorem mem_resultWrites {d : Nat} {t : State} {g : WordAccess} (h : g ∈ resValidWrite t :: resultPair d t) :
    g = resValidWrite t ∨ g = resIWrite t ∨ g = resQWrite t := by
  simpa only [resultPair, List.mem_cons, mem_anyOrder, List.not_mem_nil, or_false] using h

section
variable {s t : State} (h : exec .fftPush s = .next t) (hs : ChainInv s)
include h hs

/-- After its last access FFT_PUSH shows its result. -/
theorem fftPush_view : SameView (afterAll (instrWrites .fftPush s t) s) t := by
  obtain ⟨o, u, hp, rfl⟩ := execFftPush_next h
  obtain ⟨hview, _, _⟩ := framePush_view hp hs.applyPoint (applyWrites_view s)
  rw [instrWrites_fftPush, afterAll_append, afterAll_append]
  generalize afterAll (framePushWrites (applyPoint s) u) (afterAll (applyWrites s) s) = w at hview
  have hres : afterAll (resValidWrite (u.withResult o) :: resultPair s.draws (u.withResult o)) w =
      afterAll (resultPair s.draws (u.withResult o)) { w with resValid := (u.withResult o).resValid } := rfl
  rw [hres, afterAll_resultPair]
  exact hview.withResult rfl

/-- OUT_COUNT does not fall during FFT_PUSH. -/
theorem fftPush_countsUp : CountsUp (instrWrites .fftPush s t) s t := by
  obtain ⟨o, u, hp, rfl⟩ := execFftPush_next h
  obtain ⟨hview, hup, _⟩ := framePush_view hp hs.applyPoint (applyWrites_view s)
  rw [instrWrites_fftPush]
  have happly : CountsUp (applyWrites s) s s := .of_keep (by simp [applyWrites]) rfl
  refine happly.append (hup.append (.of_keep (fun g hg v => ?_) hview.count))
  rcases mem_resultWrites hg with rfl | rfl | rfl <;> rfl

/-- Every access of FFT_PUSH is one of the apply point, of a chain or of the result. -/
theorem fftPush_accesses : ∀ g ∈ instrWrites .fftPush s t, g ∈ applyWrites s ∨ TickAccess (applyPoint s) t g ∨
    (g = resValidWrite t ∨ g = resIWrite t ∨ g = resQWrite t) := by
  obtain ⟨o, u, hp, rfl⟩ := execFftPush_next h
  obtain ⟨_, _, haccess⟩ := framePush_view hp hs.applyPoint (applyWrites_view s)
  intro g hg
  rw [instrWrites_fftPush] at hg
  rcases List.mem_append.1 hg with hg | hg
  · exact .inl hg
  · rcases List.mem_append.1 hg with hg | hg
    · exact .inr (.inl ((haccess g hg).withResult o))
    · exact .inr (.inr (mem_resultWrites hg))

/-- FFT_PUSH shows each word off the counters old and then new. -/
theorem fftPush_oldThenNew :
    StatusOldThenNew (instrWrites .fftPush s t) s t ∧
      ∀ sp a, ¬CounterReg sp a → OldThenNew (hostRead · sp a) (instrWrites .fftPush s t) s t := by
  have hpar : s.par = t.par := (exec_keepsFormAndPar h).par.symm
  have hkept : t.fcActive = (applyPoint s).fcActive ∧ t.fcChanged = false := by
    obtain ⟨o, u, hp, rfl⟩ := execFftPush_next h
    have hfield := framePush_field (fun u => (u.fcActive, u.fcChanged)) (fun _ _ => rfl)
      (fun s z => by unfold appendOut; split <;> rfl) hp
    exact ⟨congrArg Prod.fst hfield, congrArg Prod.snd hfield⟩
  refine oldThenNew_of_settlesOffCounters hpar fun g hg => ?_
  rcases fftPush_accesses h hs g hg with hg | hg | hg
  · exact (applyWrites_settle hkept.1 hkept.2 g hg).offCounters
  · exact hg.settles
  · refine (settles_of_mem ?_).offCounters
    rcases hg with rfl | rfl | rfl <;> simp [registerWrites]

/-- FRAME_FILL during FFT_PUSH: as it was, one more, or 0 when the frame is full (R264). -/
theorem fftPush_fill (p : Nat) :
    (viewAt (instrWrites .fftPush s t) p s t).fft.frameFill = s.fft.frameFill ∨
    (viewAt (instrWrites .fftPush s t) p s t).fft.frameFill = s.fft.frameFill + 1 ∨
    (viewAt (instrWrites .fftPush s t) p s t).fft.frameFill = 0 ∧ s.fft.frameFill + 1 = s.par.fftN / 2 := by
  refine viewAt_keeps (P := fun u => u.fft.frameFill = s.fft.frameFill ∨ u.fft.frameFill = s.fft.frameFill + 1 ∨
    u.fft.frameFill = 0 ∧ s.fft.frameFill + 1 = s.par.fftN / 2) p (.inl rfl) (fun g hg v hv => ?_) ?_
  · rcases fftPush_accesses h hs g hg with hg | hg | rfl | rfl | rfl
    · simp only [applyWrites, List.mem_cons, List.not_mem_nil, or_false] at hg
      rcases hg with rfl | rfl <;> exact hv
    · cases hg with
      | fill => exact .inr (.inl rfl)
      | wrap hfull => exact .inr (.inr ⟨rfl, hfull⟩)
      | read | cap _ | notch | peak | runner | outI _ _ | outQ _ _ | count _ | overflow _ => exact hv
    all_goals exact hv
  · obtain ⟨o, u, hp, rfl⟩ := execFftPush_next h
    have hfill := framePush_fill hp
    by_cases hfull : s.fft.frameFill + 1 = s.par.half
    · exact .inr (.inr ⟨hfill.trans (if_pos hfull), hfull⟩)
    · exact .inr (.inl (hfill.trans (if_neg hfull)))

end

end Sys2Proof.Machine
end

section
/-! PROOFS of the family 20_memory, ninth part: what the word accesses of PROCESS_BLOCK show and leave, and the races (R107,
R112-R114, R339). -/

namespace Sys2Proof.Machine

/-! ## One word of a block (R339) -/

/-- What one word of a block does and accesses: after the units before the frame, nothing, or one FRAME_PUSH. -/
theorem blockTick_accesses {sel : InSel} {a now : Nat} {s t : State} (h : blockTick sel a now s = .ok t) :
    (∃ u, t = s.setFront u ∧ tickWrites sel a now s t = [inputRead]) ∨
    (∃ u z o, framePush z (s.setFront u) = .ok (o, t) ∧
      tickWrites sel a now s t = inputRead :: framePushWrites (s.setFront u) t) := by
  have hfront : chainFront sel a now s = _ := chainOn_eq (rawCode s.par (readInput sel a now s)) s
  generalize frontOn s.par s.fcActive.phaseStep (rawCode s.par (readInput sel a now s)) s.front = f at hfront
  obtain ⟨_ | z, u⟩ := f
  · refine .inl ⟨u, ?_, ?_⟩
    · rw [blockTick, hfront] at h
      exact (Except.ok.inj h).symm
    · rw [tickWrites, hfront]
  · refine .inr ⟨u, z, ?_⟩
    rw [blockTick, hfront] at h
    rw [tickWrites, hfront]
    dsimp only at h ⊢
    split at h
    · next o t' hp => cases h; exact ⟨o, hp, rfl⟩
    · cases h

/-- The units before the frame show in no word. -/
theorem sameView_setFront (s : State) (u : Front) : SameView s (s.setFront u) :=
  ⟨rfl, rfl, rfl, rfl, fun _ _ => rfl⟩

theorem ChainInv.setFront {s : State} (h : ChainInv s) (u : Front) : ChainInv (s.setFront u) := ⟨h.par, h.cap, h.count⟩

theorem chainKeeps_chainInv : ChainKeeps ChainInv where
  tick _ _ _ h := ⟨h.par, h.cap, h.count⟩
  hb1 _ _ h := ⟨h.par, h.cap, h.count⟩
  hb2 _ _ h := ⟨h.par, h.cap, h.count⟩
  push _ _ _ _ hp h := framePush_chainInv hp h

theorem chainKeeps_later {s : State} (hmax : s.par.outMax ≤ 65535) : ChainKeeps (Later s) where
  tick _ _ _ h := ⟨h.appends.of_unchanged rfl rfl rfl, h.ovf⟩
  hb1 _ _ h := ⟨h.appends.of_unchanged rfl rfl rfl, h.ovf⟩
  hb2 _ _ h := ⟨h.appends.of_unchanged rfl rfl rfl, h.ovf⟩
  push z u o t hp h := by
    rcases framePush_ok hp with ⟨_, _, rfl⟩ | ⟨_, _, f, _, _, rfl⟩
    · exact ⟨h.appends.of_unchanged rfl rfl rfl, h.ovf⟩
    · exact foldl_appendOut_keeps (fun _ z hu => hu.append z hmax) _ _ ⟨h.appends.of_unchanged rfl rfl rfl, h.ovf⟩

/-- What the accesses of one word of a block do. -/
theorem blockTick_view {sel : InSel} {a now : Nat} {s t v : State} (h : blockTick sel a now s = .ok t) (hs : ChainInv s)
    (hv : SameView v s) :
    SameView (afterAll (tickWrites sel a now s t) v) t ∧ CountsUp (tickWrites sel a now s t) v t ∧
      ∀ g ∈ tickWrites sel a now s t, ∃ u, TickAccess u t g := by
  rcases blockTick_accesses h with ⟨u, rfl, hws⟩ | ⟨u, z, o, hp, hws⟩
  · rw [hws]
    refine ⟨hv.trans (sameView_setFront s u), .of_keep (by simp [inputRead]) hv.count, fun g hg => ?_⟩
    rw [List.mem_singleton.1 hg]
    exact ⟨s, .read⟩
  · obtain ⟨hview, hup, haccess⟩ := framePush_view hp (hs.setFront u) (hv.trans (sameView_setFront s u))
    rw [hws]
    refine ⟨hview, ⟨le_rfl, hup⟩, fun g hg => ?_⟩
    rcases List.mem_cons.1 hg with rfl | hg
    · exact ⟨s, .read⟩
    · exact ⟨_, haccess g hg⟩

/-! ## The words of a block (R339) -/

/-- An access of a block that ends in t: one of some word's chain, with what a later word leaves of it. -/
def BlockAccess (t : State) (g : WordAccess) : Prop := ∃ u t', TickAccess u t' g ∧ Later t' t

theorem loopWrites_cons {sel : InSel} {a now : Nat} {s s1 : State} (n : Nat) (h : blockTick sel a now s = .ok s1) :
    loopWrites sel (n + 1) a now s = tickWrites sel a now s s1 ++
      loopWrites sel n (a + 1) (now + (tickWrites sel a now s s1).length) s1 := by
  simp only [loopWrites, h]

theorem blockLoop_cons {sel : InSel} {a now : Nat} {s s1 : State} (n : Nat) (h : blockTick sel a now s = .ok s1) :
    blockLoop sel (n + 1) a now s =
      blockLoop sel n (a + 1) (now + (tickWrites sel a now s s1).length) s1 := by
  simp only [blockLoop, h]

/-- A block of one more word that completes completes its first word. -/
theorem blockLoop_succ_ok {sel : InSel} {n a now : Nat} {s t : State} (h : blockLoop sel (n + 1) a now s = .ok t) :
    ∃ s1, blockTick sel a now s = .ok s1 ∧
      blockLoop sel n (a + 1) (now + (tickWrites sel a now s s1).length) s1 = .ok t := by
  cases hb : blockTick sel a now s with
  | ok s1 => exact ⟨s1, rfl, (blockLoop_cons n hb).symm.trans h⟩
  | error e => simp [blockLoop, hb] at h

/-- What the accesses of the words of a block do: the host ends up seeing the result, OUT_COUNT does not fall on the way,
and each access is one of a chain. -/
theorem blockLoop_view {sel : InSel} {n a now : Nat} {s t v : State} (h : blockLoop sel n a now s = .ok t)
    (hs : ChainInv s) (hv : SameView v s) :
    SameView (afterAll (loopWrites sel n a now s) v) t ∧ CountsUp (loopWrites sel n a now s) v t ∧
      ∀ g ∈ loopWrites sel n a now s, BlockAccess t g := by
  induction n generalizing a now s v with
  | zero =>
    obtain rfl : s = t := Except.ok.inj h
    exact ⟨hv, le_of_eq (congrArg _ hv.count), fun _ hg => absurd hg List.not_mem_nil⟩
  | succ n ih =>
    obtain ⟨s1, hb, hrest⟩ := blockLoop_succ_ok h
    have hs1 : ChainInv s1 := blockTick_keeps chainKeeps_chainInv hb hs
    obtain ⟨hview, hup, haccess⟩ := blockTick_view hb hs hv
    obtain ⟨hview', hup', haccess'⟩ := ih hrest hs1 hview
    have hlater : Later s1 t := blockLoop_keeps (chainKeeps_later hs1.canCount.1) hrest (.refl s1)
    rw [loopWrites_cons n hb]
    refine ⟨?_, hup.append hup', fun g hg => ?_⟩
    · rw [afterAll_append]; exact hview'
    · rcases List.mem_append.1 hg with hg | hg
      · obtain ⟨u, hu⟩ := haccess g hg
        exact ⟨u, s1, hu, hlater⟩
      · exact haccess' g hg

/-- An access of a block changes no steady word. -/
theorem BlockAccess.steady {t : State} {g : WordAccess} (h : BlockAccess t g) (v : State) :
    steadyWords (g v) = steadyWords v :=
  have ⟨_, _, hu, _⟩ := h
  hu.steady v

/-- It leaves OVF alone, or sets it when the block ends with it set. -/
theorem BlockAccess.ovf {t : State} {g : WordAccess} (h : BlockAccess t g) (v : State) :
    (g v).ovf = v.ovf ∨ (g v).ovf = t.ovf := by
  obtain ⟨u, t', hu, hlater⟩ := h
  cases hu with
  | overflow ho => exact .inr (hlater.ovf ho).symm
  | read | fill | wrap _ | cap _ | notch | peak | runner | outI _ _ | outQ _ _ | count _ => exact .inl rfl

/-- A word write leaves a word alone or is the write of that word. -/
theorem readWord_writeWord_cases (m : Memory) (b' : Buffer) (c' : Nat) (x : Half) (b : Buffer) (c : Nat) :
    (m.writeWord b' c' x).readWord b c = m.readWord b c ∨ b = b' ∧ c = c' ∧ (m.writeWord b' c' x).readWord b c = x := by
  by_cases hsame : b = b' ∧ c = c'
  · obtain ⟨rfl, rfl⟩ := hsame
    exact .inr ⟨rfl, rfl, Memory_readWord_writeWord_same _ _ _ _⟩
  · exact .inl (Memory_readWord_writeWord_other _ _ (not_and_or.1 hsame))

/-- It leaves a word of OUT_I or OUT_Q alone, or gives it the word that the block ends with. -/
theorem BlockAccess.output {t : State} {g : WordAccess} (h : BlockAccess t g) (v : State) {b : Buffer} (c : Nat) :
    (g v).mem.readWord b c = v.mem.readWord b c ∨ (g v).mem.readWord b c = t.mem.readWord b c := by
  obtain ⟨u, t', hu, hlater⟩ := h
  cases hu with
  | outI c' hc | outQ c' hc =>
    refine (readWord_writeWord_cases _ _ _ _ _ _).imp_right ?_
    rintro ⟨rfl, rfl, hnew⟩
    exact hnew.trans (hlater.readWord _ hc).symm
  | read | fill | wrap _ | cap _ | notch | peak | runner | count _ | overflow _ => exact .inl rfl

/-! ## Words held after some of a block's words (R114) -/

/-- What val reads at every place of one word of a block is that of the word's start or of its end, or the two are related
to the place by mid; and from a place at which it is that of the end on, it stays so. -/
def TickShows {α : Type} (val : State → α) (mid : State → State → State → Prop) (ws : List WordAccess) (v s t : State) :
    Prop :=
  ∀ p, (val (viewAt ws p v t) = val s ∨ val (viewAt ws p v t) = val t ∨ mid s t (viewAt ws p v t)) ∧
    ∀ q, p ≤ q → val (viewAt ws p v t) = val t → val (viewAt ws q v t) = val t

/-- The number of words behind place p of a block whose first word accesses ws, when f counts those of the others. -/
def wordsDone {α : Type} [DecidableEq α] (val : State → α) (ws : List WordAccess) (v t : State) (f : Nat → Nat) (p : Nat) :
    Nat :=
  if p < ws.length then if val (viewAt ws p v t) = val t then 1 else 0 else f (p - ws.length) + 1

theorem wordsDone_monotone {α : Type} [DecidableEq α] {val : State → α} {ws : List WordAccess} {v t : State}
    {f : Nat → Nat} (hstay : ∀ p q, p ≤ q → val (viewAt ws p v t) = val t → val (viewAt ws q v t) = val t)
    (hf : Monotone f) : Monotone (wordsDone val ws v t f) := by
  intro p q hpq
  unfold wordsDone
  by_cases hq : q < ws.length
  · rw [if_pos hq, if_pos (by omega)]
    by_cases hp : val (viewAt ws p v t) = val t
    · rw [if_pos hp, if_pos (hstay p q hpq hp)]
    · rw [if_neg hp]; exact Nat.zero_le _
  · rw [if_neg hq]
    by_cases hp : p < ws.length
    · rw [if_pos hp]
      split <;> omega
    · rw [if_neg hp]
      exact Nat.succ_le_succ (hf (by omega))

/-- What val reads in w is what it reads after m words of a block of n, or w lies between the word m and the next. -/
def HeldOrBetween {α : Type} (val : State → α) (mid : State → State → State → Prop) (sel : InSel) (n a now : Nat)
    (s : State) (m : Nat) (u w : State) : Prop :=
  val w = val u ∨ m < n ∧ ∃ u', blockLoop sel (m + 1) a now s = .ok u' ∧ mid u u' w

/-- What every word of a block shows so, the block shows so. -/
theorem blockLoop_held {α : Type} [DecidableEq α] {val : State → α} {mid : State → State → State → Prop}
    (htick : ∀ sel a now s t v, ChainInv s → SameView v s → blockTick sel a now s = .ok t →
      TickShows val mid (tickWrites sel a now s t) v s t)
    {sel : InSel} {n a now : Nat} {s t v : State} (h : blockLoop sel n a now s = .ok t) (hs : ChainInv s)
    (hv : SameView v s) :
    ∃ f : Nat → Nat, Monotone f ∧ ∀ p, f p ≤ n ∧ ∃ u, blockLoop sel (f p) a now s = .ok u ∧
      HeldOrBetween val mid sel n a now s (f p) u (viewAt (loopWrites sel n a now s) p v t) := by
  induction n generalizing a now s v with
  | zero =>
    obtain rfl : s = t := Except.ok.inj h
    exact ⟨fun _ => 0, monotone_const, fun p => ⟨le_rfl, s, rfl, .inl rfl⟩⟩
  | succ n ih =>
    obtain ⟨s1, hb, hrest⟩ := blockLoop_succ_ok h
    have hs1 : ChainInv s1 := blockTick_keeps chainKeeps_chainInv hb hs
    have hshows := htick sel a now s s1 v hs hv hb
    obtain ⟨f, hmono, hf⟩ := ih hrest hs1 (blockTick_view hb hs hv).1
    have hone : blockLoop sel 1 a now s = .ok s1 := blockLoop_cons 0 hb
    refine ⟨wordsDone val (tickWrites sel a now s s1) v s1 f, wordsDone_monotone (fun p => (hshows p).2) hmono,
      fun p => ?_⟩
    rw [loopWrites_cons n hb, viewAt_append, wordsDone]
    by_cases hp : p < (tickWrites sel a now s s1).length
    · rw [if_pos hp, if_pos hp, viewAt_congr_done hp v t s1]
      by_cases hnew : val (viewAt (tickWrites sel a now s s1) p v s1) = val s1
      · rw [if_pos hnew]
        exact ⟨by omega, s1, hone, .inl hnew⟩
      · rw [if_neg hnew]
        refine ⟨Nat.zero_le _, s, rfl, ?_⟩
        rcases (hshows p).1 with hold | hnew' | hmid
        · exact .inl hold
        · exact absurd hnew' hnew
        · exact .inr ⟨Nat.succ_pos n, s1, hone, hmid⟩
    · rw [if_neg hp, if_neg hp]
      obtain ⟨hle, u, hu, hheld⟩ := hf (p - (tickWrites sel a now s s1).length)
      refine ⟨Nat.succ_le_succ hle, u, (blockLoop_cons _ hb).trans hu, hheld.imp_right ?_⟩
      rintro ⟨hlt, u', hu', hmid⟩
      exact ⟨Nat.succ_lt_succ hlt, u', (blockLoop_cons _ hb).trans hu', hmid⟩

/-- A word off the counters that a word of a block writes is old and then new (R112). -/
theorem blockTick_shows_word {sp : Space} {a' : Nat} (ha : ¬CounterReg sp a') (sel : InSel) (a now : Nat) (s t v : State)
    (hs : ChainInv s) (hv : SameView v s) (h : blockTick sel a now s = .ok t) :
    TickShows (hostRead · sp a') (fun _ _ _ => False) (tickWrites sel a now s t) v s t := by
  obtain ⟨hview, _, haccess⟩ := blockTick_view h hs hv
  have hpar : v.par = t.par := by
    have hkeep : (afterAll (tickWrites sel a now s t) v).par = v.par :=
      afterAll_keeps (P := fun w => w.par = v.par)
        (fun g hg w hw => (par_of_steadyWords ((haccess g hg).choose_spec.steady w)).trans hw) rfl
    exact hkeep.symm.trans (par_of_steadyWords hview.steady)
  have hstatus : ¬(sp = .reg ∧ a' = 0x01) := fun h => ha ⟨h.1, .inl h.2⟩
  have hold := (oldThenNew_of_settlesOffCounters hpar fun g hg => (haccess g hg).choose_spec.settles).2 sp a' ha
  have hstart : hostRead v sp a' = hostRead s sp a' := hv.hostRead_eq hstatus
  intro p
  obtain ⟨hcases, hstay⟩ := hold p
  exact ⟨hcases.imp (·.trans hstart) .inl, hstay⟩

/-- FRAME_FILL is N/2 between the sample that fills a frame and the frame (R264). -/
def FrameFilling (s t w : State) : Prop :=
  w.fft.frameFill = s.par.half ∧ s.fft.frameFill + 1 = s.par.half ∧ t.fft.frameFill = 0

/-- The accesses of a frame's samples leave the FFT filter alone (R263). -/
theorem samplesWrites_keep_fft (zs : List Sample) (s t : State) : ∀ g ∈ samplesWrites zs s t, ∀ v, (g v).fft = v.fft := by
  intro g hg v
  obtain ⟨n, _, hg⟩ := List.mem_flatMap.1 hg
  unfold outputWrites at hg
  dsimp only at hg
  split at hg
  · simp only [List.mem_cons, List.not_mem_nil, or_false] at hg
    rcases hg with rfl | rfl | rfl <;> rfl
  · rw [List.mem_singleton.1 hg]

/-- What a word of a block shows of FRAME_FILL (R264). -/
theorem blockTick_shows_fill (sel : InSel) (a now : Nat) (s t v : State) (hs : ChainInv s) (hv : SameView v s)
    (h : blockTick sel a now s = .ok t) :
    TickShows (·.fft.frameFill) FrameFilling (tickWrites sel a now s t) v s t := by
  have hstart : v.fft.frameFill = s.fft.frameFill := congrArg Prod.fst hv.frame
  have hsteps : ∀ ws : List WordAccess, (∀ g ∈ ws, ∀ w : State,
      (g w).fft.frameFill = w.fft.frameFill ∨ (g w).fft.frameFill = t.fft.frameFill) →
      TickShows (·.fft.frameFill) FrameFilling ws v s t := fun ws hws p => by
    obtain ⟨hcases, hstay⟩ := OldThenNew_of (f := (·.fft.frameFill)) (fun _ => True) trivial trivial
      (fun g hg w _ => ⟨trivial, hws g hg w⟩) (s := v) (t := t) p
    exact ⟨hcases.imp (·.trans hstart) .inl, hstay⟩
  rcases blockTick_accesses h with ⟨u, rfl, hws⟩ | ⟨u, z, o, hp, hws⟩
  · rw [hws]
    exact hsteps _ (by simp [inputRead])
  rcases framePush_accesses hp with ⟨hfill, _, hpush⟩ | ⟨hfull, zs, g, _, ht, hpush⟩
  · have hnew : t.fft.frameFill = s.fft.frameFill + 1 := (framePush_fill hp).trans (if_neg hfill)
    rw [hws, hpush]
    refine hsteps _ ?_
    simp only [List.forall_mem_cons, List.not_mem_nil, false_imp_iff, implies_true, and_true]
    exact ⟨fun _ => .inl rfl, fun _ => .inr hnew.symm⟩
  · have hzero : t.fft.frameFill = 0 := (framePush_fill hp).trans (if_pos hfull)
    have hbig := (Params_wf_sizes hs.par).1
    have hquarter := (Params_wf_sizes hs.par).2.2.1
    replace hfull : s.fft.frameFill + 1 = s.par.half := hfull
    have hrest : ∀ p, (viewAt (tickWrites sel a now s t) (p + 3) v t).fft.frameFill = 0 := fun p => by
      rw [hws, hpush]
      refine viewAt_keeps (P := fun w => w.fft.frameFill = 0) p rfl (fun g hg w hw => ?_) hzero
      rcases List.mem_append.1 hg with hg | hg
      · exact (spectrumWrites_keep (·.fft.frameFill) (fun _ _ => rfl) (fun _ => rfl) (fun _ => rfl) (fun _ => rfl) g hg
          w).trans hw
      · exact (congrArg Fft.frameFill (samplesWrites_keep_fft _ _ _ g hg w)).trans hw
    have hfirst : (viewAt (tickWrites sel a now s t) 0 v t).fft.frameFill = s.fft.frameFill ∧
        (viewAt (tickWrites sel a now s t) 1 v t).fft.frameFill = s.fft.frameFill ∧
        (viewAt (tickWrites sel a now s t) 2 v t).fft.frameFill = s.fft.frameFill + 1 := by
      rw [hws, hpush]
      exact ⟨hstart, hstart, rfl⟩
    obtain ⟨h0, h1, h2⟩ := hfirst
    intro p
    match p with
    | 0 => exact ⟨.inl h0, fun q _ hnew => by dsimp only at hnew; omega⟩
    | 1 => exact ⟨.inl h1, fun q _ hnew => by dsimp only at hnew; omega⟩
    | 2 => exact ⟨.inr (.inr ⟨h2.trans hfull, hfull, hzero⟩), fun q _ hnew => by dsimp only at hnew; omega⟩
    | p + 3 =>
      refine ⟨.inr (.inl ((hrest p).trans hzero.symm)), fun q hq _ => ?_⟩
      obtain ⟨q, rfl⟩ := Nat.exists_eq_add_of_le' (Nat.le_trans (Nat.le_add_left 3 p) hq)
      exact (hrest q).trans hzero.symm

end Sys2Proof.Machine
end

section
/-! PROOFS of the family 20_memory, tenth part: the views of PROCESS_BLOCK and the races (R107, R112-R114, R339). -/

namespace Sys2Proof.Machine

/-! ## The words that show a frame (R72) -/

/-- The words of CAP, PEAK_IDX, RUNNER_IDX and NOTCH_CNT. -/
def FrameWord (sp : Space) (a : Nat) : Prop := sp = .cap ∨ (sp = .reg ∧ 0x08 ≤ a ∧ a ≤ 0x0A)

theorem FrameWord.not_counter {sp : Space} {a : Nat} (h : FrameWord sp a) : ¬CounterReg sp a := by
  rintro ⟨rfl, ha⟩
  rcases h with h | ⟨_, h⟩
  · cases h
  · omega

/-- They depend on the FFT filter alone. -/
theorem FrameWord.read {sp : Space} {a : Nat} (h : FrameWord sp a) {u v : State} (hpar : u.par = v.par)
    (hfft : u.fft = v.fft) : hostRead u sp a = hostRead v sp a := by
  rcases h with rfl | ⟨rfl, ha⟩
  · simp only [hostRead, hpar, hfft]
  · obtain rfl | rfl | rfl : a = 8 ∨ a = 9 ∨ a = 10 := by omega
    all_goals simp only [hostRead, hpar, readReg, hfft]

/-! ## PROCESS_BLOCK (R339) -/

/-- A block of legal length that completes: its start, and then its words. -/
theorem execProcessBlock_next {sel : InSel} {n : Half} {s t : State} (heven : n.toNat % 2 = 0)
    (hle : n.toNat ≤ s.par.inBufSize) (h : exec (.processBlock sel n) s = .next t) :
    blockLoop sel n.toNat 0 (blockStartWrites s).length (blockStart s) = .ok t := by
  have hrange : blockLengthInRange s.par n = true := (blockLengthInRange_iff _ _).2 ⟨heven, hle⟩
  simp only [exec, execProcessBlock, hrange, if_true] at h
  split at h
  · next u hu => cases h; exact hu
  · cases h

/-- The accesses of a block's words. -/
def wordWrites (sel : InSel) (n : Half) (s : State) : List WordAccess :=
  loopWrites sel n.toNat 0 (blockStartWrites s).length (blockStart s)

/-- The state after the accesses of a block's start. -/
def startView (s : State) : State := afterAll (blockStartWrites s) s

theorem startView_same (s : State) : SameView (startView s) (blockStart s) := ⟨rfl, rfl, rfl, rfl, fun _ _ => rfl⟩

theorem ChainInv.blockStart {s : State} (h : ChainInv s) : ChainInv (Machine.blockStart s) := ⟨h.par, h.cap, Nat.zero_le _⟩

/-- The views behind the start are those of the words. -/
theorem viewAt_block_add_four (sel : InSel) (n : Half) (s t : State) (p : Nat) :
    viewAt (blockWrites sel n s) (p + 4) s t = viewAt (wordWrites sel n s) p (startView s) t := rfl

/-- The places of a block, when f numbers those behind its start. -/
def afterStart (f : Nat → Nat) (p : Nat) : Nat := if p < 4 then 0 else f (p - 4)

theorem afterStart_monotone {f : Nat → Nat} (hf : Monotone f) : Monotone (afterStart f) := by
  intro p q hpq
  unfold afterStart
  by_cases hp : p < 4
  · rw [if_pos hp]; exact Nat.zero_le _
  · rw [if_neg hp, if_neg (by omega)]
    exact hf (by omega)

section
variable {sel : InSel} {n : Half} {s t : State}

/-- The views of the start leave the FFT filter as it was. -/
theorem viewAt_block_start {p : Nat} (hp : p < 4) :
    (viewAt (blockWrites sel n s) p s t).par = s.par ∧ (viewAt (blockWrites sel n s) p s t).fft = s.fft ∧
      (viewAt (blockWrites sel n s) p s t).ovf = s.ovf := by
  match p with
  | 0 | 1 | 2 | 3 => exact ⟨rfl, rfl, rfl⟩

variable (h : blockLoop sel n.toNat 0 (blockStartWrites s).length (blockStart s) = .ok t) (hs : ChainInv s)
include h

/-- Right behind the start the host sees what the start leaves. -/
theorem viewAt_block_four : SameView (viewAt (blockWrites sel n s) 4 s t) (blockStart s) := by
  rw [viewAt_block_add_four, wordWrites]
  cases hn : n.toNat with
  | zero =>
    rw [hn] at h
    obtain rfl : blockStart s = t := Except.ok.inj h
    exact .refl _
  | succ m =>
    rw [hn] at h
    obtain ⟨s1, hb, _⟩ := blockLoop_succ_ok h
    have hne : loopWrites sel (m + 1) 0 (blockStartWrites s).length (blockStart s) ≠ [] := by
      rw [loopWrites_cons m hb]
      rcases blockTick_accesses hb with ⟨_, _, hws⟩ | ⟨_, _, _, _, hws⟩ <;> rw [hws] <;> exact List.cons_ne_nil _ _
    rw [viewAt_start hne]
    exact startView_same s

/-- A block keeps the parameters and what its apply point leaves of the filter control. -/
theorem block_kept : t.par = s.par ∧ t.fcActive = (applyPoint s).fcActive ∧ t.fcChanged = false := by
  have hoff : offBlock t = offBlock (blockStart s) := blockLoop_offBlock h
  have hpar : (offBlock t).par = (offBlock (blockStart s)).par := congrArg State.par hoff
  have hactive : (offBlock t).fcActive = (offBlock (blockStart s)).fcActive := congrArg State.fcActive hoff
  have hchanged : (offBlock t).fcChanged = (offBlock (blockStart s)).fcChanged := congrArg State.fcChanged hoff
  exact ⟨hpar, hactive, hchanged⟩

include hs

/-- What the accesses of a block's words do. -/
theorem wordWrites_view :
    SameView (afterAll (wordWrites sel n s) (startView s)) t ∧ CountsUp (wordWrites sel n s) (startView s) t ∧
      ∀ g ∈ wordWrites sel n s, BlockAccess t g :=
  blockLoop_view h hs.blockStart (startView_same s)

/-- After its last access a block shows its result. -/
theorem block_view : SameView (afterAll (blockWrites sel n s) s) t := by
  have hws : blockWrites sel n s = blockStartWrites s ++ wordWrites sel n s := rfl
  rw [hws, afterAll_append]
  exact (wordWrites_view h hs).1

/-- Every access of a block is one of its apply point, one of the two clearings, or one of a chain. -/
theorem block_accesses : ∀ g ∈ blockWrites sel n s, g ∈ applyWrites s ∨
    g = (fun u => { u with outCount := 0 }) ∨ g = (fun u => { u with ovf := false }) ∨ BlockAccess t g := by
  intro g hg
  rcases List.mem_append.1 hg with hg | hg
  · rcases List.mem_append.1 hg with hg | hg
    · exact .inl hg
    · simp only [List.mem_cons, List.not_mem_nil, or_false] at hg
      exact .inr (hg.imp_right .inl)
  · exact .inr (.inr (.inr ((wordWrites_view h hs).2.2 g hg)))

/-- What the apply point writes and the words of a block leave alone or give its last value is old and then new (R112). -/
theorem block_oldThenNew {α : Type} {f : State → α}
    (hsettle : ∀ g, Settles t g → ∀ v, v.par = t.par → f (g v) = f v ∨ f (g v) = f t)
    (hclear : ∀ v : State, f { v with outCount := 0 } = f v ∧ f { v with ovf := false } = f v)
    (hword : ∀ g, BlockAccess t g → ∀ v, v.par = t.par → f (g v) = f v ∨ f (g v) = f t) :
    OldThenNew f (blockWrites sel n s) s t := by
  obtain ⟨hpar, hactive, hchanged⟩ := block_kept h
  refine OldThenNew_of (fun v => v.par = t.par) hpar.symm rfl fun g hg v hv => ?_
  rcases block_accesses h hs g hg with hg | rfl | rfl | hg
  · have hset := applyWrites_settle hactive hchanged g hg
    exact ⟨(hset v hv).1, hsettle g hset v hv⟩
  · exact ⟨hv, .inl (hclear v).1⟩
  · exact ⟨hv, .inl (hclear v).2⟩
  · exact ⟨(par_of_steadyWords (hg.steady v)).trans hv, hword g hg v hv⟩

/-- A field that is one of the steady words is old and then new. -/
theorem block_oldThenNew_steady {α : Type} {f : State → α} (hf : ∀ u v, steadyWords u = steadyWords v → f u = f v)
    (hsettle : ∀ g, Settles t g → ∀ v, v.par = t.par → f (g v) = f v ∨ f (g v) = f t) :
    OldThenNew f (blockWrites sel n s) s t :=
  block_oldThenNew h hs hsettle (fun _ => ⟨hf _ _ rfl, hf _ _ rfl⟩) fun _ hg v _ => .inl (hf _ _ (hg.steady v))

/-- The fields of STATUS but OVF and BUSY are old and then new. -/
theorem block_status :
    OldThenNew State.err (blockWrites sel n s) s t ∧ OldThenNew State.errCode (blockWrites sel n s) s t ∧
    OldThenNew State.fcChanged (blockWrites sel n s) s t ∧ OldThenNew State.resValid (blockWrites sel n s) s t ∧
    OldThenNew (fun u => u.sq.mode) (blockWrites sel n s) s t := by
  refine ⟨block_oldThenNew_steady h hs (fun u v huv => ?_) fun g hg v hv => (hg v hv).2.2.1,
    block_oldThenNew_steady h hs (fun u v huv => ?_) fun g hg v hv => (hg v hv).2.2.2.1,
    block_oldThenNew_steady h hs (fun u v huv => ?_) fun g hg v hv => (hg v hv).2.2.2.2.1,
    block_oldThenNew_steady h hs (fun u v huv => ?_) fun g hg v hv => (hg v hv).2.2.2.2.2.2.1,
    block_oldThenNew_steady h hs (fun u v huv => ?_) fun g hg v hv => (hg v hv).2.2.2.2.2.2.2⟩
  all_goals simp only [steadyWords, Prod.mk.injEq] at huv; simp only [huv]

/-- Each word of OUT_I and OUT_Q, and each register that no frame writes, is old and then new. -/
theorem block_words {sp : Space} {a : Nat}
    (ha : sp = .outI ∨ sp = .outQ ∨ (sp = .reg ∧ a ≠ 0x01 ∧ a ≠ 0x04 ∧ ¬(0x07 ≤ a ∧ a ≤ 0x0A))) :
    OldThenNew (hostRead · sp a) (blockWrites sel n s) s t := by
  rcases ha with rfl | rfl | ⟨rfl, h1, h4, h7⟩
  · refine block_oldThenNew h hs (fun g hg v hv => (hg v hv).2.1 .outI a nofun) (fun _ => ⟨rfl, rfl⟩) fun g hg v hv => ?_
    simp only [hostRead, par_of_steadyWords (hg.steady v), hv]
    exact (hg.output v (b := .outI) a).imp (fun e => by rw [e]) fun e => by rw [e]
  · refine block_oldThenNew h hs (fun g hg v hv => (hg v hv).2.1 .outQ a nofun) (fun _ => ⟨rfl, rfl⟩) fun g hg v hv => ?_
    simp only [hostRead, par_of_steadyWords (hg.steady v), hv]
    exact (hg.output v (b := .outQ) a).imp (fun e => by rw [e]) fun e => by rw [e]
  · have hsteady : a ∉ unsteadyRegs := by
      simp only [unsteadyRegs, List.mem_cons, List.not_mem_nil, or_false]
      omega
    exact block_oldThenNew_steady h hs (fun u v huv => hostRead_reg_of_steady huv hsteady) fun g hg v hv =>
      (hg v hv).2.1 .reg a fun hstatus => h1 hstatus.2

/-- OUT_COUNT during a block: the old value, then 0, and then it counts up to the new one (R339). -/
theorem block_count :
    (∀ p, p < 3 → (viewAt (blockWrites sel n s) p s t).outCount = s.outCount) ∧
    (viewAt (blockWrites sel n s) 3 s t).outCount = 0 ∧
    ∀ p q, 3 ≤ p → p ≤ q →
      (viewAt (blockWrites sel n s) p s t).outCount.toNat ≤ (viewAt (blockWrites sel n s) q s t).outCount.toNat ∧
      (viewAt (blockWrites sel n s) q s t).outCount.toNat ≤ t.outCount.toNat := by
  refine ⟨fun p hp => ?_, rfl, fun p q hp hpq => ?_⟩
  · match p with
    | 0 | 1 | 2 => rfl
  · obtain ⟨p, rfl⟩ := Nat.exists_eq_add_of_le' hp
    obtain ⟨q, rfl⟩ := Nat.exists_eq_add_of_le' (hp.trans hpq)
    have hcleared : CountsUp ((fun u => { u with ovf := false }) :: wordWrites sel n s)
        { (applyPoint s) with outCount := 0 } t := ⟨le_rfl, (wordWrites_view h hs).2.1⟩
    exact (hcleared.views (p := p) (q := q) (by omega)).2

/-- OVF during a block: the old value, then 0, and then 1 if a sample is dropped (R339). -/
theorem block_ovf :
    (∀ p, p < 4 → (viewAt (blockWrites sel n s) p s t).ovf = s.ovf) ∧
    (viewAt (blockWrites sel n s) 4 s t).ovf = false ∧
    ∀ p q, 4 ≤ p → p ≤ q → (viewAt (blockWrites sel n s) p s t).ovf = true →
      (viewAt (blockWrites sel n s) q s t).ovf = true ∧ t.ovf = true := by
  refine ⟨fun p hp => (viewAt_block_start hp).2.2, (viewAt_block_four h).ovf, fun p q hp hpq hset => ?_⟩
  obtain ⟨p, rfl⟩ := Nat.exists_eq_add_of_le' hp
  obtain ⟨q, rfl⟩ := Nat.exists_eq_add_of_le' (hp.trans hpq)
  rw [viewAt_block_add_four] at hset ⊢
  have hold : OldThenNew State.ovf (wordWrites sel n s) (startView s) t :=
    OldThenNew_of (fun _ => True) trivial trivial fun g hg v _ => ⟨trivial, ((wordWrites_view h hs).2.2 g hg).ovf v⟩
  obtain ⟨hcases, hstay⟩ := hold p
  have hnew : t.ovf = true := by
    rcases hcases with hstart | hend
    · cases hset.symm.trans hstart
    · exact hend.symm.trans hset
  exact ⟨(hstay q (by omega) (hset.trans hnew.symm)).trans hnew, hnew⟩

/-- What every word of a block shows so, and its start leaves alone, the block shows so. -/
theorem block_held {α : Type} [DecidableEq α] {val : State → α} {mid : State → State → State → Prop}
    (htick : ∀ sel a now s t v, ChainInv s → SameView v s → blockTick sel a now s = .ok t →
      TickShows val mid (tickWrites sel a now s t) v s t)
    (hstart : ∀ p, p < 4 → val (viewAt (blockWrites sel n s) p s t) = val (blockStart s)) :
    HeldAfterWords sel n.toNat s t (blockWrites sel n s) fun m u v =>
      HeldOrBetween val mid sel n.toNat 0 (blockStartWrites s).length (blockStart s) m u v := by
  obtain ⟨f, hmono, hf⟩ := blockLoop_held htick h hs.blockStart (startView_same s)
  refine ⟨afterStart f, afterStart_monotone hmono, fun p => ?_⟩
  unfold afterStart
  by_cases hp : p < 4
  · rw [if_pos hp]
    exact ⟨Nat.zero_le _, blockStart s, rfl, .inl (hstart p hp)⟩
  · rw [if_neg hp]
    obtain ⟨p, rfl⟩ := Nat.exists_eq_add_of_le' (Nat.not_lt.1 hp)
    exact hf p

/-- A word of CAP, PEAK_IDX, RUNNER_IDX or NOTCH_CNT during a block (R114, R339). -/
theorem block_frameWord {sp : Space} {a : Nat} (ha : FrameWord sp a) :
    (∀ p, p ≤ 4 → hostRead (viewAt (blockWrites sel n s) p s t) sp a = hostRead s sp a) ∧
    HeldAfterWords sel n.toNat s t (blockWrites sel n s) fun _ u v => hostRead v sp a = hostRead u sp a := by
  have hearly : ∀ p, p < 4 → hostRead (viewAt (blockWrites sel n s) p s t) sp a = hostRead s sp a := fun p hp =>
    ha.read (viewAt_block_start hp).1 (viewAt_block_start hp).2.1
  have hbegin : hostRead (blockStart s) sp a = hostRead s sp a := ha.read rfl rfl
  refine ⟨fun p hp => ?_, ?_⟩
  · rcases Nat.lt_or_eq_of_le hp with hp | rfl
    · exact hearly p hp
    · exact ((viewAt_block_four h).hostRead_eq fun hst => ha.not_counter ⟨hst.1, .inl hst.2⟩).trans hbegin
  · obtain ⟨f, hmono, hf⟩ := block_held h hs (val := (hostRead · sp a)) (blockTick_shows_word ha.not_counter)
      fun p hp => (hearly p hp).trans hbegin.symm
    refine ⟨f, hmono, fun p => ?_⟩
    obtain ⟨hle, u, hu, hheld⟩ := hf p
    exact ⟨hle, u, hu, hheld.resolve_right fun ⟨_, _, _, hno⟩ => hno⟩

/-- FRAME_FILL during a block (R264, R339). -/
theorem block_fill :
    (∀ p, p ≤ 4 → (viewAt (blockWrites sel n s) p s t).fft.frameFill = s.fft.frameFill) ∧
    HeldAfterWords sel n.toNat s t (blockWrites sel n s) fun m u v =>
      v.fft.frameFill = u.fft.frameFill ∨
      (v.fft.frameFill = s.par.fftN / 2 ∧ u.fft.frameFill + 1 = s.par.fftN / 2 ∧ m < n.toNat ∧
        ∃ u', blockPrefix sel (m + 1) s = .ok u' ∧ u'.fft.frameFill = 0) := by
  have hearly : ∀ p, p < 4 → (viewAt (blockWrites sel n s) p s t).fft.frameFill = s.fft.frameFill := fun p hp =>
    congrArg Fft.frameFill (viewAt_block_start hp).2.1
  refine ⟨fun p hp => ?_, ?_⟩
  · rcases Nat.lt_or_eq_of_le hp with hp | rfl
    · exact hearly p hp
    · exact congrArg Prod.fst (viewAt_block_four h).frame
  · obtain ⟨f, hmono, hf⟩ := block_held h hs (val := (·.fft.frameFill)) blockTick_shows_fill hearly
    refine ⟨f, hmono, fun p => ?_⟩
    obtain ⟨hle, u, hu, hheld⟩ := hf p
    refine ⟨hle, u, hu, hheld.imp_right ?_⟩
    rintro ⟨hlt, u', hu', hview, hfull, hzero⟩
    have hpar : u.par = (blockStart s).par :=
      blockLoop_field State.par (fun _ _ => rfl) (fun _ _ => rfl) (fun _ _ => rfl) (fun _ _ => rfl)
        (fun s z => appendOut_par z s) (s := blockStart s) hu
    rw [hpar] at hview hfull
    exact ⟨hview, hfull, hlt, u', hu', hzero⟩

end

/-! ## The races (R112-R114) -/

/-- The input race: places never go back, and a read finds the last write before it (R113). -/
theorem inputRace (sel : InSel) (a now m : Nat) (s : State) :
    (placesFrom s.draws 0 s.overlap.length).length = s.overlap.length ∧
    (placesFrom s.draws 0 s.overlap.length).Pairwise (· ≤ ·) ∧
    ((∀ k p, (placesFrom s.draws 0 s.overlap.length)[k]? = some p → (p ≤ now ↔ k < m)) →
      (NoWrite (s.overlap.take m) (inputSpace sel) a →
        readInput sel a now s = s.mem.readWord (inputBuffer sel) a) ∧
      ∀ v, LastWrite (s.overlap.take m) (inputSpace sel) a v → readInput sel a now s = v.extractLsb' 0 16) := by
  refine ⟨placesFrom_length _ _ _, placesFrom_pairwise _ _ _, fun hplaces => ?_⟩
  rw [readInput_eq_getLastD hplaces]
  exact ⟨fun hno => by rw [hno.filterMap_eq_nil]; rfl, fun v hlast => hlast.getLastD_filterMap _⟩

/-- After its last access every command word shows its result (R114). -/
theorem commandWrites_view {w : Word} {s t : State} (hs : ChainInv s) (h : runWord w s = .next t) :
    SameView (afterAll (commandWrites w s t) s) t := by
  obtain ⟨i, _, hwf, hexec, hws⟩ | ⟨_, e, rfl, hws⟩ := runWord_accesses h
  · rw [hws]
    by_cases hpush : i = .fftPush
    · subst hpush
      exact fftPush_view hexec hs
    by_cases hblock : ∃ sel n, i = .processBlock sel n
    · obtain ⟨sel, n, rfl⟩ := hblock
      have hrange := (blockLengthInRange_iff s.par n).1 ((blockLengthInRange_eq_wf s.par n).trans hwf)
      exact block_view (execProcessBlock_next hrange.1 hrange.2 hexec) hs
    · exact instrWrites_view hexec hwf hs.cap hpush fun sel n hi => hblock ⟨sel, n, hi⟩
  · rw [hws]
    exact errorWrites_view e s

/-- Every access of a command word that runs neither FFT_PUSH nor a block is on the way to its result. -/
theorem commandWrites_settle {w : Word} {s t : State} (h : runWord w s = .next t) (hpush : decode w ≠ .ok .fftPush)
    (hblock : ∀ sel n, decode w = .ok (.processBlock sel n) → n.toNat % 2 = 1 ∨ s.par.inBufSize < n.toNat) :
    ∀ g ∈ commandWrites w s t, Settles t g := by
  obtain ⟨i, hd, hwf, hexec, hws⟩ | ⟨_, e, rfl, hws⟩ := runWord_accesses h
  · rw [hws]
    refine instrWrites_settle hexec hwf (fun hi => hpush (hi ▸ hd)) fun sel n hi => ?_
    subst hi
    have hrange := (blockLengthInRange_iff s.par n).1 ((blockLengthInRange_eq_wf s.par n).trans hwf)
    have hbad := hblock sel n hd
    omega
  · rw [hws]
    exact errorWrites_settle _

/-- A block of legal length that a command word runs, and its accesses. -/
theorem runWord_processBlock {w : Word} {sel : InSel} {n : Half} {s t : State} (hd : decode w = .ok (.processBlock sel n))
    (heven : n.toNat % 2 = 0) (hle : n.toNat ≤ s.par.inBufSize) (h : runWord w s = .next t) :
    blockLoop sel n.toNat 0 (blockStartWrites s).length (blockStart s) = .ok t ∧
      commandWrites w s t = blockWrites sel n s := by
  have hwf : (Instr.processBlock sel n).wf s.par = true :=
    (blockLengthInRange_eq_wf s.par n).symm.trans ((blockLengthInRange_iff s.par n).2 ⟨heven, hle⟩)
  rw [runWord_of_ok hd] at h
  exact ⟨execProcessBlock_next heven hle h, commandWrites_of_wf hd hwf t⟩

/-- Settles O19: the input race by the places of the accesses; each other command by its own accesses, FFT_PUSH and
PROCESS_BLOCK by those of a chain. -/
theorem racesAdmitOldOrNew : Obligations.RacesAdmitOldOrNew := by
  refine ⟨inputRace, fun w s t hpar hcap hcount hrun => ?_⟩
  have hs : ChainInv s := ⟨hpar, hcap, hcount⟩
  refine ⟨fun hpush hblock => ?_, fun hd => ?_, fun sel n hd heven hle => ?_, fun sel n hd heven hle => ?_, fun sp a => ?_⟩
  · exact OldThenNew_of_settles (runWord_keepsFormAndPar hrun).par.symm (commandWrites_settle hrun hpush hblock)
  · rw [commandWrites_of_wf hd rfl]
    rw [runWord_of_ok hd] at hrun
    obtain ⟨hstatus, hwords⟩ := fftPush_oldThenNew hrun hs
    refine ⟨hstatus, hwords, fun p q hpq => ?_⟩
    obtain ⟨hlow, hmid, hhigh⟩ := (fftPush_countsUp hrun hs).views hpq
    exact ⟨hlow, hmid, hhigh, fftPush_fill hrun hs p⟩
  · obtain ⟨hloop, hws⟩ := runWord_processBlock hd heven hle hrun
    rw [hws]
    exact ⟨fun sp a ha => block_words hloop hs ha, block_count hloop hs⟩
  · obtain ⟨hloop, hws⟩ := runWord_processBlock hd heven hle hrun
    rw [hws]
    exact ⟨block_status hloop hs, block_ovf hloop hs, fun sp a ha => block_frameWord hloop hs ha, block_fill hloop hs⟩
  · exact (commandWrites_view hs hrun).hostRead_busy sp a

end Sys2Proof.Machine
end

section
/-! PROOFS of the family 30_encoding, first part: the decoder and the encoder, and which words raise which decode error
(R105, R130-R136). -/

namespace Sys2Proof

open Machine (opcodesN opcodesI opcodesF opcodesX)

/-! ## The opcode map (R131, R133, R134) -/

/-- The opcodes of a format, as the statements list them (R131, R133). -/
def opcodesOf : Format → List Nat
  | .n => opcodesN
  | .i => opcodesI
  | .f => opcodesF
  | .x => opcodesX

/-- The format column of the opcode map (R133). -/
theorem formatOf_eq_some_iff {op : BitVec 8} {fmt : Format} : formatOf op = some fmt ↔ op.toNat ∈ opcodesOf fmt := by
  unfold formatOf
  split <;> cases fmt <;> simp_all [opcodesOf, opcodesN, opcodesI, opcodesF, opcodesX]

theorem formatOf_eq_none_iff {op : BitVec 8} :
    formatOf op = none ↔ op.toNat ∉ opcodesN ++ opcodesI ++ opcodesF ++ opcodesX := by
  simp only [Option.eq_none_iff_forall_ne_some, ne_eq, formatOf_eq_some_iff, List.mem_append, not_or, and_assoc]
  exact ⟨fun h => ⟨h .n, h .i, h .f, h .x⟩, fun ⟨hn, hi, hf, hx⟩ fmt => by cases fmt <;> assumption⟩

/-- The opcodes of a format as bytes. -/
theorem op_mem_of_formatOf {op : BitVec 8} {fmt : Format} (h : formatOf op = some fmt) :
    op ∈ (opcodesOf fmt).map (BitVec.ofNat 8) :=
  List.mem_map.2 ⟨op.toNat, formatOf_eq_some_iff.1 h, BitVec.ofNat_toNat 8 op ▸ BitVec.setWidth_eq op⟩

/-! ## Reserved bits (R130, R131) -/

theorem opField_toNat (w : Word) : (opField w).toNat = w.toNat / 2 ^ 24 := by
  have hop : (opField w).toNat = w.toNat / 2 ^ 24 % 2 ^ 8 := by
    rw [opField, BitVec.extractLsb'_toNat, Nat.shiftRight_eq_div_pow]
  have hw := w.isLt
  omega

theorem fldField_toNat (w : Word) : (fldField w).toNat = w.toNat / 2 ^ 16 % 2 ^ 8 := by
  rw [fldField, BitVec.extractLsb'_toNat, Nat.shiftRight_eq_div_pow]

theorem immField_toNat (w : Word) : (immField w).toNat = w.toNat % 2 ^ 16 := by
  rw [immField, BitVec.extractLsb'_toNat, Nat.shiftRight_zero]

/-- The reserved bits of each format, as a part of the word that must be 0 (R131). -/
def reservedPart : Format → Nat → Nat
  | .n, w => w % 2 ^ 24
  | .i, w => w / 2 ^ 16 % 2 ^ 8
  | .f, _ => 0
  | .x, w => w / 2 ^ 17 % 2 ^ 7

theorem reservedClear_iff (fmt : Format) (w : Word) :
    reservedClear fmt (fldField w) (immField w) = true ↔ reservedPart fmt w.toNat = 0 := by
  have hfld : fldField w = 0 ↔ w.toNat / 2 ^ 16 % 2 ^ 8 = 0 := by
    rw [← BitVec.toNat_inj, fldField_toNat]; rfl
  have himm : immField w = 0 ↔ w.toNat % 2 ^ 16 = 0 := by
    rw [← BitVec.toNat_inj, immField_toNat]; rfl
  cases fmt <;> simp only [reservedClear, reservedPart, Bool.and_eq_true, decide_eq_true_eq, hfld, himm, fldField_toNat]
  case n => omega
  case x => omega

/-! ## The decoder (R131-R136) -/

/-- A fld byte below 2 is the encoding of the selector that its low bit gives (R131, R132). -/
theorem fld_ofBit {fld : BitVec 8} (h : fld.toNat < 2) :
    (InSel.ofBit (selBit fld)).fld = fld ∧ (Side.ofBit (selBit fld)).fld = fld := by
  obtain rfl | rfl : fld = 0 ∨ fld = 1 := by bv_omega
  · exact ⟨rfl, rfl⟩
  · exact ⟨rfl, rfl⟩

/-- Every opcode of a format has a command, and with clear reserved bits the encoder takes the command back to the fields
it was decoded from: the 20 rows of the opcode map, format by format (R131, R133). -/
theorem exists_instrOf {op : BitVec 8} {fmt : Format} (h : formatOf op = some fmt) (fld : BitVec 8) (imm : Half) :
    ∃ i, instrOf op fld imm = some i ∧ (reservedClear fmt fld imm = true → encode i = packWord op fld imm) := by
  have hop := op_mem_of_formatOf h
  cases fmt <;> simp only [opcodesOf, opcodesN, opcodesI, opcodesF, opcodesX, List.map, List.mem_cons,
    List.not_mem_nil, or_false] at hop <;>
    simp only [reservedClear, Bool.and_eq_true, decide_eq_true_eq, forall_const]
  case n =>
    obtain rfl | rfl | rfl | rfl | rfl | rfl | rfl | rfl := hop <;>
      exact ⟨_, rfl, fun ⟨hfld, himm⟩ => hfld ▸ himm ▸ rfl⟩
  case i =>
    obtain rfl | rfl | rfl | rfl | rfl | rfl | rfl | rfl | rfl := hop <;> exact ⟨_, rfl, fun hfld => hfld ▸ rfl⟩
  case f => obtain rfl := hop; exact ⟨_, rfl, rfl⟩
  case x =>
    obtain rfl | rfl := hop
    · exact ⟨_, rfl, fun hsel => congrArg (packWord 0x07 · imm) (fld_ofBit hsel).1⟩
    · exact ⟨_, rfl, fun hsel => congrArg (packWord 0x14 · imm) (fld_ofBit hsel).2⟩

/-- What the decoder can answer, in R136's order: an opcode outside the map, a set reserved bit, or a command that encodes
to the word. -/
theorem decode_cases (w : Word) :
    (formatOf (opField w) = none ∧ decode w = .error .illegalOpcode) ∨
    ∃ fmt, formatOf (opField w) = some fmt ∧
      ((reservedPart fmt w.toNat ≠ 0 ∧ decode w = .error .reservedField) ∨
       (reservedPart fmt w.toNat = 0 ∧ ∃ i, decode w = .ok i ∧ encode i = w)) := by
  cases hf : formatOf (opField w) with
  | none => exact .inl ⟨rfl, by simp only [decode, decodeFields, hf]⟩
  | some fmt =>
    obtain ⟨i, hi, henc⟩ := exists_instrOf hf (fldField w) (immField w)
    rw [packWord_fields, reservedClear_iff] at henc
    refine .inr ⟨fmt, rfl, ?_⟩
    by_cases hr : reservedPart fmt w.toNat = 0
    · refine .inr ⟨hr, i, ?_, henc hr⟩
      simp only [decode, decodeFields, hf, hi, (reservedClear_iff fmt w).2 hr, if_true]
    · refine .inl ⟨hr, ?_⟩
      simp only [decode, decodeFields, hf, hi, mt (reservedClear_iff fmt w).1 hr, Bool.false_eq_true,
        if_false]

/-- The row of the opcode map of each command, read back from its packed word (R133). -/
theorem decode_encode (i : Instr) : decode (encode i) = .ok i := by
  cases i with
  | processBlock sel n => cases sel <;> exact decode_packWord _ _ _
  | nrBin side b => cases side <;> exact decode_packWord _ _ _
  | nop | softReset | seti _ | setq _ | cfgWrite _ _ | cfgPublish | clrErr | cicStep _ | hb1Step | hb2Step | droop _
  | fftPush | sqInit _ | sqEnable _ | sqDisable | sqCalibrate _ | sqSetTimeout _ | sqUpdate _ =>
    exact decode_packWord _ _ _

/-! ## The statements about the encoding -/

/-- Settles O1: each row of the opcode map is read back, and the bytes of a word decode as the word. -/
theorem decodeEncodeRoundTrip : Obligations.DecodeEncodeRoundTrip := by
  intro i rest
  exact ⟨decode_encode i, by rw [encodeBytes, decodeBytes_bytesOfWord, decode_encode]⟩

/-- Settles O2: of the decoder's answers only a command is no error, and it encodes to the word. -/
theorem decodedWordReencodes : Obligations.DecodedWordReencodes := by
  intro w i h
  obtain ⟨_, he⟩ | ⟨_, _, ⟨_, he⟩ | ⟨_, j, hj, henc⟩⟩ := decode_cases w
  · cases he.symm.trans h
  · cases he.symm.trans h
  · cases hj.symm.trans h
    exact henc

theorem decode_eq_illegalOpcode_iff (w : Word) : decode w = .error .illegalOpcode ↔ formatOf (opField w) = none := by
  obtain ⟨hf, he⟩ | ⟨fmt, hf, ⟨_, he⟩ | ⟨_, i, he, _⟩⟩ := decode_cases w <;> simp [hf, he]

theorem decode_eq_reservedField_iff (w : Word) :
    decode w = .error .reservedField ↔ ∃ fmt, formatOf (opField w) = some fmt ∧ reservedPart fmt w.toNat ≠ 0 := by
  obtain ⟨hf, he⟩ | ⟨fmt, hf, ⟨hr, he⟩ | ⟨hr, i, he, _⟩⟩ := decode_cases w
  · simp [hf, he]
  · simp [hf, he, hr]
  · simp [hf, he, hr]

theorem decode_ne_operandRange (w : Word) : decode w ≠ .error .operandRange := by
  obtain ⟨_, he⟩ | ⟨_, _, ⟨_, he⟩ | ⟨_, i, he, _⟩⟩ := decode_cases w <;> simp [he]

/-- Settles O3: the opcode's column in the opcode map decides the first error, the part of the word that its format
reserves the second; a format F word reserves nothing. -/
theorem decodeErrorsByFormat : Obligations.DecodeErrorsByFormat := by
  intro w
  refine ⟨?_, ?_, decode_ne_operandRange w⟩
  · rw [decode_eq_illegalOpcode_iff, formatOf_eq_none_iff, opField_toNat]
  · simp only [decode_eq_reservedField_iff, formatOf_eq_some_iff, opField_toNat]
    constructor
    · rintro ⟨fmt, hop, hr⟩
      cases fmt with
      | n => exact .inl ⟨hop, hr⟩
      | i => exact .inr (.inl ⟨hop, hr⟩)
      | f => exact absurd rfl hr
      | x => exact .inr (.inr ⟨hop, hr⟩)
    · rintro (h | h | h)
      exacts [⟨.n, h⟩, ⟨.i, h⟩, ⟨.x, h⟩]

/-- A word that is the encoding of a command decodes to it. -/
theorem decode_of_encode {w : Word} {i : Instr} (h : encode i = w) : decode w = .ok i := h ▸ decode_encode i

/-- Settles O4: the ten words are the encodings of their commands; of the other two, 0x2101000D sets a bit that format I
reserves and 0x08 is no opcode. -/
theorem tableWordsDecode : Obligations.TableWordsDecode := by
  have hreserved : decode 0x2101000D = .error .reservedField := (decode_eq_reservedField_iff _).2 ⟨.i, rfl, by decide⟩
  have hillegal : decode 0x08000000 = .error .illegalOpcode := (decode_eq_illegalOpcode_iff _).2 rfl
  exact ⟨decode_of_encode rfl, decode_of_encode rfl, decode_of_encode rfl, decode_of_encode rfl, decode_of_encode rfl,
    decode_of_encode rfl, decode_of_encode rfl, decode_of_encode rfl, decode_of_encode rfl, decode_of_encode rfl,
    hreserved, hillegal⟩

end Sys2Proof
end

section
/-! PROOFS of the family 30_encoding, second part: SYNC, and the decision procedure of a command word (R136, R138, R339,
R362, R363). -/

namespace Sys2Proof.Machine

/-! ## SYNC (R138, R339) -/

/-- Settles O55: a block of no words is its start, which is the apply point and the clearing of OUT_COUNT, RAIL and OVF. -/
theorem syncResult : Obligations.SyncResult := by
  intro sel s
  have hloop : blockLoop sel (0 : Half).toNat 0 (blockStartWrites s).length (blockStart s) = .ok (blockStart s) := rfl
  exact execProcessBlock_of_legal rfl (Nat.zero_le _) hloop

/-! ## A block and a change of the state that its chain cannot tell (R330, R339) -/

/-- A change of the state that no operation of the chain, no input read and no list of word accesses can tell. -/
structure ChainBlind (φ : State → State) : Prop extends FrameBlind φ where
  tick : ∀ r s, tickState r (φ s) = (tickState r s).map id φ
  hb1 : ∀ z s, hb1State z (φ s) = (hb1State z s).map id φ
  hb2 : ∀ z s, hb2State z (φ s) = (hb2State z s).map id φ
  start : ∀ s, blockStart (φ s) = φ (blockStart s)
  read : ∀ sel a now s, readInput sel a now (φ s) = readInput sel a now s
  writes : ∀ s t, framePushWrites (φ s) (φ t) = framePushWrites s t

section
variable {φ : State → State} (h : ChainBlind φ) (sel : InSel) (a now : Nat)
include h

theorem ChainBlind.chainFront (s : State) :
    chainFront sel a now (φ s) = (Machine.chainFront sel a now s).map id φ := by
  unfold Machine.chainFront
  rw [h.par, h.read, h.tick]
  obtain ⟨_ | z, s1⟩ := tickState (rawCode s.par (readInput sel a now s)) s
  · rfl
  · simp only [Prod.map, id, h.hb1]
    obtain ⟨_ | z2, s2⟩ := hb1State z s1
    · rfl
    · simp only [Prod.map, id, h.hb2]

theorem ChainBlind.blockTick (s : State) :
    blockTick sel a now (φ s) = (Machine.blockTick sel a now s).map φ := by
  unfold Machine.blockTick
  rw [h.chainFront]
  obtain ⟨_ | z, s1⟩ := Machine.chainFront sel a now s
  · rfl
  · simp only [Prod.map, id, h.toFrameBlind.framePush]
    cases Machine.framePush z s1 <;> rfl

theorem ChainBlind.tickWrites (s t : State) : tickWrites sel a now (φ s) (φ t) = Machine.tickWrites sel a now s t := by
  unfold Machine.tickWrites
  rw [h.chainFront]
  obtain ⟨_ | z, s1⟩ := Machine.chainFront sel a now s
  · rfl
  · simp only [Prod.map, id, h.writes]

theorem ChainBlind.blockLoop (n : Nat) (s : State) :
    blockLoop sel n a now (φ s) = (Machine.blockLoop sel n a now s).map φ := by
  induction n generalizing a now s with
  | zero => rfl
  | succ n ih =>
    simp only [Machine.blockLoop, h.blockTick]
    cases Machine.blockTick sel a now s with
    | error e => rfl
    | ok s1 =>
      simp only [Except.map, h.tickWrites]
      exact ih (a + 1) _ s1

/-- A block commutes with such a change (R339). -/
theorem ChainBlind.execProcessBlock {n : Half} {s : State} (hn : blockLengthInRange s.par n = true) :
    execProcessBlock sel n (φ s) = onNext φ (Machine.execProcessBlock sel n s) := by
  have hlength : (blockStartWrites (φ s)).length = (blockStartWrites s).length := rfl
  simp only [Machine.execProcessBlock, h.par, hn, if_true, hlength, h.start, h.blockLoop]
  cases Machine.blockLoop sel (uimm n) 0 (blockStartWrites s).length (blockStart s) <;> rfl

end

/-! ## The error status (R362, R363, R365) -/

/-- The state with BUSY, ERR and ERR_CODE replaced: what raising a command error writes (R362). -/
def State.setTrap (busy err : Bool) (code : Option CmdError) (s : State) : State :=
  { s with busy := busy, err := err, errCode := code }

theorem State.setTrap_self (s : State) : s.setTrap s.busy s.err s.errCode = s := rfl

section
variable (busy err : Bool) (code : Option CmdError)

theorem chainBlind_setTrap : ChainBlind (State.setTrap busy err code) where
  par _ := rfl
  fft _ := rfl
  fcActive _ := rfl
  setFft _ _ := rfl
  append s z := by
    by_cases hlt : s.outCount.toNat < s.par.outMax
    · rw [appendOut_of_lt hlt, appendOut_of_lt (s := s.setTrap busy err code) hlt]; rfl
    · rw [appendOut_of_not_lt hlt, appendOut_of_not_lt (s := s.setTrap busy err code) hlt]; rfl
  tick _ _ := rfl
  hb1 _ _ := rfl
  hb2 _ _ := rfl
  start _ := rfl
  read _ _ _ _ := rfl
  writes _ _ := rfl

variable {i : Instr} {s : State}

/-- With its operands in range, no command but CLR_ERR and SOFT_RESET reads or writes BUSY, ERR or ERR_CODE (R136, R363). -/
theorem exec_setTrap (hwf : i.wf s.par = true) (hclr : i ≠ .clrErr) (hreset : i ≠ .softReset) :
    exec i (s.setTrap busy err code) = onNext (State.setTrap busy err code) (exec i s) := by
  have hpar : (s.setTrap busy err code).par = s.par := rfl
  cases i with
  | clrErr => exact absurd rfl hclr
  | softReset => exact absurd rfl hreset
  | processBlock sel n =>
    exact (chainBlind_setTrap busy err code).execProcessBlock sel ((blockLengthInRange_eq_wf s.par n).trans hwf)
  | fftPush =>
    have hpush := (chainBlind_setTrap busy err code).framePush (dSample (applyPoint s)) (applyPoint s)
    have happly : applyPoint (s.setTrap busy err code) = (applyPoint s).setTrap busy err code := rfl
    have hd : dSample ((applyPoint s).setTrap busy err code) = dSample (applyPoint s) := rfl
    simp only [exec, execFftPush, happly, hd, hpush]
    cases framePush (dSample (applyPoint s)) (applyPoint s) <;> rfl
  | nrBin side b =>
    have hrange : nrBinInRange s.par b = true := hwf
    have hready : (applyPoint (s.setTrap busy err code)).fcActive = (applyPoint s).fcActive := rfl
    simp only [exec, execNrBin, hpar, hrange, hready, if_true]
    split <;> rfl
  | cicStep r =>
    have hrange : rawCodeInRange s.par r = true := hwf
    simp only [exec, execCicStep, hpar, hrange, if_true]
    rfl
  | cfgWrite f v =>
    have hrange : cfgWriteInRange f v = true := (cfgWriteInRange_eq_wf f v).trans hwf
    simp only [exec, execCfgWrite, hrange, if_true]
    rfl
  | sqEnable l =>
    have hrange : levelInRange l = true := hwf
    simp only [exec, execSqEnable, hrange, if_true]
    rfl
  | nop | seti _ | setq _ | cfgPublish | hb1Step | hb2Step | droop _ | sqInit _ | sqDisable | sqCalibrate _
  | sqSetTimeout _ | sqUpdate _ => rfl

end

section
variable {i : Instr} {s t : State}

/-- Such a command leaves BUSY, ERR and ERR_CODE as they are: replacing them by themselves before it is replacing them
after it (R362, R365). -/
theorem exec_keeps_trap (hwf : i.wf s.par = true) (hclr : i ≠ .clrErr) (hreset : i ≠ .softReset)
    (h : exec i s = .next t) : t.busy = s.busy ∧ t.err = s.err ∧ t.errCode = s.errCode := by
  have hself := exec_setTrap s.busy s.err s.errCode hwf hclr hreset
  rw [State.setTrap_self, h] at hself
  have ht : t = t.setTrap s.busy s.err s.errCode := Host.Outcome.next.inj hself
  exact ⟨(congrArg State.busy ht :), (congrArg State.err ht :), (congrArg State.errCode ht :)⟩

/-- CLR_ERR and SOFT_RESET clear ERR and ERR_CODE, whatever they are, and CLR_ERR leaves BUSY alone (R332, R338). -/
theorem exec_clears_error (hi : i = .clrErr ∨ i = .softReset) (s : State) :
    ∃ t, exec i s = .next t ∧ t.err = false ∧ t.errCode = none ∧ (i ≠ .softReset → t.busy = s.busy) ∧
      ∀ err code, exec i { s with err := err, errCode := code } = .next t := by
  obtain rfl | rfl := hi
  · exact ⟨_, rfl, rfl, rfl, fun _ => rfl, fun _ _ => rfl⟩
  · exact ⟨_, rfl, rfl, rfl, fun hne => absurd rfl hne, fun _ _ => rfl⟩

end

theorem runWord_of_error {w : Word} {e : CmdError} (h : decode w = .error e) (s : State) :
    runWord w s = .next (raiseCmdError e s) := by
  simp only [runWord, h]

/-- Settles O5: a command with its operands in range either clears the error status whatever it is, or neither reads nor
writes it. -/
theorem commandProcedure : Obligations.CommandProcedure := by
  intro w s
  refine ⟨fun e he => runWord_of_error he s, fun i hi hwf => ?_, fun i hi hwf => ⟨runWord_of_ok hi s, ?_⟩⟩
  · rw [runWord_of_ok hi, exec_of_not_wf hwf]
  by_cases hclears : i = .clrErr ∨ i = .softReset
  · obtain ⟨u, hu, herr, hcode, hbusy, hany⟩ := exec_clears_error hclears s
    refine ⟨fun t ht => ?_, fun err code => ⟨fun t _ hclr hreset => absurd hclears (not_or_intro hclr hreset),
      fun t ht _ => ?_, fun r hr => ?_⟩⟩
    · cases hu.symm.trans ht
      exact ⟨fun h => absurd h (ne_true_of_eq_false herr), hbusy⟩
    · cases hu.symm.trans ht
      exact ⟨herr, hcode, hany err code⟩
    · cases hu.symm.trans hr
  · obtain ⟨hclr, hreset⟩ := not_or.1 hclears
    refine ⟨fun t ht => ?_, fun err code => ⟨fun t ht _ _ => ?_, fun t _ hi => absurd hi hclears, fun r hr => ?_⟩⟩
    · obtain ⟨hbusy, herr, _⟩ := exec_keeps_trap hwf hclr hreset ht
      exact ⟨fun h => herr ▸ h, fun _ => hbusy⟩
    · obtain ⟨hbusy, herr, hcode⟩ := exec_keeps_trap hwf hclr hreset ht
      have hset := exec_setTrap s.busy err code hwf hclr hreset
      rw [ht] at hset
      exact ⟨herr, hcode, hset.trans (by rw [← hbusy]; rfl)⟩
    · have hset := exec_setTrap s.busy err code hwf hclr hreset
      rw [hr] at hset
      exact hset

end Sys2Proof.Machine
end

section
/-! PROOFS of the family 40_cic_mixer, first part: the wrapping filter against the unbounded one (R167, R168, R172), and
one tick of the CIC decimator in closed form (R161-R171). -/

namespace Sys2Proof.Machine

/-! ## The filter over unbounded integers (R172) -/

/-- Four unbounded integers as int32 words, modulo 2^32. -/
def IntQuad.wrap (q : IntQuad) : Quad := ⟨wrap32 q.s0, wrap32 q.s1, wrap32 q.s2, wrap32 q.s3⟩

/-- Each integrator is a sum, so it commutes with the wrap (R167). -/
theorem integrate_wrap (v : Int) (q : IntQuad) : integrate v q.wrap = (exactIntegrate v q).wrap := by
  simp only [integrate, exactIntegrate, IntQuad.wrap, wrap32_add]

/-- Each comb is a difference, so it commutes with the wrap (R168). -/
theorem comb_wrap (u : Int) (d : IntQuad) :
    comb (wrap32 u) d.wrap = (wrap32 (exactComb u d).1, (exactComb u d).2.wrap) := by
  simp only [comb, exactComb, IntQuad.wrap, wrap32_sub]

/-- From states that agree modulo 2^32, the two filters answer values that agree modulo 2^32 (R172). -/
theorem railRun_wrap (l : List (Int × Bool)) (q d : IntQuad) :
    railRun l q.wrap d.wrap = (exactRun l q d).map wrap32 := by
  induction l generalizing q d with
  | nil => rfl
  | cons x rest ih =>
    obtain ⟨v, emit⟩ := x
    have hlast : (exactIntegrate v q).wrap.s3 = wrap32 (exactIntegrate v q).s3 := rfl
    rw [railRun, exactRun, integrate_wrap, hlast, comb_wrap, ih, ih]
    cases emit <;> rfl

/-- Settles O32: both filters start at 0, which is 0 modulo 2^32, and a value of the int32 range survives the wrap. -/
theorem cicWrapIsExact : Obligations.CicWrapIsExact := by
  intro l
  have hwrap : railRun l Quad.zero Quad.zero = (exactRun l IntQuad.zero IntQuad.zero).map wrap32 :=
    railRun_wrap l IntQuad.zero IntQuad.zero
  refine ⟨hwrap, fun hfits => ?_⟩
  rw [hwrap, List.map_map]
  have hkeep : ∀ y ∈ exactRun l IntQuad.zero IntQuad.zero, (BitVec.toInt ∘ wrap32) y = id y := fun y hy =>
    have ⟨hlow, hhigh⟩ := hfits y hy
    wrap32_toInt hlow hhigh
  rw [List.map_congr_left hkeep, List.map_id]

/-! ## One tick (R161-R170) -/

/-- Over the integers asr is division by the power of two (R26). -/
theorem asr_eq_ediv (v : Int) (k : Nat) : asr v k = v / 2 ^ k := by
  rw [asr, Nat.cast_pow, Nat.cast_ofNat]

/-- The growth compensation counts the bits of CIC_R as Mathlib's ceiling logarithm does (R10). -/
theorem ceilLog2_eq_clog {r : Nat} (h : 2 ≤ r) : ceilLog2 r = Nat.clog 2 r := by
  have hpos : r - 1 ≠ 0 := by omega
  have hle : r ≤ 2 ^ (Nat.log2 (r - 1) + 1) := by
    have := Nat.lt_log2_self (n := r - 1)
    omega
  have hlt : 2 ^ Nat.log2 (r - 1) < r := by
    have := Nat.log2_self_le hpos
    omega
  rw [ceilLog2, if_neg (by omega)]
  exact le_antisymm ((Nat.lt_clog_iff_pow_lt (by decide)).2 hlt) (Nat.clog_le_of_le_pow hle)

/-- The mix of the one rail that a tick feeds (R163-R165). -/
theorem mix_railInput (p : Params) (phase : Word) (rail : Rail) (x : Int) :
    mix p phase (railInput rail x) =
      ((if rail = .i then x * p.cosLut.getD (lutIndex p phase) 0 else x * p.sinLut.getD (lutIndex p phase) 0) / 2 ^ 15,
       (if rail = .i then -(x * p.sinLut.getD (lutIndex p phase) 0) else x * p.cosLut.getD (lutIndex p phase) 0) /
          2 ^ 15) := by
  cases rail <;> simp [mix, railInput, asr_eq_ediv, Config.mixShift]

/-- The integrators in closed form: each adds the input and the old values of all its predecessors (R167). -/
theorem integrate_sums {v : Int} {old new : Quad} (h : new = integrate v old) :
    new.s0 = old.s0 + wrap32 v ∧ new.s1 = old.s1 + old.s0 + wrap32 v ∧ new.s2 = old.s2 + old.s1 + old.s0 + wrap32 v ∧
      new.s3 = old.s3 + old.s2 + old.s1 + old.s0 + wrap32 v := by
  subst h
  simp only [integrate, BitVec.add_assoc, and_self]

section
variable {p : Params} {step : Word} {r : Nat} {c : Cic}

/-- What a tick mixes into the integrators, when x is the raw code without the updated DC tracker (R162-R167). -/
theorem cicTick_integrators {x : Int} (hx : signedCode p r - (dcUpdate p c.dc (signedCode p r)).toInt = x) :
    (cicTick p step r c).2.intI = integrate ((if c.rail = .i then x * p.cosLut.getD (lutIndex p c.phase) 0
        else x * p.sinLut.getD (lutIndex p c.phase) 0) / 2 ^ 15) c.intI ∧
    (cicTick p step r c).2.intQ = integrate ((if c.rail = .i then -(x * p.sinLut.getD (lutIndex p c.phase) 0)
        else x * p.cosLut.getD (lutIndex p c.phase) 0) / 2 ^ 15) c.intQ := by
  subst hx
  rw [cicTick, cicBack_intI, cicBack_intQ, cicFront, mix_railInput]
  exact ⟨rfl, rfl⟩

/-- A tick short of CIC_R counts, leaves the combs alone and has no output (R168). -/
theorem cicTick_of_lt (hR : p.cicR ≤ 65535) (h : c.decCnt.toNat + 1 < p.cicR) :
    (cicTick p step r c).1 = none ∧ (cicTick p step r c).2.decCnt.toNat = c.decCnt.toNat + 1 ∧
    (cicTick p step r c).2.dlyI = c.dlyI ∧ (cicTick p step r c).2.dlyQ = c.dlyQ := by
  have hback : cicTick p step r c =
      (none, { cicFront p step r c with decCnt := BitVec.ofNat 16 (c.decCnt.toNat + 1) }) := if_pos h
  rw [hback, BitVec.toNat_ofNat, Nat.mod_eq_of_lt (by omega)]
  exact ⟨rfl, rfl, rfl, rfl⟩

/-- The CIC_R-th tick returns to count 0, runs the combs of both rails on their last integrators and has an output (R168,
R169). -/
theorem cicTick_of_eq (h : c.decCnt.toNat + 1 = p.cicR) :
    (cicTick p step r c).1 = some ⟨cicOut p (comb (cicTick p step r c).2.intI.s3 c.dlyI).1,
        cicOut p (comb (cicTick p step r c).2.intQ.s3 c.dlyQ).1⟩ ∧
    (cicTick p step r c).2.decCnt = 0 ∧
    (cicTick p step r c).2.dlyI = (comb (cicTick p step r c).2.intI.s3 c.dlyI).2 ∧
    (cicTick p step r c).2.dlyQ = (comb (cicTick p step r c).2.intQ.s3 c.dlyQ).2 := by
  have hlast : ¬(cicFront p step r c).decCnt.toNat + 1 < p.cicR := by rw [cicFront_decCnt]; omega
  rw [cicTick, cicBack, if_neg hlast]
  exact ⟨rfl, rfl, rfl, rfl⟩

end

/-- The output of a comb value: shifted right by CIC_SHIFT and saturated to int16 (R169). -/
theorem cicOut_toInt {p : Params} (h : 2 ≤ p.cicR) (u : Word) :
    (cicOut p u).toInt =
      min 32767 (max (-32768) (u.toInt / 2 ^ (4 * Nat.clog 2 p.cicR - p.cicExtraBits))) := by
  rw [cicOut, sat16_toInt, asr_eq_ediv, cicShift, ceilLog2_eq_clog h, clampInt]

/-- The DC tracker after a tick, over the integers: it stays in the ADC range, so it does not wrap (R55, R161, R162). -/
theorem dcUpdate_signedCode {p : Params} {c : Cic} {r : Nat} (hp : p.wf = true) (hc : CicInv p c)
    (hr : r < 2 ^ p.adcBits) :
    signedCode p r = (r : Int) - 2 ^ (p.adcBits - 1) ∧
    (dcUpdate p c.dc (signedCode p r)).toInt =
      c.dc.toInt + ((r : Int) - 2 ^ (p.adcBits - 1) - c.dc.toInt) / 2 ^ p.dcShift := by
  obtain ⟨hadc, hadc16, _, _⟩ := Params_wf_cic hp
  obtain ⟨hlow, hhigh⟩ := signedCode_range (p := p) (by omega) hr
  obtain ⟨hdc, _, _⟩ := dcUpdate_toInt hadc16 hc.dc_low hc.dc_high hlow hhigh
  have hcode : signedCode p r = (r : Int) - 2 ^ (p.adcBits - 1) := by rw [signedCode, Nat.cast_pow, Nat.cast_ofNat]
  exact ⟨hcode, by rw [hdc, asr_eq_ediv, hcode]⟩

/-- CIC_STEP of a legal raw code is the apply point, one tick and its result (R171). -/
theorem exec_cicStep_of_lt {r : Half} {s : State} (h : r.toNat < 2 ^ s.par.adcBits) :
    exec (.cicStep r) s =
      .next ((tickState r.toNat (applyPoint s)).2.withResult (tickState r.toNat (applyPoint s)).1) :=
  if_pos ((rawCodeInRange_iff s.par r).2 h)

/-- Settles O31: the DC tracker's update does not wrap, one rail of the mix is 0, and the decimation count decides whether
the combs run. -/
theorem cicStepResult : Obligations.CicStepResult := by
  intro r s hpar hcic hr
  obtain ⟨_, _, hR, hR16⟩ := Params_wf_cic hpar
  obtain ⟨hcode, hdc⟩ := dcUpdate_signedCode hpar hcic hr
  refine ⟨_, exec_cicStep_of_lt hr, rfl, ?_⟩
  intro x0 dc x idx c sn mi mq
  have hx : signedCode s.par r.toNat - (dcUpdate s.par s.cic.dc (signedCode s.par r.toNat)).toInt = x := by
    rw [hdc, hcode]
  obtain ⟨hI, hQ⟩ := cicTick_integrators (step := (applyPoint s).fcActive.phaseStep) hx
  simp only [State_withResult_cic, tickState_snd_cic, applyPoint_cic, applyPoint_par]
  refine ⟨?_, ?_, ?_, ?_, fun hlt => ?_, fun heq => ?_⟩
  · rw [cicTick, cicBack_dc, cicFront_dc, hdc]
  · rw [cicTick, cicBack_rail, cicFront_rail]
    cases s.cic.rail <;> rfl
  · rw [cicTick, cicBack_phase, cicFront_phase, BitVec.toNat_add]
  · rintro old new v dly dly' (⟨rfl, rfl, rfl, rfl, rfl⟩ | ⟨rfl, rfl, rfl, rfl, rfl⟩)
    · obtain ⟨h0, h1, h2, h3⟩ := integrate_sums hI
      exact ⟨h0, h1, h2, h3, fun hlt => have ⟨_, _, hdly, _⟩ := cicTick_of_lt hR16 hlt; hdly,
        fun heq => have ⟨_, _, hdly, _⟩ := cicTick_of_eq heq; hdly⟩
    · obtain ⟨h0, h1, h2, h3⟩ := integrate_sums hQ
      exact ⟨h0, h1, h2, h3, fun hlt => have ⟨_, _, _, hdly⟩ := cicTick_of_lt hR16 hlt; hdly,
        fun heq => have ⟨_, _, _, hdly⟩ := cicTick_of_eq heq; hdly⟩
  · obtain ⟨hnone, hcnt, _, _⟩ := cicTick_of_lt (step := (applyPoint s).fcActive.phaseStep) (r := r.toNat) hR16 hlt
    have hout : (tickState r.toNat (applyPoint s)).1 = none := hnone
    rw [hout]
    exact ⟨hcnt, rfl, rfl, rfl⟩
  · obtain ⟨hsome, hcnt, _, _⟩ := cicTick_of_eq (step := (applyPoint s).fcActive.phaseStep) (r := r.toNat) heq
    have hout : (tickState r.toNat (applyPoint s)).1 = some _ := hsome
    rw [hout]
    exact ⟨hcnt, rfl, cicOut_toInt hR _, cicOut_toInt hR _⟩

end Sys2Proof.Machine
end

section
/-! PROOFS of the family 40_cic_mixer, second part: the counts of a block (R166, R168, R199, R263, R264, R339, R340). -/

namespace Sys2Proof.Machine

/-- Counting up to r in two goes: what the first leaves over, the second starts from. -/
theorem div_add_mod_add_div {r : Nat} (hr : 0 < r) (a m : Nat) : a / r + (a % r + m) / r = (a + m) / r := by
  conv_rhs => rw [← Nat.div_add_mod a r, Nat.add_assoc, Nat.mul_add_div hr]

/-! ## CIC ticks (R163, R166, R168) -/

theorem Rail_other_other (a : Rail) : a.other.other = a := by cases a <;> rfl

section
variable (p : Params) (step : Word)

/-- A tick's outputs and its count are the quotient and the remainder of one more by CIC_R (R168). -/
theorem cicTick_counts (r : Nat) {c : Cic} (hR : p.cicR ≤ 65535) (hc : c.decCnt.toNat < p.cicR) :
    (cicTick p step r c).1.toList.length = (c.decCnt.toNat + 1) / p.cicR ∧
    (cicTick p step r c).2.decCnt.toNat = (c.decCnt.toNat + 1) % p.cicR := by
  by_cases hlt : c.decCnt.toNat + 1 < p.cicR
  · obtain ⟨hnone, hcnt, _, _⟩ := cicTick_of_lt (step := step) (r := r) hR hlt
    rw [hnone, hcnt, Nat.div_eq_of_lt hlt, Nat.mod_eq_of_lt hlt]
    exact ⟨rfl, rfl⟩
  · have heq : c.decCnt.toNat + 1 = p.cicR := by omega
    obtain ⟨hsome, hcnt, _, _⟩ := cicTick_of_eq (step := step) (r := r) heq
    rw [hsome, hcnt, heq, Nat.div_self (by omega), Nat.mod_self]
    exact ⟨rfl, rfl⟩

/-- The outputs and the count of a run of ticks (R168). -/
theorem cicRun_counts (rs : List Nat) {c : Cic} (hR : p.cicR ≤ 65535) (hc : c.decCnt.toNat < p.cicR) :
    (cicRun p step rs c).1.length = (c.decCnt.toNat + rs.length) / p.cicR ∧
    (cicRun p step rs c).2.decCnt.toNat = (c.decCnt.toNat + rs.length) % p.cicR := by
  have hpos : 0 < p.cicR := by omega
  induction rs generalizing c with
  | nil => exact ⟨(Nat.div_eq_of_lt hc).symm, (Nat.mod_eq_of_lt hc).symm⟩
  | cons r rs ih =>
    obtain ⟨hout, hcnt⟩ := cicTick_counts p step r hR hc
    obtain ⟨houts, hcnts⟩ := ih (c := (cicTick p step r c).2) (hcnt ▸ Nat.mod_lt _ hpos)
    rw [cicRun_cons, List.length_append, houts, hcnts, hout, hcnt, div_add_mod_add_div hpos, Nat.mod_add_mod,
      List.length_cons, Nat.add_assoc, Nat.add_comm 1]
    exact ⟨rfl, rfl⟩

@[simp] theorem cicTick_phase (r : Nat) (c : Cic) : (cicTick p step r c).2.phase = c.phase + step := by
  rw [cicTick, cicBack_phase, cicFront_phase]

@[simp] theorem cicTick_rail (r : Nat) (c : Cic) : (cicTick p step r c).2.rail = c.rail.other := by
  rw [cicTick, cicBack_rail, cicFront_rail]

/-- The phase advances by one phase step per tick (R166). -/
theorem cicRun_phase (rs : List Nat) (c : Cic) :
    (cicRun p step rs c).2.phase.toNat = (c.phase.toNat + rs.length * step.toNat) % 2 ^ 32 := by
  induction rs generalizing c with
  | nil => simp only [cicRun, List.length_nil]; omega
  | cons r rs ih =>
    rw [cicRun_cons, ih, cicTick_phase, BitVec.toNat_add, Nat.mod_add_mod, List.length_cons, Nat.succ_mul,
      Nat.add_assoc, Nat.add_comm step.toNat]

/-- The rail alternates, so an even number of ticks returns to it (R163). -/
theorem cicRun_rail (rs : List Nat) (c : Cic) :
    (cicRun p step rs c).2.rail = if rs.length % 2 = 0 then c.rail else c.rail.other := by
  induction rs generalizing c with
  | nil => rfl
  | cons r rs ih =>
    rw [cicRun_cons, ih, cicTick_rail, Rail_other_other, List.length_cons]
    by_cases heven : rs.length % 2 = 0
    · rw [if_pos heven, if_neg (by omega)]
    · rw [if_neg heven, if_pos (by omega)]

end

/-! ## Half-band calls (R191, R192, R199) -/

section
variable {l : Nat} {b : HalfBand}

/-- How many of the next calls of a full stage emit (R192). -/
theorem hbEmissions_of_full (h : b.fill = l) (m : Nat) : hbEmissions l b m = (m + b.ptr % 2) / 2 := if_pos h

/-- How many of the next calls of a stage that is still filling emit (R192). -/
theorem hbEmissions_of_filling (h : b.fill < l) (m : Nat) :
    hbEmissions l b m = if b.fill + m < l then 0 else (b.fill + m - l) / 2 + 1 := if_neg (by omega)

theorem hbEmissions_zero (hb : HalfBandInv l b) : hbEmissions l b 0 = 0 := by
  obtain hlt | hfull := Nat.lt_or_eq_of_le hb.fill
  · rw [hbEmissions_of_filling hlt, if_pos (by omega)]
  · rw [hbEmissions_of_full hfull]; omega

/-- A call emits once or not at all: once when it fills the buffer or finds it full, at an odd pointer (R192). -/
theorem hbEmits_toNat (l : Nat) (b : HalfBand) :
    (hbEmits l b).toNat = if l ≤ b.fill + 1 ∧ b.ptr % 2 = 1 then 1 else 0 := by
  have hemits : hbEmits l b = decide (l ≤ b.fill + 1 ∧ b.ptr % 2 = 1) := by
    rw [hbEmits, ← Bool.decide_and]
    exact decide_eq_decide.2 (and_congr_left' min_eq_right_iff)
  rw [hemits]
  split
  · next h => rw [decide_eq_true h]; rfl
  · next h => rw [decide_eq_false h]; rfl

/-- The first of m + 1 calls emits or not, and the stage after it emits the rest (R192, R199). -/
theorem hbEmissions_succ (hl : l % 2 = 0) (hb : HalfBandInv l b) (z : Sample) (m : Nat) :
    hbEmissions l b (m + 1) = (hbEmits l b).toNat + hbEmissions l (hbPush l z b) m := by
  have hptrLt := hb.ptr
  rw [hbEmits_toNat]
  obtain hlt | hfull := Nat.lt_or_eq_of_le hb.fill
  · have hptr : b.ptr = b.fill := hb.filling hlt
    rw [hbEmissions_of_filling hlt]
    by_cases hlast : b.fill + 1 = l
    · have hfull' : (hbPush l z b).fill = l := by rw [hbPush_fill, hlast, Nat.min_self]
      have hptr' : (hbPush l z b).ptr = 0 := by rw [hbPush_ptr, hptr, hlast, Nat.mod_self]
      rw [hbEmissions_of_full hfull', hptr', if_neg (by omega), if_pos (by omega)]
      omega
    · have hfill' : (hbPush l z b).fill = b.fill + 1 := by rw [hbPush_fill, Nat.min_eq_left (by omega)]
      rw [hbEmissions_of_filling (by omega), hfill', if_neg (c := _ ∧ _) (by omega), Nat.zero_add, Nat.add_assoc,
        Nat.add_comm 1]
  · have hfull' : (hbPush l z b).fill = l := by rw [hbPush_fill, hfull, Nat.min_eq_right (Nat.le_succ l)]
    have hparity : (hbPush l z b).ptr % 2 = (b.ptr + 1) % 2 := Nat.mod_mod_of_dvd _ (Nat.dvd_of_mod_eq_zero hl)
    rw [hbEmissions_of_full hfull, hbEmissions_of_full hfull', hparity]
    split <;> omega

/-- The outputs, the pointer and the fill count of a run of calls (R191, R199). -/
theorem hbRun_counts (h : List Int) (zs : List Sample) (hl : l % 2 = 0) (hb : HalfBandInv l b) :
    (hbRun l h zs b).1.length = hbEmissions l b zs.length ∧
    (hbRun l h zs b).2.ptr = (b.ptr + zs.length) % l ∧ (hbRun l h zs b).2.fill = min (b.fill + zs.length) l := by
  induction zs generalizing b with
  | nil => exact ⟨(hbEmissions_zero hb).symm, (Nat.mod_eq_of_lt hb.ptr).symm, (Nat.min_eq_left hb.fill).symm⟩
  | cons z zs ih =>
    obtain ⟨houts, hptr, hfill⟩ := ih (hbPush_inv (z := z) hb)
    have hout : (hbStep l h z b).1.toList.length = (hbEmits l b).toNat := by
      rw [← hbStep_isSome l h z b]
      cases (hbStep l h z b).1 <;> rfl
    rw [hbRun_cons, List.length_append, hbStep_snd, hout, houts, hptr, hfill, List.length_cons, hbEmissions_succ hl hb z,
      hbPush_ptr, hbPush_fill, Nat.mod_add_mod]
    exact ⟨rfl, by rw [Nat.add_assoc, Nat.add_comm 1], by omega⟩

end

/-! ## Samples into the frame (R263, R264) -/

/-- Appending samples counts them up to OUT_MAX, and OVF is set when they do not fit (R263). -/
theorem foldl_appendOut_counts (zs : List Sample) {s : State} (hs : CanCount s) :
    (zs.foldl appendOut s).outCount.toNat = min (s.outCount.toNat + zs.length) s.par.outMax ∧
    ((zs.foldl appendOut s).ovf = true ↔ s.ovf = true ∨ s.par.outMax < s.outCount.toNat + zs.length) := by
  induction zs generalizing s with
  | nil =>
    obtain ⟨_, hcount⟩ := hs
    exact ⟨(Nat.min_eq_left hcount).symm, (or_iff_left (Nat.not_lt.2 hcount)).symm⟩
  | cons z zs ih =>
    obtain ⟨hcounts, hovf⟩ := ih (hs.append z)
    rw [List.foldl_cons, hcounts, hovf, appendOut_par, List.length_cons]
    by_cases hlt : s.outCount.toNat < s.par.outMax
    · have hsame : (appendOut s z).ovf = s.ovf := by rw [appendOut_of_lt hlt]
      rw [appendOut_count_of_lt hs.1 hlt, hsame, Nat.add_assoc, Nat.add_comm 1]
      exact ⟨rfl, Iff.rfl⟩
    · rw [appendOut_of_not_lt hlt]
      have hfull := hs.2
      exact ⟨by simp only; omega, by simp only [true_or, true_iff]; omega⟩

/-- From s to t, k samples were pushed into the frame: FRAME_FILL counts them modulo H, every frame that they complete
appends Q4 output samples, and OVF is set when these do not fit (R263, R264). -/
structure FramesPushed (k : Nat) (s t : State) : Prop where
  par : t.par = s.par
  front : t.front = s.front
  fill : t.fft.frameFill = (s.fft.frameFill + k) % s.par.half
  count : t.outCount.toNat =
    min (s.outCount.toNat + s.par.quarter * ((s.fft.frameFill + k) / s.par.half)) s.par.outMax
  ovf : t.ovf = true ↔
    s.ovf = true ∨ s.par.outMax < s.outCount.toNat + s.par.quarter * ((s.fft.frameFill + k) / s.par.half)

/-- The state in which samples can be pushed: the frame is not full, and output can be counted. -/
structure CanPush (s : State) : Prop where
  fill : s.fft.frameFill < s.par.half
  count : CanCount s

theorem FramesPushed.refl {s : State} (hs : CanPush s) : FramesPushed 0 s s where
  par := rfl
  front := rfl
  fill := (Nat.mod_eq_of_lt hs.fill).symm
  count := by rw [Nat.add_zero, Nat.div_eq_of_lt hs.fill]; exact (Nat.min_eq_left hs.count.2).symm
  ovf := by
    rw [Nat.add_zero, Nat.div_eq_of_lt hs.fill]
    exact (or_iff_left (Nat.not_lt.2 hs.count.2)).symm

theorem FramesPushed.canPush {k : Nat} {s t : State} (h : FramesPushed k s t) (hs : CanPush s) : CanPush t := by
  have hpos : 0 < s.par.half := Nat.zero_lt_of_lt hs.fill
  refine ⟨?_, ?_, ?_⟩
  · rw [h.fill, h.par]; exact Nat.mod_lt _ hpos
  · rw [h.par]; exact hs.count.1
  · rw [h.count, h.par]; exact Nat.min_le_right _ _

theorem FramesPushed.trans {k m : Nat} {s t u : State} (hs : CanPush s) (h : FramesPushed k s t)
    (h' : FramesPushed m t u) : FramesPushed (k + m) s u := by
  have hpos : 0 < s.par.half := Nat.zero_lt_of_lt hs.fill
  have hframes : s.par.quarter * ((s.fft.frameFill + (k + m)) / s.par.half) =
      s.par.quarter * ((s.fft.frameFill + k) / s.par.half) +
        s.par.quarter * ((t.fft.frameFill + m) / t.par.half) := by
    rw [h.par, h.fill, ← Nat.mul_add, div_add_mod_add_div hpos, Nat.add_assoc]
  have hfill := h'.fill
  have hcount := h'.count
  have hovf := h'.ovf
  rw [h.par] at hframes hfill hcount hovf
  refine ⟨h'.par.trans h.par, h'.front.trans h.front, ?_, ?_, ?_⟩
  · rw [hfill, h.fill, Nat.mod_add_mod, Nat.add_assoc]
  · rw [hcount, h.count, hframes]; omega
  · rw [hovf, h.ovf, h.count, hframes, or_assoc]
    exact or_congr_right (by omega)

/-- One FRAME_PUSH (R264). -/
theorem framePush_framesPushed {z : Sample} {s t : State} {o : Option Sample} (hs : CanPush s)
    (h : framePush z s = .ok (o, t)) : FramesPushed 1 s t := by
  obtain ⟨hpar, _, hfront⟩ := framePush_front h
  have hfill := framePush_fill h
  have hlt := hs.fill
  obtain ⟨hne, _, rfl⟩ | ⟨hfull, _, f, rfl, _, rfl⟩ := framePush_ok h
  · have hless : s.fft.frameFill + 1 < s.par.half := by omega
    rw [if_neg hne] at hfill
    refine ⟨hpar, hfront, ?_, ?_, ?_⟩
    · rw [hfill, Nat.mod_eq_of_lt hless]
    · rw [Nat.div_eq_of_lt hless]; exact (Nat.min_eq_left hs.count.2).symm
    · rw [Nat.div_eq_of_lt hless]
      exact (or_iff_left (Nat.not_lt.2 hs.count.2)).symm
  · obtain ⟨hcount, hovf⟩ := foldl_appendOut_counts
      (frameStep s.par s.fcActive { framePut z s.fft with frameFill := 0 }).1
      (s := s.setFft (frameStep s.par s.fcActive { framePut z s.fft with frameFill := 0 }).2) hs.count
    rw [if_pos hfull] at hfill
    have hlen : (frameStep s.par s.fcActive { framePut z s.fft with frameFill := 0 }).1.length = s.par.quarter :=
      overlapAdd_length _ _ _
    have hone : s.par.quarter * ((s.fft.frameFill + 1) / s.par.half) = s.par.quarter := by
      rw [hfull, Nat.div_self (by omega), Nat.mul_one]
    rw [hlen] at hcount hovf
    refine ⟨hpar, hfront, ?_, ?_, ?_⟩
    · rw [hfill, hfull, Nat.mod_self]
    · rw [hone]; exact hcount
    · rw [hone]; exact hovf

/-- Samples pushed one after another (R264). -/
theorem pushRun_framesPushed {zs : List Sample} {s t : State} (hs : CanPush s) (h : pushRun zs s = .ok t) :
    FramesPushed zs.length s t := by
  induction zs generalizing s with
  | nil =>
    obtain rfl : s = t := Except.ok.inj h
    exact .refl hs
  | cons z zs ih =>
    rw [pushRun] at h
    cases hp : framePush z s with
    | error e => rw [hp] at h; cases h
    | ok r =>
      rw [hp] at h
      have hone := framePush_framesPushed hs hp
      rw [List.length_cons, Nat.add_comm]
      exact hone.trans hs (ih (hone.canPush hs) h)

/-! ## The block (R339, R340) -/

/-- A completed block of n words is the chain on some n raw codes: the codes that its input reads find, with the races
(R113, R339). -/
theorem blockLoop_ok_feedCodes {sel : InSel} {n a now : Nat} {s t : State} (h : blockLoop sel n a now s = .ok t) :
    ∃ rs : List Nat, rs.length = n ∧ feedCodes rs s = .ok t := by
  induction n generalizing a now s with
  | zero => exact ⟨[], rfl, h⟩
  | succ n ih =>
    obtain ⟨s1, hfirst, hrest⟩ := blockLoop_succ_ok h
    obtain ⟨rs, hlen, hfeed⟩ := ih hrest
    refine ⟨rawCode s.par (readInput sel a now s) :: rs, congrArg (· + 1) hlen, ?_⟩
    rw [feedCodes, ← blockTick_eq_feedCode, hfirst]
    exact hfeed

/-- The counts of the two half-band stages over a list of raw codes: each depends on the number of its inputs only (R168,
R199). -/
theorem frontRun_counts {p : Params} {step : Word} {rs : List Nat} {u : Front} (hR : p.cicR ≤ 65535)
    (hcnt : u.1.decCnt.toNat < p.cicR) (hhb1 : HalfBandInv 32 u.2.1) (hhb2 : HalfBandInv 64 u.2.2) :
    let c := (u.1.decCnt.toNat + rs.length) / p.cicR
    let e1 := hbEmissions 32 u.2.1 c
    let v := frontRun p step rs u
    v.1.length = hbEmissions 64 u.2.2 e1 ∧
    v.2.2.1.ptr = (u.2.1.ptr + c) % 32 ∧ v.2.2.1.fill = min (u.2.1.fill + c) 32 ∧
    v.2.2.2.ptr = (u.2.2.ptr + e1) % 64 ∧ v.2.2.2.fill = min (u.2.2.fill + e1) 64 := by
  intro c e1 v
  obtain ⟨hc, _⟩ := cicRun_counts p step rs hR hcnt
  obtain ⟨he1, hptr1, hfill1⟩ := hbRun_counts p.hb1K (cicRun p step rs u.1).1 rfl hhb1
  obtain ⟨he2, hptr2, hfill2⟩ := hbRun_counts p.hb2K (hbRun 32 p.hb1K (cicRun p step rs u.1).1 u.2.1).1 rfl hhb2
  rw [hc] at he1 hptr1 hfill1
  rw [he1] at he2 hptr2 hfill2
  exact ⟨he2, hptr1, hfill1, hptr2, hfill2⟩

/-- Settles O58: whatever the words are, the block is some n codes through the three units and their outputs into the
frame, and each unit's counts depend on the number of its inputs only. -/
theorem blockOutputCount : Obligations.BlockOutputCount := by
  intro sel n s t hpar hcnt hhb1 hhb2 hfill heven hle hexec c e1 e2 frames
  obtain ⟨_, _, _, hR16⟩ := Params_wf_cic hpar
  obtain ⟨rs, hlen, hfeed⟩ := blockLoop_ok_feedCodes (execProcessBlock_next heven hle hexec)
  rw [feedCodes_eq_pushRun] at hfeed
  let start : Cic := { s.cic with rail := .i }
  let step : Word := (applyPoint s).fcActive.phaseStep
  let v := frontRun s.par step rs (start, s.hb1, s.hb2)
  obtain ⟨_, hcount⟩ := cicRun_counts s.par step rs (c := start) hR16 hcnt
  have hphase := cicRun_phase s.par step rs start
  have hrail := cicRun_rail s.par step rs start
  have hunits := frontRun_counts (step := step) (rs := rs) (u := (start, s.hb1, s.hb2)) hR16 hcnt hhb1 hhb2
  rw [hlen] at hcount hphase hrail hunits
  rw [if_pos heven] at hrail
  obtain ⟨hout, hptr1, hfill1, hptr2, hfill2⟩ := hunits
  have hcanPush : CanPush ((blockStart s).setFront v.2) := ⟨hfill, Params_wf_outMax hpar, Nat.zero_le _⟩
  have hpush : FramesPushed v.1.length ((blockStart s).setFront v.2) t := pushRun_framesPushed hcanPush hfeed
  rw [hout] at hpush
  have hcic : t.cic = v.2.1 := congrArg Prod.fst hpush.front
  have hhb : (t.hb1, t.hb2) = v.2.2 := congrArg Prod.snd hpush.front
  have hnone : ((blockStart s).setFront v.2).outCount.toNat = 0 := rfl
  have hclear : ((blockStart s).setFront v.2).ovf = false := rfl
  have hsamples := hpush.count
  have hovf := hpush.ovf
  rw [hnone, Nat.zero_add] at hsamples hovf
  rw [hclear] at hovf
  rw [← hhb] at hptr1 hfill1 hptr2 hfill2
  rw [hcic]
  exact ⟨hcount, hrail, hphase, hptr1, hfill1, hptr2, hfill2, hpush.fill, hsamples,
    hovf.trans (or_iff_right Bool.false_ne_true)⟩

end Sys2Proof.Machine
end

section
/-! PROOFS of the family 41_halfband: a call of a half-band stage (R191-R197), how many outputs a run of calls gives (R199),
the paired taps (R198), and the range and the gain of the filter (R193, R194). -/

namespace Sys2Proof.Machine

/-! ## A legal kernel (R11) -/

/-- What R11 asks of a kernel for a tap buffer of length l, except that every second tap is 0 and that the taps are int16. -/
structure LegalKernel (l : Nat) (h : List Int) : Prop where
  odd : h.length % 2 = 1
  fits : h.length ≤ l
  symmetric : h.reverse = h
  gain : h.sum = 32768
  absSum : (h.map Int.natAbs).sum ≤ 65535

theorem LegalKernel.of_wf {l : Nat} {h : List Int} (hk : Params.wfKernel l h = true) : LegalKernel l h := by
  simp only [Params.wfKernel, Bool.and_eq_true, decide_eq_true_eq] at hk
  obtain ⟨⟨⟨⟨⟨⟨hodd, hfits⟩, hsymm⟩, _⟩, hgain⟩, habs⟩, _⟩ := hk
  exact ⟨hodd, hfits, hsymm, hgain, habs⟩

/-- The kernels of legal parameters are legal for the buffers of the two stages (R11). -/
theorem Params_wf_kernels {p : Params} (hp : p.wf = true) : LegalKernel 32 p.hb1K ∧ LegalKernel 64 p.hb2K := by
  simp only [Params.wf, Bool.and_eq_true] at hp
  obtain ⟨⟨⟨⟨⟨_, hk1⟩, hk2⟩, _⟩, _⟩, _⟩ := hp
  exact ⟨.of_wf hk1, .of_wf hk2⟩

/-- Taps at the same distance from the two ends are equal (R11, R198). -/
theorem LegalKernel.getD_reflect {l : Nat} {h : List Int} (hk : LegalKernel l h) {k : Nat} (hlt : k < h.length) :
    h.getD (h.length - 1 - k) 0 = h.getD k 0 := by
  rw [List.getD_eq_getElem?_getD, List.getD_eq_getElem?_getD, ← List.getElem?_reverse hlt, hk.symmetric]

/-! ## The convolution (R193) -/

/-- A sum of a function of the taps, over their indices. -/
theorem sum_map_getD {M : Type} [AddCommMonoid M] (f : Int → M) (h : List Int) :
    (h.map f).sum = ∑ k ∈ Finset.range h.length, f (h.getD k 0) := by
  rw [← Fin.sum_univ_fun_getElem, Finset.sum_range]
  exact Finset.sum_congr rfl fun k _ => by rw [List.getD_eq_getElem _ _ k.isLt]

theorem convolve_eq_sum (h : List Int) (l p : Nat) (x : Nat → Int) :
    convolve h l p x = ∑ k ∈ Finset.range h.length, h.getD k 0 * x (tapIndex l p k) := rfl

/-- No tap index of a kernel that fits the buffer goes below −l, so adding l once is enough (R191). -/
theorem tapIndex_eq {l k : Nat} (p : Nat) (hk : k ≤ l) : tapIndex l p k = (p + l - k) % l := by
  have hshift : ((p : Int) - k) % l = ((p + l - k : Nat) : Int) % l := by
    rw [← Int.add_emod_right, Nat.cast_sub (by omega), Nat.cast_add]
    congr 1
    omega
  rw [tapIndex, hshift, ← Int.natCast_mod, Int.toNat_natCast]

/-- The convolution with the tap indices of R193 written over the naturals. -/
theorem convolve_eq_sum_mod {h : List Int} {l : Nat} (hfits : h.length ≤ l) (p : Nat) (x : Nat → Int) :
    convolve h l p x = ∑ k ∈ Finset.range h.length, h.getD k 0 * x ((p + l - k) % l) := by
  rw [convolve_eq_sum]
  refine Finset.sum_congr rfl fun k hk => ?_
  rw [tapIndex_eq p (by rw [Finset.mem_range] at hk; omega)]

/-! ## One call (R191-R195) -/

section
variable {l : Nat} {b : HalfBand}

/-- A call emits iff the fill count after it is l and the write index is odd (R192). -/
theorem hbEmits_iff (z : Sample) : hbEmits l b = true ↔ (hbPush l z b).fill = l ∧ b.ptr % 2 = 1 := by
  rw [hbEmits, Bool.and_eq_true, decide_eq_true_eq, decide_eq_true_eq, hbPush_fill]

/-- The newest sample stands at the write index (R191). -/
theorem hbPush_buf_ptr (hb : HalfBandInv l b) (z : Sample) : (hbPush l z b).buf[b.ptr]? = some z := by
  rw [hbPush_buf, List.getElem?_set_self (hb.len ▸ hb.ptr)]

/-- A call changes no other entry of the buffer (R191). -/
theorem hbPush_buf_of_ne (z : Sample) {j : Nat} (hj : j ≠ b.ptr) : (hbPush l z b).buf[j]? = b.buf[j]? := by
  rw [hbPush_buf, List.getElem?_set_ne hj.symm]

theorem hbStep_fst_of_emits {h : List Int} {z : Sample} (he : hbEmits l b = true) :
    (hbStep l h z b).1 = some (hbOutput h l b.ptr (hbPush l z b).buf) := if_pos he

theorem hbStep_fst_of_not_emits {h : List Int} {z : Sample} (he : hbEmits l b = false) :
    (hbStep l h z b).1 = none := if_neg (Bool.not_eq_true _ ▸ he)

end

/-- The normalized and saturated sum (R194). -/
theorem sat16_asr_hbShift (v : Int) : (sat16 (asr v Config.hbShift)).toInt = min 32767 (max (-32768) (v / 32768)) := by
  rw [sat16_toInt, asr_eq_ediv]
  rfl

/-- HB_STEP in closed form: the buffer, the emission, and the registers that hold `r` before the call (R191-R195). -/
theorem hbStep_result {l : Nat} {h : List Int} {b : HalfBand} (hk : LegalKernel l h) (hb : HalfBandInv l b)
    (z r : Sample) :
    let c := hbPush l z b
    let o := (hbStep l h z b).1
    c.ptr = (b.ptr + 1) % l ∧ c.fill = min (b.fill + 1) l ∧ c.buf.length = l ∧ c.buf[b.ptr]? = some z ∧
    (∀ j, j ≠ b.ptr → c.buf[j]? = b.buf[j]?) ∧
    (o.isSome = true ↔ c.fill = l ∧ b.ptr % 2 = 1) ∧
    (o.isSome = false → (o.map Sample.re).getD r.re = r.re ∧ (o.map Sample.im).getD r.im = r.im) ∧
    (o.isSome = true →
      ((o.map Sample.re).getD r.re).toInt = min 32767 (max (-32768) ((∑ k ∈ Finset.range h.length,
        h.getD k 0 * (c.buf.getD ((b.ptr + l - k) % l) .zero).re.toInt) / 32768)) ∧
      ((o.map Sample.im).getD r.im).toInt = min 32767 (max (-32768) ((∑ k ∈ Finset.range h.length,
        h.getD k 0 * (c.buf.getD ((b.ptr + l - k) % l) .zero).im.toInt) / 32768))) := by
  intro c o
  have hsome : o.isSome = hbEmits l b := hbStep_isSome l h z b
  refine ⟨rfl, rfl, (hbPush_inv hb).len, hbPush_buf_ptr hb z, fun j => hbPush_buf_of_ne z, ?_, fun hno => ?_, fun he => ?_⟩
  · rw [hsome]; exact hbEmits_iff z
  · have hnone : o = none := hbStep_fst_of_not_emits (hsome ▸ hno)
    rw [hnone]
    exact ⟨rfl, rfl⟩
  · have hout : o = some (hbOutput h l b.ptr c.buf) := hbStep_fst_of_emits (hsome ▸ he)
    rw [hout, ← convolve_eq_sum_mod hk.fits b.ptr fun k => (c.buf.getD k .zero).re.toInt,
      ← convolve_eq_sum_mod hk.fits b.ptr fun k => (c.buf.getD k .zero).im.toInt]
    exact ⟨sat16_asr_hbShift _, sat16_asr_hbShift _⟩

/-- Settles O33: the command is one call of stage 1 on (D_I, D_Q), whose output goes to the result registers. -/
theorem hb1StepResult : Obligations.Hb1StepResult := fun s hpar hhb1 =>
  have ⟨hk, _⟩ := Params_wf_kernels hpar
  ⟨_, rfl, rfl, hbStep_result hk hhb1 (dSample s) ⟨s.resI, s.resQ⟩⟩

/-- Settles O34: the command is one call of stage 2 on (D_I, D_Q), whose output goes to the result registers. -/
theorem hb2StepResult : Obligations.Hb2StepResult := fun s hpar hhb2 =>
  have ⟨_, hk⟩ := Params_wf_kernels hpar
  ⟨_, rfl, rfl, hbStep_result hk hhb2 (dSample s) ⟨s.resI, s.resQ⟩⟩

/-! ## A run of calls (R199) -/

/-- Settles O35: the outputs of a run are the emissions of its calls, and a stage after reset has seen no input. -/
theorem halfBandOutputCount : Obligations.HalfBandOutputCount := by
  intro l h zs hl
  have hpos : 0 < l := by omega
  have hcount {b : HalfBand} (hb : HalfBandInv l b) : (hbRun l h zs b).1.length = hbEmissions l b zs.length :=
    have ⟨hout, _, _⟩ := hbRun_counts h zs (by omega) hb
    hout
  refine ⟨?_, fun b => hcount⟩
  have hempty : (HalfBand.reset l).fill = 0 := rfl
  rw [hcount (hbreset_inv l hpos), hbEmissions_of_filling (hempty ▸ hpos), hempty, Nat.zero_add]

/-! ## Paired taps (R198) -/

/-- A sum over an odd number of indices is the middle term and the pairs around it. -/
theorem sum_range_eq_middle_add_pairs (f : Nat → Int) (c : Nat) :
    ∑ k ∈ Finset.range (2 * c + 1), f k = f c + ∑ k ∈ Finset.range c, (f k + f (2 * c - k)) := by
  have hupper : ∑ k ∈ Finset.range c, f (c + 1 + k) = ∑ k ∈ Finset.range c, f (2 * c - k) := by
    rw [← Finset.sum_range_reflect]
    refine Finset.sum_congr rfl fun k hk => congrArg f ?_
    rw [Finset.mem_range] at hk
    omega
  have hsplit : 2 * c + 1 = c + 1 + c := by omega
  rw [hsplit, Finset.sum_range_add, hupper, Finset.sum_range_succ, Finset.sum_add_distrib, add_comm _ (f c), add_assoc]

/-- Settles O36: the kernel's length is odd, so every tap but the middle one has a partner, which is equal to it. -/
theorem halfBandPairing : Obligations.HalfBandPairing := by
  intro l p h x hwf _
  have hk := LegalKernel.of_wf hwf
  obtain ⟨c, hc⟩ : ∃ c, h.length = 2 * c + 1 := ⟨h.length / 2, by have := hk.odd; omega⟩
  have hmiddle : (h.length - 1) / 2 = c := by omega
  rw [convolve_eq_sum, hmiddle, hc, sum_range_eq_middle_add_pairs]
  refine congrArg (_ + ·) (Finset.sum_congr rfl fun k hlt => ?_)
  rw [Finset.mem_range] at hlt
  have hpartner := hk.getD_reflect (k := k) (by omega)
  rw [hc, Nat.add_sub_cancel] at hpartner
  rw [Nat.add_sub_cancel, hpartner, mul_add]

/-! ## Range and gain (R193, R194) -/

/-- A sum over samples of size at most m is at most m times the taps' absolute sum (R11, R193). -/
theorem abs_convolve_le {x : Nat → Int} {m : Nat} (hx : ∀ k, |x k| ≤ m) (h : List Int) (l p : Nat) :
    |convolve h l p x| ≤ (h.map Int.natAbs).sum * m := by
  rw [convolve_eq_sum, sum_map_getD, Nat.cast_sum, Finset.sum_mul]
  refine (Finset.abs_sum_le_sum_abs _ _).trans (Finset.sum_le_sum fun k _ => ?_)
  rw [abs_mul, Int.natCast_natAbs]
  exact mul_le_mul_of_nonneg_left (hx _) (abs_nonneg _)

/-- Over equal samples the convolution is the kernel's gain times the sample (R11, R193). -/
theorem convolve_of_const {h : List Int} {l p : Nat} {x : Nat → Int} {v : Int} (hl : 0 < l)
    (hx : ∀ k, k < l → x k = v) : convolve h l p x = h.sum * v := by
  have hgain : h.sum = ∑ k ∈ Finset.range h.length, h.getD k 0 := by simpa using sum_map_getD id h
  rw [convolve_eq_sum, hgain, Finset.sum_mul]
  exact Finset.sum_congr rfl fun k _ => congrArg _ (hx _ (tapIndex_lt p k hl))

/-- The shift undoes the gain of a legal kernel, so an int16 value comes out exactly (R11, R194). -/
theorem sat16_asr_gain (v : Half) : sat16 (asr (32768 * v.toInt) Config.hbShift) = v := by
  have hshift : asr (32768 * v.toInt) Config.hbShift = v.toInt := by
    rw [asr_eq_ediv]
    exact Int.mul_ediv_cancel_left _ (by decide)
  rw [hshift, sat16_toInt_self]

/-- Settles O37: 65535 · 32768 is below 2^31, and the gain 32768 is what the shift by 15 divides by. -/
theorem halfBandRangeAndGain : Obligations.HalfBandRangeAndGain := by
  intro l p h buf hwf
  have hk := LegalKernel.of_wf hwf
  refine ⟨fun f => ?_, fun z hp hbuf => ?_⟩
  · have hsample : ∀ k, |(f (buf.getD k .zero)).toInt| ≤ (32768 : Nat) := fun k => by
      rw [← Int.natCast_natAbs]
      exact_mod_cast natAbs_toInt_le _
    have hsum := abs_le.1 (abs_convolve_le hsample h l p)
    have habs := hk.absSum
    omega
  · have hconst (f : Sample → Half) :
        convolve h l p (fun k => (f (buf.getD k .zero)).toInt) = 32768 * (f z).toInt := by
      rw [← hk.gain]
      refine convolve_of_const (Nat.zero_lt_of_lt hp) fun k hlt => ?_
      rw [hbuf, List.getD_replicate _ hlt]
    rw [hbOutput, hconst Sample.re, hconst Sample.im, sat16_asr_gain, sat16_asr_gain]

end Sys2Proof.Machine
end

section
/-! PROOFS of the family 42_droop: the wrapped bin position is the centred remainder modulo N, so its absolute value is an
index of the table (R211) with the symmetry of R215; and the scaling and the saturation of a component (R212, R214). -/

namespace Sys2Proof.Machine

/-! ## The wrapped bin position (R211) -/

section
variable {p : Params}

/-- The wrapped bin position is the remainder of b + o modulo N in [−N/2, N/2): N is even (R12, R211). -/
theorem wrappedBin_eq_bmod (hp : p.wf = true) (b o : Int) : wrappedBin p b o = (b + o).bmod p.fftN := by
  obtain ⟨hhalf, hfftN, hquarter, _⟩ := Params_wf_sizes hp
  have hpos : (0 : Int) < p.fftN := by omega
  have hlow := Int.emod_nonneg (b + o + p.half) hpos.ne'
  have hhigh := Int.emod_lt_of_pos (b + o + p.half) hpos
  have hcongr : (p.fftN : Int) ∣ wrappedBin p b o - (b + o) := by
    rw [wrappedBin, sub_sub, add_comm (p.half : Int)]
    exact Int.dvd_emod_sub_self
  refine ((Int.bmod_eq_iff (by omega)).2 ⟨?_, ?_, hcongr⟩).symm <;> rw [wrappedBin] <;> omega

/-- Every bin has an index of at most N/2, also the bin at −N/2 (R211). -/
theorem droopIndex_le_half (hp : p.wf = true) (b o : Int) : droopIndex p b o ≤ p.half := by
  obtain ⟨hhalf, hfftN, hquarter, _⟩ := Params_wf_sizes hp
  have hpos : 0 < p.fftN := by omega
  have hlow := Int.le_bmod (x := b + o) hpos
  have hhigh := Int.bmod_lt (x := b + o) hpos
  rw [droopIndex, wrappedBin_eq_bmod hp]
  omega

/-- The droop table has an entry for each of 0, …, N/2 (R20). -/
theorem Params_wf_droop (hp : p.wf = true) : p.droop.length = p.half + 1 := by
  simp only [Params.wf, Params.wfTables, Bool.and_eq_true, decide_eq_true_eq] at hp
  obtain ⟨⟨_, ⟨⟨_, hlength⟩, _⟩, _⟩, _⟩ := hp
  exact hlength

/-- Every index is one of the table (R211). -/
theorem droopIndex_lt_length (hp : p.wf = true) (b o : Int) : droopIndex p b o < p.droop.length := by
  rw [Params_wf_droop hp]
  exact Nat.lt_succ_of_le (droopIndex_le_half hp b o)

/-! ## Symmetry, centre and period (R215) -/

/-- Negating b + o negates its centred remainder, except at −N/2, where both are −N/2 (R215). -/
theorem droopIndex_neg (hp : p.wf = true) (b o : Int) : droopIndex p (-b) (-o) = droopIndex p b o := by
  rw [droopIndex, droopIndex, wrappedBin_eq_bmod hp, wrappedBin_eq_bmod hp, ← neg_add, Int.neg_bmod]
  split
  · rfl
  · exact Int.natAbs_neg _

/-- The index is 0 at bin −o (R215). -/
theorem droopIndex_neg_offset (hp : p.wf = true) (o : Int) : droopIndex p (-o) o = 0 := by
  rw [droopIndex, wrappedBin_eq_bmod hp, neg_add_cancel, Int.zero_bmod, Int.natAbs_zero]

/-- The index has period N in the bin (R211). -/
theorem droopIndex_add_fftN (b o : Int) : droopIndex p (b + p.fftN) o = droopIndex p b o := by
  have hshift : b + p.fftN + o + p.half = b + o + p.half + p.fftN := by ring
  rw [droopIndex, droopIndex, wrappedBin, wrappedBin, hshift, Int.add_emod_right]

/-- The correction depends on the bin and the offset through the index only (R212). -/
theorem droopCorr_congr {b b' o o' : Int} (h : droopIndex p b o = droopIndex p b' o') (z : Sample) :
    droopCorr p o b z = droopCorr p o' b' z := by
  rw [droopCorr, droopCorr, h]

end

/-- Settles O39: each part is that fact about the index. -/
theorem droopSymmetry : Obligations.DroopSymmetry := fun _ b o z hp =>
  ⟨droopCorr_congr (droopIndex_neg hp b 0).symm z, droopIndex_neg_offset hp o,
    droopCorr_congr (droopIndex_add_fftN b o).symm z⟩

/-! ## Scaling and saturation (R212) -/

/-- A component times a factor, shifted and saturated, over the integers (R212). -/
theorem sat16_scaleAsr (v : Half) (g : Int) (k : Nat) :
    (sat16 (scaleAsr v g k)).toInt = min 32767 (max (-32768) (v.toInt * g / 2 ^ k)) := by
  rw [sat16_toInt, scaleAsr, asr_eq_ediv, clampInt]

/-- Settles O38: the command writes the correction of (D_I, D_Q) to the result registers, and nothing else after the apply
point. -/
theorem droopResult : Obligations.DroopResult := fun b s hpar =>
  ⟨_, rfl, rfl, droopIndex_lt_length hpar b.toInt (applyPoint s).fcActive.loBinOffset.toInt, sat16_scaleAsr _ _ _,
    sat16_scaleAsr _ _ _⟩

end Sys2Proof.Machine
end

section
/-! PROOFS of the family 43_noise_reduction, first part: an update of a bin's estimates and its attenuation, in closed form
and with its ranges (R221-R227, R231), and NR_BIN (R230). -/

namespace Sys2Proof.Machine

/-! ## Estimate entries (R63) -/

/-- The two records hold the same estimates of bin k of a side. -/
def SameEstimates (side : Side) (k : Nat) (n m : NrEstimates) : Prop :=
  (n.sig side)[k]? = (m.sig side)[k]? ∧ (n.noise side)[k]? = (m.noise side)[k]?

section
variable {side : Side} {k : Nat} {n m l : NrEstimates}

theorem SameEstimates.refl (n : NrEstimates) : SameEstimates side k n n := ⟨rfl, rfl⟩

theorem SameEstimates.symm (h : SameEstimates side k n m) : SameEstimates side k m n :=
  ⟨Eq.symm h.1, Eq.symm h.2⟩

theorem SameEstimates.trans (h : SameEstimates side k n m) (h' : SameEstimates side k m l) : SameEstimates side k n l :=
  ⟨Eq.trans h.1 h'.1, Eq.trans h.2 h'.2⟩

@[simp] theorem NrEstimates_put_sig (x y : Word) : (n.put side k x y).sig side = (n.sig side).set k x := by
  cases side <;> rfl

@[simp] theorem NrEstimates_put_noise (x y : Word) : (n.put side k x y).noise side = (n.noise side).set k y := by
  cases side <;> rfl

/-- A write of one bin's estimates leaves those of every other bin and of the other side alone (R222, R223). -/
theorem NrEstimates_put_other {side' : Side} {k' : Nat} (x y : Word) (h : side' ≠ side ∨ k' ≠ k) :
    SameEstimates side' k' (n.put side k x y) n := by
  by_cases hside : side' = side
  · subst hside
    have hk : k ≠ k' := (h.resolve_left fun hne => hne rfl).symm
    simp [SameEstimates, List.getElem?_set_ne hk]
  · match side, side', hside with
    | .pos, .neg, _ => exact ⟨rfl, rfl⟩
    | .neg, .pos, _ => exact ⟨rfl, rfl⟩

/-- Both sides have an entry for every bin below N/2 (R63). -/
theorem NrInv_lengths {h : Nat} (hn : NrInv h n) (side : Side) :
    (n.sig side).length = h ∧ (n.noise side).length = h := by
  cases side
  · exact ⟨hn.lenSigPos, hn.lenNoisePos⟩
  · exact ⟨hn.lenSigNeg, hn.lenNoiseNeg⟩

end

/-! ## The parts of an update over the integers (R222-R227) -/

/-- S (R222). -/
theorem nrSignal_eq (sig m sm : Nat) : nrSignal sig m sm = sig + ((m : Int) - sig) / 2 ^ sm := by
  rw [nrSignal, asr_eq_ediv]

/-- The threshold, read with the configured one first (R224, R225). -/
theorem nrThreshold_eq (p : Params) (thr : Nat) (snr : Int) :
    (nrThreshold p thr snr : Int) =
      if thr = 0 then (p.nrAdapt.getD (min snr.toNat (p.nrAdapt.length - 1)) 0 : Int) else thr := by
  by_cases h : thr = 0 <;> simp [nrThreshold, h]

/-- The gain with GAIN_ONE as a number (R226). -/
theorem nrGain_eq (thr : Nat) (nn ssc : Int) :
    nrGain thr nn ssc = min 32768 (max 0 (32768 - thr * nn * 32768 / max ssc 1)) := by
  have h : gainOne = 32768 := by decide
  rw [nrGain, clampInt, h]

/-- A gain in 0..GAIN_ONE attenuates both components without wrapping (R227). -/
theorem nrApply_toInt {g : Int} (hlow : 0 ≤ g) (hhigh : g ≤ 32768) (z : Sample) :
    (nrApply g z).re.toInt = z.re.toInt * g / 32768 ∧ (nrApply g z).im.toInt = z.im.toInt * g / 32768 := by
  have hscale (v : Half) : (BitVec.ofInt 16 (scaleAsr v g Config.gainBits)).toInt = v.toInt * g / 32768 := by
    obtain ⟨h1, h2⟩ := scaleAsr_gain_range (v := v) hlow hhigh
    exact toInt_ofInt16 h1 h2
  exact ⟨hscale z.re, hscale z.im⟩

/-- A natural number below 2^32 survives in a 32-bit word. -/
theorem toNat_ofInt32 {v : Int} (hlow : 0 ≤ v) (hhigh : v < 2 ^ 32) : ((BitVec.ofInt 32 v).toNat : Int) = v := by
  rw [BitVec.toNat_ofInt]
  omega

/-! ## An update (R228) -/

section
variable {p : Params} {side : Side} {b h sm thr : Nat} {z : Sample} {n : NrEstimates}

/-- The scaled signal estimate lies in 0..40960·2^15 (R231). -/
theorem nrSignal_scaled_range {sig : Int} (hlow : 0 ≤ sig) (hhigh : sig ≤ 40960) (hsm : sm ≤ 15) :
    0 ≤ sig * 2 ^ sm ∧ sig * 2 ^ sm ≤ 40960 * 2 ^ 15 :=
  have hpow : (2 : Int) ^ sm ≤ 2 ^ 15 := pow_le_pow_right₀ (by norm_num) hsm
  ⟨by positivity, mul_le_mul hhigh hpow (by positivity) (by norm_num)⟩

/-- The entries that an update writes, over the integers: neither estimate wraps (R222, R223, R231). -/
theorem nrUpdate_entries (hn : NrInv h n) (hb : b < h) (hsm : sm ≤ 15) :
    let sg := nrSignal ((n.sig side).getD b 0).toNat (mag z) sm
    let nn := nrNoise p.nrNoiseRise ((n.noise side).getD b 0).toNat (sg * 2 ^ sm)
    let u := nrUpdate p side b z sm thr n
    ((((u.2.sig side).getD b 0).toNat : Int) = sg) ∧ ((((u.2.noise side).getD b 0).toNat : Int) = nn) := by
  intro sg nn u
  obtain ⟨hsig, hnoise⟩ := NrInv_lengths hn side
  obtain ⟨hlow, hhigh⟩ := nrSignal_range sm (NrInv_sig_le hn side b) (mag_le z)
  have hscaled : sg * 2 ^ sm ≤ 40960 * 2 ^ 15 := (nrSignal_scaled_range hlow hhigh hsm).2
  obtain ⟨hpos, hle⟩ := nrNoise_range p.nrNoiseRise ((n.noise side).getD b 0).toNat (sg * 2 ^ sm)
  have hsg : u.2.sig side = (n.sig side).set b (BitVec.ofInt 32 sg) := NrEstimates_put_sig _ _
  have hnn : u.2.noise side = (n.noise side).set b (BitVec.ofInt 32 nn) := by
    simp only [u, nrUpdate, NrEstimates_put_noise, Nat.cast_pow, Nat.cast_ofNat, nn, sg]
  rw [hsg, hnn, List.getD_eq_getElem?_getD, List.getD_eq_getElem?_getD, List.getElem?_set_self (by omega),
    List.getElem?_set_self (by omega)]
  exact ⟨toNat_ofInt32 hlow (by omega), toNat_ofInt32 (by omega) (by omega)⟩

/-- The bin that an update returns, over the integers (R224-R227). -/
theorem nrUpdate_bin (p : Params) (side : Side) (b : Nat) (z : Sample) (sm thr : Nat) (n : NrEstimates) :
    let ssc := nrSignal ((n.sig side).getD b 0).toNat (mag z) sm * 2 ^ sm
    let nn := nrNoise p.nrNoiseRise ((n.noise side).getD b 0).toNat ssc
    let g := nrGain (nrThreshold p thr (ssc / nn)) nn ssc
    (nrUpdate p side b z sm thr n).1.re.toInt = z.re.toInt * g / 32768 ∧
    (nrUpdate p side b z sm thr n).1.im.toInt = z.im.toInt * g / 32768 := by
  intro ssc nn g
  obtain ⟨hlow, hhigh⟩ := nrGain_range (nrThreshold p thr (ssc / nn)) nn ssc
  have hbin : (nrUpdate p side b z sm thr n).1 = nrApply g z := by
    simp only [nrUpdate, Nat.cast_pow, Nat.cast_ofNat, g, nn, ssc]
  rw [hbin]
  exact nrApply_toInt hlow hhigh z

/-- An update leaves the estimates of every other bin and of the other side alone (R228). -/
theorem nrUpdate_other {side' : Side} {b' : Nat} (hne : side' ≠ side ∨ b' ≠ b) :
    SameEstimates side' b' (nrUpdate p side b z sm thr n).2 n :=
  NrEstimates_put_other _ _ hne

end

/-- Settles O41: the entries, the bin and the frame of an update, with the ranges of the signal and noise estimates and of
the gain. -/
theorem nrUpdateRanges : Obligations.NrUpdateRanges := by
  intro p side b h sm thr z n hn hb hsm u m sig0 noise0 sg ssc nn t g
  have hsg : nrSignal ((n.sig side).getD b 0).toNat (mag z) sm = sg := by rw [nrSignal_eq, mag_eq_abs]
  obtain ⟨_, hsgHigh⟩ := nrSignal_range sm (NrInv_sig_le hn side b) (mag_le z)
  obtain ⟨hnnLow, hnnHigh⟩ := nrNoise_range p.nrNoiseRise ((n.noise side).getD b 0).toNat ssc
  have hg : nrGain (nrThreshold p thr (ssc / nn)) nn ssc = g := by rw [nrGain_eq, nrThreshold_eq]
  obtain ⟨hgLow, hgHigh⟩ := nrGain_range (nrThreshold p thr (ssc / nn)) nn ssc
  obtain ⟨hsig, hnoise⟩ := nrUpdate_entries (p := p) (side := side) (thr := thr) (z := z) hn hb hsm
  obtain ⟨hre, him⟩ := nrUpdate_bin p side b z sm thr n
  rw [hsg] at hsgHigh hsig hnoise hre him
  rw [hg] at hgLow hgHigh
  refine ⟨hsig, hnoise, hre.trans (congrArg (z.re.toInt * · / 32768) hg),
    him.trans (congrArg (z.im.toInt * · / 32768) hg), fun _ _ => nrUpdate_other, ?_, ?_, ?_, hgLow, hgHigh⟩
  · exact_mod_cast hsig.trans_le hsgHigh
  · exact_mod_cast hnnLow.trans_eq hnoise.symm
  · have hle := hnoise.trans_le hnnHigh
    rw [show ssc = ((u.2.sig side).getD b 0).toNat * 2 ^ sm from congrArg (· * 2 ^ sm) hsig.symm] at hle
    exact_mod_cast hle

/-! ## NR_BIN (R230) -/

/-- NR_BIN in range under a well-formed filter control is the apply point, one update and its result (R230). -/
theorem exec_nrBin_of_lt {side : Side} {b : Half} {s : State} (hready : FilterReady s) (hb : b.toNat < s.par.fftN / 2) :
    let a := applyPoint s
    let u := nrUpdate s.par side b.toNat ⟨s.dI, s.dQ⟩ a.fcActive.noiseSmoothing.toNat a.fcActive.noiseThreshold.toNat s.fft.nr
    exec (.nrBin side b) s =
      .next (({ a with fft := { a.fft with nr := u.2 } } : State).withResult (some u.1)) :=
  (if_pos ((nrBinInRange_iff s.par b).2 hb)).trans (if_pos hready)

/-- Settles O40: the update of O41 on (D_I, D_Q), with the smoothing and the threshold of the filter control. -/
theorem nrBinResult : Obligations.NrBinResult := by
  intro side b s _ hn hready hb
  refine ⟨_, exec_nrBin_of_lt hready hb, rfl, ?_⟩
  have hthr : (applyPoint s).fcActive.noiseThreshold = 0 ↔ (applyPoint s).fcActive.noiseThreshold.toNat = 0 :=
    BitVec.toNat_inj.symm
  obtain ⟨hsig, hnoise, hre, him, hother, _⟩ := nrUpdateRanges s.par side b.toNat s.par.half
    (applyPoint s).fcActive.noiseSmoothing.toNat (applyPoint s).fcActive.noiseThreshold.toNat ⟨s.dI, s.dQ⟩ s.fft.nr hn hb
    (FilterControl_wf_noiseSmoothing hready)
  simp only [← hthr] at hre him
  exact ⟨hsig, hnoise, hre, him, hother⟩

end Sys2Proof.Machine
end

section
/-! PROOFS of the family 43_noise_reduction, second part: what the walks leave in Y and in the estimates for a bin that is
masked, that passes, or that no walk visits (R229, R251, R257-R259). -/

namespace Sys2Proof.Machine

/-! ## An update reads only its own bin's estimates (R228, R258) -/

section
variable {p : Params} {fc : FilterControl} {side : Side} {k : Nat} {n m : NrEstimates}

theorem SameEstimates.getD (h : SameEstimates side k n m) :
    (n.sig side).getD k 0 = (m.sig side).getD k 0 ∧ (n.noise side).getD k 0 = (m.noise side).getD k 0 := by
  obtain ⟨hsig, hnoise⟩ := h
  simp only [List.getD_eq_getElem?_getD, hsig, hnoise, and_self]

theorem SameEstimates.put (h : SameEstimates side k n m) (x y : Word) :
    SameEstimates side k (n.put side k x y) (m.put side k x y) := by
  obtain ⟨hsig, hnoise⟩ := h
  simp only [SameEstimates, NrEstimates_put_sig, NrEstimates_put_noise, List.getElem?_set_self', hsig, hnoise, and_self]

theorem SameEstimates.nrUpdate (h : SameEstimates side k n m) (p : Params) (z : Sample) (sm thr : Nat) :
    (nrUpdate p side k z sm thr n).1 = (nrUpdate p side k z sm thr m).1 ∧
    SameEstimates side k (nrUpdate p side k z sm thr n).2 (nrUpdate p side k z sm thr m).2 := by
  obtain ⟨hsig, hnoise⟩ := h.getD
  simp only [Machine.nrUpdate, hsig, hnoise, h.put, and_self]

theorem SameEstimates.walkReduce (h : SameEstimates side k n m) (p : Params) (fc : FilterControl) (v : Sample) :
    (walkReduce p fc side k v n).1 = (walkReduce p fc side k v m).1 ∧
    SameEstimates side k (walkReduce p fc side k v n).2 (walkReduce p fc side k v m).2 := by
  unfold Machine.walkReduce
  split
  · exact h.nrUpdate p v _ _
  · exact ⟨rfl, h⟩

/-- Noise reduction is an update exactly when it is enabled and the bin is at least NR_MIN_BIN (R229, R258). -/
theorem walkReduce_eq (v : Sample) :
    walkReduce p fc side k v n = if fc.flags.getLsbD 4 = true ∧ 4 ≤ k
      then nrUpdate p side k v fc.noiseSmoothing.toNat fc.noiseThreshold.toNat n else (v, n) :=
  if_congr (Bool.and_eq_true_iff.trans (and_congr_right' decide_eq_true_iff)) rfl rfl

end

/-! ## One bin of a walk (R257-R259) -/

section
variable {p : Params} {fc : FilterControl} {x : List Sample} {side : Side} {w : Walk} {k : Nat}

theorem walkBin_of_passes (h : fc.passes side k = true) :
    let v := droopCorr p fc.loBinOffset.toInt (signedBin side k) (x.getD (forwardIndex p side k) .zero)
    let r := walkReduce p fc side k v w.nr
    walkBin p fc x side w k =
      ⟨w.y.set (outputIndex p side k) r.1, w.trk.track (outputIndex p side k) (mag v), r.2⟩ :=
  if_pos h

/-- One bin touches the estimates of its own index only, and of those only if noise reduction acts on it (R229). -/
theorem walkBin_nr_other {side' : Side} {k' : Nat} (h : (side', k') ≠ (side, k) ∨ ¬(fc.flags.getLsbD 4 = true ∧ 4 ≤ k)) :
    SameEstimates side' k' (walkBin p fc x side w k).nr w.nr := by
  cases hpass : fc.passes side k with
  | false => rw [walkBin_of_masked hpass]; exact .refl _
  | true =>
    simp only [walkBin_of_passes hpass, walkReduce_eq]
    split
    · next hacts =>
      have hne : ¬(side' = side ∧ k' = k) := by simpa using h.resolve_right (not_not_intro hacts)
      exact nrUpdate_other (not_and_or.1 hne)
    · exact .refl _

/-- A positive bin passes iff the upper sideband is enabled and the bin lies in start_bin..stop_bin (R257). -/
theorem passes_pos_iff : fc.passes .pos k = true ↔
    fc.flags.getLsbD 1 = true ∧ fc.startBin.toNat ≤ k ∧ k ≤ fc.stopBin.toNat := by
  simp only [FilterControl.passes, FilterControl.inPass, FilterControl.upperSideband, Bool.and_eq_true, decide_eq_true_eq]

/-- A negative bin passes iff the lower sideband is enabled and the bin lies in start_bin..stop_bin (R257). -/
theorem passes_neg_iff : fc.passes .neg k = true ↔
    fc.flags.getLsbD 0 = true ∧ fc.startBin.toNat ≤ k ∧ k ≤ fc.stopBin.toNat := by
  simp only [FilterControl.passes, FilterControl.inPass, FilterControl.lowerSideband, Bool.and_eq_true, decide_eq_true_eq]

end

/-! ## The walks as one list of bins (R258, R259) -/

/-- The bins that the walks visit, in their order. -/
def walkOrder (p : Params) : List (Side × Nat) :=
  (List.range p.quarter).map (Side.pos, ·) ++ (List.range' 1 p.quarter).map (Side.neg, ·)

/-- A walk's step at an entry of that list. -/
def walkStep (p : Params) (fc : FilterControl) (x : List Sample) (w : Walk) (e : Side × Nat) : Walk :=
  walkBin p fc x e.1 w e.2

theorem walk_eq_foldl (p : Params) (fc : FilterControl) (x : List Sample) (nr : NrEstimates) :
    walk p fc x nr = (walkOrder p).foldl (walkStep p fc x) ⟨List.replicate p.half .zero, .start, nr⟩ := by
  simp only [walk, walkOrder, walkStep, List.foldl_append, List.foldl_map]

section
variable {p : Params} {k : Nat}

@[simp] theorem pos_mem_walkOrder : (Side.pos, k) ∈ walkOrder p ↔ k < p.quarter := by simp [walkOrder]

@[simp] theorem neg_mem_walkOrder : (Side.neg, k) ∈ walkOrder p ↔ 1 ≤ k ∧ k ≤ p.quarter := by
  simp [walkOrder, Nat.add_comm 1]

/-- No bin is visited twice. -/
theorem walkOrder_nodup (p : Params) : (walkOrder p).Nodup := by
  refine List.nodup_append.2 ⟨List.nodup_range.map (Prod.mk_right_injective _),
    (List.nodup_range' ..).map (Prod.mk_right_injective _), fun a ha b hb hab => ?_⟩
  obtain ⟨_, _, rfl⟩ := List.mem_map.1 ha
  obtain ⟨_, _, rfl⟩ := List.mem_map.1 hb
  cases hab

/-- A visited bin stands inside Y (R251). -/
theorem outputIndex_lt (hp : p.wf = true) {side : Side} (h : (side, k) ∈ walkOrder p) : outputIndex p side k < p.half := by
  obtain ⟨hhalf, _, hquarter, _⟩ := Params_wf_sizes hp
  cases side <;> simp only [pos_mem_walkOrder, neg_mem_walkOrder] at h <;> simp only [outputIndex] <;> omega

/-- Two visited bins stand at different places of Y (R251). -/
theorem outputIndex_injective (hp : p.wf = true) {side side' : Side} {k' : Nat} (h : (side, k) ∈ walkOrder p)
    (h' : (side', k') ∈ walkOrder p) (heq : outputIndex p side k = outputIndex p side' k') : (side, k) = (side', k') := by
  obtain ⟨hhalf, _, _, _⟩ := Params_wf_sizes hp
  cases side <;> cases side' <;> simp only [pos_mem_walkOrder, neg_mem_walkOrder] at h h' <;>
    simp only [outputIndex] at heq <;> simp only [Prod.mk.injEq, true_and, reduceCtorEq, false_and] <;> omega

end

/-! ## What the walks leave (R229, R257-R259) -/

section
variable {p : Params} {fc : FilterControl} {x : List Sample} {nr : NrEstimates} {side : Side} {k : Nat}

theorem foldl_walkStep_y_other {es : List (Side × Nat)} {i : Nat} (h : ∀ e ∈ es, i ≠ outputIndex p e.1 e.2) (w : Walk) :
    (es.foldl (walkStep p fc x) w).y[i]? = w.y[i]? :=
  foldl_keeps (P := fun w' : Walk => w'.y[i]? = w.y[i]?) _
    (fun w' e he hw => (walkBin_y_other p fc x e.1 w' he).trans hw) es w h rfl

theorem foldl_walkStep_nr_other {es : List (Side × Nat)}
    (h : ∀ e ∈ es, (side, k) ≠ e ∨ ¬(fc.flags.getLsbD 4 = true ∧ 4 ≤ e.2)) (w : Walk) :
    SameEstimates side k (es.foldl (walkStep p fc x) w).nr w.nr :=
  foldl_keeps (P := fun w' : Walk => SameEstimates side k w'.nr w.nr) _
    (fun _ _ he hw => (walkBin_nr_other he).trans hw) es w h (.refl _)

/-- The walks leave alone the estimates of a bin that they do not visit (R258, R259). -/
theorem walk_nr_of_unvisited (h : (side, k) ∉ walkOrder p) : SameEstimates side k (walk p fc x nr).nr nr := by
  rw [walk_eq_foldl]
  exact foldl_walkStep_nr_other (fun e he => .inl fun heq => h (heq ▸ he)) _

/-- The walks leave alone the estimates of an index on which noise reduction does not act (R229). -/
theorem walk_nr_of_not_reduced (h : ¬(fc.flags.getLsbD 4 = true ∧ 4 ≤ k)) :
    SameEstimates side k (walk p fc x nr).nr nr := by
  rw [walk_eq_foldl]
  refine foldl_walkStep_nr_other (fun e _ => ?_) _
  by_cases heq : (side, k) = e
  · exact .inr (heq ▸ h)
  · exact .inl heq

/-- For a visited bin the walks leave what its own visit leaves, and the visit finds that bin's estimates as they were
before the walks. -/
theorem walk_of_visited (hp : p.wf = true) (h : (side, k) ∈ walkOrder p) : ∃ w : Walk, w.y.length = p.half ∧
    SameEstimates side k w.nr nr ∧
    (walk p fc x nr).y[outputIndex p side k]? = (walkBin p fc x side w k).y[outputIndex p side k]? ∧
    SameEstimates side k (walk p fc x nr).nr (walkBin p fc x side w k).nr := by
  obtain ⟨before, after, horder⟩ := List.append_of_mem h
  have hnodup : ((side, k) :: (before ++ after)).Nodup :=
    List.nodup_middle.1 (horder ▸ walkOrder_nodup p)
  have hbefore : ∀ e ∈ before, (side, k) ≠ e := fun e he heq =>
    (List.nodup_cons.1 hnodup).1 (heq ▸ List.mem_append_left _ he)
  have hafter : ∀ e ∈ after, (side, k) ≠ e := fun e he heq =>
    (List.nodup_cons.1 hnodup).1 (heq ▸ List.mem_append_right _ he)
  have hplace : ∀ e ∈ after, outputIndex p side k ≠ outputIndex p e.1 e.2 := fun e he heq =>
    hafter e he (outputIndex_injective hp h (horder ▸ by simp [he]) heq)
  rw [walk_eq_foldl, horder, List.foldl_append, List.foldl_cons]
  refine ⟨before.foldl (walkStep p fc x) ⟨List.replicate p.half .zero, .start, nr⟩, ?_,
    foldl_walkStep_nr_other (fun e he => .inl (hbefore e he)) _, foldl_walkStep_y_other hplace _,
    foldl_walkStep_nr_other (fun e he => .inl (hafter e he)) _⟩
  exact foldl_keeps (P := fun w : Walk => w.y.length = p.half) (Q := fun _ => True) _
    (fun w e _ hw => (walkBin_length p fc x e.1 w e.2).trans hw) before _ (fun _ _ => trivial) (List.length_replicate ..)

/-- A masked bin ends as (0, 0), its estimates as they were (R229, R257). -/
theorem walk_of_masked (hp : p.wf = true) (h : (side, k) ∈ walkOrder p) (hmask : ¬fc.passes side k = true) :
    (walk p fc x nr).y[outputIndex p side k]? = some ⟨0, 0⟩ ∧ SameEstimates side k (walk p fc x nr).nr nr := by
  obtain ⟨w, hlen, hbefore, hy, hnr⟩ := walk_of_visited (fc := fc) (x := x) (nr := nr) hp h
  rw [walkBin_of_masked (Bool.eq_false_of_not_eq_true hmask)] at hy hnr
  exact ⟨hy.trans (List.getElem?_set_self (hlen ▸ outputIndex_lt hp h)), hnr.trans hbefore⟩

/-- A pass bin ends as the noise-reduced droop-corrected forward bin, its estimates as that noise reduction leaves them
(R258, R259). -/
theorem walk_of_passes (hp : p.wf = true) (h : (side, k) ∈ walkOrder p) (hpass : fc.passes side k = true) :
    let v := droopCorr p fc.loBinOffset.toInt (signedBin side k) (x.getD (forwardIndex p side k) .zero)
    (walk p fc x nr).y[outputIndex p side k]? = some (walkReduce p fc side k v nr).1 ∧
    SameEstimates side k (walk p fc x nr).nr (walkReduce p fc side k v nr).2 := by
  intro v
  obtain ⟨w, hlen, hbefore, hy, hnr⟩ := walk_of_visited (fc := fc) (x := x) (nr := nr) hp h
  obtain ⟨hbin, hest⟩ := hbefore.walkReduce p fc v
  rw [walkBin_of_passes hpass] at hy hnr
  rw [hy, List.getElem?_set_self (hlen ▸ outputIndex_lt hp h)]
  exact ⟨congrArg some hbin, hnr.trans hest⟩

end

/-- Settles O44: each clause is the fact about its kind of bin. -/
theorem maskedBins : Obligations.MaskedBins := by
  intro p fc x nr hp
  refine ⟨fun k hk hmask => ?_, fun j hj1 hj hmask => ?_, fun k hk => ?_, fun j hj => ?_, fun side k hk => ?_, ?_⟩
  · exact walk_of_masked (side := .pos) hp (pos_mem_walkOrder.2 hk) (mt passes_pos_iff.1 hmask)
  · exact walk_of_masked (side := .neg) hp (neg_mem_walkOrder.2 ⟨hj1, hj⟩) (mt passes_neg_iff.1 hmask)
  · exact walk_nr_of_unvisited (side := .pos) (by simpa using hk)
  · exact walk_nr_of_unvisited (side := .neg) (by rw [neg_mem_walkOrder]; omega)
  · refine walk_nr_of_not_reduced fun ⟨hen, hmin⟩ => ?_
    rcases hk with hlt | hdis
    · omega
    · exact ne_true_of_eq_false hdis hen
  · intro side k out fwd bin hbin hstart hstop len c
    refine ⟨droopCorr p fc.loBinOffset.toInt bin (x.getD fwd .zero), sat16_scaleAsr _ _ _, sat16_scaleAsr _ _ _, ?_⟩
    intro u
    rw [show u = walkReduce p fc side k _ nr from (walkReduce_eq _).symm]
    obtain ⟨rfl, hk, hband, rfl, rfl, rfl⟩ | ⟨rfl, hk1, hk, hband, rfl, rfl, rfl⟩ := hbin
    · exact walk_of_passes (side := .pos) hp (pos_mem_walkOrder.2 hk) (passes_pos_iff.2 ⟨hband, hstart, hstop⟩)
    · exact walk_of_passes (side := .neg) hp (neg_mem_walkOrder.2 ⟨hk1, hk⟩) (passes_neg_iff.2 ⟨hband, hstart, hstop⟩)

end Sys2Proof.Machine
end

section
/-! PROOFS of the family 44_fft_filter, first part: peak tracking and the auto-notch (R65, R260, R261, R267). -/

namespace Sys2Proof.Machine

/-! ## The walks' tracker as a run over the pass bins (R257-R260) -/

section
variable (p : Params) (fc : FilterControl) (x : List Sample)

/-- What a pass bin is tracked with: its place in Y and its magnitude after droop correction (R258-R260). -/
def trackedBin (side : Side) (k : Nat) : Nat × Nat :=
  (outputIndex p side k,
    mag (droopCorr p fc.loBinOffset.toInt (signedBin side k) (x.getD (forwardIndex p side k) .zero)))

theorem passBins_eq :
    passBins p fc x = ((List.range p.quarter).filter (fc.passes .pos)).map (trackedBin p fc x .pos) ++
      ((List.range' 1 p.quarter).filter (fc.passes .neg)).map (trackedBin p fc x .neg) := rfl

/-- A walk over the bins of one side tracks those of them that pass, in order. -/
theorem foldl_walkBin_trk (side : Side) (ks : List Nat) (w : Walk) :
    (ks.foldl (walkBin p fc x side) w).trk =
      ((ks.filter (fc.passes side)).map (trackedBin p fc x side)).foldl (fun t e => t.track e.1 e.2) w.trk := by
  induction ks generalizing w with
  | nil => rfl
  | cons k ks ih =>
    rw [List.foldl_cons, ih]
    cases hpass : fc.passes side k with
    | false => rw [walkBin_of_masked hpass, List.filter_cons_of_neg (ne_true_of_eq_false hpass)]
    | true =>
      rw [walkBin_of_passes hpass, List.filter_cons_of_pos hpass, List.map_cons, List.foldl_cons]
      rfl

theorem walk_trk (nr : NrEstimates) : (walk p fc x nr).trk = trackRun (passBins p fc x) := by
  rw [walk, foldl_walkBin_trk, foldl_walkBin_trk, ← List.foldl_append, ← passBins_eq, trackRun]

end

/-! ## The first of largest magnitude (R260) -/

section
variable {l : List (Nat × Nat)} {e f : Nat × Nat} {o : Option Nat} {i m : Nat}

/-- The index o, or NONE, is that of the first entry of largest magnitude m; NONE stands for no magnitude but 0. -/
inductive FindsLargest (l : List (Nat × Nat)) : Option Nat → Nat → Prop
  | nothing (h : ∀ e ∈ l, e.2 = 0) : FindsLargest l none 0
  | found {i k m : Nat} (h : FirstLargest l i (k, m)) : FindsLargest l (some k) m

theorem FirstLargest.lt_length (h : FirstLargest l i e) : i < l.length := by
  obtain ⟨hi, _⟩ := h
  exact (List.getElem?_eq_some_iff.1 hi).1

/-- A further entry that is not larger changes nothing. -/
theorem FirstLargest.append (h : FirstLargest l i e) (hle : f.2 ≤ e.2) : FirstLargest (l ++ [f]) i e := by
  have hlt := h.lt_length
  obtain ⟨hi, hpos, hall, hfirst⟩ := h
  refine ⟨by rwa [List.getElem?_append_left hlt], hpos, fun y hy => ?_, fun j y hj hy => ?_⟩
  · rcases List.mem_append.1 hy with hy | hy
    · exact hall y hy
    · rwa [List.mem_singleton.1 hy]
  · rw [List.getElem?_append_left (hj.trans hlt)] at hy
    exact hfirst j y hj hy

/-- A further entry that is larger than all others becomes the first of largest magnitude. -/
theorem firstLargest_append_of_lt (h : ∀ y ∈ l, y.2 < e.2) (hpos : 0 < e.2) : FirstLargest (l ++ [e]) l.length e := by
  refine ⟨List.getElem?_concat_length, hpos, fun y hy => ?_, fun j y hj hy => ?_⟩
  · rcases List.mem_append.1 hy with hy | hy
    · exact (h y hy).le
    · rw [List.mem_singleton.1 hy]
  · rw [List.getElem?_append_left hj] at hy
    exact h y (List.mem_of_getElem? hy)

theorem FindsLargest.le (h : FindsLargest l o m) : ∀ y ∈ l, y.2 ≤ m := by
  cases h with
  | nothing hzero => exact fun y hy => (hzero y hy).le
  | found hfirst =>
    obtain ⟨_, _, hall, _⟩ := hfirst
    exact hall

theorem FindsLargest.append (h : FindsLargest l o m) (hle : f.2 ≤ m) : FindsLargest (l ++ [f]) o m := by
  cases h with
  | nothing hzero =>
    refine .nothing fun y hy => ?_
    rcases List.mem_append.1 hy with hy | hy
    · exact hzero y hy
    · rw [List.mem_singleton.1 hy]; exact Nat.le_zero.1 hle
  | found hfirst => exact .found (hfirst.append hle)

theorem FindsLargest.append_new (h : FindsLargest l o m) (hlt : m < e.2) : FirstLargest (l ++ [e]) l.length e :=
  firstLargest_append_of_lt (fun y hy => (h.le y hy).trans_lt hlt) (Nat.zero_lt_of_lt hlt)

theorem FindsLargest.eq_none_iff (h : FindsLargest l o m) : o = none ↔ ∀ y ∈ l, y.2 = 0 := by
  cases h with
  | nothing hzero => exact iff_of_true rfl hzero
  | found hfirst =>
    obtain ⟨hi, hpos, _⟩ := hfirst
    exact iff_of_false nofun fun hzero => hpos.ne' (hzero _ (List.mem_of_getElem? hi))

end

/-! ## Peak and runner-up (R260) -/

/-- The tracker holds the first of largest magnitude of the list, and the first of largest magnitude of the others. -/
inductive Tracks (l : List (Nat × Nat)) : Tracker → Prop
  | start (h : ∀ e ∈ l, e.2 = 0) : Tracks l .start
  | peak {i k m n : Nat} {r : Option Nat} (h : FirstLargest l i (k, m)) (hr : FindsLargest (l.eraseIdx i) r n) :
    Tracks l ⟨some k, m, r, n⟩

section
variable {l : List (Nat × Nat)} {t : Tracker} {idx mg : Nat}

/-- The peak is the first of largest magnitude of the whole list. -/
theorem Tracks.findsPeak (h : Tracks l t) : FindsLargest l t.peak t.peakMag := by
  cases h with
  | start hzero => exact .nothing hzero
  | peak hfirst _ => exact .found hfirst

/-- Tracking a further bin: a new peak makes the old one the runner-up, since it was the largest of the others (R260). -/
theorem Tracks.track (h : Tracks l t) : Tracks (l ++ [(idx, mg)]) (t.track idx mg) := by
  have hpeak := h.findsPeak
  unfold Tracker.track
  split
  · next hnew =>
    have hrest : (l ++ [(idx, mg)]).eraseIdx l.length = l := by simp [List.eraseIdx_append_of_length_le]
    exact .peak (hpeak.append_new hnew) (hrest.symm ▸ hpeak)
  · next hold =>
    cases h with
    | start hzero =>
      rw [if_neg (show ¬Tracker.start.runnerMag < mg from hold)]
      exact .start (((FindsLargest.nothing hzero).append (f := (idx, mg)) (Nat.not_lt.1 hold)).eq_none_iff.1 rfl)
    | peak hfirst hr =>
      have hkeep := hfirst.append (f := (idx, mg)) (Nat.not_lt.1 hold)
      have hrest := List.eraseIdx_append_of_lt_length hfirst.lt_length [(idx, mg)]
      split
      · next hlt => exact .peak hkeep (hrest ▸ .found (hr.append_new (e := (idx, mg)) hlt))
      · next hle => exact .peak hkeep (hrest ▸ hr.append (f := (idx, mg)) (Nat.not_lt.1 hle))

/-- Tracking the bins of a list one after another. -/
theorem trackRun_tracks (l : List (Nat × Nat)) : Tracks l (trackRun l) := by
  induction l using List.reverseRecOn with
  | nil => exact .start nofun
  | append_singleton l e ih =>
    rw [trackRun, List.foldl_append]
    exact ih.track

end

/-- Settles O45: the tracker has run over the pass bins. -/
theorem peakIsFirstLargest : Obligations.PeakIsFirstLargest := by
  intro p fc x nr l t
  have hrun : Tracks l t := by
    rw [show t = trackRun l from walk_trk p fc x nr]
    exact trackRun_tracks l
  clear_value l t
  refine ⟨hrun.findsPeak.eq_none_iff, ?_⟩
  cases hrun with
  | start _ => exact ⟨fun _ => rfl, nofun⟩
  | peak hfirst hr =>
    refine ⟨nofun, fun k hk => ⟨_, Option.some.inj hk ▸ hfirst, hr.eq_none_iff, fun k' hk' => ?_⟩⟩
    cases hr with
    | nothing _ => cases hk'
    | found hrunner => exact ⟨_, Option.some.inj hk' ▸ hrunner⟩

/-! ## The registers of a frame (R65, R261) -/

section
variable {p : Params} {fc : FilterControl} {x : List Sample}

theorem passBins_lt_half (hp : p.wf = true) : ∀ e ∈ passBins p fc x, e.1 < p.half := by
  intro e he
  rw [passBins_eq, List.mem_append, List.mem_map, List.mem_map] at he
  obtain ⟨k, hk, rfl⟩ | ⟨k, hk, rfl⟩ := he
  · exact outputIndex_lt hp (pos_mem_walkOrder.2 (List.mem_range.1 (List.mem_filter.1 hk).1))
  · have hrange := List.mem_range'_1.1 (List.mem_filter.1 hk).1
    exact outputIndex_lt hp (neg_mem_walkOrder.2 (by omega))

/-- The walks' peak and runner-up are places of Y (R65, R260). -/
theorem walk_trackerBelow (hp : p.wf = true) (nr : NrEstimates) : TrackerBelow p.half (walk p fc x nr).trk := by
  have hstart : TrackerBelow p.half .start := by simp [TrackerBelow, Tracker.start]
  rw [walk_trk]
  exact foldl_keeps (Q := fun e : Nat × Nat => e.1 < p.half) _ (fun _ _ he ht => track_below he ht) _ _
    (passBins_lt_half hp) hstart

/-- The register of an index of Y holds that index (R65). -/
theorem binReg_toNat_of_lt_half {k : Nat} (hp : p.wf = true) (hk : k < p.half) : (binReg (some k)).toNat = k :=
  have ⟨_, _, _, hhalf⟩ := Params_wf_sizes hp
  binReg_toNat hhalf hk

/-- The hysteresis count of a frame that finds the peak k (R261). -/
theorem notchCount_some {k : Nat} (hp : p.wf = true) (hk : k < p.half) (prev cnt : Half) :
    (notchCount p prev (some k) cnt).toNat =
      if prev.toNat = k then min (cnt.toNat + 1) p.notchMax else cnt.toNat - 1 := by
  obtain ⟨_, _, _, hmax, _⟩ := Params_wf_fft hp
  have hreg := binReg_toNat_of_lt_half hp hk
  have hsame : binReg (some k) = prev ↔ prev.toNat = k := by rw [← BitVec.toNat_inj, hreg, eq_comm]
  simp only [notchCount, Option.isSome_some, Bool.true_and, decide_eq_true_eq, hsame]
  split <;> rw [BitVec.toNat_ofNat, Nat.mod_eq_of_lt (by omega)]

/-- The hysteresis count of a frame that finds no peak (R261). -/
theorem notchCount_none (prev cnt : Half) : (notchCount p prev none cnt).toNat = cnt.toNat - 1 := by
  have hcount : notchCount p prev none cnt = BitVec.ofNat 16 (cnt.toNat - 1) := rfl
  rw [hcount, BitVec.toNat_ofNat, Nat.mod_eq_of_lt (by omega)]

/-! ## When the notch acts, and on what (R261) -/

/-- The notch acts iff it is enabled, the count exceeds half its maximum and the peak is not within NOTCH_EDGE bins of an
end of Y (R261). -/
theorem notchActs_iff {cnt : Half} {k : Nat} (hp : p.wf = true) : notchActs p fc cnt k = true ↔
    fc.flags.getLsbD 3 = true ∧ p.notchMax / 2 < cnt.toNat ∧ 3 ≤ k ∧ k ≤ p.half - 1 - 3 := by
  obtain ⟨hhalf, _, hquarter, _⟩ := Params_wf_sizes hp
  have hedge : k + 1 + Config.notchEdge ≤ p.half ↔ k ≤ p.half - 1 - 3 := by
    rw [Config.notchEdge]; omega
  simp only [notchActs, FilterControl.notchEnabled, Bool.and_eq_true, decide_eq_true_eq, hedge, and_assoc]
  rfl

theorem notchBins_of_acts {cnt : Half} {k : Nat} (h : notchActs p fc cnt k = true) (y : List Sample) :
    notchBins p fc cnt (some k) y = ((y.set (k - 1) .zero).set k .zero).set (k + 1) .zero := if_pos h

theorem notchBins_of_not_acts {cnt : Half} {k : Nat} (h : notchActs p fc cnt k = false) (y : List Sample) :
    notchBins p fc cnt (some k) y = y := if_neg (ne_true_of_eq_false h)

/-- Where the notch acts it zeroes the peak's bin and its two neighbours and no other (R261). -/
theorem notchBins_getElem? {cnt : Half} {k j : Nat} {y : List Sample} (hp : p.wf = true)
    (h : notchActs p fc cnt k = true) (hlen : y.length = p.half) :
    (notchBins p fc cnt (some k) y)[j]? = if j + 1 = k ∨ j = k ∨ j = k + 1 then some ⟨0, 0⟩ else y[j]? := by
  obtain ⟨_, _, hlow, hhigh⟩ := (notchActs_iff hp).1 h
  rw [notchBins_of_acts h]
  split
  · next hnear =>
    obtain rfl | rfl | rfl := hnear
    · rw [List.getElem?_set_ne (by omega), List.getElem?_set_ne (by omega), Nat.add_sub_cancel,
        List.getElem?_set_self (by omega)]
      rfl
    · rw [List.getElem?_set_ne (by omega), List.getElem?_set_self (by rw [List.length_set]; omega)]
      rfl
    · rw [List.getElem?_set_self (by simp only [List.length_set]; omega)]
      rfl
  · rw [List.getElem?_set_ne (by omega), List.getElem?_set_ne (by omega), List.getElem?_set_ne (by omega)]

/-! ## A steady peak (R267) -/

/-- Every frame that finds the peak of the frame before counts up, to NOTCH_MAX (R261). -/
theorem notchRun_same {k n : Nat} {cnt : Half} (hp : p.wf = true) (hk : k < p.half) (hcnt : cnt.toNat ≤ p.notchMax) :
    (notchRun p k n (binReg (some k)) cnt).toNat = min (cnt.toNat + n) p.notchMax := by
  induction n generalizing cnt with
  | zero => exact (Nat.min_eq_left hcnt).symm
  | succ n ih =>
    have hup := notchCount_some hp hk (binReg (some k)) cnt
    rw [if_pos (binReg_toNat_of_lt_half hp hk)] at hup
    rw [notchRun, ih (hup ▸ Nat.min_le_right ..), hup]
    omega

/-- From reset the first frame finds no earlier peak, and every later one counts up (R267). -/
theorem notchRun_reset {k n : Nat} (hp : p.wf = true) (hk : k < p.half) (hn : 1 ≤ n) :
    (notchRun p k n 0xFFFF 0).toNat = min (n - 1) p.notchMax := by
  obtain ⟨n, rfl⟩ := Nat.exists_eq_add_of_le' hn
  obtain ⟨_, _, _, hhalf⟩ := Params_wf_sizes hp
  have hnone : (0xFFFF : Half).toNat ≠ k := by
    have hval : (0xFFFF : Half).toNat = 65535 := rfl
    omega
  have hfirst := notchCount_some hp hk 0xFFFF 0
  rw [if_neg hnone] at hfirst
  rw [notchRun, notchRun_same hp hk (hfirst ▸ Nat.zero_le _), hfirst]
  exact congrArg (min · p.notchMax) (Nat.zero_add n)

/-- The hysteresis count has at least one step (R12). -/
theorem Params_wf_notchMax_pos (hp : p.wf = true) : 1 ≤ p.notchMax := by
  simp only [Params.wf, Params.wfFft, Bool.and_eq_true, decide_eq_true_eq] at hp
  obtain ⟨⟨⟨_, ⟨_, hpos⟩, _⟩, _⟩, _⟩ := hp
  exact hpos

end

/-- Settles O46: the registers of a frame, the condition of the notch, and the count over frames with a steady peak. -/
theorem notchActsOnSteadyPeak : Obligations.NotchActsOnSteadyPeak := by
  refine ⟨?_, fun p fc cnt k hp => notchActs_iff hp, ?_⟩
  · intro p fc f hp trk f'
    obtain ⟨hpeak, hrunner⟩ := walk_trackerBelow (fc := fc) (x := engine p (fftM p) (windowed p f.prevIn f.frame)) hp f.nr
    have hf' : f'.notchCnt = notchCount p f.prevPeak trk.peak f.notchCnt ∧ f'.peakIdx = binReg trk.peak ∧
        f'.prevPeak = binReg trk.peak ∧ f'.runnerIdx = binReg trk.runner := ⟨rfl, rfl, rfl, rfl⟩
    obtain ⟨hcnt, hidx, hprev, hrun⟩ := hf'
    rw [hcnt, hidx, hprev, hrun]
    refine ⟨fun k hk => ?_, fun hnone => ?_, fun k hk => ?_, fun hnone => ?_⟩
    · have hlt := hpeak k hk
      rw [hk]
      exact ⟨hlt, binReg_toNat_of_lt_half hp hlt, binReg_toNat_of_lt_half hp hlt, notchCount_some hp hlt _ _⟩
    · rw [hnone]
      exact ⟨rfl, rfl, notchCount_none _ _⟩
    · have hlt := hrunner k hk
      rw [hk]
      exact ⟨hlt, binReg_toNat_of_lt_half hp hlt⟩
    · rw [hnone]; rfl
  · intro p fc k n y hp hk hn cnt
    have hcnt : cnt.toNat = min (n - 1) p.notchMax := notchRun_reset hp hk hn
    have hpos := Params_wf_notchMax_pos hp
    refine ⟨hcnt, fun hon hlow hhigh => ?_, fun hacts hlen j _ => notchBins_getElem? hp hacts hlen,
      fun hidle => notchBins_of_not_acts hidle y⟩
    rw [notchActs_iff hp, hcnt]
    simp only [hon, hlow, hhigh, true_and, and_true]
    omega

end Sys2Proof.Machine
end

section
/-! PROOFS of the family 44_fft_filter, second part: the transform engine (R254). -/

namespace Sys2Proof.Machine

/-! ## The pairs of a stage (R254) -/

/-- The first element of the j-th pair of stage s; the second stands 2^s behind it (R254). -/
def pairLo (s j : Nat) : Nat := j / 2 ^ s * (2 * 2 ^ s) + j % 2 ^ s

/-- What the j-th butterfly of stage s makes of its pair (R254). -/
def pairOutputs (p : Params) (s j : Nat) (b : List Sample) : Sample × Sample :=
  butterfly (p.twCos.getD (twiddleIndex p s (j % 2 ^ s)) 0) (-(p.twSin.getD (twiddleIndex p s (j % 2 ^ s)) 0))
    (decide (s % 2 = 0)) (b.getD (pairLo s j) .zero) (b.getD (pairLo s j + 2 ^ s) .zero)

section
variable {p : Params} {m s j j' : Nat} {b b' : List Sample}

theorem butterflyAt_eq (p : Params) (s : Nat) (b : List Sample) (j : Nat) : butterflyAt p s b j =
    (b.set (pairLo s j) (pairOutputs p s j b).1).set (pairLo s j + 2 ^ s) (pairOutputs p s j b).2 := rfl

/-- A butterfly reads its own pair only. -/
theorem pairOutputs_congr (hlo : b[pairLo s j]? = b'[pairLo s j]?)
    (hhi : b[pairLo s j + 2 ^ s]? = b'[pairLo s j + 2 ^ s]?) : pairOutputs p s j b = pairOutputs p s j b' := by
  simp only [pairOutputs, List.getD_eq_getElem?_getD, hlo, hhi]

/-- The group of a pair and its place in the group, off its two elements: the first elements have even quotients by 2^s,
the second ones odd. -/
theorem pairLo_div_mod (s j : Nat) :
    (pairLo s j / 2 ^ s = 2 * (j / 2 ^ s) ∧ pairLo s j % 2 ^ s = j % 2 ^ s) ∧
    (pairLo s j + 2 ^ s) / 2 ^ s = 2 * (j / 2 ^ s) + 1 ∧ (pairLo s j + 2 ^ s) % 2 ^ s = j % 2 ^ s := by
  have hpos : 0 < 2 ^ s := Nat.two_pow_pos s
  have hlt : j % 2 ^ s < 2 ^ s := Nat.mod_lt _ hpos
  have hsplit : pairLo s j = 2 ^ s * (2 * (j / 2 ^ s)) + j % 2 ^ s := by rw [pairLo]; ring
  have hdiv : pairLo s j / 2 ^ s = 2 * (j / 2 ^ s) := by
    rw [hsplit, Nat.mul_add_div hpos, Nat.div_eq_of_lt hlt, Nat.add_zero]
  have hmod : pairLo s j % 2 ^ s = j % 2 ^ s := by rw [hsplit, Nat.mul_add_mod, Nat.mod_mod]
  exact ⟨⟨hdiv, hmod⟩, by rw [Nat.add_div_right _ hpos, hdiv], by rw [Nat.add_mod_right, hmod]⟩

/-- Different pairs of a stage have no element in common. -/
theorem pairs_disjoint (h : j ≠ j') : pairLo s j ≠ pairLo s j' ∧ pairLo s j ≠ pairLo s j' + 2 ^ s := by
  obtain ⟨⟨hdiv, hmod⟩, _⟩ := pairLo_div_mod s j
  obtain ⟨⟨hdiv', hmod'⟩, hdivHi', _⟩ := pairLo_div_mod s j'
  constructor
  · intro heq
    have hquot : j / 2 ^ s = j' / 2 ^ s := by rw [heq, hdiv'] at hdiv; omega
    have hrem : j % 2 ^ s = j' % 2 ^ s := by rw [← hmod, ← hmod', heq]
    exact h (by rw [← Nat.div_add_mod j (2 ^ s), ← Nat.div_add_mod j' (2 ^ s), hquot, hrem])
  · intro heq
    rw [heq, hdivHi'] at hdiv
    omega

/-- A butterfly leaves every other pair alone. -/
theorem butterflyAt_other_pair (p : Params) (b : List Sample) (h : j ≠ j') :
    (butterflyAt p s b j)[pairLo s j']? = b[pairLo s j']? ∧
    (butterflyAt p s b j)[pairLo s j' + 2 ^ s]? = b[pairLo s j' + 2 ^ s]? := by
  obtain ⟨hlo, hlohi⟩ := pairs_disjoint (s := s) h
  obtain ⟨_, hhilo⟩ := pairs_disjoint (s := s) h.symm
  exact ⟨butterflyAt_other p s b hlo.symm hhilo,
    butterflyAt_other p s b hlohi.symm fun heq => hlo (Nat.add_right_cancel heq).symm⟩

/-! ## The butterflies of a stage in any order (R254) -/

/-- Two butterflies of a stage commute: neither reads or writes the other's pair. -/
theorem butterflyAt_comm (p : Params) (s : Nat) (b : List Sample) (j j' : Nat) :
    butterflyAt p s (butterflyAt p s b j) j' = butterflyAt p s (butterflyAt p s b j') j := by
  by_cases h : j = j'
  · rw [h]
  obtain ⟨hlo, hlohi⟩ := pairs_disjoint (s := s) h
  obtain ⟨_, hhilo⟩ := pairs_disjoint (s := s) (Ne.symm h)
  have hhi : pairLo s j + 2 ^ s ≠ pairLo s j' + 2 ^ s := fun heq => hlo (Nat.add_right_cancel heq)
  obtain ⟨hkeep, hkeepHi⟩ := butterflyAt_other_pair p b h
  obtain ⟨hkeep', hkeepHi'⟩ := butterflyAt_other_pair p b (Ne.symm h)
  have hout : pairOutputs p s j' (butterflyAt p s b j) = pairOutputs p s j' b := pairOutputs_congr hkeep hkeepHi
  have hout' : pairOutputs p s j (butterflyAt p s b j') = pairOutputs p s j b := pairOutputs_congr hkeep' hkeepHi'
  rw [butterflyAt_eq p s (butterflyAt p s b j) j', butterflyAt_eq p s (butterflyAt p s b j') j, hout, hout',
    butterflyAt_eq p s b j, butterflyAt_eq p s b j',
    List.set_comm _ _ hhilo.symm, List.set_comm _ _ hlo, List.set_comm _ _ hhi, List.set_comm _ _ hlohi]

/-- The butterflies of a stage may run in any order. -/
theorem foldl_butterflyAt_perm {js js' : List Nat} (h : js.Perm js') (b : List Sample) :
    js.foldl (butterflyAt p s) b = js'.foldl (butterflyAt p s) b :=
  have : RightCommutative (butterflyAt p s) := ⟨butterflyAt_comm p s⟩
  h.foldl_eq b

/-- After a stage each pair holds what its own butterfly made of it: run that butterfly first, and the others leave its pair
alone. -/
theorem engineStage_pair (hj : j < 2 ^ (m - 1)) :
    (engineStage p m b s)[pairLo s j]? = (butterflyAt p s b j)[pairLo s j]? ∧
    (engineStage p m b s)[pairLo s j + 2 ^ s]? = (butterflyAt p s b j)[pairLo s j + 2 ^ s]? := by
  have hfirst : engineStage p m b s =
      ((List.range (2 ^ (m - 1))).erase j).foldl (butterflyAt p s) (butterflyAt p s b j) :=
    foldl_butterflyAt_perm (List.perm_cons_erase (List.mem_range.2 hj)) b
  rw [hfirst]
  refine foldl_keeps (P := fun l : List Sample => l[pairLo s j]? = (butterflyAt p s b j)[pairLo s j]? ∧
    l[pairLo s j + 2 ^ s]? = (butterflyAt p s b j)[pairLo s j + 2 ^ s]?) (Q := (· ≠ j)) _ (fun l i hi hl => ?_) _ _
    (fun i hi => (List.nodup_range.mem_erase_iff.1 hi).1) ⟨rfl, rfl⟩
  obtain ⟨hlo, hhi⟩ := butterflyAt_other_pair p l hi
  exact ⟨hlo.trans hl.1, hhi.trans hl.2⟩

/-- A butterfly writes both elements of its pair. -/
theorem butterflyAt_pair (h : pairLo s j + 2 ^ s < b.length) :
    (butterflyAt p s b j)[pairLo s j]? = some (pairOutputs p s j b).1 ∧
    (butterflyAt p s b j)[pairLo s j + 2 ^ s]? = some (pairOutputs p s j b).2 := by
  have hpos : 0 < 2 ^ s := Nat.two_pow_pos s
  rw [butterflyAt_eq]
  refine ⟨?_, List.getElem?_set_self (by rwa [List.length_set])⟩
  rw [List.getElem?_set_ne (by omega), List.getElem?_set_self (by omega)]

end

/-! ## One butterfly over the integers (R254) -/

/-- One part of a butterfly's outputs: halved on even stages and saturated. -/
theorem sat16_stage (s : Nat) (a : Int) :
    (sat16 (if decide (s % 2 = 0) = true then asr a 1 else a)).toInt =
      min 32767 (max (-32768) (if s % 2 = 0 then a / 2 else a)) := by
  rw [sat16_toInt, clampInt, asr_eq_ediv, pow_one]
  simp only [decide_eq_true_eq]

/-- The pair k of group g, as the loops of R254 count the pairs. -/
theorem pairLo_of_group {s g k : Nat} (hk : k < 2 ^ s) :
    pairLo s (g * 2 ^ s + k) = g * 2 ^ (s + 1) + k ∧ (g * 2 ^ s + k) % 2 ^ s = k := by
  have hmod : (g * 2 ^ s + k) % 2 ^ s = k := by rw [Nat.mul_add_mod_self_right, Nat.mod_eq_of_lt hk]
  have hdiv : (g * 2 ^ s + k) / 2 ^ s = g := by
    rw [Nat.mul_comm, Nat.mul_add_div (Nat.two_pow_pos s), Nat.div_eq_of_lt hk, Nat.add_zero]
  exact ⟨by rw [pairLo, hmod, hdiv, pow_succ'], hmod⟩

/-- Pair k of group g is one of the stage's, and lies in the array. -/
theorem group_in_stage {m s g k : Nat} (hk : k < 2 ^ s) (hg : (g + 1) * 2 ^ (s + 1) ≤ 2 ^ m) :
    g * 2 ^ s + k < 2 ^ (m - 1) ∧ g * 2 ^ (s + 1) + k + 2 ^ s < 2 ^ m := by
  have hspan : (g + 1) * 2 ^ (s + 1) = 2 * (g * 2 ^ s + 2 ^ s) := by ring
  have hlo : g * 2 ^ (s + 1) = 2 * (g * 2 ^ s) := by ring
  cases m with
  | zero =>
    have hpos : 0 < 2 ^ s := Nat.two_pow_pos s
    omega
  | succ m =>
    have htwice : 2 ^ (m + 1) = 2 * 2 ^ m := pow_succ' 2 m
    rw [Nat.add_sub_cancel]
    omega

/-! ## Bit reversal (R254) -/

theorem bitrev_testBit (m n i : Nat) : (bitrev m n).testBit i = (decide (i < m) && n.testBit (m - 1 - i)) := by
  induction m generalizing n i with
  | zero => simp [bitrev]
  | succ m ih =>
    have hlow : bitrev m (n / 2) < 2 ^ m := Nat.lt_pow_two_of_testBit _ fun i hi => by rw [ih]; simp [hi]
    rw [bitrev, Nat.mul_comm, Nat.testBit_two_pow_mul_add _ hlow]
    split
    · next hlt =>
      have hshift : m + 1 - 1 - i = m - 1 - i + 1 := by omega
      rw [ih, hshift, Nat.testBit_add_one]
      simp [hlt, Nat.lt_succ_of_lt hlt]
    · next hge =>
      by_cases htop : i = m
      · simp [htop]
      · have hout : ¬i < m + 1 := by omega
        rw [decide_eq_false hout, Bool.false_and]
        exact Nat.testBit_lt_two_pow ((Nat.mod_lt n two_pos).trans_le (Nat.le_self_pow (by omega) 2))

theorem bitrev_lt (m n : Nat) : bitrev m n < 2 ^ m :=
  Nat.lt_pow_two_of_testBit _ fun i hi => by rw [bitrev_testBit, decide_eq_false (by omega), Bool.false_and]

/-- The index with the low m bits of n in reverse order is bitrev_m(n). -/
theorem eq_bitrev {m n r : Nat} (hr : r < 2 ^ m) (h : ∀ i, i < m → r.testBit i = n.testBit (m - 1 - i)) :
    r = bitrev m n := by
  refine Nat.eq_of_testBit_eq fun i => ?_
  rw [bitrev_testBit]
  by_cases hi : i < m
  · rw [h i hi, decide_eq_true hi, Bool.true_and]
  · rw [decide_eq_false hi, Bool.false_and]
    exact Nat.testBit_lt_two_pow (hr.trans_le (Nat.pow_le_pow_right two_pos (Nat.not_lt.1 hi)))

/-- Reversing twice gives the index back, so that no two inputs go to the same place. -/
theorem bitrev_bitrev {m n : Nat} (hn : n < 2 ^ m) : bitrev m (bitrev m n) = n := by
  refine (eq_bitrev hn fun i hi => ?_).symm
  have hback : m - 1 - (m - 1 - i) = i := by omega
  rw [bitrev_testBit, hback, decide_eq_true (by omega), Bool.true_and]

/-- Storing the inputs before k one after another leaves each at its reversed index. -/
theorem foldl_bitrev_getElem? (m : Nat) (a : List Sample) {k n : Nat} (hk : k ≤ 2 ^ m) (hn : n < k) :
    ((List.range k).foldl (fun b i => b.set (bitrev m i) (a.getD i .zero))
      (List.replicate (2 ^ m) .zero))[bitrev m n]? = some (a.getD n .zero) := by
  induction k with
  | zero => cases hn
  | succ k ih =>
    rw [List.range_succ, List.foldl_append, List.foldl_cons, List.foldl_nil]
    by_cases hlast : n = k
    · rw [hlast, List.getElem?_set_self]
      rw [foldl_set_length _ (by simp), List.length_replicate]
      exact bitrev_lt m k
    · have hother : bitrev m k ≠ bitrev m n := fun heq =>
        hlast (by rw [← bitrev_bitrev (show n < 2 ^ m by omega), ← heq, bitrev_bitrev (by omega)])
      rw [List.getElem?_set_ne hother]
      exact ih (by omega) (by omega)

/-- Input n goes to the index with its low m bits reversed (R254). -/
theorem bitReverse_getElem? (m : Nat) (a : List Sample) {n : Nat} (hn : n < 2 ^ m) :
    (bitReverse m a)[bitrev m n]? = some (a.getD n .zero) := foldl_bitrev_getElem? m a le_rfl hn

/-- Settles O47: butterflies of a stage commute, and each writes its own pair. -/
theorem butterflyOrderIrrelevant : Obligations.ButterflyOrderIrrelevant := by
  intro p m s b js hjs
  refine ⟨foldl_butterflyAt_perm hjs b, fun g k hlen hk hg => ?_, rfl, fun n r hn hr hbits => ?_⟩
  · obtain ⟨hpair, hplace⟩ := pairLo_of_group (g := g) hk
    obtain ⟨hj, hin⟩ := group_in_stage hk hg
    intro lo u v wr wi tr ti out
    obtain ⟨hlo, hhi⟩ := engineStage_pair (p := p) (s := s) (b := b) hj
    obtain ⟨hq, hr⟩ := butterflyAt_pair (p := p) (b := b) (show pairLo s (g * 2 ^ s + k) + 2 ^ s < b.length by omega)
    have hout : pairOutputs p s (g * 2 ^ s + k) b = butterfly wr wi (decide (s % 2 = 0)) u v := by
      rw [pairOutputs, hplace, hpair]; rfl
    have htr : asr (v.re.toInt * wr - v.im.toInt * wi) 15 = tr := asr_eq_ediv _ _
    have hti : asr (v.re.toInt * wi + v.im.toInt * wr) 15 = ti := asr_eq_ediv _ _
    rw [hpair] at hlo hhi hq hr
    refine ⟨_, _, hlo.trans hq, hhi.trans hr, ?_⟩
    rw [hout, butterfly, htr, hti]
    exact ⟨sat16_stage s _, sat16_stage s _, sat16_stage s _, sat16_stage s _⟩
  · rw [eq_bitrev hr hbits]
    exact bitReverse_getElem? m b hn

end Sys2Proof.Machine
end

section
/-! PROOFS of the family 44_fft_filter, third part: FFT_PUSH, and the frame that it completes (R252, R253, R261-R265). -/

namespace Sys2Proof.Machine

/-! ## FFT_PUSH (R264, R265) -/

section
variable {s : State}

/-- An FFT_PUSH whose FRAME_PUSH runs answers what that answers (R265). -/
theorem exec_fftPush_of_framePush {o : Option Sample} {u : State}
    (h : framePush ⟨s.dI, s.dQ⟩ (applyPoint s) = .ok (o, u)) : exec .fftPush s = .next (u.withResult o) := by
  have hpush : framePush (dSample (applyPoint s)) (applyPoint s) = .ok (o, u) := h
  simp only [exec, execFftPush, hpush]

/-- FRAME_PUSH short of a full frame (R264). -/
theorem framePush_of_ne {z : Sample} (h : s.fft.frameFill + 1 ≠ s.par.half) :
    framePush z s = .ok (none, s.setFft (framePut z s.fft)) := (framePush_eq z s).trans (if_neg h)

/-- FRAME_PUSH that fills the frame runs it on the filter with FRAME_FILL 0 (R252, R264). -/
theorem framePush_of_eq {z : Sample} (h : s.fft.frameFill + 1 = s.par.half) (hwf : s.fcActive.wf = true) :
    let r := frameStep s.par s.fcActive { framePut z s.fft with frameFill := 0 }
    framePush z s = .ok (some (r.1.getD 0 .zero), r.1.foldl appendOut (s.setFft r.2)) := by
  intro r
  have hframe : fftFrame (s.setFft { framePut z s.fft with frameFill := 0 }) =
      .ok (r.1, r.1.foldl appendOut (s.setFft r.2)) := if_pos hwf
  rw [framePush_eq, if_pos h, hframe]
  rfl

end

/-- Settles O42: short of a full frame FRAME_PUSH stores the sample and gives no output. -/
theorem fftPushCollects : Obligations.FftPushCollects := fun _ h =>
  exec_fftPush_of_framePush (framePush_of_ne h)

/-! ## The appended samples (R263) -/

/-- The state without what appending output may change. -/
def offOutput (s : State) : State := { s with mem := .empty, outCount := 0, ovf := false }

theorem appendOut_offOutput (s : State) (z : Sample) : offOutput (appendOut s z) = offOutput s := by
  unfold appendOut; split <;> rfl

theorem foldl_appendOut_offOutput (zs : List Sample) (s : State) : offOutput (zs.foldl appendOut s) = offOutput s :=
  foldl_appendOut_keeps (P := fun u => offOutput u = offOutput s) (fun u z hu => (appendOut_offOutput u z).trans hu) zs s
    rfl

/-- Two states that agree off the output differ in what appending output may change. -/
theorem eq_of_offOutput {s t : State} (h : offOutput t = offOutput s) :
    t = { s with mem := t.mem, outCount := t.outCount, ovf := t.ovf } := by
  cases s; cases t
  simp only [offOutput, State.mk.injEq] at h ⊢
  simp only [h, and_self]

/-- The samples that find room stand in order in the words from OUT_COUNT on (R263). -/
theorem foldl_appendOut_readWord {zs : List Sample} {s : State} {n : Nat} (hs : CanCount s) (hn : n < zs.length)
    (hroom : s.outCount.toNat + n < s.par.outMax) :
    (zs.foldl appendOut s).mem.readWord .outI (s.outCount.toNat + n) = (zs.getD n .zero).re ∧
    (zs.foldl appendOut s).mem.readWord .outQ (s.outCount.toNat + n) = (zs.getD n .zero).im := by
  induction zs generalizing s n with
  | nil => cases hn
  | cons z zs ih =>
    have hlt : s.outCount.toNat < s.par.outMax := by omega
    rw [List.foldl_cons]
    cases n with
    | zero => exact (Later.foldl_append (hs.append z).1 zs).readWord_append hs.1 hlt
    | succ n =>
      have hnext : (appendOut s z).outCount.toNat + n = s.outCount.toNat + (n + 1) := by
        rw [appendOut_count_of_lt hs.1 hlt]; omega
      have hrest := ih (hs.append z) (n := n) (Nat.lt_of_succ_lt_succ hn) (by rw [hnext, appendOut_par]; exact hroom)
      rwa [hnext] at hrest

/-! ## The window (R253) -/

section
variable {p : Params}

/-- The window's coefficients lie in 0..32767 (R20). -/
theorem Params_wf_window (hp : p.wf = true) (n : Nat) : 0 ≤ p.window.getD n 0 ∧ p.window.getD n 0 ≤ 32767 := by
  have hrange : Params.inRange 0 32767 p.window = true := by
    simp only [Params.wf, Params.wfTables, Bool.and_eq_true] at hp
    obtain ⟨⟨_, ⟨⟨⟨⟨⟨⟨⟨_, hwindow⟩, _⟩, _⟩, _⟩, _⟩, _⟩, _⟩, _⟩, _⟩ := hp
    exact hwindow
  simp only [Params.inRange, List.all_eq_true, Bool.and_eq_true, decide_eq_true_eq] at hrange
  rw [List.getD_eq_getElem?_getD]
  cases hn : p.window[n]? with
  | none => decide
  | some c => exact hrange c (List.mem_of_getElem? hn)

/-- A windowed component never leaves int16 (R253). -/
theorem windowed_component (hp : p.wf = true) (v : Half) (n : Nat) :
    (BitVec.ofInt 16 (scaleAsr v (p.window.getD n 0) 15)).toInt = v.toInt * p.window.getD n 0 / 2 ^ 15 := by
  obtain ⟨hlow, hhigh⟩ := Params_wf_window hp n
  obtain ⟨hmin, hmax⟩ := scaleAsr_gain_range (v := v) hlow (by omega)
  rw [toInt_ofInt16 hmin hmax, scaleAsr, asr_eq_ediv]

theorem windowed_getD (hp : p.wf = true) (prev frame : List Sample) {n : Nat} (hn : n < p.fftN) :
    ((windowed p prev frame).getD n .zero).re.toInt =
      (windowInput p prev frame n).re.toInt * p.window.getD n 0 / 2 ^ 15 ∧
    ((windowed p prev frame).getD n .zero).im.toInt =
      (windowInput p prev frame n).im.toInt * p.window.getD n 0 / 2 ^ 15 := by
  have hget : (windowed p prev frame).getD n .zero =
      ⟨BitVec.ofInt 16 (scaleAsr (windowInput p prev frame n).re (p.window.getD n 0) 15),
        BitVec.ofInt 16 (scaleAsr (windowInput p prev frame n).im (p.window.getD n 0) 15)⟩ := by
    simp [windowed, List.getD_eq_getElem?_getD, hn]
  rw [hget]
  exact ⟨windowed_component hp _ n, windowed_component hp _ n⟩

/-! ## The notched spectrum (R261) -/

/-- A bin of Y after the notch: zero where the notch acts within one bin of the peak, and else as the walks left it. -/
theorem notchBins_getD {fc : FilterControl} {cnt : Half} {peak : Option Nat} {y : List Sample} (hp : p.wf = true)
    (hlen : y.length = p.half) (j : Nat) :
    let notched := fc.flags.getLsbD 3 = true ∧ p.notchMax / 2 < cnt.toNat ∧
      ∃ k, peak = some k ∧ 3 ≤ k ∧ k ≤ p.half - 1 - 3 ∧ (j + 1 = k ∨ j = k ∨ j = k + 1)
    (notched → (notchBins p fc cnt peak y).getD j .zero = ⟨0, 0⟩) ∧
    (¬notched → (notchBins p fc cnt peak y).getD j .zero = y.getD j .zero) := by
  intro notched
  simp only [List.getD_eq_getElem?_getD]
  constructor
  · rintro ⟨hon, hcnt, k, rfl, hlow, hhigh, hnear⟩
    rw [notchBins_getElem? hp ((notchActs_iff hp).2 ⟨hon, hcnt, hlow, hhigh⟩) hlen, if_pos hnear]
    rfl
  · intro hnot
    cases peak with
    | none => rfl
    | some k =>
      cases hacts : notchActs p fc cnt k with
      | false => rw [notchBins_of_not_acts hacts]
      | true =>
        obtain ⟨hon, hcnt, hlow, hhigh⟩ := (notchActs_iff hp).1 hacts
        rw [notchBins_getElem? hp hacts hlen, if_neg fun hnear => hnot ⟨hon, hcnt, k, rfl, hlow, hhigh, hnear⟩]

/-- The spectrum that a frame hands to the inverse transform: the walks' Y after the notch (R252, R261). -/
def notchedSpectrum (p : Params) (fc : FilterControl) (f : Fft) : List Sample :=
  let w := walk p fc (engine p (fftM p) (windowed p f.prevIn f.frame)) f.nr
  notchBins p fc (notchCount p f.prevPeak w.trk.peak f.notchCnt) w.trk.peak w.y

theorem notchedSpectrum_length (p : Params) (fc : FilterControl) (f : Fft) : (notchedSpectrum p fc f).length = p.half :=
  (notchBins_length ..).trans (walk_length ..)

/-! ## Inverse transform and overlap-add (R262, R263) -/

/-- What a frame emits and what it retains, from the inverse transform of its notched spectrum (R252, R263). -/
theorem frameStep_output (p : Params) (fc : FilterControl) (f : Fft) :
    (frameStep p fc f).1 = overlapAdd p (inverse p (notchedSpectrum p fc f)) f.prevOut ∧
    (frameStep p fc f).2.prevOut = keepSecondHalf p (inverse p (notchedSpectrum p fc f)) := ⟨rfl, rfl⟩

/-- An output of the inverse is the engine's with its parts swapped (R262). -/
theorem inverse_getD (p : Params) (y : List Sample) (n : Nat) :
    (inverse p y).getD n .zero = ((engine p (fftM p - 1) (y.map Sample.swap)).getD n .zero).swap :=
  List.getD_map _ Sample.zero Sample.swap

/-- An output sample of a frame is the saturated sum with the retained half (R263). -/
theorem overlapAdd_getD (y prevOut : List Sample) {n : Nat} (hn : n < p.quarter) :
    ((overlapAdd p y prevOut).getD n .zero).re.toInt =
      min 32767 (max (-32768) ((y.getD n .zero).re.toInt + (prevOut.getD n .zero).re.toInt)) ∧
    ((overlapAdd p y prevOut).getD n .zero).im.toInt =
      min 32767 (max (-32768) ((y.getD n .zero).im.toInt + (prevOut.getD n .zero).im.toInt)) := by
  have hget : (overlapAdd p y prevOut).getD n .zero =
      ⟨sat16 ((y.getD n .zero).re.toInt + (prevOut.getD n .zero).re.toInt),
        sat16 ((y.getD n .zero).im.toInt + (prevOut.getD n .zero).im.toInt)⟩ := by
    simp [overlapAdd, List.getD_eq_getElem?_getD, hn]
  rw [hget]
  exact ⟨sat16_toInt _, sat16_toInt _⟩

theorem keepSecondHalf_getElem? (y : List Sample) {n : Nat} (hn : n < p.quarter) :
    (keepSecondHalf p y)[n]? = some (y.getD (p.quarter + n) .zero) := by
  simp [keepSecondHalf, hn]

end

/-- Settles O43: the frame's samples are appended to the state that holds the filter after it, and each part of the frame
is the fact about that part. -/
theorem fftPushRunsFrame : Obligations.FftPushRunsFrame := by
  intro s hp hready hfull hcount full o
  have hpush := framePush_of_eq (s := applyPoint s) (z := ⟨s.dI, s.dQ⟩) hfull hready
  have hexec := exec_fftPush_of_framePush hpush
  have hlen : o.length = s.par.fftN / 4 := overlapAdd_length ..
  have hcan : CanCount ((applyPoint s).setFft (frameStep s.par (applyPoint s).fcActive full).2) :=
    ⟨Params_wf_outMax hp, hcount⟩
  have hsame := eq_of_offOutput (foldl_appendOut_offOutput o
    ((applyPoint s).setFft (frameStep s.par (applyPoint s).fcActive full).2))
  obtain ⟨hcnt, hovf⟩ := foldl_appendOut_counts o hcan
  rw [hlen] at hcnt hovf
  refine ⟨_, hexec, hlen, congrArg (·.withResult (some (o.getD 0 .zero))) hsame, hcnt, hovf,
    fun n hn hroom => foldl_appendOut_readWord hcan (hlen.symm ▸ hn) hroom,
    (execFftPush_appendsFrom (Params_wf_outMax hp) hexec).bytes, ?_⟩
  rw [State_withResult_fft, foldl_appendOut_fft]
  obtain ⟨hemit, hretain⟩ := frameStep_output s.par (applyPoint s).fcActive full
  refine ⟨rfl, rfl, rfl, windowed s.par s.fft.prevIn full.frame, notchedSpectrum s.par (applyPoint s).fcActive full,
    windowed_length .., notchedSpectrum_length .., fun n hn => windowed_getD hp _ _ hn, rfl,
    fun j _ => notchBins_getD hp (walk_length ..) j, fun n hn => ?_⟩
  obtain ⟨hre, him⟩ := overlapAdd_getD (inverse s.par (notchedSpectrum s.par (applyPoint s).fcActive full)) full.prevOut hn
  rw [inverse_getD, ← hemit] at hre him
  have hlast := keepSecondHalf_getElem? (inverse s.par (notchedSpectrum s.par (applyPoint s).fcActive full)) hn
  rw [inverse_getD, ← hretain] at hlast
  exact ⟨hre, him, hlast⟩

end Sys2Proof.Machine
end

section
/-! PROOFS of the family 45_squelch: the transition function row by row, DOC's sequence, what each squelch command
writes, and that no other command touches the squelch (R300-R312). -/

namespace Sys2Proof.Machine

/-! ## SQ_OPEN (R310) -/

theorem sqOpen_eq_false_iff (m : SqMode) : sqOpen m = false ↔ (m = .enabled ∨ m = .timeout) := by
  cases m <;> decide

/-- Bit 9 of STATUS is SQ_OPEN (R45). -/
theorem statusWord_sqOpen (s : State) : (statusWord s).getLsbD 9 = sqOpen s.sq.mode := by
  have hsum := statusWord_toNat s
  have hfields := statusFields_le s
  exact getLsbD_of_toNat 9 (by omega)

/-- Settles O11: bit 9 of STATUS is the SQ_OPEN of the mode. -/
theorem sqOpenGate : Obligations.SqOpenGate := fun s => by
  rw [statusWord_sqOpen, sqOpen_eq_false_iff]

/-! ## A command word from its fields (R131, R136) -/

section
variable {op fld : BitVec 8} {imm : Half} {i : Instr}

/-- A word of an assigned opcode runs its command if its reserved bits are clear, and else raises RESERVED_FIELD. -/
theorem runWord_packWord {fmt : Format} (hfmt : formatOf op = some fmt) (hi : instrOf op fld imm = some i) (s : State) :
    runWord (packWord op fld imm) s =
      if reservedClear fmt fld imm then exec i s else .next (raiseCmdError .reservedField s) := by
  have hdecode : decode (packWord op fld imm) =
      if reservedClear fmt fld imm then .ok i else .error .reservedField := by
    simp only [decode_packWord, decodeFields, hfmt, hi]
  cases hclear : reservedClear fmt fld imm <;> rw [hclear] at hdecode
  · exact runWord_of_error hdecode s
  · exact runWord_of_ok hdecode s

/-- A word of format I must have fld 0 (R131). -/
theorem runWord_packWord_i (hfmt : formatOf op = some .i) (hi : instrOf op fld imm = some i) (s : State) :
    runWord (packWord op fld imm) s = if fld = 0 then exec i s else .next (raiseCmdError .reservedField s) := by
  simp only [runWord_packWord hfmt hi, reservedClear, decide_eq_true_eq]

/-- A word of format N must have fld and imm 0 (R131). -/
theorem runWord_packWord_n (hfmt : formatOf op = some .n) (hi : instrOf op fld imm = some i) (s : State) :
    runWord (packWord op fld imm) s =
      if fld = 0 ∧ imm = 0 then exec i s else .next (raiseCmdError .reservedField s) := by
  simp only [runWord_packWord hfmt hi, reservedClear, Bool.and_eq_true, decide_eq_true_eq]

end

/-- Settles O50: SQ_INIT, SQ_CALIBRATE and SQ_SET_TIMEOUT have format I, SQ_DISABLE has format N. -/
theorem squelchSettings : Obligations.SquelchSettings := fun _ s =>
  ⟨rfl, rfl, rfl, rfl, fun _ => ⟨runWord_packWord_i rfl rfl s, runWord_packWord_n rfl rfl s,
    runWord_packWord_i rfl rfl s, runWord_packWord_i rfl rfl s⟩⟩

/-! ## The transition function (R301, R303) -/

section
variable {q : Squelch} {x : Half} {above : Bool}

theorem sqStep_of_disabled (hmode : q.mode = .disabled) : sqStep q x = q := by
  simp only [sqStep, hmode]

theorem sqStep_of_enabled (hmode : q.mode = .enabled) (h : aboveThreshold q x = above) :
    sqStep q x = { q with mode := if above then .rise else .enabled } := by
  simp only [sqStep, hmode, h]

theorem sqStep_of_rise (hmode : q.mode = .rise) (h : aboveThreshold q x = above) :
    sqStep q x = { q with mode := if above then .signalHi else .fall } := by
  simp only [sqStep, hmode, h]

theorem sqStep_of_signalHi (hmode : q.mode = .signalHi) (h : aboveThreshold q x = above) :
    sqStep q x = { q with mode := if above then .signalHi else .fall } := by
  simp only [sqStep, hmode, h]

theorem sqStep_of_fall (hmode : q.mode = .fall) (h : aboveThreshold q x = above) :
    sqStep q x = if above then { q with mode := .signalHi } else { q with mode := .signalLo, count := q.timeout } := by
  simp only [sqStep, hmode, h]

theorem sqStep_of_signalLo (hmode : q.mode = .signalLo) (h : aboveThreshold q x = above) :
    sqStep q x = if above then { q with mode := .signalHi } else sqCountdown q := by
  simp only [sqStep, hmode, h]

theorem sqStep_of_timeout (hmode : q.mode = .timeout) : sqStep q x = { q with mode := .enabled } := by
  simp only [sqStep, hmode]

theorem sqStep_of_unknown (hmode : q.mode = .unknown) : sqStep q x = q := by
  simp only [sqStep, hmode]

/-- A countdown from 0 or 1 expires (R303). -/
theorem sqCountdown_of_le (h : q.count.toNat ≤ 1) : sqCountdown q = { q with mode := .timeout, count := 0 } := by
  have hcount : (if 0 < q.count.toNat then q.count - 1 else q.count) = 0 := by
    split <;> bv_omega
  simp only [sqCountdown, hcount, if_true]

/-- A countdown from any other count goes down by one (R303). -/
theorem sqCountdown_of_gt (h : 1 < q.count.toNat) :
    sqCountdown q = { q with mode := .signalLo, count := BitVec.ofNat 16 (q.count.toNat - 1) } := by
  have hcount : q.count - 1 = BitVec.ofNat 16 (q.count.toNat - 1) := by bv_omega
  have hne : BitVec.ofNat 16 (q.count.toNat - 1) ≠ 0 := by bv_omega
  simp only [sqCountdown, if_pos (Nat.zero_lt_of_lt h), hcount, if_neg hne]

/-- A transition changes the mode and the count only (R303). -/
theorem sqStep_eq_with_mode_count (q : Squelch) (x : Half) :
    sqStep q x = { q with mode := (sqStep q x).mode, count := (sqStep q x).count } := by
  unfold sqStep sqCountdown
  split <;> (try split) <;> rfl

/-- No transition enters UNKNOWN (R312). -/
theorem sqStep_enters_unknown (h : (sqStep q x).mode = .unknown) : q.mode = .unknown := by
  cases hmode : q.mode with
  | unknown => rfl
  | disabled => rw [sqStep_of_disabled hmode, hmode] at h; exact h
  | timeout => rw [sqStep_of_timeout hmode] at h; cases h
  | enabled | rise | signalHi | fall =>
    simp only [sqStep, hmode] at h
    split at h <;> cases h
  | signalLo =>
    simp only [sqStep, hmode] at h
    split at h
    · cases h
    · rcases Nat.lt_or_ge 1 q.count.toNat with hcount | hcount
      · rw [sqCountdown_of_gt hcount] at h; cases h
      · rw [sqCountdown_of_le hcount] at h; cases h

end

/-! ## SQ_UPDATE (R303, R309) -/

/-- The number of a mode is not negative as a 16-bit word, so its sign extension is the number (R69). -/
theorem sext16_code (m : SqMode) : sext16 (BitVec.ofNat 16 m.code) = BitVec.ofNat 32 m.code := by
  cases m <;> rfl

/-- Settles O52: by the mode, and by whether the level is above threshold. -/
theorem sqUpdateFollowsTable : Obligations.SqUpdateFollowsTable := by
  intro x s
  have hchanged := congrArg (fun q => ({ s with sq := q } : State).withResult
    (some ⟨BitVec.ofNat 16 (sqStep s.sq x).mode.code, 0⟩)) (sqStep_eq_with_mode_count s.sq x)
  refine ⟨_, rfl, hchanged, sext16_code (sqStep s.sq x).mode, ?_⟩
  rw [State_withResult_sq]
  dsimp only
  generalize habove : decide (s.sq.threshold.toNat < x.toNat) = above
  have habove : aboveThreshold s.sq x = above := habove
  cases hmode : s.sq.mode with
  | disabled => rw [sqStep_of_disabled hmode, hmode]
  | enabled => rw [sqStep_of_enabled hmode habove]; cases above <;> rfl
  | rise => rw [sqStep_of_rise hmode habove]; cases above <;> rfl
  | signalHi => rw [sqStep_of_signalHi hmode habove]; cases above <;> rfl
  | fall => rw [sqStep_of_fall hmode habove]; cases above <;> rfl
  | signalLo =>
    rw [sqStep_of_signalLo hmode habove]
    cases above with
    | true => rfl
    | false =>
      by_cases hcount : s.sq.count.toNat ≤ 1
      · simp only [Bool.false_eq_true, if_false, sqCountdown_of_le hcount, if_pos hcount]
      · simp only [Bool.false_eq_true, if_false, sqCountdown_of_gt (Nat.lt_of_not_le hcount), if_neg hcount]
  | timeout => rw [sqStep_of_timeout hmode]
  | unknown => rw [sqStep_of_unknown hmode, hmode]

/-! ## DOC's sequence (R311) -/

/-- One level more is one transition at the end. -/
theorem sqRun_replicate_succ (n : Nat) (x : Half) (q : Squelch) :
    sqRun (List.replicate (n + 1) x) q = sqStep (sqRun (List.replicate n x) q) x := by
  induction n generalizing q with
  | zero => rfl
  | succ n ih => exact ih (sqStep q x)

/-- A squelch that a level leaves as it is stays so for any number of such levels. -/
theorem sqRun_replicate_of_fixed {q : Squelch} {x : Half} (h : sqStep q x = q) (n : Nat) :
    sqRun (List.replicate n x) q = q := by
  induction n with
  | zero => rfl
  | succ n ih => rw [sqRun_replicate_succ, ih, h]

section
variable {q : Squelch} {x : Half}

/-- While a level not above threshold finds more to count, it counts SIGNALLO down by one (R303). -/
theorem sqStep_counts (h : aboveThreshold q x = false) {c : Nat} (hlow : 1 < c) (hhigh : c < 2 ^ 16) :
    sqStep { q with mode := .signalLo, count := BitVec.ofNat 16 c } x =
      { q with mode := .signalLo, count := BitVec.ofNat 16 (c - 1) } := by
  have hc : (BitVec.ofNat 16 c).toNat = c := Nat.mod_eq_of_lt hhigh
  calc sqStep { q with mode := .signalLo, count := BitVec.ofNat 16 c } x
      = sqCountdown { q with mode := .signalLo, count := BitVec.ofNat 16 c } :=
      sqStep_of_signalLo (q := { q with mode := .signalLo, count := BitVec.ofNat 16 c }) rfl h
    _ = { q with mode := .signalLo, count := BitVec.ofNat 16 ((BitVec.ofNat 16 c).toNat - 1) } :=
      sqCountdown_of_gt (hc.symm ▸ hlow)
    _ = { q with mode := .signalLo, count := BitVec.ofNat 16 (c - 1) } := by rw [hc]

/-- A count of 1 expires (R303). -/
theorem sqStep_expires (h : aboveThreshold q x = false) :
    sqStep { q with mode := .signalLo, count := 1 } x = { q with mode := .timeout, count := 0 } :=
  (sqStep_of_signalLo (q := { q with mode := .signalLo, count := 1 }) rfl h).trans (sqCountdown_of_le le_rfl)

/-- Levels not above threshold count SIGNALLO down from its count, as long as it lasts (R303). -/
theorem sqRun_counts (h : aboveThreshold q x = false) {c n : Nat} (hn : n < c) (hc : c < 2 ^ 16) :
    sqRun (List.replicate n x) { q with mode := .signalLo, count := BitVec.ofNat 16 c } =
      { q with mode := .signalLo, count := BitVec.ofNat 16 (c - n) } := by
  induction n with
  | zero => rfl
  | succ n ih => rw [sqRun_replicate_succ, ih (by omega), sqStep_counts h (by omega) (by omega), Nat.sub_sub]

end

/-- Settles O53: T − 1 is not above threshold and T + 1 is, so ENABLED and SIGNALHI are fixed by the one and by the other,
and two levels T − 1 after SIGNALHI start the countdown from the timeout. -/
theorem squelchDocExample : Obligations.SquelchDocExample := by
  intro q lo hi hmode hpos hlo hhi
  have hlow : aboveThreshold q lo = false := decide_eq_false (by omega)
  have hhigh : aboveThreshold q hi = true := decide_eq_true (by omega)
  have hstay : sqStep q lo = q := by
    rw [sqStep_of_enabled hmode hlow, if_neg Bool.false_ne_true, ← hmode]
  have hrise : sqStep q hi = { q with mode := .rise } := sqStep_of_enabled hmode hhigh
  have hopen : sqStep { q with mode := .rise } hi = { q with mode := .signalHi } :=
    sqStep_of_rise (q := { q with mode := .rise }) rfl hhigh
  have hhold : sqStep { q with mode := .signalHi } hi = { q with mode := .signalHi } :=
    sqStep_of_signalHi (q := { q with mode := .signalHi }) rfl hhigh
  have hfall : sqStep { q with mode := .signalHi } lo = { q with mode := .fall } :=
    sqStep_of_signalHi (q := { q with mode := .signalHi }) rfl hlow
  have hstart : sqStep { q with mode := .fall } lo = { q with mode := .signalLo, count := q.timeout } :=
    sqStep_of_fall (q := { q with mode := .fall }) rfl hlow
  have hafter : ∀ n, sqRun (List.replicate (n + 2) lo) { q with mode := .signalHi } =
      sqRun (List.replicate n lo) { q with mode := .signalLo, count := q.timeout } := fun n =>
    congrArg (sqRun (List.replicate n lo)) ((congrArg (sqStep · lo) hfall).trans hstart)
  have hcounts : ∀ n, n < q.timeout.toNat → sqRun (List.replicate (n + 2) lo) { q with mode := .signalHi } =
      { q with mode := .signalLo, count := BitVec.ofNat 16 (q.timeout.toNat - n) } := fun n hn => by
    have hrun := sqRun_counts hlow hn q.timeout.isLt
    rw [BitVec.ofNat_toNat, BitVec.setWidth_eq] at hrun
    exact (hafter n).trans hrun
  refine ⟨fun n _ => sqRun_replicate_of_fixed hstay n, hrise, fun n hn _ => ?_, hfall, hafter 0, fun htimeout => ?_⟩
  · obtain ⟨n, rfl⟩ := Nat.exists_eq_add_of_le' hn
    calc sqRun (List.replicate (n + 2) hi) q
        = sqRun (List.replicate n hi) (sqStep (sqStep q hi) hi) := rfl
      _ = sqRun (List.replicate n hi) { q with mode := .signalHi } := by rw [hrise, hopen]
      _ = { q with mode := .signalHi } := sqRun_replicate_of_fixed hhold n
  · obtain ⟨m, hm⟩ := Nat.exists_eq_add_of_le' htimeout
    have hexpired : sqRun (List.replicate (q.timeout.toNat + 2) lo) { q with mode := .signalHi } =
        { q with mode := .timeout, count := 0 } := by
      have hlast : q.timeout.toNat - m = 1 := by omega
      rw [hm, Nat.add_right_comm, sqRun_replicate_succ, hcounts m (by omega), hlast]
      exact sqStep_expires hlow
    refine ⟨hcounts, hexpired, ?_⟩
    rw [sqRun_replicate_succ, hexpired]
    exact sqStep_of_timeout rfl

/-! ## The other commands and the squelch (R300, R312, R330) -/

/-- The state with the squelch replaced. -/
def State.setSq (q : Squelch) (s : State) : State := { s with sq := q }

theorem State.setSq_self (s : State) : s.setSq s.sq = s := rfl

theorem chainBlind_setSq (q : Squelch) : ChainBlind (State.setSq q) where
  par _ := rfl
  fft _ := rfl
  fcActive _ := rfl
  setFft _ _ := rfl
  append s z := by
    by_cases hlt : s.outCount.toNat < s.par.outMax
    · rw [appendOut_of_lt hlt, appendOut_of_lt (s := s.setSq q) hlt]; rfl
    · rw [appendOut_of_not_lt hlt, appendOut_of_not_lt (s := s.setSq q) hlt]; rfl
  tick _ _ := rfl
  hb1 _ _ := rfl
  hb2 _ _ := rfl
  start _ := rfl
  read _ _ _ _ := rfl
  writes _ _ := rfl

section
variable {i : Instr} {s t : State}

/-- FFT_PUSH does the same whatever the squelch holds (R265). -/
theorem execFftPush_setSq (q : Squelch) (s : State) :
    execFftPush (s.setSq q) = onNext (State.setSq q) (execFftPush s) := by
  have happly : applyPoint (s.setSq q) = (applyPoint s).setSq q := rfl
  have hd : dSample ((applyPoint s).setSq q) = dSample (applyPoint s) := rfl
  simp only [execFftPush, happly, hd, (chainBlind_setSq q).framePush]
  cases framePush (dSample (applyPoint s)) (applyPoint s) <;> rfl

/-- A command below the squelch's opcodes, SOFT_RESET apart, does the same whatever the squelch holds (R300, R330). -/
theorem exec_setSq (q : Squelch) (hop : opField (encode i) < 0x20) (hreset : i ≠ .softReset) :
    exec i (s.setSq q) = onNext (State.setSq q) (exec i s) := by
  have hpar : (s.setSq q).par = s.par := rfl
  cases hwf : i.wf s.par with
  | false =>
    have hwf' : i.wf (s.setSq q).par = false := hwf
    rw [exec_of_not_wf hwf, exec_of_not_wf hwf']
    rfl
  | true =>
    cases i with
    | softReset => exact absurd rfl hreset
    | processBlock sel n =>
      exact (chainBlind_setSq q).execProcessBlock sel ((blockLengthInRange_eq_wf s.par n).trans hwf)
    | fftPush => exact execFftPush_setSq q s
    | nrBin side b =>
      have hready : (applyPoint (s.setSq q)).fcActive = (applyPoint s).fcActive := rfl
      simp only [exec, execNrBin, hpar, hready]
      split <;> (try split) <;> rfl
    | cicStep r => simp only [exec, execCicStep, hpar]; split <;> rfl
    | cfgWrite f v => simp only [exec, execCfgWrite]; split <;> rfl
    | nop | seti _ | setq _ | cfgPublish | clrErr | hb1Step | hb2Step | droop _ => rfl
    | sqInit _ | sqEnable _ | sqDisable | sqCalibrate _ | sqSetTimeout _ | sqUpdate _ =>
      rw [encode, opField_packWord] at hop
      exact absurd hop (by decide)

/-- Such a command leaves the squelch as it is: replacing the squelch by itself before it is replacing it after it
(R312). -/
theorem exec_keeps_sq (hop : opField (encode i) < 0x20) (hreset : i ≠ .softReset) (h : exec i s = .next t) :
    t.sq = s.sq := by
  have hself := exec_setSq (s := s) s.sq hop hreset
  rw [State.setSq_self, h] at hself
  have ht : t = t.setSq s.sq := Host.Outcome.next.inj hself
  exact (congrArg State.sq ht :)

/-- Only SOFT_RESET leads into UNKNOWN (R312). -/
theorem exec_enters_unknown (h : exec i s = .next t) (hmode : t.sq.mode = .unknown) (hreset : i ≠ .softReset) :
    s.sq.mode = .unknown := by
  cases i with
  | softReset => exact absurd rfl hreset
  | sqInit _ | sqDisable => cases h; cases hmode
  | sqEnable l =>
    obtain ⟨_, rfl⟩ | ⟨_, rfl⟩ := ite_next_cases h
    · cases hmode
    · exact hmode
  | sqCalibrate _ | sqSetTimeout _ => cases h; exact hmode
  | sqUpdate x => cases h; exact sqStep_enters_unknown hmode
  | nop | seti _ | setq _ | cfgWrite _ _ | cfgPublish | clrErr | processBlock _ _ | cicStep _ | hb1Step | hb2Step
  | droop _ | nrBin _ _ | fftPush =>
    have hsq := exec_keeps_sq (by rw [encode, opField_packWord]; decide) hreset h
    exact hsq ▸ hmode

end

/-- Settles O54: the squelch's own commands do not enter UNKNOWN, and the others commute with replacing the squelch. -/
theorem squelchIsIndependent : Obligations.SquelchIsIndependent := by
  intro i s t h
  refine ⟨fun hmode => ?_, fun hop hreset => ⟨exec_keeps_sq hop hreset h, fun q => ?_⟩⟩
  · by_cases hreset : i = .softReset
    · exact .inr hreset
    · exact .inl (exec_enters_unknown h hmode hreset)
  · exact (exec_setSq q hop hreset).trans (congrArg (onNext (State.setSq q)) h)

end Sys2Proof.Machine
end

section
/-! PROOFS of the family 46_control: what the host-control commands do, the rejections of their encodings, and the apply
point (R331-R338). -/

namespace Sys2Proof.Machine

/-! ## NOP, SOFT_RESET, SETI and SETQ (R331-R334) -/

/-- Settles O25: NOP has format N. -/
theorem nopResult : Obligations.NopResult := fun s =>
  ⟨rfl, fun _ _ => runWord_packWord_n (i := .nop) rfl rfl s⟩

/-- RESET_STATE leaves what power-on leaves, but for the buffers and the host's side (R390, R391). -/
theorem resetState_eq_powerOn (s : State) :
    resetState s = { State.powerOn s.par with
      mem := s.mem, pending := s.pending, overlap := s.overlap, replies := s.replies, draws := s.draws } := rfl

/-- STATUS after a reset: SQ_OPEN, because UNKNOWN is open, and nothing else (R45, R310). -/
theorem statusWord_resetState (s : State) : statusWord (resetState s) = 0x200 := by
  rw [statusWord]; rfl

/-- Settles O21: SOFT_RESET is RESET_STATE, and has format N. -/
theorem softResetResult : Obligations.SoftResetResult := by
  intro s
  have hexec : exec .softReset s = .next (resetState s) := rfl
  refine ⟨hexec.trans (congrArg _ (resetState_eq_powerOn s)), fun t ht => ?_, fun _ _ => runWord_packWord_n rfl rfl s⟩
  obtain rfl : resetState s = t := Host.Outcome.next.inj (hexec.symm.trans ht)
  exact ⟨statusWord_resetState s, fun _ _ => rfl⟩

/-- The operand of SETI and SETQ is the register's new value: its signed reading loses nothing (R132). -/
theorem ofInt_simm (v : Half) : BitVec.ofInt 16 (simm v) = v := BitVec.ofInt_toInt

theorem exec_seti (v : Half) (s : State) : exec (.seti v) s = .next { s with dI := v } := by
  simp only [exec, execSeti, ofInt_simm]

theorem exec_setq (v : Half) (s : State) : exec (.setq v) s = .next { s with dQ := v } := by
  simp only [exec, execSetq, ofInt_simm]

/-- Settles O26: SETI and SETQ have format I. -/
theorem operandRegisterWrites : Obligations.OperandRegisterWrites := by
  intro v s
  refine ⟨exec_seti v s, exec_setq v s, rfl, rfl, fun fld => ⟨?_, ?_⟩⟩
  · rw [runWord_packWord_i rfl rfl, exec_seti]
  · rw [runWord_packWord_i rfl rfl, exec_setq]

/-! ## CFG_WRITE (R335) -/

section
variable {f : BitVec 8} {v : Half} {s : State}

theorem exec_cfgWrite_of_le (hf : f.toNat ≤ 8) (hflags : f = 6 → v.toNat < 32) : exec (.cfgWrite f v) s =
    .next { s with fcStaged := s.fcStaged.write f.toNat v, fcChanged := false } := by
  have hrange : cfgWriteInRange f v = true :=
    (cfgWriteInRange_iff f v).2 ⟨hf, fun h6 => hflags (BitVec.eq_of_toNat_eq h6)⟩
  simp only [exec, execCfgWrite, hrange, if_true, fldIndex]

theorem exec_cfgWrite_of_bad (h : 8 < f.toNat ∨ (f = 6 ∧ 32 ≤ v.toNat)) :
    exec (.cfgWrite f v) s = .next (raiseCmdError .operandRange s) := by
  refine exec_of_not_wf ((cfgWriteInRange_eq_wf f v).symm.trans (Bool.eq_false_iff.2 fun hrange => ?_))
  obtain ⟨hf, hflags⟩ := (cfgWriteInRange_iff f v).1 hrange
  obtain hbig | ⟨rfl, hv⟩ := h
  · exact absurd hf (Nat.not_le.2 hbig)
  · exact absurd (hflags rfl) (Nat.not_lt.2 hv)

/-- The nine fields of CFG_WRITE (R335). -/
theorem field_cases (hf : f.toNat ≤ 8) :
    f = 0 ∨ f = 1 ∨ f = 2 ∨ f = 3 ∨ f = 4 ∨ f = 5 ∨ f = 6 ∨ f = 7 ∨ f = 8 := by
  bv_omega

end

/-- Field 7 replaces bits 15:0 of phase_step (R335). -/
theorem extractLsb'_append_low (x : Word) (v : Half) :
    x.extractLsb' 16 16 ++ v = BitVec.ofNat 32 (x.toNat / 2 ^ 16 * 2 ^ 16 + v.toNat) := by
  apply BitVec.eq_of_toNat_eq
  have hv := v.isLt
  rw [BitVec.toNat_append, ← Nat.shiftLeft_add_eq_or_of_lt hv, BitVec.extractLsb'_toNat, BitVec.toNat_ofNat,
    Nat.shiftRight_eq_div_pow, Nat.shiftLeft_eq]
  omega

/-- Field 8 replaces bits 31:16 of phase_step (R335). -/
theorem append_extractLsb'_high (x : Word) (v : Half) :
    v ++ x.extractLsb' 0 16 = BitVec.ofNat 32 (v.toNat * 2 ^ 16 + x.toNat % 2 ^ 16) := by
  apply BitVec.eq_of_toNat_eq
  have hx : (x.extractLsb' 0 16).toNat = x.toNat % 2 ^ 16 := BitVec.extractLsb'_toNat ..
  rw [BitVec.toNat_append, ← Nat.shiftLeft_add_eq_or_of_lt (BitVec.isLt _), hx, BitVec.toNat_ofNat,
    Nat.shiftLeft_eq]
  omega

/-- Settles O27: with the flags and the two halves of phase_step written as bit fields, each of the nine fields is one arm
of the model's write. -/
theorem cfgWriteResult : Obligations.CfgWriteResult := by
  intro f v s
  refine ⟨fun hf hflags => (exec_cfgWrite_of_le hf hflags).trans ?_, exec_cfgWrite_of_bad,
    (runWord_packWord (fmt := .f) rfl rfl s).trans (if_pos rfl)⟩
  have hbits : v.setWidth 5 = v.extractLsb' 0 5 := BitVec.setWidth_eq_extractLsb' (by decide)
  rw [hbits, ← extractLsb'_append_low, ← append_extractLsb'_high]
  obtain rfl | rfl | rfl | rfl | rfl | rfl | rfl | rfl | rfl := field_cases hf <;> rfl

/-! ## CFG_PUBLISH and CLR_ERR (R337, R338) -/

/-- A queue whose first word runs to a next state goes on from there (R110). -/
theorem commandsRun_of_next {w : Word} {ws : List Word} {s t : State} (h : runWord w { s with busy := true } = .next t) :
    commandsRun (w :: ws) s = commandsRun ws { t with busy := false } := by
  rw [commandsRun_cons, h]; rfl

/-- Settles O28: CFG_PUBLISH has format N; the run is the CFG_WRITE of field 0, the publication, and the SYNC that takes
it. -/
theorem cfgPublishResult : Obligations.CfgPublishResult := by
  intro s
  refine ⟨rfl, fun _ _ => runWord_packWord_n (i := .cfgPublish) rfl rfl s, ?_⟩
  rw [commandsRun_of_next (runWord_of_ok (i := .cfgWrite 0 2) rfl _),
    commandsRun_of_next (runWord_of_ok (i := .cfgPublish) rfl _),
    commandsRun_of_next ((runWord_of_ok (i := .processBlock .in0 0) rfl _).trans (syncResult .in0 _))]
  exact ⟨_, rfl, rfl, rfl⟩

/-- Settles O29: CLR_ERR has format N, and a rejected word raises RESERVED_FIELD; the run raises ILLEGAL_OPCODE and then
clears it. -/
theorem clrErrResult : Obligations.ClrErrResult := by
  refine ⟨fun s => ⟨rfl, fun _ _ => runWord_packWord_n (i := .clrErr) rfl rfl s⟩, fun p => ?_⟩
  refine ⟨_, _, commandsRun_of_next (runWord_of_error (e := .illegalOpcode) rfl _), ?_,
    commandsRun_of_next (runWord_of_ok (i := .clrErr) rfl _), ?_⟩
  · rw [statusWord]; rfl
  · rw [statusWord]; rfl

/-! ## The apply point (R336) -/

/-- The commands that begin with the apply point (R336). -/
def HasApplyPoint (i : Instr) : Prop :=
  (∃ r, i = .cicStep r) ∨ (∃ b, i = .droop b) ∨ (∃ side b, i = .nrBin side b) ∨ i = .fftPush ∨
    ∃ sel n, i = .processBlock sel n

/-- The configuration handoff: FC_CHANGED, FC_STAGED and FC_ACTIVE. -/
def handoff (s : State) : Bool × FilterControl × FilterControl := (s.fcChanged, s.fcStaged, s.fcActive)

/-- A second apply point finds nothing published (R336). -/
theorem applyPoint_applyPoint (s : State) : applyPoint (applyPoint s) = applyPoint s := rfl

theorem appendOut_handoff (s : State) (z : Sample) : handoff (appendOut s z) = handoff s := by
  unfold appendOut; split <;> rfl

theorem framePush_handoff {z : Sample} {s t : State} {o : Option Sample} (h : framePush z s = .ok (o, t)) :
    handoff t = handoff s :=
  framePush_field handoff (fun _ _ => rfl) appendOut_handoff h

theorem blockLoop_handoff {sel : InSel} {n a now : Nat} {s t : State} (h : blockLoop sel n a now s = .ok t) :
    handoff t = handoff s :=
  blockLoop_field handoff (fun _ _ => rfl) (fun _ _ => rfl) (fun _ _ => rfl) (fun _ _ => rfl) appendOut_handoff h

section
variable {i : Instr} {s t : State}

/-- A command with an apply point reads the filter control behind it only, so it does the same if the published
configuration has been taken already (R336). -/
theorem exec_applyPoint (hi : HasApplyPoint i) (hwf : i.wf s.par = true) : exec i (applyPoint s) = exec i s := by
  obtain ⟨r, rfl⟩ | ⟨b, rfl⟩ | ⟨side, b, rfl⟩ | rfl | ⟨sel, n, rfl⟩ := hi
  · have hrange : rawCodeInRange s.par r = true := hwf
    simp only [exec, execCicStep, applyPoint_par, applyPoint_applyPoint, hrange, if_true]
  · rfl
  · have hrange : nrBinInRange s.par b = true := hwf
    simp only [exec, execNrBin, applyPoint_par, applyPoint_applyPoint, hrange, if_true]
    rfl
  · rfl
  · have hrange : blockLengthInRange s.par n = true := (blockLengthInRange_eq_wf s.par n).trans hwf
    have hstart : blockStart (applyPoint s) = blockStart s := rfl
    have hcount : (blockStartWrites (applyPoint s)).length = (blockStartWrites s).length := rfl
    simp only [exec, execProcessBlock, applyPoint_par, hrange, hstart, hcount, if_true]

/-- Such a command, its operands in range, leaves the handoff as its apply point does (R336). -/
theorem exec_handoff (hi : HasApplyPoint i) (hwf : i.wf s.par = true) (h : exec i s = .next t) :
    handoff t = handoff (applyPoint s) := by
  obtain ⟨r, rfl⟩ | ⟨b, rfl⟩ | ⟨side, b, rfl⟩ | rfl | ⟨sel, n, rfl⟩ := hi
  · obtain ⟨_, rfl⟩ | ⟨hbad, _⟩ := ite_next_cases h
    · rfl
    · exact absurd hwf (ne_true_of_eq_false hbad)
  · cases h; rfl
  · have hrange : nrBinInRange s.par b = true := hwf
    simp only [exec, execNrBin, hrange, if_true] at h
    split at h
    · cases h; rfl
    · cases h
  · obtain ⟨o, u, hpush, rfl⟩ := execFftPush_next h
    have hkept : handoff u = handoff (applyPoint s) := framePush_handoff hpush
    exact hkept
  · obtain ⟨heven, hle⟩ := (blockLengthInRange_iff s.par n).1 ((blockLengthInRange_eq_wf s.par n).trans hwf)
    have hkept : handoff t = handoff (blockStart s) := blockLoop_handoff (execProcessBlock_next heven hle h)
    exact hkept

/-- No other command writes FC_ACTIVE, SOFT_RESET apart (R336). -/
theorem exec_keeps_fcActive (hi : ¬HasApplyPoint i) (hreset : i ≠ .softReset) (h : exec i s = .next t) :
    t.fcActive = s.fcActive := by
  cases i with
  | cicStep r => exact absurd (.inl ⟨r, rfl⟩) hi
  | droop b => exact absurd (.inr (.inl ⟨b, rfl⟩)) hi
  | nrBin side b => exact absurd (.inr (.inr (.inl ⟨side, b, rfl⟩))) hi
  | fftPush => exact absurd (.inr (.inr (.inr (.inl rfl)))) hi
  | processBlock sel n => exact absurd (.inr (.inr (.inr (.inr ⟨sel, n, rfl⟩)))) hi
  | softReset => exact absurd rfl hreset
  | cfgWrite _ _ | sqEnable _ => obtain ⟨_, rfl⟩ | ⟨_, rfl⟩ := ite_next_cases h <;> rfl
  | nop | seti _ | setq _ | cfgPublish | clrErr | hb1Step | hb2Step | sqInit _ | sqDisable | sqCalibrate _
  | sqSetTimeout _ | sqUpdate _ => cases h; rfl

end

/-- Settles O30: a command with an apply point cannot tell a configuration that is taken from one that is published, and
leaves the handoff as the apply point does. (The name `applyPoint` is the model's.) -/
theorem applyPointResult : Obligations.ApplyPoint := by
  refine fun i s => ⟨fun hi hwf => ⟨(exec_applyPoint hi hwf).symm, fun t ht => ?_⟩,
    fun hi hreset t ht => exec_keeps_fcActive hi hreset ht⟩
  have hkept := exec_handoff hi hwf ht
  simp only [handoff, Prod.mk.injEq] at hkept
  exact hkept

end Sys2Proof.Machine
end

section
/-! PROOFS of the family 60_exceptions: the causes of OPERAND_RANGE (R361), a command error as the whole effect of a step
(R362), the sticky error status (R365), and what is refused for the filter control (R367). -/

namespace Sys2Proof.Machine

/-! ## OPERAND_RANGE (R361) -/

/-- A block of odd or excessive length raises OPERAND_RANGE (R339). -/
theorem exec_processBlock_of_bad {sel : InSel} {n : Half} {s : State} (h : n.toNat % 2 = 1 ∨ s.par.inBufSize < n.toNat) :
    exec (.processBlock sel n) s = .next (raiseCmdError .operandRange s) := by
  refine exec_of_not_wf ((blockLengthInRange_eq_wf s.par n).symm.trans (Bool.eq_false_iff.2 fun hrange => ?_))
  obtain ⟨heven, hle⟩ := (blockLengthInRange_iff s.par n).1 hrange
  omega

/-- Settles O6: each cause puts the operand out of its command's range. -/
theorem operandRangeErrors : Obligations.OperandRangeErrors := fun _ =>
  ⟨fun _ hr => exec_of_not_wf (decide_eq_false (Nat.not_lt.2 hr)),
    fun _ _ hb => exec_of_not_wf (decide_eq_false (Nat.not_lt.2 hb)),
    fun _ _ => exec_cfgWrite_of_bad,
    fun _ _ => exec_processBlock_of_bad,
    fun _ hl => exec_of_not_wf (decide_eq_false (Nat.not_le.2 hl))⟩

/-! ## A command error and nothing else (R111, R362) -/

/-- With no access overlapping a command, everything behind it stays in the queue (R111). -/
theorem afterOverlap_of_noOverlap {rest : List HostOp} (h : NoOverlap rest) : afterOverlap rest = rest := by
  cases rest with
  | nil => rfl
  | cons op rest =>
    have hheld : ¬(op.overlap && op.access.command.isNone) = true := fun hmade =>
      List.cons_ne_nil op.access (overlapping rest) ((if_pos hmade).symm.trans h)
    exact if_neg hheld

/-- A word that does not decode, or that decodes to a command with an operand out of range, raises its error (R136). -/
theorem runWord_raises {w : Word} {e : CmdError} {s : State}
    (h : decode w = .error e ∨ ∃ i, decode w = .ok i ∧ i.wf s.par = false ∧ e = .operandRange) :
    runWord w s = .next (raiseCmdError e s) := by
  obtain he | ⟨i, hi, hwf, rfl⟩ := h
  · exact runWord_of_error he s
  · rw [runWord_of_ok hi, exec_of_not_wf hwf]

/-- Settles O7: without overlapping accesses the step is the run of the word, and that raises the error. -/
theorem commandErrorIsPrecise : Obligations.CommandErrorIsPrecise := by
  intro s w b rest e hp hno hbusy hover he
  have hrun := runWord_raises (s := { s with busy := true, pending := rest, overlap := [] }) he
  rw [step_without_overlap hp hno (afterOverlap_of_noOverlap hno), hrun]
  simp only [onNext, raiseCmdError, hbusy, hover]

/-! ## The error status (R365) -/

/-- ERR and ERR_CODE. -/
def errorStatus (s : State) : Bool × Option CmdError := (s.err, s.errCode)

theorem hostAccess_errorStatus (acc : HostAccess) (s : State) : errorStatus (hostAccess acc s) = errorStatus s := by
  unfold hostAccess
  cases acc.kind with
  | read => rfl
  | write v => simp only [errorStatus, hostWrite_err, hostWrite_errCode]

/-- The end of a command makes the overlapping accesses, and none of them touches the error status (R112). -/
theorem endCommand_errorStatus (ws : List WordAccess) (old done : State) :
    errorStatus (endCommand ws old done) = errorStatus done :=
  foldl_overlap_keeps (P := fun u => errorStatus u = errorStatus done) ws old done
    (fun now e h => by simpa only [errorStatus, overlapAccess_err, overlapAccess_errCode] using h) (placedOverlap old) rfl

/-- A write of a whole word to CMD is the CMD write of that word (R72, R106). -/
theorem eq_cmdWrite {acc : HostAccess} {w : Word} (hwhole : acc.wholeWord = true) (hc : acc.command = some w) :
    acc = cmdWrite w := by
  obtain ⟨sp, a, skew, width, kind⟩ := acc
  unfold HostAccess.command at hc
  split at hc
  · next hsp ha hk =>
    cases hsp; cases ha; cases hk; cases hc
    simp only [HostAccess.wholeWord, Bool.and_eq_true, decide_eq_true_eq] at hwhole
    obtain ⟨rfl, rfl⟩ := hwhole
    rfl
  · cases hc

/-- Only a command touches the error status: what its run leaves alone, the step leaves alone (R365). -/
theorem step_keeps_errorStatus {s t : State} (h : step s = .next t)
    (hhead : ∀ w b rest done, s.pending = ⟨cmdWrite w, b⟩ :: rest → runWord w (beginCommand rest s) = .next done →
      errorStatus done = errorStatus s) : errorStatus t = errorStatus s := by
  obtain ⟨_, rfl⟩ | ⟨⟨acc, b⟩, rest, hp, hacc, ⟨_, rfl⟩ | ⟨w, done, hc, hrun, rfl⟩⟩ := step_next_cases h
  · rfl
  · exact hostAccess_errorStatus acc _
  · obtain rfl : acc = cmdWrite w := eq_cmdWrite (Bool.and_eq_true_iff.1 hacc).1 hc
    exact (endCommand_errorStatus _ _ done).trans (hhead w b rest done hp hrun)

section
variable {i : Instr} {s t : State}

/-- A command in range leaves the error status alone, CLR_ERR and SOFT_RESET apart (R363, R365). -/
theorem exec_keeps_errorStatus (hwf : i.wf s.par = true) (hclr : i ≠ .clrErr) (hreset : i ≠ .softReset)
    (h : exec i s = .next t) : errorStatus t = errorStatus s := by
  obtain ⟨_, herr, hcode⟩ := exec_keeps_trap hwf hclr hreset h
  exact Prod.ext herr hcode

/-- While ERR is 1 a further error leaves the error status alone (R365). -/
theorem raiseCmdError_keeps_errorStatus (e : CmdError) (herr : s.err = true) :
    errorStatus (raiseCmdError e s) = errorStatus s :=
  Prod.ext herr.symm (if_pos herr)

/-- While ERR is 1 every command word leaves the error status alone, those of CLR_ERR and SOFT_RESET apart (R365). -/
theorem runWord_keeps_errorStatus {w : Word} (herr : s.err = true) (hclr : decode w ≠ .ok .clrErr)
    (hreset : decode w ≠ .ok .softReset) (h : runWord w s = .next t) : errorStatus t = errorStatus s := by
  obtain ⟨i, hi, hexec⟩ | ⟨e, _, rfl⟩ := runWord_next_cases h
  · cases hwf : i.wf s.par with
    | true =>
      exact exec_keeps_errorStatus hwf (fun hc => hclr (hc ▸ hi)) (fun hr => hreset (hr ▸ hi)) hexec
    | false =>
      rw [exec_of_not_wf hwf] at hexec
      cases hexec
      exact raiseCmdError_keeps_errorStatus _ herr
  · exact raiseCmdError_keeps_errorStatus e herr

end

/-- R365's example: CLR_ERR, an illegal opcode, and SQ_ENABLE with level 13. -/
theorem commandsRun_first_error_kept (s : State) : ∃ t, commandsRun [0x06000000, 0xFF000000, 0x2100000D] s = .next t ∧
    t.err = true ∧ t.errCode = some .illegalOpcode := by
  rw [commandsRun_of_next (runWord_of_ok (i := .clrErr) rfl _),
    commandsRun_of_next (runWord_of_error (e := .illegalOpcode) rfl _),
    commandsRun_of_next (runWord_raises (e := .operandRange) (.inr ⟨.sqEnable 13, rfl, rfl, rfl⟩))]
  exact ⟨_, rfl, rfl, rfl⟩

/-- Settles O8: only a command touches the error status; one in range leaves it alone or clears it, and while ERR is 1 so
does an error. -/
theorem errorStatusIsSticky : Obligations.ErrorStatusIsSticky := by
  refine ⟨fun s t herr h hhead => ?_, fun s t h hhead => ?_, fun _ => ⟨_, rfl, rfl, rfl⟩, fun _ => ⟨_, rfl, rfl, rfl⟩,
    commandsRun_first_error_kept⟩
  · obtain ⟨herr', hcode⟩ := Prod.mk.inj <| step_keeps_errorStatus h fun w b rest done hp hrun =>
      have ⟨hclr, hreset⟩ := hhead w b rest hp
      runWord_keeps_errorStatus (s := beginCommand rest s) herr hclr hreset hrun
    exact ⟨herr'.trans herr, hcode⟩
  · exact Prod.mk.inj <| step_keeps_errorStatus h fun w b rest done hp hrun =>
      have ⟨i, hi, hwf, hclr, hreset⟩ := hhead w b rest hp
      exec_keeps_errorStatus (s := beginCommand rest s) hwf hclr hreset ((runWord_of_ok hi _).symm.trans hrun)

/-! ## Refusals for the filter control (R53, R367) -/

/-- The three conditions of R53. -/
theorem FilterControl_wf_iff (fc : FilterControl) : fc.wf = true ↔
    fc.startBin.toNat ≤ fc.stopBin.toNat ∧ fc.noiseSmoothing.toNat ≤ 15 ∧ fc.spectrumSmoothing.toNat ≤ 15 := by
  simp only [FilterControl.wf, Bool.and_eq_true, decide_eq_true_eq, and_assoc]

section
variable {s : State}

/-- FRAME_PUSH that fills the frame is refused while FC_ACTIVE is not well-formed (R252, R264). -/
theorem framePush_refused {z : Sample} (h : s.fft.frameFill + 1 = s.par.half) (hwf : s.fcActive.wf = false) :
    framePush z s = .error .fcPrecondition := by
  have hframe : fftFrame (s.setFft { framePut z s.fft with frameFill := 0 }) = .error .fcPrecondition :=
    if_neg (ne_true_of_eq_false hwf)
  rw [framePush_eq, if_pos h, hframe]
  rfl

/-- Samples that leave the frame short are collected, whatever FC_ACTIVE is (R264). -/
theorem pushRun_collects {zs : List Sample} (h : s.fft.frameFill + zs.length < s.par.half) :
    ∃ t, pushRun zs s = .ok t := by
  induction zs generalizing s with
  | nil => exact ⟨s, rfl⟩
  | cons z zs ih =>
    rw [List.length_cons] at h
    have hshort : s.fft.frameFill + 1 ≠ s.par.half := by omega
    rw [pushRun, framePush_of_ne hshort]
    refine ih (s := s.setFft (framePut z s.fft)) ?_
    show s.fft.frameFill + 1 + zs.length < s.par.half
    omega

/-- Samples that complete a frame are refused while FC_ACTIVE is not well-formed (R252, R264, R367). -/
theorem pushRun_refused {zs : List Sample} (hwf : s.fcActive.wf = false) (hfill : s.fft.frameFill < s.par.half)
    (h : s.par.half ≤ s.fft.frameFill + zs.length) : pushRun zs s = .error .fcPrecondition := by
  induction zs generalizing s with
  | nil => exact absurd hfill (Nat.not_lt.2 h)
  | cons z zs ih =>
    rw [List.length_cons] at h
    by_cases hlast : s.fft.frameFill + 1 = s.par.half
    · rw [pushRun, framePush_refused hlast hwf]
    · rw [pushRun, framePush_of_ne hlast]
      refine ih (s := s.setFft (framePut z s.fft)) hwf ?_ ?_
      · show s.fft.frameFill + 1 < s.par.half
        omega
      · show s.par.half ≤ s.fft.frameFill + 1 + zs.length
        omega

/-- Pushed samples are refused for the filter control only (R367). -/
theorem pushRun_error {zs : List Sample} {r : Refusal} (h : pushRun zs s = .error r) : r = .fcPrecondition := by
  induction zs generalizing s with
  | nil => cases h
  | cons z zs ih =>
    rw [pushRun] at h
    cases hp : framePush z s with
    | ok ot => rw [hp] at h; exact ih h
    | error e =>
      rw [hp] at h
      cases h
      obtain ⟨_, _, hreason⟩ := framePush_error hp
      exact hreason

end

/-- A block, refused or not, is the chain on some n raw codes: those that its input reads find as far as it runs (R113,
R339). -/
theorem blockLoop_eq_feedCodes_of_length (sel : InSel) (n a now : Nat) (s : State) :
    ∃ rs : List Nat, rs.length = n ∧ blockLoop sel n a now s = feedCodes rs s := by
  induction n generalizing a now s with
  | zero => exact ⟨[], rfl, rfl⟩
  | succ n ih =>
    let r := rawCode s.par (readInput sel a now s)
    have hfirst : blockTick sel a now s = feedCode r s := blockTick_eq_feedCode sel a now s
    cases hb : blockTick sel a now s with
    | ok s1 =>
      obtain ⟨rs, hlen, hrest⟩ := ih (a + 1) (now + (tickWrites sel a now s s1).length) s1
      refine ⟨r :: rs, congrArg (· + 1) hlen, ?_⟩
      rw [feedCodes, ← hfirst, hb, blockLoop, hb]
      exact hrest
    | error e =>
      refine ⟨r :: List.replicate n 0, congrArg (· + 1) List.length_replicate, ?_⟩
      rw [feedCodes, ← hfirst, hb, blockLoop, hb]
      rfl

section
variable {sel : InSel} {n : Half} {s : State}

/-- A refused block is refused for the filter control only (R367). -/
theorem blockLoop_refusal {m a now : Nat} {r : Refusal} (h : blockLoop sel m a now s = .error r) :
    r = .fcPrecondition := by
  obtain ⟨rs, _, hfeed⟩ := blockLoop_eq_feedCodes_of_length sel m a now s
  rw [hfeed, feedCodes_eq_pushRun] at h
  exact pushRun_error h

/-- A block, refused or not, pushes stage 2's outputs into the frame, and how many there are does not depend on the words
(R199, R339, R340). -/
theorem blockLoop_eq_pushRun (now : Nat) (hpar : s.par.wf = true) (hcnt : s.cic.decCnt.toNat < s.par.cicR)
    (hhb1 : HalfBandInv 32 s.hb1) (hhb2 : HalfBandInv 64 s.hb2) :
    ∃ (zs : List Sample) (u : Front),
      zs.length = hbEmissions 64 s.hb2 (hbEmissions 32 s.hb1 ((s.cic.decCnt.toNat + n.toNat) / s.par.cicR)) ∧
      blockLoop sel n.toNat 0 now (blockStart s) = pushRun zs ((blockStart s).setFront u) := by
  obtain ⟨_, _, _, hR16⟩ := Params_wf_cic hpar
  obtain ⟨rs, hlen, hfeed⟩ := blockLoop_eq_feedCodes_of_length sel n.toNat 0 now (blockStart s)
  obtain ⟨hout, _⟩ := frontRun_counts (step := (blockStart s).fcActive.phaseStep) (rs := rs) (u := (blockStart s).front)
    hR16 hcnt hhb1 hhb2
  rw [hlen] at hout
  exact ⟨_, _, hout, hfeed.trans (feedCodes_eq_pushRun rs (blockStart s))⟩

/-- A block of legal length whose loop is refused is refused (R339). -/
theorem exec_processBlock_of_refused {r : Refusal} (heven : n.toNat % 2 = 0) (hle : n.toNat ≤ s.par.inBufSize)
    (h : blockLoop sel n.toNat 0 (blockStartWrites s).length (blockStart s) = .error r) :
    exec (.processBlock sel n) s = .refused r := by
  have hrange : blockLengthInRange s.par n = true := (blockLengthInRange_iff _ _).2 ⟨heven, hle⟩
  have hloop : blockLoop sel (uimm n) 0 (blockStartWrites s).length (blockStart s) = .error r := h
  simp only [exec, execProcessBlock, hrange, hloop, if_true]

/-- NR_BIN in range is refused while the filter control is ill-formed (R230, R367). -/
theorem exec_nrBin_refused {side : Side} {b : Half} (hready : ¬FilterReady s) (hb : b.toNat < s.par.fftN / 2) :
    exec (.nrBin side b) s = .refused .fcPrecondition :=
  (if_pos ((nrBinInRange_iff s.par b).2 hb)).trans (if_neg hready)

/-- FFT_PUSH is refused as its FRAME_PUSH is (R265). -/
theorem exec_fftPush_of_refused {r : Refusal} (h : framePush (dSample (applyPoint s)) (applyPoint s) = .error r) :
    exec .fftPush s = .refused r := by
  simp only [exec, execFftPush, h]

/-- Only the commands that can run a frame or a noise-reduction update are ever refused, and only for the filter control
(R360, R367). -/
theorem exec_refused_cases {i : Instr} {r : Refusal} (h : exec i s = .refused r) : r = .fcPrecondition ∧
    (i = .fftPush ∨ (∃ side b, i = .nrBin side b) ∨ ∃ sel n, i = .processBlock sel n) := by
  cases i with
  | fftPush =>
    refine ⟨?_, .inl rfl⟩
    simp only [exec, execFftPush] at h
    split at h
    · cases h
    · next e hpush =>
      cases h
      obtain ⟨_, _, hreason⟩ := framePush_error hpush
      exact hreason
  | nrBin side b =>
    refine ⟨?_, .inr (.inl ⟨side, b, rfl⟩)⟩
    simp only [exec, execNrBin] at h
    split at h
    · split at h <;> cases h
      rfl
    · cases h
  | processBlock sel n =>
    refine ⟨?_, .inr (.inr ⟨sel, n, rfl⟩)⟩
    simp only [exec, execProcessBlock] at h
    split at h
    · split at h
      · cases h
      · next e hloop => cases h; exact blockLoop_refusal hloop
    · cases h
  | cfgWrite f v => simp only [exec, execCfgWrite] at h; split at h <;> cases h
  | cicStep r => simp only [exec, execCicStep] at h; split at h <;> cases h
  | sqEnable l => simp only [exec, execSqEnable] at h; split at h <;> cases h
  | nop | softReset | seti _ | setq _ | cfgPublish | clrErr | hb1Step | hb2Step | droop _ | sqInit _ | sqDisable
  | sqCalibrate _ | sqSetTimeout _ | sqUpdate _ => cases h

/-- A command is refused only with its operands in range and the filter control ill-formed (R136, R367). -/
theorem exec_refused_only {i : Instr} {r : Refusal} (h : exec i s = .refused r) :
    ¬FilterReady s ∧ i.wf s.par = true := by
  refine ⟨fun hready => ?_, ?_⟩
  · obtain ⟨t, ht⟩ := exec_completes hready i
    cases ht.symm.trans h
  · cases hwf : i.wf s.par with
    | true => rfl
    | false => cases (exec_of_not_wf hwf).symm.trans h

end

/-- Settles O9: a block pushes into the frame as many samples as its unit counts say, and pushed samples are refused just
when they complete a frame under an ill-formed filter control. -/
theorem refusedForFilterControlOnly : Obligations.RefusedForFilterControlOnly := by
  intro i s
  refine ⟨FilterControl_wf_iff (applyPoint s).fcActive, fun hready _ _ hb => exec_nrBin_refused hready hb,
    fun hready hfull => exec_fftPush_of_refused (framePush_refused hfull (Bool.eq_false_iff.2 hready)),
    fun hready hpar hcnt hhb1 hhb2 hfill sel n heven hle => ?_, nofun, fun r hr => ?_⟩
  · intro c filled
    obtain ⟨zs, u, hlen, hloop⟩ :=
      blockLoop_eq_pushRun (sel := sel) (n := n) (blockStartWrites s).length hpar hcnt hhb1 hhb2
    have hfilled : filled = s.fft.frameFill + zs.length := congrArg (s.fft.frameFill + ·) hlen.symm
    rw [hfilled]
    refine ⟨fun hfull => exec_processBlock_of_refused heven hle (hloop.trans ?_), fun hshort => ?_⟩
    · exact pushRun_refused (s := (blockStart s).setFront u) (Bool.eq_false_iff.2 hready) hfill hfull
    · obtain ⟨t, ht⟩ := pushRun_collects (s := (blockStart s).setFront u) hshort
      exact ⟨t, execProcessBlock_of_legal heven hle (hloop.trans ht)⟩
  · obtain ⟨hreason, hcommand⟩ := exec_refused_cases hr
    obtain ⟨hready, hwf⟩ := exec_refused_only hr
    exact ⟨hreason, hready, hwf, hcommand⟩

end Sys2Proof.Machine
end

section
/-! PROOFS of the family 70_reset_and_hazards: the state after power-on meets the invariant (R77, R390, R391). -/

namespace Sys2Proof.Machine

/-- After power-on every unit is in its ranges, whatever legal parameters the block has (R391). -/
theorem powerOn_units {p : Params} (hp : p.wf = true) : UnitsInv (State.powerOn p) where
  par := hp
  cic := (reset_units hp).2
  hb1 := hbreset_inv _ (by decide)
  hb2 := hbreset_inv _ (by decide)
  fft := (reset_units hp).1
  err := ⟨fun _ => rfl, fun _ => rfl⟩
  out := Nat.zero_le _
  sq := nofun
  mem := rfl

theorem powerOn_inv {p : Params} (hp : p.wf = true) : Inv (State.powerOn p) :=
  (Inv_iff _).2 ⟨powerOn_units hp, rfl, rfl⟩

/-- The REF profile meets the constraints of R9-R13 and R20 (entries 2 and 3). -/
theorem ref_wf : Config.ref.wf = true := by decide +kernel

/-- Settles O22: the reset state is the state after power-on with the REF profile, which is legal. -/
theorem resetSatisfiesInvariant : Obligations.ResetSatisfiesInvariant := powerOn_inv ref_wf

end Sys2Proof.Machine
end
